-- ==== Sys2Proof/Word.lean ====
section
/-! DEFINITION. The word types of the N4, the numbers of its ports, volumes, pages and frames, and the two plain operations on fixed tables (build a table, replace one item) that every record of fixed length is updated with. -/

namespace Sys2Proof

/-- One byte, as it travels on a serial port and as a frame holds it (R1, R162). -/
abbrev Byte := BitVec 8

/-- A two-byte value: an offset, a lease, a quota argument, a page check (R23, R172). -/
abbrev Half := BitVec 16

/-- A four-byte value that wraps: a generation, a root sequence, a root or image check (R16, R102). -/
abbrev Word := BitVec 32

/-- Port number, P0 to P3. -/
abbrev Port := Fin 4

/-- Window number within a port, 0 to 3 (R54). -/
abbrev WindowNo := Fin 4

/-- Volume number, 0 to 15 (R12). -/
abbrev VolumeNo := Fin 16

/-- Page index within a volume, 0 to 63 (R21). -/
abbrev PageNo := Fin 64

/-- Frame number, 0 to 2047 (R1). -/
abbrev FrameNo := Fin 2048

/-- Map slot of a volume, 0 or 1 (R1, R18). -/
abbrev MapSlot := Fin 2

/-- The table of length `n` whose item `i` is `f i`. -/
def tab {α : Type} {n : Nat} (f : Fin n → α) : Vector α n := ⟨⟨List.ofFn f⟩, by simp⟩

/-- The table `v` with item `i` replaced by `x`. -/
def upd {α : Type} {n : Nat} (v : Vector α n) (i : Fin n) (x : α) : Vector α n := v.set i x

/-- All numbers below `n`, ascending: port order, volume order and page order (the manual's "Orders"). -/
def ascending (n : Nat) : List (Fin n) := List.ofFn id

/-- Item `k` of a built table. -/
@[simp] theorem tab_getElem {α : Type} {n : Nat} (f : Fin n → α) (k : Nat) (h : k < n) :
    (tab f)[k] = f ⟨k, h⟩ := by
  simp [tab]

theorem tab_get {α : Type} {n : Nat} (f : Fin n → α) (i : Fin n) : (tab f)[i] = f i := by
  simp

/-- Item `k` of a table with item `i` replaced. -/
theorem upd_getElem {α : Type} {n : Nat} (v : Vector α n) (i : Fin n) (x : α) (k : Nat)
    (h : k < n) : (upd v i x)[k] = if i.val = k then x else v[k] := by
  simp [upd, Vector.getElem_set]

theorem upd_get {α : Type} {n : Nat} (v : Vector α n) (i j : Fin n) (x : α) :
    (upd v i x)[j] = if i = j then x else v[j] := by
  simp [upd_getElem, Fin.ext_iff]

@[simp] theorem upd_getElem_self {α : Type} {n : Nat} (v : Vector α n) (i : Fin n) (x : α) :
    (upd v i x)[i.val] = x := by
  simp [upd_getElem]

/-- Item `i` of a table with item `i` replaced, under its `Fin` number. -/
theorem upd_get_self {α : Type} {n : Nat} (v : Vector α n) (i : Fin n) (x : α) :
    (upd v i x)[i] = x := by
  simp [upd_getElem]

theorem upd_get_ne {α : Type} {n : Nat} (v : Vector α n) (i j : Fin n) (x : α) (h : i ≠ j) :
    (upd v i x)[j] = v[j] := by
  rw [upd_get, if_neg h]

/-- Replacing the same item twice keeps the later value. -/
@[simp] theorem upd_upd_self {α : Type} {n : Nat} (v : Vector α n) (i : Fin n) (x y : α) :
    upd (upd v i x) i y = upd v i y := by
  simp [upd]

/-- Two tables with the same items are the same table. -/
theorem table_ext {α : Type} {n : Nat} {u v : Vector α n} (h : ∀ i : Fin n, u[i] = v[i]) : u = v :=
  Vector.ext fun i hi => h ⟨i, hi⟩

end Sys2Proof
end

