-- ==== Sys2Proof/Syntax.lean ====
section
/-! DEFINITION. The happenings of the N4: `Instr` has one constructor for each row of spec/opcode_table.json, in the table's order. A happening of a serial port carries the port; a command's own row carries the argument values whose last byte completes at that happening (R167); the part's own happenings (a program ending, a recall step) carry nothing, because the machine's state says what they are about. -/

namespace Sys2Proof

/-- The commands of the command table (R171), in the table's order. -/
inductive Command where
  | begin | touch | commit | abort | release
  | bind | unbind | read | write | punch
  | format | create | delete | resize | freeze | lock | thaw | setRights | pin | unpin
  | configPort | configDevice
  | getResult | setAttn | infoVolume | infoPage | infoDevice
  deriving DecidableEq, Repr

/-- A happening that the queue of waiting happenings can hold: one constructor per row of the table. -/
inductive Instr where
  /-- BEGIN taken at port `p` (R28). -/
  | begin (p : Port) (lease : Half) (flag : Byte)
  /-- TOUCH taken (R30). -/
  | touch (p : Port)
  /-- COMMIT taken (R34). -/
  | commit (p : Port)
  /-- ABORT taken (R39). -/
  | abort (p : Port)
  /-- RELEASE taken (R41). -/
  | release (p : Port)
  /-- BIND taken (R56). -/
  | bind (p : Port) (window volume first count mode : Byte)
  /-- UNBIND taken (R58). -/
  | unbind (p : Port) (window : Byte)
  /-- READ taken (R62). -/
  | read (p : Port) (window : Byte) (offset : Half)
  /-- WRITE taken (R66). -/
  | write (p : Port) (window : Byte) (offset : Half)
  /-- PUNCH taken (R70). -/
  | punch (p : Port) (window index : Byte)
  /-- FORMAT taken (R131). -/
  | format (p : Port)
  /-- CREATE taken (R133). -/
  | create (p : Port) (volume size rights pinned : Byte)
  /-- DELETE taken (R135). -/
  | delete (p : Port) (volume : Byte)
  /-- RESIZE taken (R137). -/
  | resize (p : Port) (volume size : Byte)
  /-- FREEZE taken (R138). -/
  | freeze (p : Port) (volume : Byte)
  /-- LOCK taken (R139). -/
  | lock (p : Port) (volume : Byte)
  /-- THAW taken (R140). -/
  | thaw (p : Port) (volume : Byte)
  /-- SET_RIGHTS taken (R142). -/
  | setRights (p : Port) (volume portRight : Byte)
  /-- PIN taken (R143). -/
  | pin (p : Port) (volume : Byte)
  /-- UNPIN taken (R143). -/
  | unpin (p : Port) (volume : Byte)
  /-- CONFIG_PORT taken (R144). -/
  | configPort (p : Port) (target : Byte) (quota : Half) (bit : Byte)
  /-- CONFIG_DEVICE taken (R146). -/
  | configDevice (p : Port) (budget : Byte)
  /-- GET_RESULT taken (R182). -/
  | getResult (p : Port)
  /-- SET_ATTN taken (R181). -/
  | setAttn (p : Port) (mask : Byte)
  /-- INFO_VOLUME taken (R183). -/
  | infoVolume (p : Port) (volume : Byte)
  /-- INFO_PAGE taken (R184). -/
  | infoPage (p : Port) (volume page : Byte)
  /-- INFO_DEVICE taken (R185). -/
  | infoDevice (p : Port)
  /-- A complete command byte that the command table does not list (R166). -/
  | unknownCommand (p : Port) (value : Byte)
  /-- A complete argument byte that is not the last (R167). -/
  | argumentByte (p : Port) (value : Byte)
  /-- The fall of the select line, with the clock line high or low (R162, R163). -/
  | selectFall (p : Port) (clockHigh : Bool)
  /-- The rise of the select line (R169). -/
  | selectRise (p : Port)
  /-- A byte position of a data phase ends, and the next byte to shift out is taken (R63, R168). -/
  | readDataByte (p : Port)
  /-- A data byte shifted in is complete (R67). -/
  | writeDataByte (p : Port) (value : Byte)
  /-- A 1 ms tick of the internal timebase (R29). -/
  | leaseTick
  /-- The lease timer of port `p` reaches zero (R31). -/
  | leaseExpiry (p : Port)
  /-- The engine removes the head request (R78). -/
  | requestRemoval
  /-- The program of a pool frame ends in pass (R83). -/
  | pageStepPass
  /-- The program of a pool frame ends in fail (R86). -/
  | pageStepFail
  /-- The program of a map slot ends in pass (R84). -/
  | mapStepPass
  /-- The program of a map slot or root slot ends in fail (R89). -/
  | systemAreaProgramFail
  /-- The program of a root slot ends in pass (R92). -/
  | rootStepPass
  /-- The engine considers the next durable-on-loss candidate (R157). -/
  | durableOnLossCandidate
  /-- PFAIL is asserted (R151). -/
  | pfailAsserted
  /-- PFAIL is deasserted (R159). -/
  | pfailDeasserted
  /-- RESET_N is asserted (R149). -/
  | resetNAsserted
  /-- RESET_N is released (R149). -/
  | resetNReleased
  /-- Power-up (R147). -/
  | powerUp
  /-- Loss of supply (R148). -/
  | lossOfSupply
  /-- The LOCKIN line takes the level `asserted` (R126). -/
  | lockinChange (asserted : Bool)
  /-- The first recall step (R110, R111). -/
  | recallRootSlots
  /-- The recall step that rebuilds the volume table (R112). -/
  | recallVolumeTable
  /-- The recall step that checks page content (R113). -/
  | recallPageChecks
  /-- The recall steps that end the recall (R114, R115, R116). -/
  | recallEnd
  /-- A complete command byte of a known command that takes arguments (R166). -/
  | commandByteComplete (p : Port) (value : Byte)
  deriving DecidableEq, Repr

end Sys2Proof
end

