-- ==== Sys2Proof/Decode.lean ====
section
/-! DEFINITION. The command table of the serial ports (R171): the code and the argument count of each command, the decoder of a command byte, and the two directions between a command's row with its operands and the bytes of its frame. No row of spec/opcode_table.json gives bits, so `decodeTableWord` answers none. -/

namespace Sys2Proof

/-- The command byte of each command (R171). -/
def Command.code : Command → Byte
  | .begin => 0x11#8 | .touch => 0x12#8 | .commit => 0x13#8 | .abort => 0x14#8 | .release => 0x15#8
  | .bind => 0x21#8 | .unbind => 0x22#8 | .read => 0x24#8 | .write => 0x25#8 | .punch => 0x26#8
  | .format => 0x40#8 | .create => 0x41#8 | .delete => 0x42#8 | .resize => 0x43#8 | .freeze => 0x44#8
  | .lock => 0x45#8 | .thaw => 0x46#8 | .setRights => 0x47#8 | .pin => 0x48#8 | .unpin => 0x49#8
  | .configPort => 0x4A#8 | .configDevice => 0x4B#8
  | .getResult => 0x60#8 | .setAttn => 0x61#8 | .infoVolume => 0x62#8 | .infoPage => 0x63#8
  | .infoDevice => 0x64#8

/-- How many argument bytes each command takes (R171). -/
def Command.argCount : Command → Nat
  | .touch | .commit | .abort | .release | .format | .getResult | .infoDevice => 0
  | .unbind | .delete | .freeze | .lock | .thaw | .pin | .unpin | .configDevice | .setAttn
  | .infoVolume => 1
  | .punch | .resize | .setRights | .infoPage => 2
  | .begin | .read | .write => 3
  | .create | .configPort => 4
  | .bind => 5

/-- Every command of the table (R171). -/
def Command.all : List Command :=
  [.begin, .touch, .commit, .abort, .release, .bind, .unbind, .read, .write, .punch,
   .format, .create, .delete, .resize, .freeze, .lock, .thaw, .setRights, .pin, .unpin,
   .configPort, .configDevice, .getResult, .setAttn, .infoVolume, .infoPage, .infoDevice]

/-- The command a command byte names, if the table lists the byte (R166, R171). -/
def decodeCommand (value : Byte) : Option Command :=
  Command.all.find? fun c => c.code == value

/-- The two bytes of a two-byte value, most significant first (R171). -/
def halfBytes (h : Half) : List Byte := [h.extractLsb' 8 8, h.extractLsb' 0 8]

/-- The two-byte value whose bytes, most significant first, are `hi` and `lo` (R171). -/
def halfOf (hi lo : Byte) : Half := hi ++ lo

/-- What a command's row stands for on the link: the port, the command and its argument bytes in the
order of the command table (R171). None for the rows that are no command. -/
def commandOf : Instr → Option (Port × Command × List Byte)
  | .begin p lease flag => some (p, .begin, halfBytes lease ++ [flag])
  | .touch p => some (p, .touch, [])
  | .commit p => some (p, .commit, [])
  | .abort p => some (p, .abort, [])
  | .release p => some (p, .release, [])
  | .bind p w v f n m => some (p, .bind, [w, v, f, n, m])
  | .unbind p w => some (p, .unbind, [w])
  | .read p w x => some (p, .read, w :: halfBytes x)
  | .write p w x => some (p, .write, w :: halfBytes x)
  | .punch p w i => some (p, .punch, [w, i])
  | .format p => some (p, .format, [])
  | .create p v n r k => some (p, .create, [v, n, r, k])
  | .delete p v => some (p, .delete, [v])
  | .resize p v n => some (p, .resize, [v, n])
  | .freeze p v => some (p, .freeze, [v])
  | .lock p v => some (p, .lock, [v])
  | .thaw p v => some (p, .thaw, [v])
  | .setRights p v r => some (p, .setRights, [v, r])
  | .pin p v => some (p, .pin, [v])
  | .unpin p v => some (p, .unpin, [v])
  | .configPort p t q k => some (p, .configPort, t :: halfBytes q ++ [k])
  | .configDevice p n => some (p, .configDevice, [n])
  | .getResult p => some (p, .getResult, [])
  | .setAttn p m => some (p, .setAttn, [m])
  | .infoVolume p v => some (p, .infoVolume, [v])
  | .infoPage p v g => some (p, .infoPage, [v, g])
  | .infoDevice p => some (p, .infoDevice, [])
  | .unknownCommand _ _ | .argumentByte _ _ | .selectFall _ _ | .selectRise _ | .readDataByte _
  | .writeDataByte _ _ | .leaseTick | .leaseExpiry _ | .requestRemoval | .pageStepPass
  | .pageStepFail | .mapStepPass | .systemAreaProgramFail | .rootStepPass
  | .durableOnLossCandidate | .pfailAsserted | .pfailDeasserted | .resetNAsserted
  | .resetNReleased | .powerUp | .lossOfSupply | .lockinChange _ | .recallRootSlots
  | .recallVolumeTable | .recallPageChecks | .recallEnd | .commandByteComplete _ _ => none

/-- The bytes of the frame of a command, its command byte first (R166, R167). -/
def encodeFrame (i : Instr) : Option (Port × List Byte) :=
  (commandOf i).map fun x => (x.1, x.2.1.code :: x.2.2)

/-- A row made from no argument bytes. -/
def row0 (f : Instr) : List Byte → Option Instr
  | [] => some f
  | _ => none

/-- A row made from one argument byte. -/
def row1 (f : Byte → Instr) : List Byte → Option Instr
  | [a] => some (f a)
  | _ => none

/-- A row made from two argument bytes. -/
def row2 (f : Byte → Byte → Instr) : List Byte → Option Instr
  | [a, b] => some (f a b)
  | _ => none

/-- A row made from three argument bytes. -/
def row3 (f : Byte → Byte → Byte → Instr) : List Byte → Option Instr
  | [a, b, c] => some (f a b c)
  | _ => none

/-- A row made from four argument bytes. -/
def row4 (f : Byte → Byte → Byte → Byte → Instr) : List Byte → Option Instr
  | [a, b, c, d] => some (f a b c d)
  | _ => none

/-- A row made from five argument bytes. -/
def row5 (f : Byte → Byte → Byte → Byte → Byte → Instr) : List Byte → Option Instr
  | [a, b, c, d, e] => some (f a b c d e)
  | _ => none

/-- The row of a command at port `p` with the argument bytes given, where they are as many as the command
table gives it (R167, R171). -/
def rowOf (p : Port) (c : Command) : List Byte → Option Instr :=
  match c with
  | .begin => row3 fun h l flag => .begin p (halfOf h l) flag
  | .touch => row0 (.touch p)
  | .commit => row0 (.commit p)
  | .abort => row0 (.abort p)
  | .release => row0 (.release p)
  | .bind => row5 fun w v f n m => .bind p w v f n m
  | .unbind => row1 fun w => .unbind p w
  | .read => row3 fun w h l => .read p w (halfOf h l)
  | .write => row3 fun w h l => .write p w (halfOf h l)
  | .punch => row2 fun w i => .punch p w i
  | .format => row0 (.format p)
  | .create => row4 fun v n r k => .create p v n r k
  | .delete => row1 fun v => .delete p v
  | .resize => row2 fun v n => .resize p v n
  | .freeze => row1 fun v => .freeze p v
  | .lock => row1 fun v => .lock p v
  | .thaw => row1 fun v => .thaw p v
  | .setRights => row2 fun v r => .setRights p v r
  | .pin => row1 fun v => .pin p v
  | .unpin => row1 fun v => .unpin p v
  | .configPort => row4 fun t h l k => .configPort p t (halfOf h l) k
  | .configDevice => row1 fun n => .configDevice p n
  | .getResult => row0 (.getResult p)
  | .setAttn => row1 fun m => .setAttn p m
  | .infoVolume => row1 fun v => .infoVolume p v
  | .infoPage => row2 fun v g => .infoPage p v g
  | .infoDevice => row0 (.infoDevice p)

/-- The command's row that the bytes of a frame at port `p` amount to, where they are a known command
byte followed by exactly the number of argument bytes the table gives it (R166, R167, R171). -/
def decodeFrame (p : Port) (bytes : List Byte) : Option Instr :=
  match bytes with
  | [] => none
  | c :: args =>
    match decodeCommand c with
    | some c => rowOf p c args
    | none => none

/-- The command a word of `nbits` bits spells by the table's bits: no row of the table gives bits. -/
def decodeTableWord (_nbits _w : Nat) : Option Instr := none

end Sys2Proof
end

