-- ==== Sys2Proof/Config.lean ====
section
/-! DEFINITION. What the part fixes once (sizes and limits) and the free values: what the cells of a frame hold after a program that failed or was cut short. A free value has no body, so nothing can be proved of it. -/

namespace Sys2Proof.Config

/-- FREE VALUE (log entry 3). Byte `i` of the cells of a frame after the `n`-th program that failed or
was cut short: "some content that may differ from both the old and the new bytes" (R2). -/
opaque tornByte : Nat → Nat → Byte

/-- FREE VALUE (log entry 4). Which of the four marker cells of a root slot the `n`-th cut-short root
program has erased: the value plus one, read as a set of four bits, so that at least one is erased (R104). -/
opaque tornMarker : Nat → Fin 15

/-- The size of the working array in bytes (R1). -/
def arrayBytes : Nat := 524288

/-- Bytes in a frame and in a page (R1). -/
def frameBytes : Nat := 256

/-- The first pool frame; the frames below it are the system area (R1). -/
def firstPoolFrame : Nat := 34

/-- Frames in the pool (R1). -/
def poolFrames : Nat := 2014

/-- The relocation reserve: claim allocation needs more free frames than this (R11). -/
def relocationReserve : Nat := 8

/-- Entries the retired table can hold (R8). -/
def retiredCapacity : Nat := 24

/-- How often one page step may be relocated (R86). -/
def maxRelocations : Nat := 2

/-- The quota FORMAT gives every port (R97). -/
def formatQuota : Nat := 256

/-- The largest quota (R44). -/
def maxQuota : Nat := 1024

end Sys2Proof.Config
end

