-- ==== Sys2Proof/Machine/State.lean ====
section
/-! DEFINITION. The state of the N4, as plain data: the supply monitor, the input lines, the four port contexts, the map unit, the update engine, the store array with its two memories, the free-value counter and the queue of waiting happenings; and the state right after reset. -/

namespace Sys2Proof.Machine

/-- Why a happening stops the model. There is no reason: the manual gives every happening an effect in
every state that meets it, a happening that a state cannot meet is not taken (log entry 1), and frame
numbers cannot leave the array (R1), so no address is outside it. -/
inductive Fault where
  deriving DecidableEq, Repr

/-- Why a happening has no meaning in the model. -/
inductive Refusal where
  /-- Raised by `exec` alone, for a row whose meaning is not written; safe, because it stops. -/
  | notModelled (mnemonic : String)
  deriving DecidableEq, Repr

/-! ### Volumes and page maps (the map unit) -/

/-- A port's right on a volume (R15). -/
inductive Right where
  | noAccess | read | write
  deriving DecidableEq, Repr

/-- Mode of a window, and kind of a burst (R54, R61). -/
inductive Mode where
  | read | write
  deriving DecidableEq, Repr

/-- The states a durable volume record of a present volume can hold (R102). -/
inductive Settled where
  | opened | frozen | lockedFrozen
  deriving DecidableEq, Repr

/-- The state a CHANGING volume had at acceptance (R19). DAMAGED carries the recorded state (R12). -/
inductive ReturnState where
  | opened | frozen | damaged (recorded : Settled)
  deriving DecidableEq, Repr

/-- The operation pending on a CHANGING volume (R19). -/
inductive Operation where
  | delete | resize (newSize : Nat) | freeze | lock
  deriving DecidableEq, Repr

/-- State of a present volume (R12, R13). The pending operation exists in CHANGING only and the
recorded state in DAMAGED only, so each stands with its state. -/
inductive Status where
  | opened
  | frozen
  | lockedFrozen
  | changing (operation : Operation) (returnState : ReturnState)
  | damaged (recorded : Settled)
  deriving DecidableEq, Repr

/-- The committed part of a page map entry that holds a frame (R21). -/
structure Committed where
  frame : FrameNo
  check : Half
  poisoned : Bool
  deriving DecidableEq, Repr

/-- The kind of a claim; a DATA claim names its shadow frame (R42). -/
inductive ClaimKind where
  | data (shadow : FrameNo)
  | hole
  deriving DecidableEq, Repr

/-- A port's private pending change to one page (R21, R42). -/
structure Claim where
  port : Port
  kind : ClaimKind
  deriving DecidableEq, Repr

/-- A working page map entry (R21). No committed part means a hole. -/
structure Entry where
  committed : Option Committed
  claim : Option Claim
  deriving DecidableEq, Repr

/-- A hole with no claim. -/
def Entry.hole : Entry := ⟨none, none⟩

/-- The working record of a present volume, with its 64 page map entries (R12, R21). -/
structure VolumeRecord where
  status : Status
  size : Nat
  rights : Vector Right 4
  pinned : Bool
  mapPresent : Bool
  slot : MapSlot
  generation : Word
  committedPages : Nat
  entries : Vector Entry 64
  deriving DecidableEq, Repr

/-- One record of the volume table. An ABSENT record holds nothing, a CREATING record holds what its
CREATE request carries (R13). -/
inductive Volume where
  | absent
  | creating (size : Nat) (rights : Vector Right 4) (pinned : Bool)
  | present (record : VolumeRecord)
  deriving DecidableEq, Repr

/-- State of a pool frame (R5). -/
inductive FrameState where
  | free | committed | shadow | retired
  deriving DecidableEq, Repr

/-! ### Records of a port interface -/

/-- State of a transaction (R26). -/
inductive TxnState where
  | noTxn | opened | queued | committing | expired
  deriving DecidableEq, Repr

/-- The transaction record of a port, but for the claim count, which the map unit keeps (R26). -/
structure Txn where
  state : TxnState
  lease : Nat
  timer : Nat
  running : Bool
  durable : Bool
  deriving DecidableEq, Repr

/-- What a window was bound to (R54). -/
structure Binding where
  volume : VolumeNo
  first : PageNo
  count : Nat
  mode : Mode
  deriving DecidableEq, Repr

/-- A window record (R54). UNBOUND has no other field. -/
inductive Window where
  | unbound
  | bound (binding : Binding)
  | stale (binding : Binding)
  deriving DecidableEq, Repr

/-- What a fault record's cause can be (R72). -/
inductive FaultCause where
  | windowStale | windowEnd | pagePoisoned
  deriving DecidableEq, Repr

/-- The access that met a fault (R72). -/
inductive Access where
  | read | write | punch
  deriving DecidableEq, Repr

/-- A full fault record (R72). The page is the number the rule computes: 64 for a stale window that reached
page 63 and whose burst stood at its end (log entry 25). -/
structure FaultRecord where
  cause : FaultCause
  access : Access
  window : WindowNo
  volume : VolumeNo
  page : Option Nat
  offset : Nat
  further : Bool
  deriving DecidableEq, Repr

/-- The burst record of a READ or WRITE frame in its data phase (R61). -/
structure Burst where
  kind : Mode
  window : WindowNo
  cursor : Nat
  stopped : Bool
  endReported : Bool
  poisonReported : Option PageNo
  firstFault : Option FaultCause
  deriving DecidableEq, Repr

/-- The result codes (R188). -/
inductive Code where
  | ok | queued | notReady | unknownCommand | shortFrame | badArgument | notFormatted
  | alreadyFormatted | notAdmin | noRight | guarded | permanent | noVolume | volumeExists
  | volumeChanging | volumeFrozen | volumeDamaged | inUse | windowUnbound | windowStale
  | windowMode | windowEnd | pagePoisoned | noTxn | txnExists | txnBusy | txnExpired | claimed
  | quotaReached | noFrame | requestPending | updateStopped | wearOut | systemAreaFault
  deriving DecidableEq, Repr

/-- The class of a recorded result, as the next status byte shows it (R170). -/
inductive ResultClass where
  | ok | queued | refused | fault | short
  deriving DecidableEq, Repr

/-- The detail of a result (R176). -/
structure Detail where
  port : Option Port
  volume : Option VolumeNo
  page : Option PageNo
  value : Option Half
  deriving DecidableEq, Repr

/-- A frame result: its code, its detail where the code carries one, and how the frame met it (R170). -/
structure Result where
  code : Code
  detail : Option Detail
  cls : ResultClass
  deriving DecidableEq, Repr

/-- The result record of a port; both fields absent is "none since reset" (R175). -/
structure ResultRecord where
  command : Option Byte
  result : Option Result
  deriving DecidableEq, Repr

/-- A root slot (R102). -/
inductive RootSlot where
  | a | b
  deriving DecidableEq, Repr

/-- The step an update failed at, as its report names it (R99). -/
inductive FailedStep where
  | page (volume : VolumeNo) (page : PageNo)
  | mapSlot (volume : VolumeNo) (slot : MapSlot)
  | rootSlot (slot : RootSlot)
  deriving DecidableEq, Repr

/-- The update report of a port (R99); `kind` is the request's kind, named by its command. -/
structure Report where
  kind : Command
  outcome : Code
  volume : Option VolumeNo
  generations : Option (List (VolumeNo × Word))
  sequence : Option Word
  failedStep : Option FailedStep
  deriving DecidableEq, Repr

/-- An attention cause (R178). -/
inductive Cause where
  | update | lease | fault | window | device
  deriving DecidableEq, Repr

/-- A set of attention causes (R178). -/
structure Causes where
  update : Bool
  lease : Bool
  fault : Bool
  window : Bool
  device : Bool
  deriving DecidableEq, Repr

/-- The empty set of causes. -/
def Causes.empty : Causes := ⟨false, false, false, false, false⟩

/-- Where a command frame stands (R161). -/
inductive Phase where
  | noFrame | command | arguments | data | ignoring | notReady
  deriving DecidableEq, Repr

/-- Clock mode 0 or 3 (R162). -/
inductive ClockMode where
  | mode0 | mode3
  deriving DecidableEq, Repr

/-- The frame record of a port (R161), with the byte fixed for shifting out (R162) and the bytes of a
fixed response that still follow it (R168). `clock` is the level of the port's clock within the frame, `sampled`
the last eight bits taken, the oldest in bit 7, and `shown` the output bit that the last rising edge found on the
data-out line, none before the first rising edge (R162, log entry 8). -/
structure FrameRecord where
  phase : Phase
  clockMode : ClockMode
  status : Byte
  bitCount : Fin 8
  command : Option Byte
  arguments : List Byte
  result : Option Result
  output : Byte
  response : List Byte
  clock : Bool
  sampled : Byte
  shown : Option Bool
  deriving DecidableEq, Repr

/-- Everything a port interface holds for its port: the frame record and the port context (R161, R115). -/
structure PortContext where
  frame : FrameRecord
  burst : Option Burst
  windows : Vector Window 4
  txn : Txn
  fault : Option FaultRecord
  result : ResultRecord
  report : Option Report
  mask : Causes
  pending : Causes
  deriving DecidableEq, Repr

/-! ### The update engine -/

/-- A request of the update queue: its kind with the arguments it carries (R74). -/
inductive RequestKind where
  | commit
  | format
  | create (volume : VolumeNo) (size : Nat) (rights : Vector Right 4) (pinned : Bool)
  | delete (volume : VolumeNo)
  | resize (volume : VolumeNo) (newSize : Nat)
  | setRights (volume : VolumeNo) (target : Port) (right : Right)
  | freeze (volume : VolumeNo)
  | lock (volume : VolumeNo)
  | thaw (volume : VolumeNo)
  | pin (volume : VolumeNo)
  | unpin (volume : VolumeNo)
  | configPort (target : Port) (quota : Nat) (member : Bool)
  | configDevice (budget : Nat)
  deriving DecidableEq, Repr

/-- An accepted request (R74). -/
structure Request where
  port : Port
  kind : RequestKind
  deriving DecidableEq, Repr

/-- One step of a plan (R79). -/
inductive PlanStep where
  | page (volume : VolumeNo) (page : PageNo) (target : FrameNo) (relocations : Nat)
      (check : Option Half)
  | map (volume : VolumeNo) (slot : MapSlot) (generation : Word) (retryUsed : Bool)
  | root (slot : RootSlot) (sequence : Word) (retryUsed : Bool)
  deriving DecidableEq, Repr

/-- The plan of the request in flight (R79): its steps and the index of the current one. The program
count is the number of steps. -/
structure Plan where
  steps : List PlanStep
  current : Nat
  deriving DecidableEq, Repr

/-- State of the update engine (R77). -/
inductive EngineState where
  | idle | frames | maps | root | stopped
  deriving DecidableEq, Repr

/-- The device settings a root records (R77, R102): the administration mask, the quotas and the
hold-up budget. -/
structure Settings where
  mask : Vector Bool 4
  quotas : Vector Nat 4
  budget : Nat
  deriving DecidableEq, Repr

/-- The engine record (R77) with the update queue (R74), and the mark an update bears when the
power-fail sequence has judged it to be abandoned (R153). -/
structure Engine where
  state : EngineState
  queue : List Request
  inFlight : Option Request
  plan : Option Plan
  abandon : Bool
  sequence : Option Word
  selected : Option RootSlot
  settings : Option Settings
  retired : List FrameNo
  mediaWorn : Bool
  sysareaFault : Bool
  deriving DecidableEq, Repr

/-! ### The supply monitor -/

/-- The recall step that comes next (R109 to R116). -/
inductive RecallStep where
  | rootSlots | volumeTable | pageChecks | finish
  deriving DecidableEq, Repr

/-- The device state of the supply monitor (R147). The budget in use and the ports taken exist in
POWER_FAIL only, with the ports already considered and skipped (R157). `off` is the part without
supply, between a loss of supply and the next power-up (R148). -/
inductive Device where
  | off
  | recalling (next : RecallStep)
  | unformatted
  | running
  | powerFail (budget : Nat) (taken : Vector Bool 4) (skipped : Vector Bool 4)
  | halted
  deriving DecidableEq, Repr

/-- A memory of the store array: pairs of a byte address and a byte, in canonical form. -/
abbrev Memory := List Host.Cell

/-- The state of the N4. -/
structure State where
  device : Device
  pfail : Bool
  resetN : Bool
  lockin : Bool
  ports : Vector PortContext 4
  claimCount : Vector Nat 4
  volumes : Vector Volume 16
  frameStates : Vector FrameState 2014
  freeList : List FrameNo
  engine : Engine
  array : Memory
  cells : Memory
  program : Option FrameNo
  draws : Nat
  pending : List Instr
  deriving DecidableEq, Repr

/-! ### The state after reset -/

/-- The frame record with no frame in progress (R161). Its output shifts out nowhere: the data-out line is
released (R162, `dataOut`). -/
def FrameRecord.idle : FrameRecord where
  phase := .noFrame
  clockMode := .mode0
  status := 0#8
  bitCount := 0
  command := none
  arguments := []
  result := none
  output := 0xFF#8
  response := []
  clock := false
  sampled := 0#8
  shown := none

/-- The transaction record after recall (R26). -/
def Txn.reset : Txn where
  state := .noTxn
  lease := 0
  timer := 0
  running := false
  durable := false

/-- The port context after recall, around a given frame record, which recall leaves as it is
(R115, R161). -/
def PortContext.recalled (frame : FrameRecord) : PortContext where
  frame := frame
  burst := none
  windows := Vector.replicate 4 .unbound
  txn := .reset
  fault := none
  result := ⟨none, none⟩
  report := none
  mask := .empty
  pending := .empty

/-- The engine record after a recall into UNFORMATTED (R77). -/
def Engine.unformatted : Engine where
  state := .idle
  queue := []
  inFlight := none
  plan := none
  abandon := false
  sequence := none
  selected := none
  settings := none
  retired := []
  mediaWorn := false
  sysareaFault := false

/-- The whole pool in ascending order: the free list of an unformatted part (R9, R111). -/
def wholePool : List FrameNo :=
  (ascending 2048).filter fun f => decide (Config.firstPoolFrame ≤ f.val)

/-- The machine right after power-up with cells never programmed (R147): RECALLING, with the recall at
its first step. Every record that a recall rebuilds holds the value a recall into UNFORMATTED gives it
(R77, R111, R115); the manual gives none before the first recall (log entry 6). -/
def State.reset : State where
  device := .recalling .rootSlots
  pfail := false
  resetN := false
  lockin := false
  ports := Vector.replicate 4 (.recalled .idle)
  claimCount := Vector.replicate 4 0
  volumes := Vector.replicate 16 .absent
  frameStates := Vector.replicate 2014 .free
  freeList := wholePool
  engine := .unformatted
  array := []
  cells := []
  program := none
  draws := 0
  pending := []

end Sys2Proof.Machine
end

