-- ==== Sys2Proof/Machine/Flags.lean ====
section
/-! DEFINITION. Every flag the manual computes: set operations on attention causes, the ATTN line (R173), the data-out line (R162), the status byte (R164), and the predicates on the device, the engine and the queue that the checks of commands read. -/

namespace Sys2Proof.Machine

/-- The byte of a set of causes, encoded as the SET_ATTN mask (R172). -/
def Causes.toByte (c : Causes) : Byte :=
  BitVec.ofNat 8 (c.update.toNat + 2 * c.lease.toNat + 4 * c.fault.toNat + 8 * c.window.toNat +
    16 * c.device.toNat)

/-- The set with one cause added. -/
def Causes.add (c : Causes) : Cause → Causes
  | .update => { c with update := true }
  | .lease => { c with lease := true }
  | .fault => { c with fault := true }
  | .window => { c with window := true }
  | .device => { c with device := true }

/-- Whether two sets share a cause (R178). -/
def Causes.meets (c d : Causes) : Bool :=
  (c.update && d.update) || (c.lease && d.lease) || (c.fault && d.fault) ||
    (c.window && d.window) || (c.device && d.device)

/-- Whether the device is RUNNING or UNFORMATTED: commands are taken (R147). -/
def ready (s : State) : Bool := s.device = .running ∨ s.device = .unformatted

/-- Whether a power-fail sequence is under way. -/
def inPowerFail (s : State) : Bool :=
  match s.device with
  | .powerFail _ _ _ => true
  | _ => false

/-- The level of a port's ATTN line: high while the device is RUNNING or UNFORMATTED and a pending
cause is unmasked (R173, R178). -/
def attnLine (s : State) (p : Port) : Bool :=
  ready s && s.ports[p].pending.meets s.ports[p].mask

/-- What a port's data-out line carries: while the select line is low, the byte fixed for the position in
progress; while it is high, nothing, because the line is released at high impedance (R162). -/
def dataOut (s : State) (p : Port) : Option Byte :=
  if s.ports[p].frame.phase = .noFrame then none else some s.ports[p].frame.output

/-- Whether a request of port `p`, of any kind, is in the queue or in flight (R123, R164). -/
def requestPending (s : State) (p : Port) : Bool :=
  s.engine.queue.any (fun r => r.port = p) || s.engine.inFlight.any (fun r => r.port = p)

/-- Whether a request is an administration request: any but a COMMIT. -/
def Request.isAdmin (r : Request) : Bool := r.kind ≠ .commit

/-- Whether an administration request of port `p` is in the queue or in flight (R34). -/
def adminPending (s : State) (p : Port) : Bool :=
  s.engine.queue.any (fun r => r.port = p && r.isAdmin) ||
    s.engine.inFlight.any (fun r => r.port = p && r.isAdmin)

/-- The transaction field of the status byte (R27, R164). -/
def TxnState.field : TxnState → Nat
  | .noTxn => 0
  | .opened => 1
  | .queued | .committing => 2
  | .expired => 3

/-- The previous-class field of a class (R164). -/
def ResultClass.field : ResultClass → Nat
  | .ok => 0
  | .queued => 1
  | .refused => 2
  | .fault => 3
  | .short => 4

/-- The previous-class field of a result record: 7 for none since reset (R164, R170). -/
def ResultRecord.field (r : ResultRecord) : Nat :=
  match r.result with
  | some x => x.cls.field
  | none => 7

/-- The status byte: 0x00 as a whole when READY is 0 (R164). -/
def statusByte (s : State) (p : Port) : Byte :=
  if ready s then
    BitVec.ofNat 8 (128 + 64 * (attnLine s p).toNat + 16 * s.ports[p].txn.state.field +
      8 * (requestPending s p).toNat + s.ports[p].result.field)
  else 0x00#8

/-- Whether the engine is STOPPED (R77). -/
def engineStopped (s : State) : Bool := s.engine.state = .stopped

/-- The status of a volume that is present (R13). -/
def Volume.status : Volume → Option Status
  | .present r => some r.status
  | _ => none

/-- Whether a volume is present (R13). -/
def Volume.isPresent : Volume → Bool
  | .present _ => true
  | _ => false

/-- Whether a volume's working pinned flag is yes (R17). -/
def Volume.isPinned : Volume → Bool
  | .present r => r.pinned
  | .creating _ _ k => k
  | .absent => false

/-- Whether a right covers a mode: WRITE includes read (R15, R56). -/
def Right.covers : Right → Mode → Bool
  | .write, _ => true
  | .read, .read => true
  | .read, .write => false
  | .noAccess, _ => false

/-- The administration mask holds port `p` (R122). -/
def isAdminPort (s : State) (p : Port) : Bool :=
  match s.engine.settings with
  | some st => st.mask[p]
  | none => false

/-- The quota of port `p`; no claim is possible without settings (R44, R77). -/
def quotaOf (s : State) (p : Port) : Nat :=
  match s.engine.settings with
  | some st => st.quotas[p]
  | none => 0

end Sys2Proof.Machine
end

