-- ==== Sys2Proof/Machine/Memory.lean ====
section
/-! DEFINITION. The two memories of the store array (R1): reading and writing one byte, reading and replacing a run of bytes, the canonical form, and the addresses of frames. The working array and the twin cells are both memories; they differ in what an unlisted address reads as. -/

namespace Sys2Proof.Machine

/-- What an unlisted byte of the working array reads as: nothing has written it since power-up, and the
manual lets it be any byte (R4, log entry 5). -/
def arrayFill : Byte := 0x00#8

/-- What an unlisted nonvolatile cell reads as: it has never been programmed since manufacture (R3). -/
def cellFill : Byte := 0xFF#8

/-- The byte at address `x`. -/
def Memory.read (fill : Byte) : Memory → Nat → Byte
  | [], _ => fill
  | (a, b) :: rest, x => if a = x then b else Memory.read fill rest x

/-- `m` with the byte `b` stored at address `x`, in canonical form. -/
def Memory.store (fill : Byte) : Memory → Nat → Byte → Memory
  | [], x, b => if b = fill then [] else [(x, b)]
  | (a, c) :: rest, x, b =>
    if x < a then
      if b = fill then (a, c) :: rest else (x, b) :: (a, c) :: rest
    else if x = a then
      if b = fill then rest else (x, b) :: rest
    else (a, c) :: Memory.store fill rest x b

/-- The pairs of a run of bytes from address `base` on, but for those equal to `fill`. -/
def Memory.run (fill : Byte) : Nat → List Byte → Memory
  | _, [] => []
  | base, b :: rest =>
    if b = fill then Memory.run fill (base + 1) rest
    else (base, b) :: Memory.run fill (base + 1) rest

/-- `m` with the bytes from address `base` on replaced by `bytes`. -/
def Memory.storeRun (fill : Byte) (m : Memory) (base : Nat) (bytes : List Byte) : Memory :=
  m.filter (fun c => c.1 < base) ++ Memory.run fill base bytes ++
    m.filter (fun c => base + bytes.length ≤ c.1)

/-- The `n` bytes from address `base` on. -/
def Memory.readRun (fill : Byte) (m : Memory) (base n : Nat) : List Byte :=
  (List.range n).map fun i => Memory.read fill m (base + i)

/-- The canonical form: addresses strictly rising and inside the array, and no entry equal to what an
unlisted address reads as. -/
abbrev Memory.wf (fill : Byte) (m : Memory) : Prop :=
  m.Pairwise (fun x y => x.1 < y.1) ∧ ∀ c ∈ m, c.2 ≠ fill ∧ c.1 < Config.arrayBytes

/-! ### Frames -/

/-- The address of byte 0 of a frame (R1). -/
def frameBase (f : FrameNo) : Nat := Config.frameBytes * f.val

/-- The frame a root slot is (R102). -/
def RootSlot.frame : RootSlot → FrameNo
  | .a => 0
  | .b => 1

/-- The other root slot. -/
def RootSlot.other : RootSlot → RootSlot
  | .a => .b
  | .b => .a

/-- The frame of map slot `s` of volume `v`: 2 + 2v + s (R1). -/
def mapFrame (v : VolumeNo) (s : MapSlot) : FrameNo :=
  ⟨2 + 2 * v.val + s.val, by omega⟩

/-- The map slot that is not `s` (R18). -/
def otherSlot (s : MapSlot) : MapSlot := if s = 0 then 1 else 0

/-- Whether a frame is in the pool (R1). -/
def isPool (f : FrameNo) : Bool := Config.firstPoolFrame ≤ f.val

/-- Whether a frame is a root slot (R1). -/
def isRootSlot (f : FrameNo) : Bool := f.val < 2

/-- The 256 bytes of frame `f` in the memory `m`. -/
def frameBytes (fill : Byte) (m : Memory) (f : FrameNo) : List Byte :=
  Memory.readRun fill m (frameBase f) Config.frameBytes

/-- `m` with the 256 bytes of frame `f` replaced. -/
def storeFrame (fill : Byte) (m : Memory) (f : FrameNo) (bytes : List Byte) : Memory :=
  Memory.storeRun fill m (frameBase f) (bytes.take Config.frameBytes)

/-- A frame of zero bytes. -/
def zeroFrame : List Byte := List.replicate Config.frameBytes 0x00#8

/-- The working-array bytes of frame `f`. -/
def arrayFrame (s : State) (f : FrameNo) : List Byte := frameBytes arrayFill s.array f

/-- The cell bytes of frame `f`. -/
def cellFrame (s : State) (f : FrameNo) : List Byte := frameBytes cellFill s.cells f

/-- The working-array byte at offset `off` of frame `f` (R1). -/
def arrayByte (s : State) (f : FrameNo) (off : Nat) : Byte :=
  Memory.read arrayFill s.array (frameBase f + off)

/-- The working array with the bytes of frame `f` written. -/
def writeFrame (s : State) (f : FrameNo) (bytes : List Byte) : State :=
  { s with array := storeFrame arrayFill s.array f bytes }

/-- The working array with one byte of frame `f` written. -/
def writeArrayByte (s : State) (f : FrameNo) (off : Fin 256) (b : Byte) : State :=
  { s with array := Memory.store arrayFill s.array (frameBase f + off.val) b }

/-- Recall of one frame: its 256 cells replace its working-array bytes (R3). -/
def recallFrame (s : State) (f : FrameNo) : State := writeFrame s f (cellFrame s f)

/-- The program of frame `f` ends in pass: its cells hold its working-array bytes (R2). -/
def programPasses (s : State) (f : FrameNo) : State :=
  { s with cells := storeFrame cellFill s.cells f (arrayFrame s f), program := none }

/-- The 256 free bytes of the `n`-th program without a pass (R2). -/
def tornBytes (n : Nat) : List Byte := (List.range Config.frameBytes).map (Config.tornByte n)

/-- What the cells of a frame hold after its program ended in fail: some content; but the marker cells
of a root slot stay erased (R2, R104). -/
def failedBytes (n : Nat) (f : FrameNo) : List Byte :=
  if isRootSlot f then List.replicate 4 cellFill ++ (tornBytes n).drop 4 else tornBytes n

/-- Marker cell `i` of a root slot after a cut-short program: erased when the free choice says so,
otherwise as it was (R104). -/
def tornMarkerByte (n : Nat) (old : Byte) (i : Nat) : Byte :=
  if ((Config.tornMarker n).val + 1).testBit i then cellFill else old

/-- What the cells of a frame hold after its program was cut short: some content; but the marker of a
root slot is erased or partly erased (R2, R104). -/
def cutBytes (n : Nat) (f : FrameNo) (old : List Byte) : List Byte :=
  if isRootSlot f then
    (List.range 4).map (fun i => tornMarkerByte n (old.getD i cellFill) i) ++ (tornBytes n).drop 4
  else tornBytes n

/-- The program of frame `f` ends in fail (R2): only the cells of that frame change. -/
def programFails (s : State) (f : FrameNo) : State :=
  { s with cells := storeFrame cellFill s.cells f (failedBytes s.draws f), program := none,
           draws := s.draws + 1 }

/-- A program in progress is cut short by RESET_N or by loss of supply: it has no outcome (R2). -/
def cutProgram (s : State) : State :=
  match s.program with
  | none => s
  | some f =>
    { s with cells := storeFrame cellFill s.cells f (cutBytes s.draws f (cellFrame s f)),
             program := none, draws := s.draws + 1 }

end Sys2Proof.Machine
end

