-- ==== Sys2Proof/Machine/Operands.lean ====
section
/-! DEFINITION. The argument encodings (R172): each argument byte read as the value it stands for, or none where it is out of its range. -/

namespace Sys2Proof.Machine

/-- A window argument: 0 to 3. -/
def windowArg (b : Byte) : Option WindowNo := if h : b.toNat < 4 then some ⟨b.toNat, h⟩ else none

/-- A volume argument: 0 to 15. -/
def volumeArg (b : Byte) : Option VolumeNo := if h : b.toNat < 16 then some ⟨b.toNat, h⟩ else none

/-- A page argument: 0 to 63. -/
def pageArg (b : Byte) : Option PageNo := if h : b.toNat < 64 then some ⟨b.toNat, h⟩ else none

/-- A page count, size or new size: 1 to 64. -/
def sizeArg (b : Byte) : Option Nat := if 1 ≤ b.toNat ∧ b.toNat ≤ 64 then some b.toNat else none

/-- A mode byte: 0x00 READ, 0x01 WRITE. -/
def modeArg (b : Byte) : Option Mode :=
  if b = 0x00#8 then some .read else if b = 0x01#8 then some .write else none

/-- A flag or bit argument: 0x00 no, 0x01 yes. -/
def flagArg (b : Byte) : Option Bool :=
  if b = 0x00#8 then some false else if b = 0x01#8 then some true else none

/-- A target port: 0 to 3. -/
def portArg (b : Byte) : Option Port := if h : b.toNat < 4 then some ⟨b.toNat, h⟩ else none

/-- A quota: 0 to 1024. -/
def quotaArg (h : Half) : Option Nat := if h.toNat ≤ Config.maxQuota then some h.toNat else none

/-- A right code: 0 NONE, 1 READ, 2 WRITE. -/
def rightOfCode : Nat → Option Right
  | 0 => some .noAccess
  | 1 => some .read
  | 2 => some .write
  | _ => none

/-- The right code of a right. -/
def Right.code : Right → Nat
  | .noAccess => 0
  | .read => 1
  | .write => 2

/-- The two-bit right code of port `p` in a rights set (R172). -/
def rightsCode (b : Byte) (p : Port) : Nat := (b.toNat >>> (2 * p.val)) % 4

/-- A rights set: two bits per port, P0 in bits 1 to 0; code 3 for any port is out of range. -/
def rightsArg (b : Byte) : Option (Vector Right 4) :=
  match rightOfCode (rightsCode b 0), rightOfCode (rightsCode b 1), rightOfCode (rightsCode b 2),
      rightOfCode (rightsCode b 3) with
  | some r0, some r1, some r2, some r3 => some #v[r0, r1, r2, r3]
  | _, _, _, _ => none

/-- The byte of a rights set (R103, R172). -/
def rightsByte (r : Vector Right 4) : Byte :=
  BitVec.ofNat 8 (r[0].code + 4 * r[1].code + 16 * r[2].code + 64 * r[3].code)

/-- A port right: target port in bits 7 to 4, right code in bits 3 to 0. -/
def portRightArg (b : Byte) : Option (Port × Right) :=
  if h : b.toNat / 16 < 4 then
    match rightOfCode (b.toNat % 16) with
    | some r => some (⟨b.toNat / 16, h⟩, r)
    | none => none
  else none

/-- An attention mask: bit 0 UPDATE, 1 LEASE, 2 FAULT, 3 WINDOW, 4 DEVICE; bits 7 to 5 must be 0. -/
def causesArg (b : Byte) : Option Causes :=
  if b.toNat < 32 then
    some ⟨b.getLsbD 0, b.getLsbD 1, b.getLsbD 2, b.getLsbD 3, b.getLsbD 4⟩
  else none

/-- The volume page and the byte within it at a window offset (R54). -/
def Binding.pageAt (w : Binding) (offset : Nat) : PageNo := Fin.ofNat 64 (w.first.val + offset / 256)

/-- The page a WINDOW_STALE fault at an offset of a window names, first page + (cursor div 256): a page number
except at the end of a window that reaches page 63, where it is 64 (R72, log entry 25). -/
def Binding.pageNumber (w : Binding) (offset : Nat) : Nat := w.first.val + offset / 256

/-- The byte within its page at a window offset (R54). -/
def byteInPage (offset : Nat) : Fin 256 := Fin.ofNat 256 offset

/-- The first window offset past the span (R54). -/
def Binding.windowEnd (w : Binding) : Nat := 256 * w.count

end Sys2Proof.Machine
end

