-- ==== Sys2Proof/Machine/Ops.lean ====
section
/-! DEFINITION. The named operations every meaning is written over: updates of one part of the state, raising attention causes, setting a frame result and a response, filling the fault record, taking a command when its last byte completes, bytes that are ignored, and closing the links when the device stops taking commands. -/

namespace Sys2Proof.Machine

/-- What a happening answers. -/
abbrev Answer := Host.Outcome State Fault Refusal

/-! ### Updates of one part of the state -/

/-- The context of port `p` replaced. -/
def State.setPort (s : State) (p : Port) (c : PortContext) : State :=
  { s with ports := upd s.ports p c }

/-- The context of port `p` changed by `f`. -/
def State.modPort (s : State) (p : Port) (f : PortContext → PortContext) : State :=
  s.setPort p (f s.ports[p])

/-- Every port context changed by `f`. -/
def State.modPorts (s : State) (f : Port → PortContext → PortContext) : State :=
  { s with ports := tab fun p => f p s.ports[p] }

/-- The frame record of port `p` changed by `f`. -/
def State.modFrame (s : State) (p : Port) (f : FrameRecord → FrameRecord) : State :=
  s.modPort p fun c => { c with frame := f c.frame }

/-- The transaction record of port `p` changed by `f`. -/
def State.modTxn (s : State) (p : Port) (f : Txn → Txn) : State :=
  s.modPort p fun c => { c with txn := f c.txn }

/-- The record of volume `v` replaced. -/
def State.setVolume (s : State) (v : VolumeNo) (x : Volume) : State :=
  { s with volumes := upd s.volumes v x }

/-- The working record of volume `v`, if it is present, changed by `f`. -/
def State.modVolume (s : State) (v : VolumeNo) (f : VolumeRecord → VolumeRecord) : State :=
  match s.volumes[v] with
  | .present r => s.setVolume v (.present (f r))
  | _ => s

/-- The engine record changed by `f`. -/
def State.modEngine (s : State) (f : Engine → Engine) : State := { s with engine := f s.engine }

/-- The claim count of port `p` replaced (R26). -/
def State.setClaims (s : State) (p : Port) (n : Nat) : State :=
  { s with claimCount := upd s.claimCount p n }

/-- The index of a frame in the table of pool frame states; none for the system area (R1, R5). -/
def poolIndex (f : FrameNo) : Option (Fin 2014) :=
  if h : Config.firstPoolFrame ≤ f.val then
    some ⟨f.val - 34, by have := f.isLt; simp only [Config.firstPoolFrame] at h; omega⟩
  else none

/-- The state of a pool frame; the system area has none (R1, R5). -/
def frameState (s : State) (f : FrameNo) : Option FrameState :=
  (poolIndex f).map fun i => s.frameStates[i]

/-- The state of a pool frame replaced. -/
def State.setFrameState (s : State) (f : FrameNo) (x : FrameState) : State :=
  match poolIndex f with
  | some i => { s with frameStates := upd s.frameStates i x }
  | none => s

/-! ### Attention (R179) -/

/-- A cause becomes pending at port `p`; one already pending stays pending once (R178). -/
def raise (s : State) (p : Port) (c : Cause) : State :=
  s.modPort p fun x => { x with pending := x.pending.add c }

/-- A cause becomes pending at every port. -/
def raiseAll (s : State) (c : Cause) : State :=
  s.modPorts fun _ x => { x with pending := x.pending.add c }

/-! ### Results (R170, R176) -/

/-- The result OK. -/
def Result.ok : Result := ⟨.ok, none, .ok⟩

/-- The result QUEUED. -/
def Result.queued : Result := ⟨.queued, none, .queued⟩

/-- A refusal without detail. -/
def refusal (c : Code) : Result := ⟨c, none, .refused⟩

/-- A refusal with detail. -/
def refusalWith (c : Code) (d : Detail) : Result := ⟨c, some d, .refused⟩

/-- Detail naming a volume. -/
def Detail.ofVolume (v : VolumeNo) : Detail := ⟨none, some v, none, none⟩

/-- Detail naming a volume and a page. -/
def Detail.ofPage (v : VolumeNo) (g : PageNo) : Detail := ⟨none, some v, some g, none⟩

/-- Detail naming a port, a volume and a page. -/
def Detail.ofClaim (p : Port) (v : VolumeNo) (g : PageNo) : Detail := ⟨some p, some v, some g, none⟩

/-- Detail holding a value. -/
def Detail.ofValue (n : Nat) : Detail := ⟨none, none, none, some (BitVec.ofNat 16 n)⟩

/-- The result code of a fault cause (R188). -/
def FaultCause.code : FaultCause → Code
  | .windowStale => .windowStale
  | .windowEnd => .windowEnd
  | .pagePoisoned => .pagePoisoned

/-- The result a fault gives a frame: its cause, without detail, of class FAULT (R71). -/
def FaultCause.result (c : FaultCause) : Result := ⟨c.code, none, .fault⟩

/-! ### Bytes shifted out (R162, R168) -/

/-- What a command's data phase shifts out where no response byte is left: 0xFF for the commands that
answer data, 0x00 for every other (R168). -/
def commandFiller : Command → Byte
  | .read | .getResult | .infoVolume | .infoPage | .infoDevice => 0xFF#8
  | .begin | .touch | .commit | .abort | .release | .bind | .unbind | .write | .punch | .format
  | .create | .delete | .resize | .freeze | .lock | .thaw | .setRights | .pin | .unpin
  | .configPort | .configDevice | .setAttn => 0x00#8

/-- The filler of the data phase of a frame. -/
def FrameRecord.filler (f : FrameRecord) : Byte :=
  match f.command.bind decodeCommand with
  | some c => commandFiller c
  | none => 0xFF#8

/-- The next byte of the response, or the filler past its end, becomes the byte to shift out. -/
def FrameRecord.shift (f : FrameRecord) : FrameRecord :=
  match f.response with
  | b :: rest => { f with output := b, response := rest }
  | [] => { f with output := f.filler }

/-- The byte to shift out next at port `p`. -/
def setOutput (s : State) (p : Port) (b : Byte) : State :=
  s.modFrame p fun f => { f with output := b }

/-- The frame result of port `p` (R167). -/
def setResult (s : State) (p : Port) (r : Result) : State :=
  s.modFrame p fun f => { f with result := some r }

/-- The command answers `r`, with `response` to shift out from the next position on (R167, R168). -/
def reply (s : State) (p : Port) (r : Result) (response : List Byte) : State :=
  s.modFrame p fun f => FrameRecord.shift { f with result := some r, response := response }

/-! ### Taking a command (R166, R167) -/

/-- Whether the byte that completes now at port `p` is the one command `c` with arguments `args` is taken
at: its command byte where it has no arguments, its last argument byte where it has. -/
def awaits (s : State) (p : Port) (c : Command) (args : List Byte) : Bool :=
  if args = [] then s.ports[p].frame.phase = .command
  else s.ports[p].frame.phase = .arguments ∧ s.ports[p].frame.command = some c.code ∧
    s.ports[p].frame.arguments = args.dropLast

/-- A byte that completes where nothing waits for it: in phases IGNORING and NOT_READY it is ignored and
0xFF is shifted out (R161, R165); elsewhere no such byte can complete, and nothing changes (log entry 1). -/
def ignoreByte (s : State) (p : Port) : State :=
  if s.ports[p].frame.phase = .ignoring ∨ s.ports[p].frame.phase = .notReady then setOutput s p 0xFF#8
  else s

/-- The frame enters phase DATA with its command and arguments complete. -/
def enterData (s : State) (p : Port) (c : Command) (args : List Byte) : State :=
  s.modFrame p fun f => { f with phase := .data, command := some c.code, arguments := args }

/-- The taking of command `c` with arguments `args` at port `p`: one happening, with the effect `act`. -/
def taking (s : State) (p : Port) (c : Command) (args : List Byte) (act : State → State) : State :=
  if awaits s p c args then act (enterData s p c args) else ignoreByte s p

/-- The command is refused, or has the effect `act`: the first failing check decides (R123). -/
def unlessRefused (s : State) (p : Port) (refused : Option Result) (act : State → State) : State :=
  match refused with
  | some r => reply s p r []
  | none => act s

/-! ### Faults of a burst (R73) -/

/-- A fault arises at a port: it fills the empty fault record and raises FAULT, or marks the full record;
it is the frame's result when it is the first of its burst (R71, R73). -/
def PortContext.meetFault (c : PortContext) (f : FaultRecord) : PortContext :=
  let kept : PortContext :=
    match c.fault with
    | none => { c with fault := some { f with further := false }, pending := c.pending.add .fault }
    | some old => { c with fault := some { old with further := true } }
  match kept.burst with
  | some b =>
    if b.firstFault = none then
      { kept with burst := some { b with firstFault := some f.cause },
                  frame := { kept.frame with result := some f.cause.result } }
    else kept
  | none => kept

/-! ### Lease timers (R29) -/

/-- The timer is set to the full lease and starts; with lease 0 it stays stopped (R28, R30). -/
def Txn.startTimer (t : Txn) : Txn :=
  if 0 < t.lease then { t with timer := t.lease, running := true } else { t with running := false }

/-- The timer stops and keeps its count. -/
def Txn.stopTimer (t : Txn) : Txn := { t with running := false }

/-! ### The links close (R150, R165) -/

/-- A frame in phase COMMAND, ARGUMENTS or DATA enters IGNORING with no result; a frame that ignores
already records none either (log entry 11). The byte of the position in progress was fixed before and is shifted
out whole (R63, R162); 0xFF follows from the next position on (log entry 23). -/
def FrameRecord.close (f : FrameRecord) : FrameRecord :=
  match f.phase with
  | .command | .arguments | .data | .ignoring =>
    { f with phase := .ignoring, result := none, response := [] }
  | .noFrame | .notReady => f

/-- The device leaves RUNNING or UNFORMATTED: every port ends its frame and its burst, and the lease
timers stop (R29, R147, R150). -/
def closeLinks (s : State) : State :=
  s.modPorts fun _ c => { c with frame := c.frame.close, burst := none, txn := c.txn.stopTimer }

end Sys2Proof.Machine
end

