-- ==== Sys2Proof/Machine/MapUnit.lean ====
section
/-! DEFINITION. The map unit: page map entries and the claims in them, the free list, translation of a read byte, the creation, conversion and release of claims. Each operation is taken whole (R45). -/

namespace Sys2Proof.Machine

/-! ### Entries and claims -/

/-- The page map entry of a page; a volume that is not present has none, and it counts as a hole (R13). -/
def Volume.entry (x : Volume) (g : PageNo) : Entry :=
  match x with
  | .present r => r.entries[g]
  | _ => .hole

/-- The page map entry of a page of a volume. -/
def entryOf (s : State) (v : VolumeNo) (g : PageNo) : Entry := Volume.entry s.volumes[v] g

/-- The page map entry of a page of a present volume replaced; nothing else changes. -/
def State.setEntry (s : State) (v : VolumeNo) (g : PageNo) (e : Entry) : State :=
  s.modVolume v fun r => { r with entries := upd r.entries g e }

/-- The kind of the claim port `p` holds on an entry. -/
def Entry.claimOf (e : Entry) (p : Port) : Option ClaimKind :=
  match e.claim with
  | some c => if c.port = p then some c.kind else none
  | none => none

/-- Whether port `p` holds a claim on an entry. -/
def Entry.claimedBy (e : Entry) (p : Port) : Bool := (e.claimOf p).isSome

/-- The shadow frame of port `p`'s DATA claim on an entry. -/
def Entry.shadowOf (e : Entry) (p : Port) : Option FrameNo :=
  match e.claimOf p with
  | some (.data f) => some f
  | _ => none

/-- The committed frame of an entry. -/
def Entry.frame (e : Entry) : Option FrameNo := e.committed.map fun c => c.frame

/-- How many entries hold a committed frame (R12). -/
def countCommitted (entries : Vector Entry 64) : Nat :=
  (ascending 64).countP fun g => entries[g].committed.isSome

/-- How many of a volume's pages port `p` claims (R42). -/
def claimsInVolume (s : State) (v : VolumeNo) (p : Port) : Nat :=
  (ascending 64).countP fun g => (entryOf s v g).claimedBy p

/-- The lowest-numbered claimed page at or above page `n` of a volume, with its claimant (R135, R137). -/
def lowestClaim (s : State) (v : VolumeNo) (n : Nat) : Option (PageNo × Port) :=
  (ascending 64).findSome? fun g =>
    if n ≤ g.val then (entryOf s v g).claim.map fun c => (g, c.port) else none

/-- Every page of every volume, in volume order, then page order. -/
def allPages : List (VolumeNo × PageNo) :=
  (ascending 16).flatMap fun v => (ascending 64).map fun g => (v, g)

/-- The shadow frames of a port's DATA claims, in volume order, then page order (R10). -/
def shadowsOf (s : State) (p : Port) : List FrameNo :=
  allPages.filterMap fun x => (entryOf s x.1 x.2).shadowOf p

/-- Whether a commit of port `p` touches volume `v`: it holds a claim of either kind there (R80). -/
def touches (s : State) (p : Port) (v : VolumeNo) : Bool :=
  (ascending 64).any fun g => (entryOf s v g).claimedBy p

/-! ### Frames and the free list (R9, R10) -/

/-- Each of the frames takes a state. -/
def setFrames (s : State) (fs : List FrameNo) (x : FrameState) : State :=
  fs.foldl (fun s f => s.setFrameState f x) s

/-- The frames become FREE and join the tail of the free list together, in the order given (R10). -/
def freeFrames (s : State) (fs : List FrameNo) : State :=
  { setFrames s fs .free with freeList := s.freeList ++ fs }

/-- Whether a claim allocation may be made (R11). -/
def mayAllocate (s : State) : Bool := Config.relocationReserve < s.freeList.length

/-- The frame at the head of the free list is taken and becomes SHADOW (R9). -/
def takeFree (s : State) : Option (FrameNo × State) :=
  match s.freeList with
  | [] => none
  | f :: rest => some (f, State.setFrameState { s with freeList := rest } f .shadow)

/-! ### Reading (R24) -/

/-- The byte a read by port `p` of offset `off` of a page yields, and whether it met a poisoned page. -/
def translate (s : State) (p : Port) (v : VolumeNo) (g : PageNo) (off : Fin 256) : Byte × Bool :=
  let e := entryOf s v g
  match e.claimOf p with
  | some (.data f) => (arrayByte s f off.val, false)
  | some .hole => (0x00#8, false)
  | none =>
    match e.committed with
    | some c => if c.poisoned then (0xFF#8, true) else (arrayByte s c.frame off.val, false)
    | none => (0x00#8, false)

/-! ### Claim creation and conversion (R46, R47) -/

/-- What a new shadow of a page without a claim is filled with (R25). -/
def fillFor (s : State) (e : Entry) : List Byte :=
  match e.committed with
  | some c => if c.poisoned then zeroFrame else arrayFrame s c.frame
  | none => zeroFrame

/-- Check 1 of claim creation: the volume's state must be OPEN. A volume that is not present, or is
DAMAGED, is reached by no window, so a request meets one of those in no run (R14, log entry 2). -/
def claimVolumeCheck (x : Volume) (v : VolumeNo) (g : PageNo) : Option Result :=
  match x.status with
  | some .opened => none
  | some (.changing _ _) => some (refusalWith .volumeChanging (.ofPage v g))
  | some .frozen | some .lockedFrozen => some (refusalWith .volumeFrozen (.ofPage v g))
  | some (.damaged _) => some (refusalWith .volumeDamaged (.ofPage v g))
  | none => some (refusalWith .noVolume (.ofPage v g))

/-- Check 2 of claim creation: no claim of another port. -/
def claimOtherCheck (e : Entry) (p : Port) (v : VolumeNo) (g : PageNo) : Option Result :=
  match e.claim with
  | some c => if c.port = p then none else some (refusalWith .claimed (.ofClaim c.port v g))
  | none => none

/-- Check 3 of claim creation: the claim count is below the quota. -/
def claimQuotaCheck (s : State) (p : Port) : Option Result :=
  if s.claimCount[p] < quotaOf s p then none
  else some (refusalWith .quotaReached (.ofValue s.claimCount[p]))

/-- Check 4 of claim creation: more than 8 frames are free. -/
def claimFrameCheck (s : State) (v : VolumeNo) (g : PageNo) : Option Result :=
  if mayAllocate s then none else some (refusalWith .noFrame (.ofPage v g))

/-- Checks 1 to 3 of claim creation, in order (R46). -/
def claimChecks (s : State) (p : Port) (v : VolumeNo) (g : PageNo) : Option Result :=
  (claimVolumeCheck s.volumes[v] v g).or
    ((claimOtherCheck (entryOf s v g) p v g).or (claimQuotaCheck s p))

/-- A DATA claim of port `p` on a page, on the frame at the head of the free list, which is filled with
`fill` before anything is placed in it (R25, R46, R47). -/
def shadowPage (s : State) (p : Port) (v : VolumeNo) (g : PageNo) (fill : List Byte) : State :=
  match takeFree s with
  | some (f, t) =>
    (writeFrame t f fill).setEntry v g { entryOf s v g with claim := some ⟨p, .data f⟩ }
  | none => s

/-- One more claim of port `p` (R44). -/
def countClaim (s : State) (p : Port) : State := s.setClaims p (s.claimCount[p] + 1)

/-- A byte is placed in the shadow of the port's own DATA claim, where it has one (R47). -/
def placeByte (s : State) (p : Port) (v : VolumeNo) (g : PageNo) (off : Fin 256) (b : Byte) : State :=
  match (entryOf s v g).shadowOf p with
  | some f => writeArrayByte s f off b
  | none => s

/-- What the map unit answers a write or punch request. -/
inductive MapAnswer where
  | done (s : State)
  | refused (r : Result)

/-- A write request of port `p` for one byte (R46, R47): placed in the port's own DATA claim, or after the
conversion of its own HOLE claim, or after the creation of a claim, or refused. -/
def requestWrite (s : State) (p : Port) (v : VolumeNo) (g : PageNo) (off : Fin 256) (b : Byte) :
    MapAnswer :=
  match (entryOf s v g).claimOf p with
  | some (.data _) => .done (placeByte s p v g off b)
  | some .hole =>
    match claimFrameCheck s v g with
    | some r => .refused r
    | none => .done (placeByte (shadowPage s p v g zeroFrame) p v g off b)
  | none =>
    match (claimChecks s p v g).or (claimFrameCheck s v g) with
    | some r => .refused r
    | none =>
      .done (placeByte (countClaim (shadowPage s p v g (fillFor s (entryOf s v g))) p) p v g off b)

/-- The entry of a page takes a HOLE claim of port `p` (R48). -/
def holePage (s : State) (p : Port) (v : VolumeNo) (g : PageNo) : State :=
  s.setEntry v g { entryOf s v g with claim := some ⟨p, .hole⟩ }

/-- A punch request of port `p` (R48). Another port's claim on the page is answered CLAIMED before the
creation checks are made (log entry 12). -/
def requestPunch (s : State) (p : Port) (v : VolumeNo) (g : PageNo) : MapAnswer :=
  match (entryOf s v g).claimOf p with
  | some .hole => .done s
  | some (.data f) => .done (freeFrames (holePage s p v g) [f])
  | none =>
    match (claimOtherCheck (entryOf s v g) p v g).or (claimChecks s p v g) with
    | some r => .refused r
    | none => .done (countClaim (holePage s p v g) p)

/-! ### Release of all claims (R53) -/

/-- An entry without the claim of port `p`. -/
def Entry.release (e : Entry) (p : Port) : Entry :=
  if e.claimedBy p then { e with claim := none } else e

/-- A volume without the claims of port `p`. -/
def Volume.release (x : Volume) (p : Port) : Volume :=
  match x with
  | .present r => .present { r with entries := tab fun g => r.entries[g].release p }
  | .absent => .absent
  | .creating n rights k => .creating n rights k

/-- Every claim of port `p` is removed, its shadows join the free-list tail in volume order, then page
order, and its claim count becomes 0 (R53). -/
def releaseClaims (s : State) (p : Port) : State :=
  let t := freeFrames s (shadowsOf s p)
  { t with volumes := tab fun v => s.volumes[v].release p, claimCount := upd s.claimCount p 0 }

end Sys2Proof.Machine
end

