-- ==== Sys2Proof/Machine/Checks.lean ====
section
/-! DEFINITION. Byte order and cyclic redundancy checks: multi-byte values are stored most significant byte first (R103, R107, R186), and the two checks take each byte most significant bit first (R23, R103). -/

namespace Sys2Proof.Machine

/-- The three bytes of a three-byte value, most significant first. -/
def bytes24 (h : BitVec 24) : List Byte := [h.extractLsb' 16 8, h.extractLsb' 8 8, h.extractLsb' 0 8]

/-- The four bytes of a four-byte value, most significant first. -/
def bytes32 (w : Word) : List Byte :=
  [w.extractLsb' 24 8, w.extractLsb' 16 8, w.extractLsb' 8 8, w.extractLsb' 0 8]

/-- Byte `i` of a list of bytes. -/
def byteAt (l : List Byte) (i : Nat) : Byte := l.getD i 0x00#8

/-- The two-byte value at offset `i`. -/
def halfAt (l : List Byte) (i : Nat) : Half := byteAt l i ++ byteAt l (i + 1)

/-- The three-byte value at offset `i`. -/
def tripleAt (l : List Byte) (i : Nat) : BitVec 24 :=
  byteAt l i ++ byteAt l (i + 1) ++ byteAt l (i + 2)

/-- The four-byte value at offset `i`. -/
def wordAt (l : List Byte) (i : Nat) : Word :=
  byteAt l i ++ byteAt l (i + 1) ++ byteAt l (i + 2) ++ byteAt l (i + 3)

/-- One bit of a check register of `n` bits with generator polynomial `poly` (its top term left out). -/
def crcBit {n : Nat} (poly : BitVec n) (c : BitVec n) (bit : Bool) : BitVec n :=
  if c.msb != bit then (c <<< 1) ^^^ poly else c <<< 1

/-- One byte of a check, most significant bit first (R23, R103). -/
def crcByte {n : Nat} (poly : BitVec n) (c : BitVec n) (b : Byte) : BitVec n :=
  [0, 1, 2, 3, 4, 5, 6, 7].foldl (fun c i => crcBit poly c (b.getMsbD i)) c

/-- The page check: generator x^16 + x^12 + x^5 + 1, initial value 0xFFFF, no final inversion (R23). -/
def pageCheck (bytes : List Byte) : Half := bytes.foldl (crcByte 0x1021#16) 0xFFFF#16

/-- The root and image check: generator x^32 + x^26 + x^23 + x^22 + x^16 + x^12 + x^11 + x^10 + x^8 +
x^7 + x^5 + x^4 + x^2 + x + 1, initial value 0xFFFFFFFF, no final inversion (R103). -/
def imageCheck (bytes : List Byte) : Word := bytes.foldl (crcByte 0x04C11DB7#32) 0xFFFFFFFF#32

end Sys2Proof.Machine
end

