-- ==== Sys2Proof/Machine/Images.lean ====
section
/-! DEFINITION. The durable records: the root with its layout and the judgement of a root slot (R102, R103, R105), the choice between the two slots (R106), the map image with its layout and its judgement (R107, R108). -/

namespace Sys2Proof.Machine

/-! ### The root (R102, R103) -/

/-- A durable volume record (R102). -/
inductive Durable where
  | absent
  | kept (state : Settled) (size : Nat) (rights : Vector Right 4) (pinned mapPresent : Bool)
      (slot : MapSlot) (generation : Word)
  deriving DecidableEq, Repr

/-- The fields of a root but for its marker and its check (R102). -/
structure Root where
  sequence : Word
  settings : Settings
  retired : List FrameNo
  volumes : Vector Durable 16
  deriving DecidableEq, Repr

/-- The format marker (R103). -/
def formatMarker : Word := 0x3C6A9D15#32

/-- The state byte of a durable volume record (R103). -/
def Settled.code : Settled → Byte
  | .opened => 1#8
  | .frozen => 2#8
  | .lockedFrozen => 3#8

/-- The flags byte of a volume record: bit 0 pinned, bit 1 map present, bit 2 slot selector (R103, R187). Bits 7
to 3 are written 0 in a root (R103); that INFO_VOLUME sends them 0 is the model's choice (log entry 24). -/
def flagsByte (pinned mapPresent : Bool) (slot : MapSlot) : Byte :=
  BitVec.ofNat 8 (pinned.toNat + 2 * mapPresent.toNat + 4 * slot.val)

/-- The eight bytes of a durable volume record; an ABSENT one is eight bytes of 0x00 (R103). -/
def Durable.bytes : Durable → List Byte
  | .absent => List.replicate 8 0x00#8
  | .kept st size rights k m slot gen =>
    [st.code, BitVec.ofNat 8 size, rightsByte rights, flagsByte k m slot] ++ bytes32 gen

/-- The byte of an administration mask: bit p for port p (R103, R187). Bits 7 to 4 are written 0 in a root (R103);
that INFO_DEVICE sends them 0 is the model's choice (log entry 24). -/
def maskByte (m : Vector Bool 4) : Byte :=
  BitVec.ofNat 8 (m[0].toNat + 2 * m[1].toNat + 4 * m[2].toNat + 8 * m[3].toNat)

/-- The eight bytes of four quotas, P0 first (R103, R187). -/
def quotaBytes (q : Vector Nat 4) : List Byte :=
  (ascending 4).flatMap fun p => halfBytes (BitVec.ofNat 16 q[p])

/-- The 48 bytes of the retired table: two bytes per entry, oldest first, then 0x0000 (R103). -/
def retiredBytes (l : List FrameNo) : List Byte :=
  let b := l.flatMap fun f => halfBytes (BitVec.ofNat 16 f.val)
  b ++ List.replicate (48 - b.length) 0x00#8

/-- Bytes 0 to 251 of a root (R103). -/
def Root.body (r : Root) : List Byte :=
  bytes32 formatMarker ++ bytes32 r.sequence ++ [maskByte r.settings.mask] ++
    [BitVec.ofNat 8 r.settings.budget] ++ quotaBytes r.settings.quotas ++
    [BitVec.ofNat 8 r.retired.length] ++ (ascending 16).flatMap (fun v => r.volumes[v].bytes) ++
    retiredBytes r.retired ++ List.replicate 57 0x00#8

/-- The 256 bytes of a root: its body and the root check over it (R103). -/
def Root.bytes (r : Root) : List Byte := r.body ++ bytes32 (imageCheck r.body)

/-- The state a state byte of a present durable record stands for (R103). -/
def settledOfCode (b : Byte) : Option Settled :=
  if b = 1#8 then some .opened
  else if b = 2#8 then some .frozen
  else if b = 3#8 then some .lockedFrozen
  else none

/-- The durable volume record at offset `i`, where its fields are in range (R105); of an ABSENT record
only the state byte is read (R103). -/
def durableAt (l : List Byte) (i : Nat) : Option Durable :=
  if byteAt l i = 0#8 then some .absent
  else
    match settledOfCode (byteAt l i), sizeArg (byteAt l (i + 1)), rightsArg (byteAt l (i + 2)) with
    | some st, some n, some r =>
      let flags := byteAt l (i + 3)
      if flags.toNat < 8 then
        some (.kept st n r (flags.getLsbD 0) (flags.getLsbD 1) (if flags.getLsbD 2 then 1 else 0)
          (wordAt l (i + 4)))
      else none
    | _, _, _ => none

/-- The frame number a two-byte value holds, where it is a pool frame (R105). -/
def poolFrameOf (h : Half) : Option FrameNo :=
  if hp : Config.firstPoolFrame ≤ h.toNat ∧ h.toNat < 2048 then some ⟨h.toNat, hp.2⟩ else none

/-- All the items of a list of optional values, where none is absent. -/
def allSome {α : Type} : List (Option α) → Option (List α)
  | [] => some []
  | none :: _ => none
  | some x :: rest => (allSome rest).map fun l => x :: l

/-- The administration mask of a mask byte: bits 7 to 4 clear and at least one of bits 3 to 0 set (R105). -/
def maskOf (b : Byte) : Option (Vector Bool 4) :=
  if 0 < b.toNat ∧ b.toNat < 16 then some (tab fun p => b.getLsbD p.val) else none

/-- The four quotas at offset 10, where each is 1024 or less (R105). -/
def quotasOf (l : List Byte) : Option (Vector Nat 4) :=
  if (ascending 4).all (fun p => decide ((halfAt l (10 + 2 * p.val)).toNat ≤ Config.maxQuota)) then
    some (tab fun p => (halfAt l (10 + 2 * p.val)).toNat)
  else none

/-- The counted entries of the retired table, where the count is 24 or less, each is a pool frame and no
two are equal (R105). -/
def retiredOf (l : List Byte) : Option (List FrameNo) :=
  let n := (byteAt l 18).toNat
  if n ≤ Config.retiredCapacity then
    match allSome ((List.range n).map fun i => poolFrameOf (halfAt l (147 + 2 * i))) with
    | some fs => if fs.Nodup then some fs else none
    | none => none
  else none

/-- The sixteen volume records, where all are in range (R105). -/
def durablesOf (l : List Byte) : Option (Vector Durable 16) :=
  if (ascending 16).all (fun v => (durableAt l (19 + 8 * v.val)).isSome) then
    some (tab fun v => (durableAt l (19 + 8 * v.val)).getD .absent)
  else none

/-- The root a slot's 256 bytes hold, where the slot is valid: the marker matches, the check matches and
every field is in range (R105). -/
def judgeRoot (l : List Byte) : Option Root :=
  if wordAt l 0 = formatMarker ∧ imageCheck (l.take 252) = wordAt l 252 then
    match maskOf (byteAt l 8), quotasOf l, retiredOf l, durablesOf l with
    | some m, some q, some r, some v =>
      some ⟨wordAt l 4, ⟨m, q, (byteAt l 9).toNat⟩, r, v⟩
    | _, _, _, _ => none
  else none

/-- Which of the two judged slots recall selects (R106); "one greater" wraps. -/
def selectRoot (a b : Option Root) : Option (RootSlot × Root) :=
  match a, b with
  | none, none => none
  | some x, none => some (.a, x)
  | none, some y => some (.b, y)
  | some x, some y =>
    if y.sequence = x.sequence + 1 then some (.b, y)
    else if x.sequence = y.sequence + 1 then some (.a, x)
    else if x.sequence.toNat < y.sequence.toNat then some (.b, y)
    else some (.a, x)

/-! ### The map image (R107) -/

/-- One entry of a map image: a frame with its page check, or a hole. -/
abbrev ImageEntry := Option (FrameNo × Half)

/-- The fields of a map image but for its check (R107). -/
structure MapImage where
  volume : VolumeNo
  generation : Word
  entries : Vector ImageEntry 64
  deriving DecidableEq, Repr

/-- The 12-bit frame number of an entry; 0x000 means a hole (R107). -/
def entryNumber (e : ImageEntry) : BitVec 12 :=
  match e with
  | some x => BitVec.ofNat 12 x.1.val
  | none => 0#12

/-- The page check of an entry; a hole's is 0x0000 (R107). -/
def entryCheck (e : ImageEntry) : Half :=
  match e with
  | some x => x.2
  | none => 0#16

/-- The three bytes of the frame numbers of pages 2k and 2k + 1 (R107). -/
def packedPair (entries : Vector ImageEntry 64) (k : Fin 32) : List Byte :=
  bytes24 (entryNumber (entries[2 * k.val]'(by omega)) ++ entryNumber (entries[2 * k.val + 1]'(by omega)))

/-- Bytes 0 to 251 of a map image (R107). -/
def MapImage.body (m : MapImage) : List Byte :=
  [BitVec.ofNat 8 m.volume.val] ++ bytes32 m.generation ++
    (ascending 32).flatMap (packedPair m.entries) ++
    (ascending 64).flatMap (fun g => halfBytes (entryCheck m.entries[g])) ++ List.replicate 23 0x00#8

/-- The 256 bytes of a map image: its body and the image check over it (R107). -/
def MapImage.bytes (m : MapImage) : List Byte := m.body ++ bytes32 (imageCheck m.body)

/-- The 12-bit frame number of page `g` in the bytes of a map image (R107). -/
def numberAt (l : List Byte) (g : PageNo) : BitVec 12 :=
  if g.val % 2 = 0 then (tripleAt l (5 + 3 * (g.val / 2))).extractLsb' 12 12
  else (tripleAt l (5 + 3 * (g.val / 2))).extractLsb' 0 12

/-- The entry of page `g` in the bytes of a map image. -/
def imageEntryAt (l : List Byte) (g : PageNo) : ImageEntry :=
  if numberAt l g = 0#12 then none
  else some (Fin.ofNat 2048 (numberAt l g).toNat, halfAt l (101 + 2 * g.val))

/-- The frame numbers the entries of a map image hold, in page order. -/
def heldNumbers (l : List Byte) : List Nat :=
  (ascending 64).filterMap fun g => if numberAt l g = 0#12 then none else some (numberAt l g).toNat

/-- The entries of the map image of volume `v` that the bytes hold, where the image is good against a
durable record of generation `gen` and size `size`, the retired table and the frames accepted earlier in
the same recall (R108). -/
def judgeImage (l : List Byte) (v : VolumeNo) (gen : Word) (size : Nat) (retired accepted : List FrameNo) :
    Option (Vector ImageEntry 64) :=
  if imageCheck (l.take 252) = wordAt l 252 ∧ byteAt l 0 = BitVec.ofNat 8 v.val ∧ wordAt l 1 = gen ∧
      (ascending 64).all (fun g => decide (size ≤ g.val → numberAt l g = 0#12)) = true ∧
      (heldNumbers l).all (fun n => decide (Config.firstPoolFrame ≤ n ∧ n < 2048)) = true ∧
      (heldNumbers l).all (fun n => retired.all fun f => f.val ≠ n) = true ∧
      (heldNumbers l).Nodup ∧ (heldNumbers l).all (fun n => accepted.all fun f => f.val ≠ n) = true
  then some (tab fun g => imageEntryAt l g)
  else none

end Sys2Proof.Machine
end

