-- ==== Sys2Proof/Machine/Plan.lean ====
section
/-! DEFINITION. Plans: the steps of each kind of request (R80, R81), the map image and the root an update writes (R20, R84, R85), and the start of a step's program (R82 to R85). -/

namespace Sys2Proof.Machine

/-- The volume a volume request names; none for COMMIT and the device requests (R74, R99). -/
def RequestKind.volume : RequestKind → Option VolumeNo
  | .commit | .format | .configPort _ _ _ | .configDevice _ => none
  | .create v _ _ _ | .delete v | .resize v _ | .setRights v _ _ | .freeze v | .lock v | .thaw v
  | .pin v | .unpin v => some v

/-- The command of a request's kind (R99, R186). -/
def RequestKind.command : RequestKind → Command
  | .commit => .commit
  | .format => .format
  | .create _ _ _ _ => .create
  | .delete _ => .delete
  | .resize _ _ => .resize
  | .setRights _ _ _ => .setRights
  | .freeze _ => .freeze
  | .lock _ => .lock
  | .thaw _ => .thaw
  | .pin _ => .pin
  | .unpin _ => .unpin
  | .configPort _ _ _ => .configPort
  | .configDevice _ => .configDevice

/-! ### Building a plan (R80, R81) -/

/-- The page steps of a commit of port `p`: one per DATA claim, in volume order, then page order (R80). -/
def pageSteps (s : State) (p : Port) : List PlanStep :=
  allPages.filterMap fun x =>
    ((entryOf s x.1 x.2).shadowOf p).map fun f => .page x.1 x.2 f 0 none

/-- The map step of volume `v`: slot 0 for a first image, otherwise the inactive slot, with the next
generation (R80, R81). -/
def mapStepOf (v : VolumeNo) (r : VolumeRecord) : PlanStep :=
  .map v (if r.mapPresent then otherSlot r.slot else 0) (r.generation + 1) false

/-- The map steps of a commit of port `p`: one per touched volume, in volume order (R80). -/
def mapSteps (s : State) (p : Port) : List PlanStep :=
  (ascending 16).filterMap fun v =>
    match s.volumes[v] with
    | .present r => if touches s p v then some (mapStepOf v r) else none
    | _ => none

/-- The root step: the slot that is not selected and the next sequence; slot A and sequence 1 where the
engine has neither (R80, R81). -/
def rootStep (s : State) : PlanStep :=
  .root (match s.engine.selected with | some x => x.other | none => .a)
    (match s.engine.sequence with | some n => n + 1 | none => 1) false

/-- The map step a RESIZE request takes: only a shrink of a volume that has a map image has one (R81). -/
def resizeSteps (s : State) (v : VolumeNo) (newSize : Nat) : List PlanStep :=
  match s.volumes[v] with
  | .present r => if newSize < r.size ∧ r.mapPresent = true then [mapStepOf v r] else []
  | _ => []

/-- The steps of the plan of a request of port `p` (R80, R81). -/
def planSteps (s : State) (p : Port) (kind : RequestKind) : List PlanStep :=
  match kind with
  | .commit => pageSteps s p ++ mapSteps s p ++ [rootStep s]
  | .format => [.root .a 1 false]
  | .resize v n => resizeSteps s v n ++ [rootStep s]
  | .create _ _ _ _ | .delete _ | .setRights _ _ _ | .freeze _ | .lock _ | .thaw _ | .pin _
  | .unpin _ | .configPort _ _ _ | .configDevice _ => [rootStep s]

/-- The plan of a request (R79). -/
def buildPlan (s : State) (p : Port) (kind : RequestKind) : Plan := ⟨planSteps s p kind, 0⟩

/-- The program count of a plan: the number of its steps (R79). -/
def Plan.programCount (x : Plan) : Nat := x.steps.length

/-- The current step of a plan. -/
def Plan.step (x : Plan) : Option PlanStep := x.steps[x.current]?

/-- The current step of a plan replaced. -/
def Plan.setStep (x : Plan) (y : PlanStep) : Plan := { x with steps := x.steps.set x.current y }

/-- The programs of a plan that no step has started: those of the steps after the current one (R153). -/
def Plan.unstarted (x : Plan) : Nat := x.programCount - (x.current + 1)

/-- The page check recorded in a plan for a page (R83). -/
def Plan.checkOf (x : Plan) (v : VolumeNo) (g : PageNo) : Half :=
  (x.steps.findSome? fun
    | .page w h _ _ c => if w = v ∧ h = g then c else none
    | _ => none).getD 0#16

/-- The map slot and the generation a plan's map step for volume `v` writes. -/
def Plan.mapOf (x : Plan) (v : VolumeNo) : Option (MapSlot × Word) :=
  x.steps.findSome? fun
    | .map w slot gen _ => if w = v then some (slot, gen) else none
    | _ => none

/-- The volumes whose map image a plan programs, with their new generations, in volume order (R99). -/
def Plan.generations (x : Plan) : List (VolumeNo × Word) :=
  x.steps.filterMap fun
    | .map v _ gen _ => some (v, gen)
    | _ => none

/-! ### The map image an update writes (R84) -/

/-- The committed part of an entry as an image holds it. -/
def Entry.image (e : Entry) : ImageEntry := e.committed.map fun c => (c.frame, c.check)

/-- The image entry of a page for a request: the committed map with the request's changes applied (R84). -/
def imageEntryFor (plan : Plan) (req : Request) (v : VolumeNo) (r : VolumeRecord) (g : PageNo) :
    ImageEntry :=
  let limit := match req.kind with | .resize _ n => n | _ => r.size
  if limit ≤ g.val then none
  else
    match req.kind, r.entries[g].claimOf req.port with
    | .commit, some (.data f) => some (f, plan.checkOf v g)
    | .commit, some .hole => none
    | _, _ => r.entries[g].image

/-- The map image a map step writes for a volume (R84). -/
def mapImageFor (plan : Plan) (req : Request) (v : VolumeNo) (r : VolumeRecord) (gen : Word) : MapImage :=
  ⟨v, gen, tab fun g => imageEntryFor plan req v r g⟩

/-! ### The root an update writes (R20, R85) -/

/-- The durable state a CHANGING volume is recorded with is that of its return state (R20). -/
def VolumeRecord.durableAs (r : VolumeRecord) (st : Settled) (mapPresent : Bool) : Durable :=
  .kept st r.size r.rights r.pinned mapPresent r.slot r.generation

/-- What a root records of a volume that the update does not change (R20). -/
def Volume.durable : Volume → Durable
  | .absent | .creating _ _ _ => .absent
  | .present r =>
    match r.status with
    | .opened => r.durableAs .opened r.mapPresent
    | .frozen => r.durableAs .frozen r.mapPresent
    | .lockedFrozen => r.durableAs .lockedFrozen r.mapPresent
    | .changing _ .opened => r.durableAs .opened r.mapPresent
    | .changing _ .frozen => r.durableAs .frozen r.mapPresent
    | .changing _ (.damaged st) => r.durableAs st false
    | .damaged st => r.durableAs st false

/-- A durable record with the map slot and generation a map step wrote, where there was one (R85). -/
def Durable.withMap (d : Durable) : Option (MapSlot × Word) → Durable
  | some (slot, gen) =>
    match d with
    | .kept st n rights k _ _ _ => .kept st n rights k true slot gen
    | .absent => .absent
  | none => d

/-- A durable record with a new state. -/
def Durable.withState (d : Durable) (st : Settled) : Durable :=
  match d with
  | .kept _ n rights k m slot gen => .kept st n rights k m slot gen
  | .absent => .absent

/-- A durable record with a new size. -/
def Durable.withSize (d : Durable) (n : Nat) : Durable :=
  match d with
  | .kept st _ rights k m slot gen => .kept st n rights k m slot gen
  | .absent => .absent

/-- A durable record with one port's right replaced. -/
def Durable.withRight (d : Durable) (p : Port) (x : Right) : Durable :=
  match d with
  | .kept st n rights k m slot gen => .kept st n (upd rights p x) k m slot gen
  | .absent => .absent

/-- A durable record with a new pinned flag. -/
def Durable.withPinned (d : Durable) (k : Bool) : Durable :=
  match d with
  | .kept st n rights _ m slot gen => .kept st n rights k m slot gen
  | .absent => .absent

/-- What the root of a request records of the volume the request names (R85). -/
def namedDurable (plan : Plan) (kind : RequestKind) (v : VolumeNo) (d : Durable) : Durable :=
  match kind with
  | .create _ n rights k => .kept .opened n rights k false 0 1
  | .delete _ => .absent
  | .resize _ n => (d.withSize n).withMap (plan.mapOf v)
  | .freeze _ => d.withState .frozen
  | .lock _ => d.withState .lockedFrozen
  | .thaw _ => d.withState .opened
  | .setRights _ p x => d.withRight p x
  | .pin _ => d.withPinned true
  | .unpin _ => d.withPinned false
  | .commit | .format | .configPort _ _ _ | .configDevice _ => d

/-- What the root of a request records of volume `v` (R85). -/
def durableFor (s : State) (plan : Plan) (kind : RequestKind) (v : VolumeNo) : Durable :=
  let d := Volume.durable s.volumes[v]
  match kind with
  | .commit => d.withMap (plan.mapOf v)
  | .format => .absent
  | _ => if kind.volume = some v then namedDurable plan kind v d else d

/-- FORMAT's settings: every port in the mask, every quota 256, hold-up budget 0 (R97). -/
def formatSettings : Settings :=
  ⟨Vector.replicate 4 true, Vector.replicate 4 Config.formatQuota, 0⟩

/-- The device settings as they will stand after a request (R85, R97). -/
def settingsAfter (st : Option Settings) (kind : RequestKind) : Option Settings :=
  match kind with
  | .format => some formatSettings
  | .configPort p q k => st.map fun x => { x with mask := upd x.mask p k, quotas := upd x.quotas p q }
  | .configDevice n => st.map fun x => { x with budget := n }
  | _ => st

/-- The root a root step writes (R85). -/
def rootFor (s : State) (plan : Plan) (kind : RequestKind) (seq : Word) : Root where
  sequence := seq
  settings := (settingsAfter s.engine.settings kind).getD formatSettings
  retired := s.engine.retired
  volumes := tab fun v => durableFor s plan kind v

/-! ### Starting the current step (R82 to R85) -/

/-- The program of a page step begins: the page check is computed and recorded (R83). -/
def startPage (s : State) (plan : Plan) (v : VolumeNo) (g : PageNo) (f : FrameNo) (n : Nat) : State :=
  { s with
    engine := { s.engine with
      state := .frames
      plan := some (plan.setStep (.page v g f n (some (pageCheck (arrayFrame s f))))) }
    program := some f }

/-- The program of a map step begins: the image is written into the slot's frame (R84). -/
def startMap (s : State) (plan : Plan) (req : Request) (v : VolumeNo) (slot : MapSlot) (gen : Word) : State :=
  let t := match s.volumes[v] with
    | .present r => writeFrame s (mapFrame v slot) (mapImageFor plan req v r gen).bytes
    | _ => s
  { t with engine := { s.engine with state := .maps }, program := some (mapFrame v slot) }

/-- The program of the root step begins: the new root is written into the slot's frame (R85). -/
def startRoot (s : State) (plan : Plan) (req : Request) (slot : RootSlot) (seq : Word) : State :=
  { writeFrame s slot.frame (rootFor s plan req.kind seq).bytes with
    engine := { s.engine with state := .root }, program := some slot.frame }

/-- The current step's program is handed to the store array (R82). -/
def startStep (s : State) : State :=
  match s.engine.plan, s.engine.inFlight with
  | some plan, some req =>
    match plan.step with
    | some (.page v g f n _) => startPage s plan v g f n
    | some (.map v slot gen _) => startMap s plan req v slot gen
    | some (.root slot seq _) => startRoot s plan req slot seq
    | none => s
  | _, _ => s

/-- The engine takes a plan for a request and starts its first step (R78, R157). -/
def beginUpdate (s : State) (req : Request) : State :=
  startStep (s.modEngine fun e =>
    { e with inFlight := some req, plan := some (buildPlan s req.port req.kind), abandon := false })

/-- The engine advances to the next step of its plan (R82). -/
def nextStep (s : State) : State :=
  startStep (s.modEngine fun e =>
    { e with plan := e.plan.map fun x => { x with current := x.current + 1 } })

end Sys2Proof.Machine
end

