-- ==== Sys2Proof/Machine/Transaction.lean ====
section
/-! DEFINITION. The transaction commands BEGIN, TOUCH, COMMIT, ABORT and RELEASE (R28, R30, R34, R39, R41), the lease tick and the lease expiry (R29, R31). -/

namespace Sys2Proof.Machine

/-- The check every transaction, window and administration command begins with (R27, R56, R123). -/
def formatCheck (s : State) : Option Result :=
  if s.device = .unformatted then some (refusal .notFormatted) else none

/-- The refusal of a command that needs an OPEN transaction (R27). -/
def openCheck (t : TxnState) : Option Result :=
  match t with
  | .opened => none
  | .noTxn => some (refusal .noTxn)
  | .queued | .committing => some (refusal .txnBusy)
  | .expired => some (refusal .txnExpired)

/-! ### BEGIN -/

/-- The checks of BEGIN, in order (R28). -/
def beginCheck (s : State) (p : Port) (flag : Byte) : Option Result :=
  (formatCheck s).or
    ((if flagArg flag = none then some (refusal .badArgument) else none).or
      (if s.ports[p].txn.state = .noTxn ∨ s.ports[p].txn.state = .expired then none
       else some (refusal .txnExists)))

/-- The transaction BEGIN opens (R28). With lease 0 the timer stays stopped and keeps its count (R29). -/
def Txn.begin (t : Txn) (lease : Half) (durable : Bool) : Txn :=
  Txn.startTimer { t with state := .opened, lease := lease.toNat, running := false, durable := durable }

/-- BEGIN taken (R28): the transaction opens, and a pending LEASE cause is cleared. -/
def execBegin (p : Port) (lease : Half) (flag : Byte) (s : State) : Answer :=
  .next <| taking s p .begin (halfBytes lease ++ [flag]) fun s =>
    unlessRefused s p (beginCheck s p flag) fun s =>
      reply
        (s.modPort p fun c =>
          { c with txn := c.txn.begin lease (flag = 0x01#8), pending := { c.pending with lease := false } })
        p .ok []

/-! ### TOUCH -/

/-- TOUCH taken (R30): the timer of an OPEN transaction is set to the full lease. -/
def execTouch (p : Port) (s : State) : Answer :=
  .next <| taking s p .touch [] fun s =>
    unlessRefused s p ((formatCheck s).or (openCheck s.ports[p].txn.state)) fun s =>
      reply (s.modTxn p Txn.startTimer) p .ok []

/-! ### COMMIT -/

/-- Checks 4 and 5 of COMMIT (R34). -/
def commitCheck (s : State) (p : Port) : Option Result :=
  if adminPending s p then some (refusal .requestPending)
  else if engineStopped s then some (refusal .updateStopped)
  else none

/-- A request joins the tail of the update queue (R75). -/
def appendRequest (s : State) (req : Request) : State :=
  s.modEngine fun e => { e with queue := e.queue ++ [req] }

/-- The effect of a COMMIT whose transaction is OPEN (R34): the timer stops in every case (R33). -/
def commitOpen (s : State) (p : Port) : State :=
  if s.claimCount[p] = 0 then
    reply (s.modTxn p fun t => { t.stopTimer with state := .noTxn }) p .ok []
  else
    match commitCheck s p with
    | some r => reply (s.modTxn p Txn.stopTimer) p r []
    | none =>
      reply (appendRequest (s.modTxn p fun t => { t.stopTimer with state := .queued }) ⟨p, .commit⟩) p
        .queued []

/-- COMMIT taken (R34). -/
def execCommit (p : Port) (s : State) : Answer :=
  .next <| taking s p .commit [] fun s =>
    unlessRefused s p ((formatCheck s).or (openCheck s.ports[p].txn.state)) fun s => commitOpen s p

/-! ### ABORT and RELEASE -/

/-- The queue without the COMMIT request of port `p`; the others keep their order (R39, R76). -/
def withdrawCommit (s : State) (p : Port) : State :=
  s.modEngine fun e => { e with queue := e.queue.filter fun r => !(r.port = p && r.kind = .commit) }

/-- The transaction ends without outcome: NONE, its timer stopped. -/
def endTxn (s : State) (p : Port) : State :=
  s.modTxn p fun t => { t.stopTimer with state := .noTxn }

/-- The effect of ABORT on a transaction that is not COMMITTING (R39). -/
def abandonTxn (s : State) (p : Port) : State :=
  match s.ports[p].txn.state with
  | .opened => endTxn (releaseClaims s p) p
  | .queued => endTxn (releaseClaims (withdrawCommit s p) p) p
  | .expired => endTxn s p
  | .noTxn | .committing => s

/-- ABORT taken (R39): whenever it ends with OK it also clears a pending LEASE cause. -/
def execAbort (p : Port) (s : State) : Answer :=
  .next <| taking s p .abort [] fun s =>
    unlessRefused s p
      ((formatCheck s).or
        (if s.ports[p].txn.state = .committing then some (refusal .txnBusy) else none)) fun s =>
      reply
        ((abandonTxn s p).modPort p fun c => { c with pending := { c.pending with lease := false } })
        p .ok []

/-- RELEASE taken (R41): as ABORT but for a COMMITTING transaction, and the windows, the fault record and
the attention of the port are cleared. -/
def execRelease (p : Port) (s : State) : Answer :=
  .next <| taking s p .release [] fun s =>
    unlessRefused s p (formatCheck s) fun s =>
      reply
        ((abandonTxn s p).modPort p fun c =>
          { c with windows := Vector.replicate 4 .unbound, fault := none, mask := .empty,
                   pending := .empty })
        p .ok []

/-! ### The lease timer -/

/-- A transaction after a tick: a running timer of an OPEN transaction with a lease goes down by 1 (R29). -/
def Txn.tick (t : Txn) : Txn :=
  if t.state = .opened ∧ 0 < t.lease ∧ t.running = true then { t with timer := t.timer - 1 } else t

/-- A tick of the 1 ms timebase (R29): timers count while the device is RUNNING. -/
def execLeaseTick (s : State) : Answer :=
  .next <| if s.device = .running then s.modPorts fun _ c => { c with txn := c.txn.tick } else s

/-- Whether the lease of port `p` has run out and its expiry is due (R29, R31). -/
def expiryDue (s : State) (p : Port) : Bool :=
  s.device = .running ∧ s.ports[p].txn.state = .opened ∧ 0 < s.ports[p].txn.lease ∧
    s.ports[p].txn.running = true ∧ s.ports[p].txn.timer = 0

/-- The lease of port `p` expires (R31): its claims are released, the transaction is EXPIRED and LEASE
becomes pending. Where the timer was set or stopped first, no expiry happens (R30, R33). -/
def execLeaseExpiry (p : Port) (s : State) : Answer :=
  .next <|
    if expiryDue s p then
      raise ((releaseClaims s p).modTxn p fun t => { t.stopTimer with state := .expired }) p .lease
    else s

end Sys2Proof.Machine
end

