-- ==== Sys2Proof/Machine/Admin.lean ====
section
/-! DEFINITION. The acceptance of administration commands: the common checks, the LOCKIN guard, the checks of each command, and the states acceptance sets (R122 to R146). -/

namespace Sys2Proof.Machine

/-! ### Common checks and effects -/

/-- Checks 1 to 4 that every administration command but FORMAT makes first, in order (R123). -/
def adminCheck (s : State) (p : Port) : Option Result :=
  if s.device = .unformatted then some (refusal .notFormatted)
  else if isAdminPort s p = false then some (refusal .notAdmin)
  else if requestPending s p then some (refusal .requestPending)
  else if engineStopped s then some (refusal .updateStopped)
  else none

/-- The refusal a check makes when its condition fails. -/
def refuseUnless (ok : Bool) (r : Result) : Option Result := if ok then none else some r

/-- The volume must be present (R13). -/
def presentCheck (x : Volume) : Option Result := refuseUnless x.isPresent (refusal .noVolume)

/-- The LOCKIN guard: a guarded command on a pinned volume is refused while LOCKIN is asserted (R125). -/
def guardCheck (s : State) (v : VolumeNo) : Option Result :=
  refuseUnless (!(s.lockin && Volume.isPinned s.volumes[v])) (refusalWith .guarded (.ofVolume v))

/-- The volume must hold no claim at page `n` or above; the detail names the lowest-numbered such page
and its claimant (R135, R137). -/
def inUseCheck (s : State) (v : VolumeNo) (n : Nat) : Option Result :=
  (lowestClaim s v n).map fun x => refusalWith .inUse (.ofClaim x.2 v x.1)

/-- The request is appended and the frame result is QUEUED (R75, R123). -/
def accept (s : State) (p : Port) (kind : RequestKind) : State :=
  reply (appendRequest s ⟨p, kind⟩) p .queued []

/-- The return state of a volume at acceptance (R19). A volume that is LOCKED_FROZEN or CHANGING is
refused before it could need one. -/
def Status.returnState : Status → ReturnState
  | .opened | .lockedFrozen => .opened
  | .frozen => .frozen
  | .damaged st => .damaged st
  | .changing _ ret => ret

/-- The volume enters CHANGING with a pending operation (R128), and the request is appended. -/
def acceptChanging (s : State) (p : Port) (v : VolumeNo) (op : Operation) (kind : RequestKind) : State :=
  accept (s.modVolume v fun r => { r with status := .changing op r.status.returnState }) p kind

/-! ### The volume-state checks of each command -/

/-- Checks 3 and 4 of DELETE (R135). -/
def deleteStateCheck : Option Status → Option Result
  | some (.changing _ _) => some (refusal .volumeChanging)
  | some .lockedFrozen => some (refusal .permanent)
  | some .opened | some .frozen | some (.damaged _) => none
  | none => some (refusal .noVolume)

/-- Checks 3 to 5 of RESIZE and FREEZE (R137, R138). -/
def openStateCheck : Option Status → Option Result
  | some (.changing _ _) => some (refusal .volumeChanging)
  | some (.damaged _) => some (refusal .volumeDamaged)
  | some .frozen => some (refusal .volumeFrozen)
  | some .lockedFrozen => some (refusal .permanent)
  | some .opened => none
  | none => some (refusal .noVolume)

/-- Checks 3 to 5 of LOCK (R139). -/
def lockStateCheck : Option Status → Option Result
  | some (.changing _ _) => some (refusal .volumeChanging)
  | some (.damaged _) => some (refusal .volumeDamaged)
  | some .lockedFrozen => some (refusal .permanent)
  | some .opened | some .frozen => none
  | none => some (refusal .noVolume)

/-- Checks 3 to 6 of THAW (R140). -/
def thawStateCheck : Option Status → Option Result
  | some (.changing _ _) => some (refusal .volumeChanging)
  | some (.damaged _) => some (refusal .volumeDamaged)
  | some .lockedFrozen => some (refusal .permanent)
  | some .opened => some (refusal .badArgument)
  | some .frozen => none
  | none => some (refusal .noVolume)

/-- Check 3 of SET_RIGHTS (R142). -/
def rightsStateCheck : Option Status → Option Result
  | some (.damaged _) => some (refusal .volumeDamaged)
  | some .opened | some .frozen | some .lockedFrozen | some (.changing _ _) => none
  | none => some (refusal .noVolume)

/-- The checks of a guarded volume command after its arguments: presence, the guard, the volume's state
and the claims from page `n` on, where it makes that check (R125, R135 to R142). -/
def volumeChecks (s : State) (v : VolumeNo) (stateCheck : Option Status → Option Result)
    (claims : Option Nat) : Option Result :=
  (presentCheck s.volumes[v]).or ((guardCheck s v).or ((stateCheck (Volume.status s.volumes[v])).or
    (claims.bind fun n => inUseCheck s v n)))

/-- An administration command after its common checks: with its arguments out of range it is refused with
BAD_ARGUMENT, otherwise it goes on with them (R123, check 5). -/
def withArgs {α : Type} (s : State) (p : Port) (args : Option α) (act : State → α → State) : State :=
  unlessRefused s p (adminCheck s p) fun s =>
    match args with
    | none => reply s p (refusal .badArgument) []
    | some x => act s x

/-- Two arguments, where both are in range. -/
def both {α β : Type} (x : Option α) (y : Option β) : Option (α × β) :=
  match x, y with
  | some a, some b => some (a, b)
  | _, _ => none

/-! ### The commands -/

/-- The checks of FORMAT, in order (R131). -/
def formatAccept (s : State) (p : Port) : Option Result :=
  if s.device ≠ .unformatted then some (refusal .alreadyFormatted)
  else if requestPending s p then some (refusal .requestPending)
  else if engineStopped s then some (refusal .updateStopped)
  else none

/-- FORMAT taken (R131). -/
def execFormat (p : Port) (s : State) : Answer :=
  .next <| taking s p .format [] fun s =>
    unlessRefused s p (formatAccept s p) fun s => accept s p .format

/-- CREATE taken (R133): an ABSENT volume enters CREATING (R127). -/
def execCreate (p : Port) (volume size rights pinned : Byte) (s : State) : Answer :=
  .next <| taking s p .create [volume, size, rights, pinned] fun s =>
    withArgs s p (both (both (volumeArg volume) (sizeArg size)) (both (rightsArg rights) (flagArg pinned)))
      fun s x =>
        let v := x.1.1
        unlessRefused s p
          (refuseUnless (s.volumes[v] = .absent) (refusalWith .volumeExists (.ofVolume v))) fun s =>
          accept (s.setVolume v (.creating x.1.2 x.2.1 x.2.2)) p (.create v x.1.2 x.2.1 x.2.2)

/-- DELETE taken (R135). -/
def execDelete (p : Port) (volume : Byte) (s : State) : Answer :=
  .next <| taking s p .delete [volume] fun s =>
    withArgs s p (volumeArg volume) fun s v =>
      unlessRefused s p (volumeChecks s v deleteStateCheck (some 0)) fun s =>
        acceptChanging s p v .delete (.delete v)

/-- RESIZE taken (R137). -/
def execResize (p : Port) (volume size : Byte) (s : State) : Answer :=
  .next <| taking s p .resize [volume, size] fun s =>
    withArgs s p (both (volumeArg volume) (sizeArg size)) fun s x =>
      unlessRefused s p (volumeChecks s x.1 openStateCheck (some x.2)) fun s =>
        acceptChanging s p x.1 (.resize x.2) (.resize x.1 x.2)

/-- FREEZE taken (R138). -/
def execFreeze (p : Port) (volume : Byte) (s : State) : Answer :=
  .next <| taking s p .freeze [volume] fun s =>
    withArgs s p (volumeArg volume) fun s v =>
      unlessRefused s p (volumeChecks s v openStateCheck (some 0)) fun s =>
        acceptChanging s p v .freeze (.freeze v)

/-- LOCK taken (R139). -/
def execLock (p : Port) (volume : Byte) (s : State) : Answer :=
  .next <| taking s p .lock [volume] fun s =>
    withArgs s p (volumeArg volume) fun s v =>
      unlessRefused s p (volumeChecks s v lockStateCheck (some 0)) fun s =>
        acceptChanging s p v .lock (.lock v)

/-- THAW taken (R140): it sets no state at acceptance. -/
def execThaw (p : Port) (volume : Byte) (s : State) : Answer :=
  .next <| taking s p .thaw [volume] fun s =>
    withArgs s p (volumeArg volume) fun s v =>
      unlessRefused s p (volumeChecks s v thawStateCheck none) fun s => accept s p (.thaw v)

/-- SET_RIGHTS taken (R142). -/
def execSetRights (p : Port) (volume portRight : Byte) (s : State) : Answer :=
  .next <| taking s p .setRights [volume, portRight] fun s =>
    withArgs s p (both (volumeArg volume) (portRightArg portRight)) fun s x =>
      unlessRefused s p (volumeChecks s x.1 rightsStateCheck none) fun s =>
        accept s p (.setRights x.1 x.2.1 x.2.2)

/-- PIN taken (R143): the guard does not act on it (R125). -/
def execPin (p : Port) (volume : Byte) (s : State) : Answer :=
  .next <| taking s p .pin [volume] fun s =>
    withArgs s p (volumeArg volume) fun s v =>
      unlessRefused s p (presentCheck s.volumes[v]) fun s => accept s p (.pin v)

/-- UNPIN taken (R143). -/
def execUnpin (p : Port) (volume : Byte) (s : State) : Answer :=
  .next <| taking s p .unpin [volume] fun s =>
    withArgs s p (volumeArg volume) fun s v =>
      unlessRefused s p ((presentCheck s.volumes[v]).or (guardCheck s v)) fun s => accept s p (.unpin v)

/-- Whether a mask holds no port (R122). -/
def maskEmpty (m : Vector Bool 4) : Bool := (ascending 4).all fun p => !m[p]

/-- Whether the mask that would result from a CONFIG_PORT is empty (R144). -/
def wouldEmptyMask (s : State) (target : Port) (member : Bool) : Bool :=
  match s.engine.settings with
  | some st => maskEmpty (upd st.mask target member)
  | none => !member

/-- CONFIG_PORT taken (R144). -/
def execConfigPort (p : Port) (target : Byte) (quota : Half) (bit : Byte) (s : State) : Answer :=
  .next <| taking s p .configPort (target :: halfBytes quota ++ [bit]) fun s =>
    withArgs s p (both (portArg target) (both (quotaArg quota) (flagArg bit))) fun s x =>
      unlessRefused s p (refuseUnless (!wouldEmptyMask s x.1 x.2.2) (refusal .badArgument)) fun s =>
        accept s p (.configPort x.1 x.2.1 x.2.2)

/-- CONFIG_DEVICE taken (R146): every budget is in range. -/
def execConfigDevice (p : Port) (budget : Byte) (s : State) : Answer :=
  .next <| taking s p .configDevice [budget] fun s =>
    unlessRefused s p (adminCheck s p) fun s => accept s p (.configDevice budget.toNat)

end Sys2Proof.Machine
end

