-- ==== Sys2Proof/Machine/Outcome.lean ====
section
/-! DEFINITION. How an update ends: completion with its effects on the working records, staleness and report (R92 to R97), failure (R98), the entry into STOPPED (R90), relocation (R87), and the power-fail sequence's abandonment, candidates and end (R155, R157, R158). -/

namespace Sys2Proof.Machine

/-! ### Reports (R99) -/

/-- The update report of port `p` is written and UPDATE becomes pending there (R99). -/
def writeReport (s : State) (p : Port) (r : Report) : State :=
  raise (s.modPort p fun c => { c with report := some r }) p .update

/-- The report of a request that completed (R99). -/
def okReport (kind : RequestKind) (plan : Plan) (seq : Word) : Report :=
  ⟨kind.command, .ok, kind.volume, some plan.generations, some seq, none⟩

/-- The report of a request that failed (R99). -/
def failReport (kind : RequestKind) (code : Code) (step : Option FailedStep) : Report :=
  ⟨kind.command, code, kind.volume, none, none, step⟩

/-! ### Records a request holds return (R19, R90, R98, R155) -/

/-- The status a return state stands for (R19). -/
def ReturnState.status : ReturnState → Status
  | .opened => .opened
  | .frozen => .frozen
  | .damaged st => .damaged st

/-- A CHANGING volume takes its return state, and its pending operation is removed. -/
def Volume.returned (x : Volume) : Volume :=
  match x with
  | .present r =>
    match r.status with
    | .changing _ ret => .present { r with status := ret.status }
    | .opened | .frozen | .lockedFrozen | .damaged _ => .present r
  | .absent => .absent
  | .creating n rights k => .creating n rights k

/-- A CREATING volume becomes ABSENT. -/
def Volume.uncreated (x : Volume) : Volume :=
  match x with
  | .creating _ _ _ => .absent
  | .absent => .absent
  | .present r => .present r

/-- The volume a request holds in CHANGING or CREATING returns to what it was (R98, R151, R155). -/
def returnVolume (s : State) (kind : RequestKind) : State :=
  match kind with
  | .delete v | .resize v _ | .freeze v | .lock v => s.setVolume v (Volume.returned s.volumes[v])
  | .create v _ _ _ => s.setVolume v (Volume.uncreated s.volumes[v])
  | .commit | .format | .setRights _ _ _ | .thaw _ | .pin _ | .unpin _ | .configPort _ _ _
  | .configDevice _ => s

/-- A failed commit's transaction is OPEN again, its lease timer restarted but in a power-fail sequence
(R37, R156). -/
def Txn.reopen (t : Txn) (timers : Bool) : Txn :=
  if timers then Txn.startTimer { t with state := .opened } else { t with state := .opened }

/-- The requesting record returns to what it was before the request (R98). -/
def returnRecord (s : State) (req : Request) : State :=
  match req.kind with
  | .commit => s.modTxn req.port fun t => t.reopen (!inPowerFail s)
  | _ => returnVolume s req.kind

/-! ### Failure (R90, R98) -/

/-- A request fails: its record returns, its port's report is written and UPDATE raised (R98). -/
def failRequest (s : State) (req : Request) (code : Code) (step : Option FailedStep) : State :=
  writeReport (returnRecord s req) req.port (failReport req.kind code step)

/-- The engine holds no request in flight and no plan, and is IDLE. -/
def Engine.rest (e : Engine) : Engine :=
  { e with state := .idle, inFlight := none, plan := none, abandon := false }

/-- The update in flight fails, and the engine enters IDLE (R98). -/
def failUpdate (s : State) (code : Code) (step : Option FailedStep) : State :=
  match s.engine.inFlight with
  | some req => (failRequest s req code step).modEngine Engine.rest
  | none => s

/-- Every queued request fails with UPDATE_STOPPED, in queue order, and the queue empties (R90). -/
def failQueue (s : State) : State :=
  (s.engine.queue.foldl (fun t req => failRequest t req .updateStopped none) s).modEngine
    fun e => { e with queue := [] }

/-- The engine enters STOPPED (R90). -/
def enterStopped (s : State) (step : FailedStep) : State :=
  raiseAll
    ((failQueue (failUpdate s .systemAreaFault (some step))).modEngine fun e =>
      { e with state := .stopped, sysareaFault := true })
    .device

/-! ### Relocation (R87, R88) -/

/-- The claim of port `p` on a page names a new shadow frame. -/
def renameShadow (s : State) (p : Port) (v : VolumeNo) (g : PageNo) (f : FrameNo) : State :=
  match (entryOf s v g).shadowOf p with
  | some _ => s.setEntry v g { entryOf s v g with claim := some ⟨p, .data f⟩ }
  | none => s

/-- A frame joins the retired table; MEDIA_WORN is set and DEVICE raised at every port when the table
comes to hold 24 entries (R88). -/
def retire (s : State) (f : FrameNo) : State :=
  let t := (s.setFrameState f .retired).modEngine fun e => { e with retired := e.retired ++ [f] }
  if t.engine.retired.length = Config.retiredCapacity then
    raiseAll (t.modEngine fun e => { e with mediaWorn := true }) .device
  else t

/-- The failed shadow `f` of a page step is retired, the head of the free list takes its content and its
place, and the step's program begins again on it (R87). With an empty free list nothing is done: the
checks of R86 come first. -/
def relocate (s : State) (req : Request) (plan : Plan) (v : VolumeNo) (g : PageNo) (f : FrameNo) (n : Nat) :
    State :=
  match takeFree (retire s f) with
  | none => s
  | some (new, t) =>
    startPage (renameShadow (writeFrame t new (arrayFrame s f)) req.port v g new) plan v g new (n + 1)

/-! ### Completion (R92 to R97) -/

/-- The committed frame an entry with a claim of port `p` gives up at the commit's completion (R93). -/
def Entry.replaced (e : Entry) (p : Port) : Option FrameNo := if e.claimedBy p then e.frame else none

/-- An entry after the completion of a commit of port `p`, with the page check of its page step (R93). -/
def Entry.commit (e : Entry) (p : Port) (check : Half) : Entry :=
  match e.claimOf p with
  | some (.data f) => ⟨some ⟨f, check, false⟩, none⟩
  | some .hole => ⟨none, none⟩
  | none => e

/-- A volume record with the map slot and generation a map step wrote, where there was one (R93, R95). -/
def VolumeRecord.withMap (r : VolumeRecord) : Option (MapSlot × Word) → VolumeRecord
  | some (slot, gen) => { r with mapPresent := true, slot := slot, generation := gen }
  | none => r

/-- A volume record with new entries, its committed page count recounted (R12, R22). -/
def VolumeRecord.withEntries (r : VolumeRecord) (entries : Vector Entry 64) : VolumeRecord :=
  { r with entries := entries, committedPages := countCommitted entries }

/-- A volume after the completion of a commit of port `p` (R93). -/
def Volume.commit (x : Volume) (p : Port) (plan : Plan) (v : VolumeNo) : Volume :=
  match x with
  | .present r =>
    .present ((r.withEntries (tab fun g => r.entries[g].commit p (plan.checkOf v g))).withMap
      (plan.mapOf v))
  | .absent => .absent
  | .creating n rights k => .creating n rights k

/-- The frames a commit's completion releases, in volume order, then page order (R10, R93). -/
def replacedFrames (s : State) (p : Port) : List FrameNo :=
  allPages.filterMap fun x => (entryOf s x.1 x.2).replaced p

/-- The completion of a commit: every claim of port `p` becomes committed state (R36, R93). -/
def completeCommit (s : State) (p : Port) (plan : Plan) : State :=
  let t := freeFrames (setFrames s (shadowsOf s p) .committed) (replacedFrames s p)
  State.modTxn
    { t with volumes := tab fun v => s.volumes[v].commit p plan v, claimCount := upd s.claimCount p 0 }
    p fun x => { x with state := .noTxn }

/-- The committed frames of a volume's pages from page `n` on, in page order (R10). -/
def framesFrom (s : State) (v : VolumeNo) (n : Nat) : List FrameNo :=
  (ascending 64).filterMap fun g => if n ≤ g.val then (entryOf s v g).frame else none

/-- The record a completed CREATE makes (R94). -/
def createdRecord (size : Nat) (rights : Vector Right 4) (pinned : Bool) : VolumeRecord where
  status := .opened
  size := size
  rights := rights
  pinned := pinned
  mapPresent := false
  slot := 0
  generation := 1
  committedPages := 0
  entries := Vector.replicate 64 .hole

/-- A DELETE completes (R94). -/
def completeDelete (s : State) (v : VolumeNo) : State :=
  (freeFrames s (framesFrom s v 0)).setVolume v .absent

/-- The status a volume's own pending operation leaves when it completes as RESIZE: its return state (R95). -/
def Status.settled : Status → Status
  | .changing _ ret => ret.status
  | .opened => .opened
  | .frozen => .frozen
  | .lockedFrozen => .lockedFrozen
  | .damaged st => .damaged st

/-- The status after a THAW completes: OPEN; a volume that a LOCK or DELETE accepted meanwhile holds in
CHANGING stays so, and OPEN becomes the state it returns to (R96, R129, log entry 9). -/
def Status.thawed : Status → Status
  | .changing op _ => .changing op .opened
  | .opened | .frozen | .lockedFrozen | .damaged _ => .opened

/-- The entry of a page at or above the new size after a RESIZE completes: a hole, not poisoned (R95). -/
def Entry.cut (e : Entry) : Entry := { e with committed := none }

/-- A RESIZE completes (R95). -/
def completeResize (s : State) (v : VolumeNo) (n : Nat) (plan : Plan) : State :=
  (freeFrames s (framesFrom s v n)).modVolume v fun r =>
    VolumeRecord.withMap
      { r.withEntries (tab fun g => if n ≤ g.val then r.entries[g].cut else r.entries[g]) with
        size := n, status := r.status.settled }
      (plan.mapOf v)

/-- The effects of a completed request on the working records (R93 to R97). -/
def applyEffects (s : State) (req : Request) (plan : Plan) : State :=
  match req.kind with
  | .commit => completeCommit s req.port plan
  | .create v n rights k => s.setVolume v (.present (createdRecord n rights k))
  | .delete v => completeDelete s v
  | .resize v n => completeResize s v n plan
  | .freeze v => s.modVolume v fun r => { r with status := .frozen }
  | .lock v => s.modVolume v fun r => { r with status := .lockedFrozen }
  | .thaw v => s.modVolume v fun r => { r with status := r.status.thawed }
  | .setRights v p x => s.modVolume v fun r => { r with rights := upd r.rights p x }
  | .pin v => s.modVolume v fun r => { r with pinned := true }
  | .unpin v => s.modVolume v fun r => { r with pinned := false }
  | .configPort _ _ _ | .configDevice _ =>
    s.modEngine fun e => { e with settings := settingsAfter e.settings req.kind }
  | .format =>
    { s with
      engine := { s.engine with settings := some formatSettings }
      device := if s.device = .unformatted then .running else s.device }

/-- Whether the completion of a request makes stale a window of port `q` that is bound so (R59). -/
def stales (kind : RequestKind) (q : Port) (b : Binding) : Bool :=
  match kind with
  | .delete v => b.volume = v
  | .resize v n => b.volume = v ∧ n < b.first.val + b.count
  | .freeze v | .lock v => b.volume = v ∧ b.mode = .write
  | .setRights v p x => b.volume = v ∧ p = q ∧ x.covers b.mode = false
  | .commit | .format | .create _ _ _ _ | .thaw _ | .pin _ | .unpin _ | .configPort _ _ _
  | .configDevice _ => false

/-- A window after the test of a completion (R59). -/
def Window.test (w : Window) (kind : RequestKind) (q : Port) : Window :=
  match w with
  | .bound b => if stales kind q b then .stale b else .bound b
  | .stale b => .stale b
  | .unbound => .unbound

/-- Whether the test of a completion makes a window STALE (R59). -/
def Window.isStaled (w : Window) (kind : RequestKind) (q : Port) : Bool :=
  match w with
  | .bound b => stales kind q b
  | .stale _ | .unbound => false

/-- A port context after the test: WINDOW is raised when at least one window became STALE (R59, R60). -/
def PortContext.test (c : PortContext) (kind : RequestKind) (q : Port) : PortContext :=
  { c with
    windows := tab fun i => c.windows[i].test kind q
    pending :=
      if (ascending 4).any (fun i => c.windows[i].isStaled kind q) then c.pending.add .window
      else c.pending }

/-- The staleness a completion makes at every port (R59, R60). -/
def makeStale (s : State) (kind : RequestKind) : State := s.modPorts fun q c => c.test kind q

/-- The completion of the update in flight, with the root its root step wrote, taken as one happening in
the order of R92. -/
def complete (s : State) (req : Request) (plan : Plan) (slot : RootSlot) (seq : Word) : State :=
  let s1 := s.modEngine fun e => { e with selected := some slot, sequence := some seq }
  let s2 := applyEffects s1 req plan
  let s3 := makeStale s2 req.kind
  let s4 := writeReport s3 req.port (okReport req.kind plan seq)
  s4.modEngine Engine.rest

/-! ### The power-fail sequence (R153 to R158) -/

/-- The update in flight is abandoned: no outcome, no report, and its volume returns (R155). -/
def abandonUpdate (s : State) : State :=
  match s.engine.inFlight with
  | some req => (returnVolume s req.kind).modEngine Engine.rest
  | none => s

/-- A durable-on-loss candidate (R157): the first list's are queued, the second list's are open. -/
inductive Candidate where
  | queued (p : Port)
  | opened (p : Port)
  deriving DecidableEq, Repr

/-- The next candidate of the first list: a queued COMMIT of a durable-on-loss transaction, in queue order. -/
def nextQueued (s : State) (skipped : Vector Bool 4) : Option Candidate :=
  (s.engine.queue.find? fun r =>
    r.kind = .commit ∧ s.ports[r.port].txn.durable = true ∧ skipped[r.port] = false).map fun r =>
      .queued r.port

/-- The next candidate of the second list: an OPEN durable-on-loss transaction with claims whose port is
not in the ports taken, in port order. -/
def nextOpen (s : State) (taken skipped : Vector Bool 4) : Option Candidate :=
  ((ascending 4).find? fun p =>
    decide (s.ports[p].txn.state = .opened ∧ s.ports[p].txn.durable = true ∧ 0 < s.claimCount[p] ∧
      taken[p] = false ∧ skipped[p] = false)).map .opened

/-- The next candidate the sequence would consider: none while an update runs, and none when the engine
is STOPPED (R156, R157). -/
def nextCandidate (s : State) : Option Candidate :=
  match s.device, s.engine.inFlight with
  | .powerFail _ taken skipped, none =>
    if engineStopped s then none else (nextQueued s skipped).or (nextOpen s taken skipped)
  | _, _ => none

/-- The device enters HALTED when the sequence has nothing left to do (R158). -/
def settleSequence (s : State) : State :=
  if inPowerFail s ∧ s.engine.inFlight = none ∧ nextCandidate s = none then { s with device := .halted }
  else s

/-- One unit of the budget in use is spent, where there is one; outside a power-fail sequence a program
costs nothing. None means that the sequence cannot start the program (R154). -/
def spendOne (s : State) : Option State :=
  match s.device with
  | .powerFail b taken skipped => if b = 0 then none else some { s with device := .powerFail (b - 1) taken skipped }
  | _ => some s

/-- What follows the outcome of a program: nothing where no update runs any more (R109, R159), the
abandonment where the sequence has marked the update (R153), otherwise the engine acts on it. -/
def afterOutcome (s : State) (act : Request → Plan → PlanStep → State) : State :=
  match s.engine.inFlight, s.engine.plan with
  | some req, some plan =>
    match plan.step with
    | some step => settleSequence (if s.engine.abandon then abandonUpdate s else act req plan step)
    | none => s
  | _, _ => s

end Sys2Proof.Machine
end

