-- ==== Sys2Proof/Machine/Power.lean ====
section
/-! DEFINITION. The supply monitor: PFAIL and the power-fail sequence (R150 to R153, R158 to R160), RESET_N (R149), power-up and loss of supply (R147, R148), and LOCKIN (R126). -/

namespace Sys2Proof.Machine

/-! ### Entry into the power-fail sequence -/

/-- The budget in use at entry: the hold-up budget of the settings as they stand, 0 without settings (R152). -/
def budgetAtEntry (s : State) : Nat :=
  match s.engine.settings with
  | some st => st.budget
  | none => 0

/-- Every queued administration request is discarded, and its volume returns; the COMMIT requests keep
their order (R151). -/
def discardAdmin (s : State) : State :=
  let t := (s.engine.queue.filter Request.isAdmin).foldl (fun t r => returnVolume t r.kind) s
  t.modEngine fun e => { e with queue := e.queue.filter fun r => !r.isAdmin }

/-- The update in flight is judged once (R153): its unstarted programs fit the budget and are spent, or it
is marked for abandonment. A COMMIT's port joins the ports taken either way. -/
def judgeInFlight (s : State) (b : Nat) : State :=
  let none4 : Vector Bool 4 := Vector.replicate 4 false
  match s.engine.inFlight, s.engine.plan with
  | some req, some plan =>
    let taken := if req.kind = .commit then upd none4 req.port true else none4
    if plan.unstarted ≤ b then
      { s.modEngine fun e => { e with abandon := false } with
        device := .powerFail (b - plan.unstarted) taken none4 }
    else { s.modEngine fun e => { e with abandon := true } with device := .powerFail b taken none4 }
  | _, _ => { s with device := .powerFail b none4 none4 }

/-- The entry into POWER_FAIL, one happening (R150, R151); the device enters HALTED at once where there is
nothing to do (R158). -/
def enterPowerFail (s : State) : State :=
  settleSequence (judgeInFlight (discardAdmin (closeLinks s)) (budgetAtEntry s))

/-- PFAIL is asserted (R148, R151, R160). The line's level is what its changes leave (R148). -/
def execPfailAsserted (s : State) : Answer :=
  .next <|
    let t := { s with pfail := true }
    match s.device with
    | .running | .unformatted => enterPowerFail t
    | .recalling _ => { t with device := .halted }
    | .powerFail _ _ _ | .halted => t
    | .off => s

/-! ### Ways out -/

/-- The device enters RECALLING, and a recall begins at its first step (R109). -/
def beginRecall (s : State) : State := { s with device := .recalling .rootSlots }

/-- PFAIL is deasserted (R148): in POWER_FAIL the sequence ends, its update is abandoned but the program in
progress runs on (R159); in HALTED a recall begins if RESET_N is released. -/
def execPfailDeasserted (s : State) : Answer :=
  .next <|
    let t := { s with pfail := false }
    match s.device with
    | .powerFail _ _ _ => beginRecall (abandonUpdate t)
    | .halted => if s.resetN then t else beginRecall t
    | .running | .unformatted | .recalling _ => t
    | .off => s

/-- The update in flight ends without an outcome (R101): no report, no attention; the recall that follows
rebuilds the engine. -/
def dropUpdate (s : State) : State :=
  s.modEngine fun e => if e.state = .stopped then e else e.rest

/-- RESET_N is asserted (R149): the device goes to HALTED from every state, and the program in progress is
cut short. -/
def execResetNAsserted (s : State) : Answer :=
  .next <|
    if s.device = .off then s
    else { dropUpdate (closeLinks (cutProgram s)) with resetN := true, device := .halted }

/-- RESET_N is released (R148, R149): in HALTED a recall begins if PFAIL is deasserted. -/
def execResetNReleased (s : State) : Answer :=
  .next <|
    let t := { s with resetN := false }
    match s.device with
    | .halted => if s.pfail then t else beginRecall t
    | .running | .unformatted | .recalling _ | .powerFail _ _ _ => t
    | .off => s

/-! ### The supply -/

/-- Everything volatile ends; the cells, the LOCKIN level, the free-value counter and the waiting
happenings remain. -/
def volatileLost (s : State) (d : Device) : State :=
  { State.reset with
    device := d, cells := s.cells, lockin := s.lockin, draws := s.draws, pending := s.pending }

/-- Power-up (R147): the supply monitor enters RECALLING. The levels of PFAIL and RESET_N start as
deasserted: a line that is asserted already is taken as an assertion right after this entry (R147). -/
def execPowerUp (s : State) : Answer :=
  .next <| if s.device = .off then volatileLost s (.recalling .rootSlots) else s

/-- Loss of supply ends every state (R148): a program in progress is cut short (R2). -/
def execLossOfSupply (s : State) : Answer :=
  .next <| if s.device = .off then s else volatileLost (cutProgram s) .off

/-- The level of LOCKIN changes (R126); acceptances that follow read it. -/
def execLockinChange (asserted : Bool) (s : State) : Answer :=
  .next { s with lockin := asserted }

end Sys2Proof.Machine
end

