-- ==== Sys2Proof/Machine/Query.lean ====
section
/-! DEFINITION. The commands that answer records: GET_RESULT, INFO_VOLUME, INFO_PAGE and INFO_DEVICE with the layouts of their responses (R182 to R188), and SET_ATTN (R181). -/

namespace Sys2Proof.Machine

/-- The value of a result code (R188). -/
def Code.value : Code → Byte
  | .ok => 0x00#8 | .queued => 0x01#8 | .notReady => 0x02#8 | .unknownCommand => 0x03#8
  | .shortFrame => 0x04#8 | .badArgument => 0x05#8 | .notFormatted => 0x06#8
  | .alreadyFormatted => 0x07#8 | .notAdmin => 0x10#8 | .noRight => 0x11#8 | .guarded => 0x12#8
  | .permanent => 0x13#8 | .noVolume => 0x20#8 | .volumeExists => 0x21#8 | .volumeChanging => 0x22#8
  | .volumeFrozen => 0x23#8 | .volumeDamaged => 0x24#8 | .inUse => 0x25#8 | .windowUnbound => 0x30#8
  | .windowStale => 0x31#8 | .windowMode => 0x32#8 | .windowEnd => 0x33#8 | .pagePoisoned => 0x34#8
  | .noTxn => 0x40#8 | .txnExists => 0x41#8 | .txnBusy => 0x42#8 | .txnExpired => 0x43#8
  | .claimed => 0x44#8 | .quotaReached => 0x45#8 | .noFrame => 0x46#8 | .requestPending => 0x50#8
  | .updateStopped => 0x51#8 | .wearOut => 0x52#8 | .systemAreaFault => 0x53#8

/-! ### GET_RESULT -/

/-- The byte with bit `i` set when flag `i` of the list is, bit 0 first. The bits above the list are 0: the manual
says so of byte 0 of GET_RESULT alone, and for the other flag bytes it is the model's choice (log entry 24). -/
def bitsByte : List Bool → Byte
  | [] => 0#8
  | b :: rest => BitVec.ofNat 8 (b.toNat + 2 * (bitsByte rest).toNat)

/-- Bytes 3 to 8: detail presence and detail (R186). -/
def detailBytes (d : Option Detail) : List Byte :=
  match d with
  | none => List.replicate 6 0x00#8
  | some d =>
    [bitsByte [d.port.isSome, d.volume.isSome, d.page.isSome, d.value.isSome],
     BitVec.ofNat 8 (d.port.getD 0).val, BitVec.ofNat 8 (d.volume.getD 0).val,
     BitVec.ofNat 8 (d.page.getD 0).val] ++ halfBytes (d.value.getD 0#16)

/-- Bytes 0 to 8: the result record (R186). -/
def resultBytes (r : ResultRecord) : List Byte :=
  [bitsByte [r.result.isSome, r.command.isSome], r.command.getD 0x00#8,
   match r.result with | some x => x.code.value | none => 0x00#8] ++
  detailBytes (r.result.bind fun x => x.detail)

/-- The code of an access kind (R186). -/
def Access.code : Access → Byte
  | .read => 0#8
  | .write => 1#8
  | .punch => 2#8

/-- Bytes 11 to 18: the fault record (R186). -/
def faultBytes (f : Option FaultRecord) : List Byte :=
  match f with
  | none => List.replicate 8 0x00#8
  | some f =>
    [bitsByte [true, f.further, f.page.isSome], f.cause.code.value, f.access.code,
     BitVec.ofNat 8 f.window.val, BitVec.ofNat 8 f.volume.val, BitVec.ofNat 8 (f.page.getD 0)] ++
    halfBytes (BitVec.ofNat 16 f.offset)

/-- Bytes 27 to 29: the failed step (R186). -/
def failedStepBytes (x : Option FailedStep) : List Byte :=
  match x with
  | none => [0#8, 0#8, 0#8]
  | some (.page v g) => [0#8, BitVec.ofNat 8 v.val, BitVec.ofNat 8 g.val]
  | some (.mapSlot v slot) => [1#8, BitVec.ofNat 8 v.val, BitVec.ofNat 8 slot.val]
  | some (.rootSlot .a) => [2#8, 0#8, 0#8]
  | some (.rootSlot .b) => [2#8, 1#8, 0#8]

/-- Bytes 30 onward: the generation count and the generations (R186). -/
def generationBytes (l : List (VolumeNo × Word)) : List Byte :=
  [BitVec.ofNat 8 l.length] ++ l.flatMap fun x => [BitVec.ofNat 8 x.1.val] ++ bytes32 x.2

/-- Bytes 19 onward: the update report (R186). -/
def reportBytes (r : Option Report) : List Byte :=
  match r with
  | none => List.replicate 12 0x00#8
  | some r =>
    [bitsByte [true, r.volume.isSome, r.sequence.isSome, r.failedStep.isSome], r.kind.code,
     r.outcome.value, BitVec.ofNat 8 (r.volume.getD 0).val] ++ bytes32 (r.sequence.getD 0#32) ++
    failedStepBytes r.failedStep ++ generationBytes (r.generations.getD [])

/-- The response of GET_RESULT, from the port's records as they stand (R182, R186). -/
def getResultResponse (c : PortContext) : List Byte :=
  resultBytes c.result ++ [c.pending.toByte, c.mask.toByte] ++ faultBytes c.fault ++ reportBytes c.report

/-- GET_RESULT taken (R182): the response is fixed, then the fault record is emptied and every cause but
LEASE is cleared. -/
def execGetResult (p : Port) (s : State) : Answer :=
  .next <| taking s p .getResult [] fun s =>
    reply
      (s.modPort p fun c =>
        { c with fault := none, pending := { Causes.empty with lease := c.pending.lease } })
      p .ok (getResultResponse s.ports[p])

/-! ### SET_ATTN -/

/-- SET_ATTN taken (R181): the mask is replaced, unless bits 7 to 5 of the byte are set. -/
def execSetAttn (p : Port) (mask : Byte) (s : State) : Answer :=
  .next <| taking s p .setAttn [mask] fun s =>
    match causesArg mask with
    | none => reply s p (refusal .badArgument) []
    | some m => reply (s.modPort p fun c => { c with mask := m }) p .ok []

/-! ### INFO_VOLUME -/

/-- The state byte of a status (R187). -/
def Status.code : Status → Byte
  | .opened => 1#8
  | .frozen => 2#8
  | .lockedFrozen => 3#8
  | .changing _ _ => 5#8
  | .damaged _ => 6#8

/-- Bytes 0 to 8 of the response of INFO_VOLUME (R183, R187). -/
def volumeBytes (x : Volume) : List Byte :=
  match x with
  | .absent => List.replicate 9 0x00#8
  | .creating n rights k =>
    [4#8, BitVec.ofNat 8 n, rightsByte rights, flagsByte k false 0] ++ bytes32 0#32 ++ [0#8]
  | .present r =>
    [r.status.code, BitVec.ofNat 8 r.size, rightsByte r.rights, flagsByte r.pinned r.mapPresent r.slot] ++
      bytes32 r.generation ++ [BitVec.ofNat 8 r.committedPages]

/-- The response of INFO_VOLUME (R187). -/
def infoVolumeResponse (s : State) (v : VolumeNo) : List Byte :=
  volumeBytes s.volumes[v] ++
    (ascending 4).flatMap fun p => halfBytes (BitVec.ofNat 16 (claimsInVolume s v p))

/-- INFO_VOLUME taken (R183): accepted for a volume in any state. -/
def execInfoVolume (p : Port) (volume : Byte) (s : State) : Answer :=
  .next <| taking s p .infoVolume [volume] fun s =>
    unlessRefused s p (formatCheck s) fun s =>
      match volumeArg volume with
      | none => reply s p (refusal .badArgument) []
      | some v => reply s p .ok (infoVolumeResponse s v)

/-! ### INFO_PAGE -/

/-- Whether a claim kind is HOLE. -/
def ClaimKind.isHole : ClaimKind → Bool
  | .hole => true
  | .data _ => false

/-- The response byte of INFO_PAGE (R187). -/
def infoPageByte (e : Entry) : Byte :=
  BitVec.ofNat 8
    (e.committed.isSome.toNat + 2 * (e.committed.any fun c => c.poisoned).toNat +
      4 * e.claim.isSome.toNat + 8 * (e.claim.any fun c => c.kind.isHole).toNat +
      16 * (match e.claim with | some c => c.port.val | none => 0))

/-- INFO_PAGE taken (R184). -/
def execInfoPage (p : Port) (volume page : Byte) (s : State) : Answer :=
  .next <| taking s p .infoPage [volume, page] fun s =>
    unlessRefused s p (formatCheck s) fun s =>
      match volumeArg volume, pageArg page with
      | some v, some g =>
        unlessRefused s p (if Volume.isPresent s.volumes[v] then none else some (refusal .noVolume)) fun s =>
          reply s p .ok [infoPageByte (entryOf s v g)]
      | _, _ => reply s p (refusal .badArgument) []

/-! ### INFO_DEVICE -/

/-- The device state byte: 1 UNFORMATTED, 2 RUNNING (R187). It is taken in no other state (R147). -/
def deviceByte (d : Device) : Byte :=
  match d with
  | .unformatted => 1#8
  | .running => 2#8
  | .off | .recalling _ | .powerFail _ _ _ | .halted => 0#8

/-- The engine state byte (R187). -/
def EngineState.code : EngineState → Byte
  | .idle => 0#8
  | .frames => 1#8
  | .maps => 2#8
  | .root => 3#8
  | .stopped => 4#8

/-- The settings part of the response of INFO_DEVICE; without settings the fields read 0 (R185). -/
def settingsBytes (st : Option Settings) : List Byte :=
  match st with
  | some st => [maskByte st.mask] ++ quotaBytes st.quotas ++ [BitVec.ofNat 8 st.budget]
  | none => List.replicate 10 0x00#8

/-- The response of INFO_DEVICE (R185, R187). -/
def infoDeviceResponse (s : State) : List Byte :=
  [deviceByte s.device, s.engine.state.code, BitVec.ofNat 8 s.engine.queue.length] ++
    halfBytes (BitVec.ofNat 16 s.freeList.length) ++ [BitVec.ofNat 8 s.engine.retired.length] ++
    bytes32 (s.engine.sequence.getD 0#32) ++ settingsBytes s.engine.settings ++
    [bitsByte [s.engine.mediaWorn, s.engine.sysareaFault]]

/-- INFO_DEVICE taken (R185): it is refused in neither state. -/
def execInfoDevice (p : Port) (s : State) : Answer :=
  .next <| taking s p .infoDevice [] fun s => reply s p .ok (infoDeviceResponse s)

end Sys2Proof.Machine
end

