-- ==== Sys2Proof/Machine/Recall.lean ====
section
/-! DEFINITION. The recall sequence (R109 to R116): the root slots, the volume table, the page checks, and the steps that end the recall. A recall step is taken when the recall stands at it; the first one waits for a program still in progress (R109). -/

namespace Sys2Proof.Machine

/-- Whether the recall stands at a step and no program is in progress (R109). -/
def recallAt (s : State) (step : RecallStep) : Bool := s.device = .recalling step ∧ s.program = none

/-! ### The root slots (R110, R111) -/

/-- The choice between the root slots as the working array holds them (R105, R106). -/
def selectedRoot (s : State) : Option (RootSlot × Root) :=
  selectRoot (judgeRoot (arrayFrame s RootSlot.a.frame)) (judgeRoot (arrayFrame s RootSlot.b.frame))

/-- What recall takes from the selected root (R110). -/
def takeRoot (s : State) (slot : RootSlot) (r : Root) : State :=
  { s.modEngine fun e =>
      { e with sequence := some r.sequence, selected := some slot, settings := some r.settings,
               retired := r.retired } with
    device := .recalling .volumeTable }

/-- The rebuild of an unformatted part (R111). -/
def rebuildUnformatted (s : State) : State :=
  { s.modEngine fun e => { e with sequence := none, selected := none, settings := none, retired := [] } with
    device := .recalling .finish
    volumes := Vector.replicate 16 .absent
    frameStates := Vector.replicate 2014 .free
    freeList := wholePool
    claimCount := Vector.replicate 4 0 }

/-- The first recall step (R110): both root slots are recalled and judged, and one or none is selected. -/
def recallRoots (s : State) : State :=
  let t := recallFrame (recallFrame s RootSlot.a.frame) RootSlot.b.frame
  match selectedRoot t with
  | some (slot, r) => takeRoot t slot r
  | none => rebuildUnformatted t

/-- RECALL_ROOT_SLOTS (R110, R111). -/
def execRecallRootSlots (s : State) : Answer :=
  .next <| if recallAt s .rootSlots then recallRoots s else s

/-! ### The volume table (R112) -/

/-- The status a durable state gives a recalled volume (R13). -/
def Settled.status : Settled → Status
  | .opened => .opened
  | .frozen => .frozen
  | .lockedFrozen => .lockedFrozen

/-- The entry a good map image gives a page; poison is found by the next step (R112). -/
def recalledEntry (e : ImageEntry) : Entry := ⟨e.map fun x => ⟨x.1, x.2, false⟩, none⟩

/-- The frames a map image holds, in page order. -/
def imageFrames (entries : Vector ImageEntry 64) : List FrameNo :=
  (ascending 64).filterMap fun g => entries[g].map fun x => x.1

/-- The working record of a volume from its durable record, with the given status and entries (R112). -/
def recalledRecord (st : Status) (n : Nat) (rights : Vector Right 4) (k m : Bool) (slot : MapSlot)
    (gen : Word) (entries : Vector Entry 64) : VolumeRecord :=
  ⟨st, n, rights, k, m, slot, gen, countCommitted entries, entries⟩

/-- The rebuild of the volume table so far: the state, and the frames accepted (R112). -/
structure Rebuild where
  state : State
  accepted : List FrameNo

/-- Recall rebuilds one volume from its durable record (R112). -/
def recallVolume (retired : List FrameNo) (x : Rebuild) (v : VolumeNo) (d : Durable) : Rebuild :=
  match d with
  | .absent => ⟨x.state.setVolume v .absent, x.accepted⟩
  | .kept st n rights k false slot gen =>
    ⟨x.state.setVolume v
      (.present (recalledRecord st.status n rights k false slot gen (Vector.replicate 64 .hole))),
      x.accepted⟩
  | .kept st n rights k true slot gen =>
    let t := recallFrame x.state (mapFrame v slot)
    match judgeImage (arrayFrame t (mapFrame v slot)) v gen n retired x.accepted with
    | some entries =>
      ⟨t.setVolume v
        (.present (recalledRecord st.status n rights k true slot gen
          (tab fun g => recalledEntry entries[g]))),
        x.accepted ++ imageFrames entries⟩
    | none =>
      ⟨t.setVolume v
        (.present (recalledRecord (.damaged st) n rights k true slot gen (Vector.replicate 64 .hole))),
        x.accepted⟩

/-- The root the recall has selected, read from its slot's recalled bytes (R110, R112). -/
def recalledRoot (s : State) : Option Root :=
  s.engine.selected.bind fun slot => judgeRoot (arrayFrame s slot.frame)

/-- The volume table is rebuilt, volumes 0 to 15 in volume order (R112). -/
def recallVolumes (s : State) (r : Root) : State :=
  ((ascending 16).foldl (fun x v => recallVolume r.retired x v r.volumes[v]) ⟨s, []⟩).state

/-- RECALL_VOLUME_TABLE (R112). -/
def execRecallVolumeTable (s : State) : Answer :=
  .next <|
    if recallAt s .volumeTable then
      match recalledRoot s with
      | some r => { recallVolumes s r with device := .recalling .pageChecks }
      | none => s
    else s

/-! ### The page checks (R113) -/

/-- Every committed frame of the volume table, in volume order, then page order. -/
def committedFrames (s : State) : List FrameNo :=
  allPages.filterMap fun x => (entryOf s x.1 x.2).frame

/-- An entry after its frame's content is checked: poisoned when the check differs (R23, R113). -/
def Entry.checked (e : Entry) (s : State) : Entry :=
  { e with committed := e.committed.map fun c =>
      if pageCheck (cellFrame s c.frame) = c.check then c else { c with poisoned := true } }

/-- A volume after its pages are checked. -/
def Volume.checked (x : Volume) (s : State) : Volume :=
  match x with
  | .present r => .present { r with entries := tab fun g => r.entries[g].checked s }
  | .absent => .absent
  | .creating n rights k => .creating n rights k

/-- Every accepted frame is recalled and checked (R113). -/
def checkPages (s : State) : State :=
  { (committedFrames s).foldl recallFrame s with
    volumes := tab fun v => s.volumes[v].checked s }

/-- RECALL_PAGE_CHECKS (R113). -/
def execRecallPageChecks (s : State) : Answer :=
  .next <|
    if recallAt s .pageChecks then { checkPages s with device := .recalling .finish } else s

/-! ### The end of the recall (R114, R115, R116) -/

/-- The frame with an index in the table of pool frame states. -/
def poolFrame (i : Fin 2014) : FrameNo := ⟨i.val + 34, by omega⟩

/-- The state the fifth step gives a pool frame (R114). -/
def recalledFrameState (s : State) (f : FrameNo) : FrameState :=
  if f ∈ committedFrames s then .committed
  else if f ∈ s.engine.retired then .retired
  else .free

/-- The fifth step: every pool frame takes its state, and the free list holds the FREE frames in
ascending order (R114). -/
def rebuildFrames (s : State) : State :=
  { s with
    frameStates := tab fun i => recalledFrameState s (poolFrame i)
    freeList := wholePool.filter fun f => decide (recalledFrameState s f = .free) }

/-- The sixth step: every port context takes its values after recall; the frame records stay (R115, R161). -/
def resetPorts (s : State) : State :=
  { s.modPorts fun _ c => .recalled c.frame with claimCount := Vector.replicate 4 0 }

/-- The seventh step: the update engine (R116). -/
def resetEngine (s : State) : State :=
  s.modEngine fun e =>
    { e.rest with queue := [], sysareaFault := false,
                  mediaWorn := decide (e.retired.length = Config.retiredCapacity) }

/-- The eighth step: RUNNING when a root was selected, UNFORMATTED when none was (R116). -/
def endRecall (s : State) : State :=
  { s with device := if s.engine.selected.isSome then .running else .unformatted }

/-- RECALL_END (R114 to R116). -/
def execRecallEnd (s : State) : Answer :=
  .next <|
    if recallAt s .finish then endRecall (resetEngine (resetPorts (rebuildFrames s))) else s

end Sys2Proof.Machine
end

