-- ==== Sys2Proof/WellFormed.lean ====
section
/-! DEFINITION. When a row's operands are ones the happening can carry. A command's argument values are never ill-formed: a value out of range arrives as it is and the command's own checks refuse it (R172). Only the two rows about a command byte put a condition on their byte. -/

namespace Sys2Proof

/-- Whether a command byte names a command that takes arguments (R166). -/
def takesArguments (value : Byte) : Bool :=
  match decodeCommand value with
  | some c => 0 < c.argCount
  | none => false

/-- An unknown command byte is one the table does not list, and a command byte that leads to phase
ARGUMENTS is a known one with arguments (R166); every other row admits all its operands (R172). -/
def Instr.wf : Instr → Bool
  | .unknownCommand _ value => (decodeCommand value).isNone
  | .commandByteComplete _ value => takesArguments value
  | _ => true

end Sys2Proof
end

