-- ==== Sys2Proof/Machine/Serial.lean ====
section
/-! DEFINITION. The frame of a serial port: the fall and the rise of the select line, the command byte and the argument bytes (R161 to R170). -/

namespace Sys2Proof.Machine

/-! ### Select fall -/

/-- The clock mode that the clock's level at select fall tells (R162). -/
def ClockMode.ofLevel (clockHigh : Bool) : ClockMode := if clockHigh then .mode3 else .mode0

/-- The level at which the clock rests, high or not, and so stands when a frame begins (R162). -/
def ClockMode.restsHigh : ClockMode → Bool
  | .mode0 => false
  | .mode3 => true

/-- The frame record a select fall begins (R163): its clock mode from the clock level (R162), its status
byte fixed, and its phase by the device state. The clock stands where its mode rests, and no edge has been
taken. -/
def FrameRecord.fallen (clockHigh : Bool) (status : Byte) (ready : Bool) : FrameRecord where
  phase := if ready then .command else .notReady
  clockMode := .ofLevel clockHigh
  status := status
  bitCount := 0
  command := none
  arguments := []
  result := none
  output := status
  response := []
  clock := (ClockMode.ofLevel clockHigh).restsHigh
  sampled := 0#8
  shown := none

/-- The select line of port `p` falls (R163). A line that is low already does not fall, and a part without
supply takes nothing (log entry 1). -/
def execSelectFall (p : Port) (clockHigh : Bool) (s : State) : Answer :=
  .next <|
    if s.ports[p].frame.phase = .noFrame ∧ s.device ≠ .off then
      s.modFrame p fun _ => .fallen clockHigh (statusByte s p) (ready s)
    else s

/-! ### Command and argument bytes -/

/-- The result of an unknown command byte, with the byte as detail (R166, R176). -/
def unknownResult (value : Byte) : Result := ⟨.unknownCommand, some (.ofValue value.toNat), .refused⟩

/-- A complete command byte that the table does not list (R166): the frame enters IGNORING. -/
def execUnknownCommand (p : Port) (value : Byte) (s : State) : Answer :=
  .next <|
    if s.ports[p].frame.phase = .command ∧ decodeCommand value = none then
      s.modFrame p fun f =>
        { f with phase := .ignoring, command := some value, result := some (unknownResult value),
                 output := 0xFF#8 }
    else ignoreByte s p

/-- A complete command byte of a known command with arguments (R166): the frame enters ARGUMENTS. -/
def execCommandByteComplete (p : Port) (value : Byte) (s : State) : Answer :=
  .next <|
    if s.ports[p].frame.phase = .command ∧ takesArguments value = true then
      s.modFrame p fun f => { f with phase := .arguments, command := some value, output := 0x00#8 }
    else ignoreByte s p

/-- How many argument bytes the command of a frame takes. -/
def FrameRecord.argCount (f : FrameRecord) : Nat :=
  match f.command.bind decodeCommand with
  | some c => c.argCount
  | none => 0

/-- A complete argument byte that is not the last (R167): it is kept. The last one is the taking of the
command, which is the command's own row. -/
def execArgumentByte (p : Port) (value : Byte) (s : State) : Answer :=
  .next <|
    if s.ports[p].frame.phase = .arguments ∧
        s.ports[p].frame.arguments.length + 1 < s.ports[p].frame.argCount then
      s.modFrame p fun f => { f with arguments := f.arguments ++ [value], output := 0x00#8 }
    else ignoreByte s p

/-! ### Select rise -/

/-- The result of a short frame, with the number of its complete bytes as detail (R169, R176). -/
def shortResult (n : Nat) : Result := ⟨.shortFrame, some (.ofValue n), .short⟩

/-- What a frame records at select rise (R169); none where nothing is recorded. -/
def FrameRecord.outcome (f : FrameRecord) : Option ResultRecord :=
  match f.phase with
  | .command => some ⟨none, some (shortResult 0)⟩
  | .arguments => some ⟨f.command, some (shortResult (1 + f.arguments.length))⟩
  | .data | .ignoring => f.result.map fun r => ⟨f.command, some r⟩
  | .notReady | .noFrame => none

/-- The select line of port `p` rises (R169): the frame's result is recorded, and the frame and burst
records are discarded. A line that is high already does not rise (log entry 1). -/
def execSelectRise (p : Port) (s : State) : Answer :=
  .next <|
    if s.ports[p].frame.phase = .noFrame then s
    else
      s.modPort p fun c =>
        { c with frame := .idle, burst := none, result := c.frame.outcome.getD c.result }

end Sys2Proof.Machine
end

