-- ==== Sys2Proof/Machine/Update.lean ====
section
/-! DEFINITION. The happenings of the update engine: the removal of the head request (R78), the outcomes of page, map and root programs (R83, R84, R86, R89, R92), and the durable-on-loss candidates of a power-fail sequence (R157). -/

namespace Sys2Proof.Machine

/-! ### Removal (R78) -/

/-- The removal check of THAW: the volume is FROZEN (R78). A THAW meets OPEN or CHANGING otherwise; the
remaining states are met in no run and are answered as acceptance answers them (log entry 2). -/
def thawRemovalCheck (x : Option Status) : Option Code :=
  (thawStateCheck x).map fun r => r.code

/-- The removal checks (R78): the code a request fails with. -/
def removalCheck (s : State) (kind : RequestKind) : Option Code :=
  match kind with
  | .format => if s.device = .unformatted then none else some .alreadyFormatted
  | .thaw v => thawRemovalCheck (Volume.status s.volumes[v])
  | .setRights v _ _ | .pin v | .unpin v =>
    if Volume.isPresent s.volumes[v] then none else some .noVolume
  | .configPort p _ k => if wouldEmptyMask s p k then some .badArgument else none
  | .commit | .create _ _ _ _ | .delete _ | .resize _ _ | .freeze _ | .lock _ | .configDevice _ => none

/-- The head request leaves the queue (R76). -/
def dropHead (s : State) : State := s.modEngine fun e => { e with queue := e.queue.drop 1 }

/-- The transaction of a port becomes COMMITTING (R35, R38). -/
def startCommitting (s : State) (p : Port) : State :=
  s.modTxn p fun t => { t.stopTimer with state := .committing }

/-- The request becomes the request in flight (R78): a COMMIT's transaction becomes COMMITTING, the
removal checks are made, and the plan is built and started, or the request fails with no program. -/
def removeRequest (s : State) (req : Request) : State :=
  let s1 := if req.kind = .commit then startCommitting (dropHead s) req.port else dropHead s
  match removalCheck s1 req.kind with
  | some code => (failRequest s1 req code none).modEngine Engine.rest
  | none => beginUpdate s1 req

/-- The request the engine would remove now: the head of the queue, while the engine is IDLE and the
device RUNNING or UNFORMATTED (R78, R91). -/
def removable (s : State) : Option Request :=
  if s.engine.state = .idle ∧ s.engine.inFlight = none ∧ ready s = true then s.engine.queue.head?
  else none

/-- REQUEST_REMOVAL (R78). Where there is nothing to remove, the engine stays as it is (R40, R91). -/
def execRequestRemoval (s : State) : Answer :=
  .next <| match removable s with
    | some req => removeRequest s req
    | none => s

/-! ### Program outcomes -/

/-- The program of a pool frame ends in pass (R2, R83): the engine advances, or abandons the update. -/
def execPageStepPass (s : State) : Answer :=
  .next <| match s.program with
    | some f =>
      if isPool f then
        let t := programPasses s f
        afterOutcome t fun _ _ _ => nextStep t
      else s
    | none => s

/-- What the engine does with the failed program of a page step: the checks of R86 in order, then in a
power-fail sequence the budget (R154), then the relocation (R87). -/
def failPage (s : State) (req : Request) (plan : Plan) (v : VolumeNo) (g : PageNo) (f : FrameNo) (n : Nat) :
    State :=
  if Config.maxRelocations ≤ n then failUpdate s .wearOut (some (.page v g))
  else if Config.retiredCapacity ≤ s.engine.retired.length then failUpdate s .wearOut (some (.page v g))
  else if s.freeList = [] then failUpdate s .noFrame (some (.page v g))
  else
    match spendOne s with
    | some t => relocate t req plan v g f n
    | none => abandonUpdate s

/-- The program of a pool frame ends in fail (R2, R86). -/
def execPageStepFail (s : State) : Answer :=
  .next <| match s.program with
    | some f =>
      if isPool f then
        let t := programFails s f
        afterOutcome t fun req plan step =>
          match step with
          | .page v g h n _ => failPage t req plan v g h n
          | .map _ _ _ _ | .root _ _ _ => t
      else s
    | none => s

/-- The program of a map slot ends in pass (R2, R84). -/
def execMapStepPass (s : State) : Answer :=
  .next <| match s.program with
    | some f =>
      if !isPool f && !isRootSlot f then
        let t := programPasses s f
        afterOutcome t fun _ _ _ => nextStep t
      else s
    | none => s

/-- The step with its retry used, where the step is of the system area (R89). -/
def PlanStep.retried : PlanStep → PlanStep
  | .map v slot gen _ => .map v slot gen true
  | .root slot seq _ => .root slot seq true
  | .page v g f n c => .page v g f n c

/-- The failed program is handed to the store array once more: the frame's bytes stay as they were
written when the step began (R89). -/
def retryStep (s : State) (plan : Plan) (step : PlanStep) (f : FrameNo) : State :=
  { s.modEngine fun e => { e with plan := some (plan.setStep step.retried) } with program := some f }

/-- What the engine does with the failed program of a map or root step (R89), with the cost of a retry
in a power-fail sequence (R154). -/
def failSystem (s : State) (plan : Plan) (step : PlanStep) (f : FrameNo) (retryUsed : Bool)
    (failed : FailedStep) : State :=
  if retryUsed then enterStopped s failed
  else
    match spendOne s with
    | some t => retryStep t plan step f
    | none => abandonUpdate s

/-- The program of a map slot or a root slot ends in fail (R2, R89). -/
def execSystemAreaProgramFail (s : State) : Answer :=
  .next <| match s.program with
    | some f =>
      if isPool f then s
      else
        let t := programFails s f
        afterOutcome t fun _ plan step =>
          match step with
          | .map v slot _ used => failSystem t plan step f used (.mapSlot v slot)
          | .root slot _ used => failSystem t plan step f used (.rootSlot slot)
          | .page _ _ _ _ _ => t
    | none => s

/-- The program of a root slot ends in pass (R2, R104): the engine takes the completion (R92). -/
def execRootStepPass (s : State) : Answer :=
  .next <| match s.program with
    | some f =>
      if isRootSlot f then
        let t := programPasses s f
        afterOutcome t fun req plan step =>
          match step with
          | .root slot seq _ => complete t req plan slot seq
          | .page _ _ _ _ _ | .map _ _ _ _ => t
      else s
    | none => s

/-! ### Durable-on-loss candidates (R157) -/

/-- The port of a candidate. -/
def Candidate.port : Candidate → Port
  | .queued p => p
  | .opened p => p

/-- The candidate does not fit and is skipped: nothing changes but that it is not considered again. -/
def skipCandidate (s : State) (b : Nat) (taken skipped : Vector Bool 4) (p : Port) : State :=
  { s with device := .powerFail b taken (upd skipped p true) }

/-- The candidate is taken (R157): its program count is spent, a queued one leaves the queue, its
transaction becomes COMMITTING, and its update begins. -/
def takeCandidate (s : State) (b : Nat) (taken skipped : Vector Bool 4) (c : Candidate) (cost : Nat) : State :=
  let s1 := { s with device := .powerFail (b - cost) (upd taken c.port true) skipped }
  let s2 := match c with
    | .queued p => withdrawCommit s1 p
    | .opened _ => s1
  beginUpdate (startCommitting s2 c.port) ⟨c.port, .commit⟩

/-- The engine considers a candidate (R157): it is taken whole when its program count fits the budget in
use, otherwise it is skipped. -/
def considerCandidate (s : State) (c : Candidate) : State :=
  match s.device with
  | .powerFail b taken skipped =>
    let cost := (buildPlan s c.port .commit).programCount
    if cost ≤ b then takeCandidate s b taken skipped c cost else skipCandidate s b taken skipped c.port
  | _ => s

/-- DURABLE_ON_LOSS_CANDIDATE (R157): the next candidate is considered, and the device enters HALTED when
nothing is left (R158). Where the sequence has no candidate to consider, nothing changes. -/
def execDurableOnLossCandidate (s : State) : Answer :=
  .next <| match nextCandidate s with
    | some c => settleSequence (considerCandidate s c)
    | none => s

end Sys2Proof.Machine
end

