-- ==== Sys2Proof/Machine/WindowPath.lean ====
section
/-! DEFINITION. Windows and the data path: BIND, UNBIND, READ, WRITE and PUNCH, and the data bytes of READ and WRITE bursts (R54 to R73). -/

namespace Sys2Proof.Machine

/-- The binding of a window that is BOUND. -/
def Window.binding : Window → Option Binding
  | .bound b => some b
  | .stale _ | .unbound => none

/-! ### BIND and UNBIND -/

/-- The arguments of a BIND, where they are in range (R56, check 2). -/
def bindArgs (window volume count mode : Byte) : Option (WindowNo × VolumeNo × Nat × Mode) :=
  match windowArg window, volumeArg volume, sizeArg count, modeArg mode with
  | some w, some v, some n, some m => some (w, v, n, m)
  | _, _, _, _ => none

/-- Check 4 of BIND: the volume is not DAMAGED and not CHANGING with return state DAMAGED (R56). -/
def Status.isDamaged : Status → Bool
  | .damaged _ | .changing _ (.damaged _) => true
  | .opened | .frozen | .lockedFrozen | .changing _ .opened | .changing _ .frozen => false

/-- Check 7 of BIND: what a WRITE-mode bind meets in each state (R56). -/
def writeBindCheck (st : Status) : Option Result :=
  match st with
  | .frozen | .lockedFrozen => some (refusal .volumeFrozen)
  | .changing _ _ => some (refusal .volumeChanging)
  | .opened | .damaged _ => none

/-- Checks 4 to 7 of BIND, on a present volume (R56). -/
def bindVolumeCheck (r : VolumeRecord) (p : Port) (first n : Nat) (m : Mode) : Option Result :=
  if r.status.isDamaged then some (refusal .volumeDamaged)
  else if r.size < first + n then some (refusal .badArgument)
  else if r.rights[p].covers m = false then some (refusal .noRight)
  else if m = .write then writeBindCheck r.status
  else none

/-- BIND taken (R56, R57). -/
def execBind (p : Port) (window volume first count mode : Byte) (s : State) : Answer :=
  .next <| taking s p .bind [window, volume, first, count, mode] fun s =>
    unlessRefused s p (formatCheck s) fun s =>
      match bindArgs window volume count mode with
      | none => reply s p (refusal .badArgument) []
      | some (w, v, n, m) =>
        match s.volumes[v] with
        | .present r =>
          unlessRefused s p (bindVolumeCheck r p first.toNat n m) fun s =>
            reply
              (s.modPort p fun c =>
                { c with windows := upd c.windows w (.bound ⟨v, Fin.ofNat 64 first.toNat, n, m⟩) })
              p .ok []
        | .absent | .creating _ _ _ => reply s p (refusal .noVolume) []

/-- UNBIND taken (R58). -/
def execUnbind (p : Port) (window : Byte) (s : State) : Answer :=
  .next <| taking s p .unbind [window] fun s =>
    unlessRefused s p (formatCheck s) fun s =>
      match windowArg window with
      | none => reply s p (refusal .badArgument) []
      | some w => reply (s.modPort p fun c => { c with windows := upd c.windows w .unbound }) p .ok []

/-! ### READ bursts -/

/-- The refusal of a data command by the state of its window (R55). -/
def windowStateCheck (w : Window) : Option Result :=
  match w with
  | .bound _ => none
  | .unbound => some (refusal .windowUnbound)
  | .stale _ => some (refusal .windowStale)

/-- The fault record of a burst (R72); its further-faults flag is set when it fills the record. -/
def burstFault (cause : FaultCause) (b : Burst) (w : Binding) (page : Option Nat) : FaultRecord :=
  ⟨cause, match b.kind with | .read => .read | .write => .write, b.window, w.volume, page, b.cursor, false⟩

/-- The burst of a port changed. -/
def PortContext.setBurst (c : PortContext) (b : Burst) : PortContext := { c with burst := some b }

/-- A byte of a burst meets the window STALE: the burst stops and records WINDOW_STALE (R63, R67). -/
def meetStale (c : PortContext) (b : Burst) (w : Binding) : PortContext :=
  (c.setBurst { b with stopped := true }).meetFault
    (burstFault .windowStale b w (some (w.pageNumber b.cursor)))

/-- A byte of a burst is taken at the window end: WINDOW_END is recorded once per frame (R63, R67). -/
def meetEnd (c : PortContext) (b : Burst) (w : Binding) : PortContext :=
  if b.endReported then c
  else (c.setBurst { b with endReported := true }).meetFault (burstFault .windowEnd b w none)

/-- The cursor of a burst advances by 1. -/
def Burst.advance (b : Burst) : Burst := { b with cursor := b.cursor + 1 }

/-- A byte of a READ burst is taken from a page; a poisoned page is reported once per page (R65). -/
def meetPage (c : PortContext) (b : Burst) (w : Binding) (poisoned : Bool) : PortContext :=
  if poisoned ∧ b.poisonReported ≠ some (w.pageAt b.cursor) then
    (c.setBurst { b.advance with poisonReported := some (w.pageAt b.cursor) }).meetFault
      (burstFault .pagePoisoned b w (some (w.pageAt b.cursor).val))
  else c.setBurst b.advance

/-- The READ burst of port `p` takes its next data byte (R63). -/
def takeReadByte (s : State) (p : Port) (b : Burst) : State :=
  if b.stopped then setOutput s p 0xFF#8
  else
    match s.ports[p].windows[b.window] with
    | .stale w => setOutput (s.modPort p fun c => meetStale c b w) p 0xFF#8
    | .unbound => setOutput s p 0xFF#8
    | .bound w =>
      if w.windowEnd ≤ b.cursor then setOutput (s.modPort p fun c => meetEnd c b w) p 0xFF#8
      else
        let x := translate s p w.volume (w.pageAt b.cursor) (byteInPage b.cursor)
        setOutput (s.modPort p fun c => meetPage c b w x.2) p x.1

/-- The burst record a data command creates (R61). -/
def newBurst (kind : Mode) (w : WindowNo) (offset : Half) : Burst :=
  ⟨kind, w, offset.toNat, false, false, none, none⟩

/-- The refusal of an offset at or past the end of a BOUND window (R62, R66). -/
def windowEndCheck (w : Window) (offset : Half) : Option Result :=
  match w with
  | .bound b => if b.windowEnd ≤ offset.toNat then some (refusal .windowEnd) else none
  | .stale _ | .unbound => none

/-- The refusal of a change through a window bound in READ mode (R55). -/
def windowModeCheck (w : Window) : Option Result :=
  match w with
  | .bound b => if b.mode = .read then some (refusal .windowMode) else none
  | .stale _ | .unbound => none

/-- Checks 3 and 4 of READ (R62). -/
def readCheck (w : Window) (offset : Half) : Option Result :=
  (windowStateCheck w).or (windowEndCheck w offset)

/-- READ taken (R62): the burst begins, and its first byte is taken at the same happening (R63). -/
def execRead (p : Port) (window : Byte) (offset : Half) (s : State) : Answer :=
  .next <| taking s p .read (window :: halfBytes offset) fun s =>
    unlessRefused s p (formatCheck s) fun s =>
      match windowArg window with
      | none => reply s p (refusal .badArgument) []
      | some w =>
        unlessRefused s p (readCheck s.ports[p].windows[w] offset) fun s =>
          let b := newBurst .read w offset
          takeReadByte (reply (s.modPort p fun c => c.setBurst b) p .ok []) p b

/-- A byte position of a data phase ends (R63, R168): a READ burst takes its next byte; without a burst
the next response byte or the filler is taken. The bytes of a WRITE burst are WRITE_DATA_BYTE's. -/
def execReadDataByte (p : Port) (s : State) : Answer :=
  .next <|
    if s.ports[p].frame.phase = .data then
      match s.ports[p].burst with
      | some b => if b.kind = .read then takeReadByte s p b else s
      | none => s.modFrame p FrameRecord.shift
    else ignoreByte s p

/-! ### WRITE bursts -/

/-- Checks 3 to 6 of WRITE (R66). -/
def writeCheck (w : Window) (offset : Half) (t : TxnState) : Option Result :=
  (windowStateCheck w).or
    ((windowModeCheck w).or ((windowEndCheck w offset).or (openCheck t)))

/-- WRITE taken (R66). -/
def execWrite (p : Port) (window : Byte) (offset : Half) (s : State) : Answer :=
  .next <| taking s p .write (window :: halfBytes offset) fun s =>
    unlessRefused s p (formatCheck s) fun s =>
      match windowArg window with
      | none => reply s p (refusal .badArgument) []
      | some w =>
        unlessRefused s p (writeCheck s.ports[p].windows[w] offset s.ports[p].txn.state) fun s =>
          reply (s.modPort p fun c => c.setBurst (newBurst .write w offset)) p .ok []

/-- A refusal met in a data phase stops the burst and becomes the frame result (R32, R68). -/
def refuseBurst (s : State) (p : Port) (b : Burst) (r : Result) : State :=
  setResult (s.modPort p fun c => c.setBurst { b with stopped := true }) p r

/-- The WRITE burst of port `p` takes a data byte: the first case that applies (R67). -/
def takeWriteByte (s : State) (p : Port) (b : Burst) (value : Byte) : State :=
  if b.stopped then s
  else if s.ports[p].txn.state ≠ .opened then refuseBurst s p b (refusal .txnExpired)
  else
    match s.ports[p].windows[b.window] with
    | .stale w => s.modPort p fun c => meetStale c b w
    | .unbound => s
    | .bound w =>
      if w.windowEnd ≤ b.cursor then s.modPort p fun c => meetEnd c b w
      else
        match requestWrite s p w.volume (w.pageAt b.cursor) (byteInPage b.cursor) value with
        | .done t => t.modPort p fun c => c.setBurst b.advance
        | .refused r => refuseBurst s p b r

/-- A data byte shifted in is complete (R67): an accepted WRITE takes it; in the data phase of any other
command it is ignored, and the next byte to shift out is taken (R168). The byte positions of a READ burst
are READ_DATA_BYTE's. -/
def execWriteDataByte (p : Port) (value : Byte) (s : State) : Answer :=
  .next <|
    if s.ports[p].frame.phase = .data then
      match s.ports[p].burst with
      | some b => if b.kind = .write then takeWriteByte s p b value else s
      | none => s.modFrame p FrameRecord.shift
    else ignoreByte s p

/-! ### PUNCH -/

/-- Checks 3 to 5 of PUNCH (R70). -/
def punchCheck (w : Window) (t : TxnState) : Option Result :=
  (windowStateCheck w).or ((windowModeCheck w).or (openCheck t))

/-- A page index past the window is a fault, not a refusal (R70, check 6). -/
def punchPastEnd (s : State) (p : Port) (w : WindowNo) (b : Binding) (index : Byte) : State :=
  reply
    (s.modPort p fun c =>
      PortContext.meetFault { c with burst := none }
        ⟨.windowEnd, .punch, w, b.volume, none, 256 * index.toNat, false⟩)
    p FaultCause.windowEnd.result []

/-- The punch request of a PUNCH that passed its checks: the map unit's answer is the frame result (R70). -/
def punchPage (s : State) (p : Port) (b : Binding) (index : Byte) : State :=
  match requestPunch s p b.volume (b.pageAt (256 * index.toNat)) with
  | .done t => reply t p .ok []
  | .refused r => reply s p r []

/-- PUNCH taken (R70). -/
def execPunch (p : Port) (window index : Byte) (s : State) : Answer :=
  .next <| taking s p .punch [window, index] fun s =>
    unlessRefused s p (formatCheck s) fun s =>
      match windowArg window with
      | none => reply s p (refusal .badArgument) []
      | some w =>
        unlessRefused s p (punchCheck s.ports[p].windows[w] s.ports[p].txn.state) fun s =>
          match s.ports[p].windows[w] with
          | .bound b =>
            if b.count ≤ index.toNat then punchPastEnd s p w b index else punchPage s p b index
          | .stale _ | .unbound => s

end Sys2Proof.Machine
end

