-- ==== Sys2Proof/Machine/Dispatch.lean ====
section
/-! DEFINITION. The dispatch: one arm per happening, each a call of its own meaning. -/

namespace Sys2Proof.Machine

-- One arm per row of spec/opcode_table.json, in the table's order.
def exec (i : Instr) (s : State) : Host.Outcome State Fault Refusal :=
  match i with
  | .begin p lease flag => Sys2Proof.Machine.execBegin p lease flag s
  | .touch p => Sys2Proof.Machine.execTouch p s
  | .commit p => Sys2Proof.Machine.execCommit p s
  | .abort p => Sys2Proof.Machine.execAbort p s
  | .release p => Sys2Proof.Machine.execRelease p s
  | .bind p window volume first count mode => Sys2Proof.Machine.execBind p window volume first count mode s
  | .unbind p window => Sys2Proof.Machine.execUnbind p window s
  | .read p window offset => Sys2Proof.Machine.execRead p window offset s
  | .write p window offset => Sys2Proof.Machine.execWrite p window offset s
  | .punch p window index => Sys2Proof.Machine.execPunch p window index s
  | .format p => Sys2Proof.Machine.execFormat p s
  | .create p volume size rights pinned => Sys2Proof.Machine.execCreate p volume size rights pinned s
  | .delete p volume => Sys2Proof.Machine.execDelete p volume s
  | .resize p volume size => Sys2Proof.Machine.execResize p volume size s
  | .freeze p volume => Sys2Proof.Machine.execFreeze p volume s
  | .lock p volume => Sys2Proof.Machine.execLock p volume s
  | .thaw p volume => Sys2Proof.Machine.execThaw p volume s
  | .setRights p volume portRight => Sys2Proof.Machine.execSetRights p volume portRight s
  | .pin p volume => Sys2Proof.Machine.execPin p volume s
  | .unpin p volume => Sys2Proof.Machine.execUnpin p volume s
  | .configPort p target quota bit => Sys2Proof.Machine.execConfigPort p target quota bit s
  | .configDevice p budget => Sys2Proof.Machine.execConfigDevice p budget s
  | .getResult p => Sys2Proof.Machine.execGetResult p s
  | .setAttn p mask => Sys2Proof.Machine.execSetAttn p mask s
  | .infoVolume p volume => Sys2Proof.Machine.execInfoVolume p volume s
  | .infoPage p volume page => Sys2Proof.Machine.execInfoPage p volume page s
  | .infoDevice p => Sys2Proof.Machine.execInfoDevice p s
  | .unknownCommand p value => Sys2Proof.Machine.execUnknownCommand p value s
  | .argumentByte p value => Sys2Proof.Machine.execArgumentByte p value s
  | .selectFall p clockHigh => Sys2Proof.Machine.execSelectFall p clockHigh s
  | .selectRise p => Sys2Proof.Machine.execSelectRise p s
  | .readDataByte p => Sys2Proof.Machine.execReadDataByte p s
  | .writeDataByte p value => Sys2Proof.Machine.execWriteDataByte p value s
  | .leaseTick => Sys2Proof.Machine.execLeaseTick s
  | .leaseExpiry p => Sys2Proof.Machine.execLeaseExpiry p s
  | .requestRemoval => Sys2Proof.Machine.execRequestRemoval s
  | .pageStepPass => Sys2Proof.Machine.execPageStepPass s
  | .pageStepFail => Sys2Proof.Machine.execPageStepFail s
  | .mapStepPass => Sys2Proof.Machine.execMapStepPass s
  | .systemAreaProgramFail => Sys2Proof.Machine.execSystemAreaProgramFail s
  | .rootStepPass => Sys2Proof.Machine.execRootStepPass s
  | .durableOnLossCandidate => Sys2Proof.Machine.execDurableOnLossCandidate s
  | .pfailAsserted => Sys2Proof.Machine.execPfailAsserted s
  | .pfailDeasserted => Sys2Proof.Machine.execPfailDeasserted s
  | .resetNAsserted => Sys2Proof.Machine.execResetNAsserted s
  | .resetNReleased => Sys2Proof.Machine.execResetNReleased s
  | .powerUp => Sys2Proof.Machine.execPowerUp s
  | .lossOfSupply => Sys2Proof.Machine.execLossOfSupply s
  | .lockinChange asserted => Sys2Proof.Machine.execLockinChange asserted s
  | .recallRootSlots => Sys2Proof.Machine.execRecallRootSlots s
  | .recallVolumeTable => Sys2Proof.Machine.execRecallVolumeTable s
  | .recallPageChecks => Sys2Proof.Machine.execRecallPageChecks s
  | .recallEnd => Sys2Proof.Machine.execRecallEnd s
  | .commandByteComplete p value => Sys2Proof.Machine.execCommandByteComplete p value s

end Sys2Proof.Machine
end

