-- ==== Sys2Proof/Machine/Link.lean ====
section
/-! DEFINITION. The serial link bit by bit (R162): the level of the data-out line, the rising and the falling edge of a port's clock, and the row that a byte stands for when its eighth bit is sampled. The table has no row for an edge, so these are operations beside the rows (log entry 8): a byte that edges carry ends in `exec` of its row. -/

namespace Sys2Proof.Machine

/-! ### Bits of a byte -/

/-- The bits of a byte in the order in which they travel, most significant bit first (R162). -/
def msbFirst (b : Byte) : List Bool :=
  [b.getLsbD 7, b.getLsbD 6, b.getLsbD 5, b.getLsbD 4, b.getLsbD 3, b.getLsbD 2, b.getLsbD 1, b.getLsbD 0]

/-- The last eight bits taken, after one more: the bit taken first stands in bit 7 (R162). -/
def shiftIn (b : Byte) (bit : Bool) : Byte := b <<< 1 ||| (BitVec.ofBool bit).setWidth 8

/-! ### The data-out line -/

/-- The level of a data-out line. -/
inductive LineLevel where
  /-- Released, at high impedance (R162). -/
  | released
  /-- Driven to the level of an output bit (R162). -/
  | driven (bit : Bool)
  /-- Driven, at a level that the manual does not give: clock mode 3 before the first falling edge (log
  entry 26). -/
  | unstated
  deriving DecidableEq, Repr

/-- The output bit of the position in progress: bit 7 of the byte fixed for it, then bit 6, down to bit 0
(R162). -/
def FrameRecord.outputBit (f : FrameRecord) : Bool := f.output.getLsbD (7 - f.bitCount.val)

/-- The level of port `p`'s data-out line (R162). While the clock is low the line shows the output bit of the
position in progress: it changed at the falling edge, or, in clock mode 0, at select fall. While the clock is
high it keeps the bit that the rising edge found on it; in clock mode 3 the clock is high before the first
falling edge. -/
def lineLevel (s : State) (p : Port) : LineLevel :=
  let f := s.ports[p].frame
  if f.phase = .noFrame then .released
  else if f.clock = false then .driven f.outputBit
  else
    match f.shown with
    | some bit => .driven bit
    | none => .unstated

/-! ### The row of a complete byte -/

/-- The row that a complete byte stands for at a port, by the phase of its frame (R161, R166, R167, R168). -/
def PortContext.byteRow (c : PortContext) (p : Port) (value : Byte) : Instr :=
  match c.frame.phase with
  | .command =>
    match decodeFrame p [value] with
    | some i => i
    | none => if takesArguments value then .commandByteComplete p value else .unknownCommand p value
  | .arguments =>
    match c.frame.command.bind fun k => decodeFrame p (k :: (c.frame.arguments ++ [value])) with
    | some i => i
    | none => .argumentByte p value
  | .data =>
    match c.burst with
    | some b => if b.kind = .write then .writeDataByte p value else .readDataByte p
    | none => .readDataByte p
  | .ignoring | .notReady | .noFrame => .argumentByte p value

/-! ### Clock edges -/

/-- The falling edge of port `p`'s clock: the data-out line changes (R162, `lineLevel`). It is not taken while
select is high, and a clock that is low does not fall (log entry 1). -/
def clockFall (p : Port) (s : State) : State :=
  if s.ports[p].frame.phase = .noFrame ∨ s.ports[p].frame.clock = false then s
  else s.modFrame p fun f => { f with clock := false }

/-- The frame record after a rising edge that samples `bit`: the bit joins the byte in progress, whose count
goes from 7 back to 0, and the output bit stays on the line (R162). -/
def FrameRecord.rise (f : FrameRecord) (bit : Bool) : FrameRecord :=
  { f with clock := true, shown := some f.outputBit, sampled := shiftIn f.sampled bit,
           bitCount := f.bitCount + 1 }

/-- The rising edge of port `p`'s clock with `bit` on the data-in line (R162): the bit is sampled, and with the
eighth the byte is complete, and its row is taken at this same happening. It is not taken while select is high,
and a clock that is high does not rise (log entry 1). -/
def clockRise (p : Port) (bit : Bool) (s : State) : Answer :=
  let f := s.ports[p].frame
  if f.phase = .noFrame ∨ f.clock = true then .next s
  else
    let t := s.modFrame p fun f => f.rise bit
    if f.bitCount = 7 then exec (t.ports[p].byteRow p t.ports[p].frame.sampled) t else .next t

/-- The bits of `input` clocked into port `p`, with the levels the host samples (R162): for each bit the falling
edge, where the clock is not low already, then the rising edge, at which the host samples the data-out line and
the part samples the bit. -/
def clockBits (p : Port) (input : List Bool) (s : State) : List LineLevel × Answer :=
  match input with
  | [] => ([], .next s)
  | bit :: rest =>
    let low := clockFall p s
    match clockRise p bit low with
    | .next t => (lineLevel low p :: (clockBits p rest t).1, (clockBits p rest t).2)
    | stop => ([lineLevel low p], stop)

end Sys2Proof.Machine
end

