-- ==== Sys2Proof/Safety.lean ====
section
/-! DEFINITION. The words the statements are written in: what a taken command leaves in its frame, what a fault leaves at a port, which bytes of the two memories a happening leaves alone; and the laws every step keeps: the form of the memories, the mask that is never empty, the queue law, the retired table, the pool frames, a locked volume. -/

namespace Sys2Proof.Machine

/-! ### Answers -/

/-- The frame record of a port at which command `c` with arguments `args` was taken and answered `r`, with
`response` to shift out, then 0xFF or 0x00 by the command (R167, R168). -/
def FrameRecord.answered (f : FrameRecord) (c : Command) (args : List Byte) (r : Result)
    (response : List Byte) : FrameRecord :=
  { f with phase := .data, command := some c.code, arguments := args, result := some r,
           output := response.headD (commandFiller c), response := response.tail }

/-- The port context with its frame answered; nothing else of the port changes. -/
def PortContext.answered (x : PortContext) (c : Command) (args : List Byte) (r : Result)
    (response : List Byte) : PortContext :=
  { x with frame := x.frame.answered c args r response }

/-- The state with the frame of port `p` answered; nothing else changes. -/
def answered (s : State) (p : Port) (c : Command) (args : List Byte) (r : Result)
    (response : List Byte) : State :=
  s.setPort p (s.ports[p].answered c args r response)

/-- The state with command `c` of port `p` refused with code `code` without detail; nothing else changes. -/
def refused (s : State) (p : Port) (c : Command) (args : List Byte) (code : Code) : State :=
  answered s p c args ⟨code, none, .refused⟩ []

/-- The port whose link a happening is a byte of: a command taken, a command byte, an argument byte or a
byte of a data phase. -/
def bytePort : Instr → Option Port
  | .unknownCommand p _ | .argumentByte p _ | .readDataByte p | .writeDataByte p _
  | .commandByteComplete p _ => some p
  | .begin p _ _ | .touch p | .commit p | .abort p | .release p | .bind p _ _ _ _ _ | .unbind p _
  | .read p _ _ | .write p _ _ | .punch p _ _ | .format p | .create p _ _ _ _ | .delete p _
  | .resize p _ _ | .freeze p _ | .lock p _ | .thaw p _ | .setRights p _ _ | .pin p _ | .unpin p _
  | .configPort p _ _ _ | .configDevice p _ | .getResult p | .setAttn p _ | .infoVolume p _
  | .infoPage p _ _ | .infoDevice p => some p
  | .selectFall _ _ | .selectRise _ | .leaseTick | .leaseExpiry _ | .requestRemoval | .pageStepPass
  | .pageStepFail | .mapStepPass | .systemAreaProgramFail | .rootStepPass | .durableOnLossCandidate
  | .pfailAsserted | .pfailDeasserted | .resetNAsserted | .resetNReleased | .powerUp | .lossOfSupply
  | .lockinChange _ | .recallRootSlots | .recallVolumeTable | .recallPageChecks | .recallEnd => none

/-- Whether a set of causes holds a cause. -/
def Causes.has (x : Causes) : Cause → Bool
  | .update => x.update
  | .lease => x.lease
  | .fault => x.fault
  | .window => x.window
  | .device => x.device

/-- Whether a command is an administration command other than FORMAT (R123). -/
def isAdminCommand : Command → Bool
  | .create | .delete | .resize | .freeze | .lock | .thaw | .setRights | .pin | .unpin | .configPort
  | .configDevice => true
  | .begin | .touch | .commit | .abort | .release | .bind | .unbind | .read | .write | .punch
  | .format | .getResult | .setAttn | .infoVolume | .infoPage | .infoDevice => false

/-- Whether a command is taken in UNFORMATTED under its own checks (R111). -/
def takenUnformatted : Command → Bool
  | .format | .getResult | .setAttn | .infoDevice => true
  | .create | .delete | .resize | .freeze | .lock | .thaw | .setRights | .pin | .unpin | .configPort
  | .configDevice | .begin | .touch | .commit | .abort | .release | .bind | .unbind | .read | .write
  | .punch | .infoVolume | .infoPage => false

/-- Whether the common checks 1 to 4 of an administration command pass at a port (R123). -/
def adminReady (s : State) (p : Port) : Bool :=
  s.device ≠ .unformatted ∧ isAdminPort s p = true ∧ requestPending s p = false ∧
    s.engine.state ≠ .stopped

/-- The LOCKIN guard acts on a volume: the line is asserted and the volume's pinned flag is yes (R125). -/
def guardActs (s : State) (v : VolumeNo) : Bool := s.lockin && Volume.isPinned s.volumes[v]

/-- The state with a request appended at the tail of the update queue (R75). -/
def appended (s : State) (req : Request) : State :=
  { s with engine := { s.engine with queue := s.engine.queue ++ [req] } }

/-- Whether a status is CHANGING (R19). -/
def Status.isChanging : Status → Bool
  | .changing _ _ => true
  | .opened | .frozen | .lockedFrozen | .damaged _ => false

/-! ### Faults -/

/-- The fault record after a fault arose: the fault fills an empty record; a full one is marked (R73). -/
def faultAfter (old : Option FaultRecord) (f : FaultRecord) : FaultRecord :=
  match old with
  | none => { f with further := false }
  | some old => { old with further := true }

/-- A port at which the burst `b` met the fault `f`: the fault record, FAULT where the record was empty, the
burst's first fault, and the frame result where this is the first fault of the frame (R71, R73). -/
def PortContext.faulted (x : PortContext) (b : Burst) (f : FaultRecord) : PortContext :=
  { x with
    fault := some (faultAfter x.fault f)
    pending := { x.pending with fault := x.pending.fault || x.fault.isNone }
    burst := some { b with firstFault := some (b.firstFault.getD f.cause) }
    frame := { x.frame with
      result := if b.firstFault = none then some ⟨f.cause.code, none, .fault⟩ else x.frame.result } }

/-! ### The two memories, byte by byte -/

/-- The working-array byte at address `x` (R1). -/
def arrayAt (s : State) (x : Nat) : Byte := Memory.read arrayFill s.array x

/-- The nonvolatile cell at address `x` (R1). -/
def cellAt (s : State) (x : Nat) : Byte := Memory.read cellFill s.cells x

/-- An address is one of the 256 of frame `f` (R1). -/
def inFrame (f : FrameNo) (x : Nat) : Prop := 256 * f.val ≤ x ∧ x < 256 * f.val + 256

/-- The cells of frame `f` hold its working-array bytes of `s`, and every other cell is as it was (R2). -/
def programmed (s t : State) (f : FrameNo) : Prop :=
  (∀ x, inFrame f x → cellAt t x = arrayAt s x) ∧ ∀ x, ¬ inFrame f x → cellAt t x = cellAt s x

/-- Every cell outside frame `f` is as it was: all that a program without a pass leaves (R2). -/
def torn (s t : State) (f : FrameNo) : Prop := ∀ x, ¬ inFrame f x → cellAt t x = cellAt s x

/-! ### Plans -/

/-- The frame a plan step programs (R79). -/
def PlanStep.target : PlanStep → FrameNo
  | .page _ _ f _ _ => f
  | .map v slot _ _ => mapFrame v slot
  | .root slot _ _ => slot.frame

/-- The engine state while a plan step's program runs (R77). -/
def PlanStep.engineState : PlanStep → EngineState
  | .page _ _ _ _ _ => .frames
  | .map _ _ _ _ => .maps
  | .root _ _ _ => .root

/-- A plan step once its program has begun: a page step records the page check of its target frame (R83). -/
def PlanStep.begun (s : State) : PlanStep → PlanStep
  | .page v g f n _ => .page v g f n (some (pageCheck (arrayFrame s f)))
  | .map v slot gen used => .map v slot gen used
  | .root slot seq used => .root slot seq used

/-- What the working-array bytes of a step's target frame hold once its program has begun: a shadow's own
content, the map image, or the root (R83, R84, R85). A root whose retired table holds at most 24 entries has
exactly 256 bytes. -/
def stepContent (s : State) (plan : Plan) (req : Request) : PlanStep → List Byte
  | .page _ _ f _ _ => arrayFrame s f
  | .map v slot gen _ =>
    match s.volumes[v] with
    | .present r => (mapImageFor plan req v r gen).bytes
    | .absent | .creating _ _ _ => arrayFrame s (mapFrame v slot)
  | .root _ seq _ => (rootFor s plan req.kind seq).bytes

/-- `t` is `s` with the current step of `plan` handed to the store array for the request `req` (R82): the step's
content stands in its frame, and nothing else changed but the engine's state, its request in flight and its
plan. -/
def stepBegun (s t : State) (req : Request) (plan : Plan) : Prop :=
  ∃ step, plan.step = some step ∧
    t = { s with
      array := t.array, program := some step.target
      engine := { s.engine with
        state := step.engineState, inFlight := some req
        plan := some (plan.setStep (step.begun s)) } } ∧
    arrayFrame t step.target = (stepContent s plan req step).take 256 ∧
    ∀ x, ¬ inFrame step.target x → arrayAt t x = arrayAt s x

/-- The transaction of a failed COMMIT outside a power-fail sequence: OPEN, with its lease timer set to the full
lease (R37). -/
def Txn.reopened (x : Txn) : Txn :=
  { x with
    state := .opened
    timer := if 0 < x.lease then x.lease else x.timer
    running := decide (0 < x.lease) }

/-- The transaction of a failed COMMIT: outside a power-fail sequence its lease timer is set again, and in one the
timer stays stopped (R37, R156). -/
def Txn.afterFailure (inSequence : Bool) (x : Txn) : Txn :=
  if inSequence then { x with state := .opened } else x.reopened

/-- The engine record once an update has ended: IDLE, with no request in flight and no plan (R92, R98). -/
def Engine.ended (e : Engine) : Engine :=
  { e with state := .idle, inFlight := none, plan := none, abandon := false }

/-- The device state once the update of a sequence has ended, or a candidate was skipped, in state `u`: HALTED
where no candidate is left, and otherwise as it stands in `u` (R158). Outside a sequence it is the one of `u`. -/
def deviceOnceEnded (u : State) : Device :=
  if inPowerFail u = true ∧ nextCandidate u = none then .halted else u.device

/-- Whether a request of kind `kind` puts volume `v` in CHANGING at its acceptance (R19). -/
def RequestKind.changes (kind : RequestKind) (v : VolumeNo) : Bool :=
  match kind with
  | .delete w | .resize w _ | .freeze w | .lock w => w = v
  | .commit | .format | .create _ _ _ _ | .setRights _ _ _ | .thaw _ | .pin _ | .unpin _
  | .configPort _ _ _ | .configDevice _ => false

/-- Whether a request of kind `kind` puts volume `v` in CREATING at its acceptance (R13). -/
def RequestKind.creates (kind : RequestKind) (v : VolumeNo) : Bool :=
  match kind with
  | .create w _ _ _ => w = v
  | .commit | .format | .delete _ | .resize _ _ | .freeze _ | .lock _ | .setRights _ _ _ | .thaw _
  | .pin _ | .unpin _ | .configPort _ _ _ | .configDevice _ => false

/-- The volume table of `t` is that of `s` after a request of kind `kind` failed, was discarded or was abandoned:
its CHANGING volume has its return state, its CREATING volume is ABSENT, and every other volume is as it was
(R19, R98, R151, R155). -/
def volumesReturned (s t : State) (kind : RequestKind) : Prop :=
  ∀ v : VolumeNo,
    (kind.changes v = false → kind.creates v = false → t.volumes[v] = s.volumes[v]) ∧
    (∀ x op ret, kind.changes v = true → s.volumes[v] = .present x → x.status = .changing op ret →
      t.volumes[v] = .present { x with status := ret.status }) ∧
    ∀ n rights k, kind.creates v = true → s.volumes[v] = .creating n rights k → t.volumes[v] = .absent

/-- Whether the completion of a request of kind `kind` makes STALE a window of port `q` that is bound so (R59). -/
def windowGone (kind : RequestKind) (q : Port) (b : Binding) : Prop :=
  kind = .delete b.volume ∨ (∃ n, kind = .resize b.volume n ∧ n < b.first.val + b.count) ∨
    ((kind = .freeze b.volume ∨ kind = .lock b.volume) ∧ b.mode = .write) ∨
    ∃ x, kind = .setRights b.volume q x ∧ x.covers b.mode = false

/-- The port context `y` is `x` after the close of its link (R150, R165): a frame in phase COMMAND, ARGUMENTS or DATA
ignores, with no result and nothing left of its response, and so does one that ignored already (log entry 11); a
frame in NOT_READY, or no frame, is as it was. The byte of the position in progress stays (log entry 23). The burst
is gone and the lease timer stopped (R29, R150), and nothing else changes. -/
def linkClosed (x y : PortContext) : Prop :=
  y = { x with frame := y.frame, burst := none, txn := { x.txn with running := false } } ∧
  (x.frame.phase ∈ [Phase.command, .arguments, .data, .ignoring] →
    y.frame = { x.frame with phase := .ignoring, result := none, response := [] }) ∧
  (x.frame.phase ∈ [Phase.notReady, .noFrame] → y.frame = x.frame)

/-- The state `t` holds of `s` what outlives the supply and nothing else: the cells and their count of free values,
which the statements give, the LOCKIN level and the waiting happenings. Every port context has its values after
power-up (R115) with no frame in progress (R161) and its lines released and low (R162, R173); the engine record, the
claim counts and the map unit are those of an unformatted part, and nothing stands in the working array (log entries 5,
6 and 13). -/
def supplyLost (s t : State) : Prop :=
  t = { s with
    device := t.device, pfail := false, resetN := false, ports := t.ports
    claimCount := Vector.replicate 4 0, volumes := Vector.replicate 16 .absent
    frameStates := Vector.replicate 2014 .free, freeList := wholePool
    engine := {
      state := .idle, queue := [], inFlight := none, plan := none, abandon := false, sequence := none
      selected := none, settings := none, retired := [], mediaWorn := false, sysareaFault := false }
    array := [], cells := t.cells, program := none, draws := t.draws } ∧
  ∀ p : Port,
    t.ports[p] = {
      frame := t.ports[p].frame, burst := none, windows := Vector.replicate 4 .unbound
      txn := ⟨.noTxn, 0, 0, false, false⟩, fault := none, result := ⟨none, none⟩, report := none
      mask := ⟨false, false, false, false, false⟩, pending := ⟨false, false, false, false, false⟩ } ∧
    t.ports[p].frame.phase = .noFrame ∧ dataOut t p = none ∧ attnLine t p = false

/-- How many volumes hold a claim of port `p` of either kind: the touched volumes (R80). -/
def touchedVolumes (s : State) (p : Port) : Nat :=
  (ascending 16).countP fun v => (ascending 64).any fun g => (entryOf s v g).claimedBy p

/-- The program count of a COMMIT of port `p`: its DATA claims, its touched volumes, and the root (R80). -/
def commitCost (s : State) (p : Port) : Nat := (shadowsOf s p).length + touchedVolumes s p + 1

/-- The page steps of a COMMIT of port `p`: one per DATA claim, in volume order, then page order (R80). -/
def commitPages (s : State) (p : Port) : List PlanStep :=
  (ascending 16).flatMap fun v => (ascending 64).filterMap fun g =>
    match (entryOf s v g).claim with
    | some ⟨q, .data f⟩ => if q = p then some (.page v g f 0 none) else none
    | some ⟨_, .hole⟩ | none => none

/-- The map steps of a COMMIT of port `p`: one per touched volume, in volume order, into slot 0 where the volume
has no map image and into the inactive slot otherwise, with the next generation (R80, R81). -/
def commitMaps (s : State) (p : Port) : List PlanStep :=
  (ascending 16).filterMap fun v =>
    match s.volumes[v] with
    | .present r =>
      if ∃ g : PageNo, r.entries[g].claimedBy p = true then
        some (.map v (if r.mapPresent then otherSlot r.slot else 0) (r.generation + 1) false)
      else none
    | .absent | .creating _ _ _ => none

/-- The steps of a COMMIT of port `p` in their order: the page steps, the map steps, and the root step into
`slot` with sequence `seq` (R79, R80, R81). -/
def commitSteps (s : State) (p : Port) (slot : RootSlot) (seq : Word) : List PlanStep :=
  commitPages s p ++ commitMaps s p ++ [.root slot seq false]

/-! ### Laws that every step keeps -/

/-- Both memories are in canonical form. -/
def MemoryForm (s : State) : Prop := Memory.wf arrayFill s.array ∧ Memory.wf cellFill s.cells

/-- Whether an update can be in flight in a device state: RUNNING, UNFORMATTED or POWER_FAIL (R147). -/
def Device.works : Device → Bool
  | .running | .unformatted | .powerFail _ _ _ => true
  | .off | .recalling _ | .halted => false

/-- The administration mask is never empty (R122), with what keeps it so: an update is in flight only while
the device works and the engine is not STOPPED, and a CONFIG_PORT in flight leaves a member. -/
def MaskLaw (s : State) : Prop :=
  (∀ st, s.engine.settings = some st → maskEmpty st.mask = false) ∧
  (∀ req, s.engine.inFlight = some req → s.device.works = true ∧
    ∀ p q k, req.kind = .configPort p q k → wouldEmptyMask s p k = false) ∧
  (s.engine.state = .stopped → s.engine.inFlight = none)

/-- The ports of the requests that are queued or in flight. -/
def requestPorts (s : State) : List Port :=
  (s.engine.queue ++ s.engine.inFlight.toList).map fun r => r.port

/-- The update queue holds at most 4 requests and never two from the same port, and no port has both a
queued request and a request in flight (R74), with what keeps it so: a queued COMMIT's transaction is QUEUED
and one in flight is COMMITTING (R27), only COMMITs are queued in POWER_FAIL (R151), and no frame is in a
phase that takes a command while the device takes none (R150, R163). -/
def QueueLaw (s : State) : Prop :=
  s.engine.queue.length ≤ 4 ∧ (requestPorts s).Nodup ∧
  (∀ r ∈ s.engine.queue, r.kind = .commit → s.ports[r.port].txn.state = .queued) ∧
  (∀ r, s.engine.inFlight = some r → r.kind = .commit → s.ports[r.port].txn.state = .committing) ∧
  (inPowerFail s = true → ∀ r ∈ s.engine.queue, r.kind = .commit) ∧
  (ready s = false → ∀ p : Port, s.ports[p].frame.phase ≠ .command ∧
    s.ports[p].frame.phase ≠ .arguments ∧ s.ports[p].frame.phase ≠ .data)

/-- The retired table holds at most 24 entries, and while the device works MEDIA_WORN is set exactly when
it holds 24 (R8, R88). -/
def RetiredLaw (s : State) : Prop :=
  s.engine.retired.length ≤ Config.retiredCapacity ∧
  (s.device.works = true →
    s.engine.mediaWorn = decide (s.engine.retired.length = Config.retiredCapacity))

/-- Every pool frame stands in exactly one place, and its state says in which: the FREE frames are those of the
free list, the RETIRED ones those of the retired table, each once; each COMMITTED frame is held by exactly one
entry and each SHADOW frame by exactly one DATA claim (R5, R7, R8, R9, R43). A frame of the system area has no
state, so it stands in none of them. -/
def PoolLaw (s : State) : Prop :=
  s.freeList.Nodup ∧ s.engine.retired.Nodup ∧
  (∀ f, frameState s f = some .free ↔ f ∈ s.freeList) ∧
  (∀ f, frameState s f = some .retired ↔ f ∈ s.engine.retired) ∧
  (∀ f, frameState s f = some .committed ↔ ∃ v g c, (entryOf s v g).committed = some c ∧ c.frame = f) ∧
  (∀ f, frameState s f = some .shadow ↔ ∃ v g p, (entryOf s v g).claim = some ⟨p, .data f⟩) ∧
  (∀ v g w h c d, (entryOf s v g).committed = some c → (entryOf s w h).committed = some d →
    c.frame = d.frame → v = w ∧ g = h) ∧
  ∀ v g w h p q f, (entryOf s v g).claim = some ⟨p, .data f⟩ → (entryOf s w h).claim = some ⟨q, .data f⟩ →
    v = w ∧ g = h

/-- Whether a transaction in a state may hold claims (R43). -/
def TxnState.mayClaim : TxnState → Bool
  | .opened | .queued | .committing => true
  | .noTxn | .expired => false

/-- A port that holds a claim has its transaction in OPEN, QUEUED or COMMITTING (R43), with what keeps it so: its
claim count is not 0. -/
def ClaimLaw (s : State) : Prop :=
  ∀ v g c, (entryOf s v g).claim = some c →
    s.ports[c.port].txn.state.mayClaim = true ∧ 0 < s.claimCount[c.port]

/-- The requests that are queued or in flight. -/
def requests (s : State) : List Request := s.engine.queue ++ s.engine.inFlight.toList

/-- At most one waiting request holds a volume in CHANGING or CREATING, the volume is in that state, and a volume
with DELETE pending has no claims (R13, R19, R50). -/
def HolderLaw (s : State) : Prop :=
  ∀ v : VolumeNo,
    (requests s).countP (fun r => r.kind.changes v || r.kind.creates v) ≤ 1 ∧
    ∀ r ∈ requests s,
      (r.kind.creates v = true → ∃ n rights k, s.volumes[v] = .creating n rights k) ∧
      (r.kind.changes v = true → ∃ x, s.volumes[v] = .present x ∧ x.status.isChanging = true) ∧
      (r.kind = .delete v → ∀ g, (entryOf s v g).claim = none)

/-- The page a plan step is for, where it is a page step. -/
def PlanStep.page? : PlanStep → Option (VolumeNo × PageNo)
  | .page v g _ _ _ => some (v, g)
  | .map _ _ _ _ | .root _ _ _ => none

/-- The page steps of the plan in flight name different pages, and each one that is not over programs the shadow
of its port's DATA claim there (R79, R80, R87). -/
def PlanLaw (s : State) : Prop :=
  ∀ req plan, s.engine.inFlight = some req → s.engine.plan = some plan →
    (plan.steps.filterMap PlanStep.page?).Nodup ∧
    ∀ i v g f n c, plan.current ≤ i → plan.steps[i]? = some (.page v g f n c) →
      req.kind = .commit ∧ (entryOf s v g).claim = some ⟨req.port, .data f⟩

/-- What a recall has rebuilt before it sets the frame states: no claims, and committed frames that are pool
frames, not retired, each held once (R108, R112). -/
def RecalledLaw (s : State) : Prop :=
  (∀ v g, (entryOf s v g).claim = none) ∧
  (∀ v g c, (entryOf s v g).committed = some c → isPool c.frame = true ∧ c.frame ∉ s.engine.retired) ∧
  ∀ v g w h c d, (entryOf s v g).committed = some c → (entryOf s w h).committed = some d →
    c.frame = d.frame → v = w ∧ g = h

/-- The law of the pool frames while the device works, with what keeps it so there and through a recall (R5, R7,
R8, R43, R105, R112, R114). -/
def FrameLaw (s : State) : Prop :=
  (s.device.works = true → PoolLaw s ∧ ClaimLaw s ∧ HolderLaw s ∧ PlanLaw s) ∧
  (∀ x, s.device = .recalling x → x ≠ .rootSlots →
    s.engine.retired.Nodup ∧ (∀ f ∈ s.engine.retired, isPool f = true) ∧
    (x = .volumeTable → ∀ r, recalledRoot s = some r → r.retired = s.engine.retired) ∧
    (x ≠ .volumeTable → RecalledLaw s))

/-- Whether a request may stand for a LOCKED_FROZEN volume: SET_RIGHTS, PIN or UNPIN (R141). -/
def RequestKind.allowedOnLocked : RequestKind → Bool
  | .setRights _ _ _ | .pin _ | .unpin _ => true
  | .commit | .format | .create _ _ _ _ | .delete _ | .resize _ _ | .freeze _ | .lock _ | .thaw _
  | .configPort _ _ _ | .configDevice _ => false

/-- Volume `v` is LOCKED_FROZEN with record `r` and holds no claim, and no request or plan step is about to
touch its map (R141). -/
def LockedLaw (v : VolumeNo) (r : VolumeRecord) (s : State) : Prop :=
  s.volumes[v] = .present r ∧ r.status = .lockedFrozen ∧ (∀ g : PageNo, r.entries[g].claim = none) ∧
  r.committedPages = countCommitted r.entries ∧
  (∀ q ∈ s.engine.queue ++ s.engine.inFlight.toList, q.kind.volume = some v →
    q.kind.allowedOnLocked = true) ∧
  (∀ plan, s.engine.plan = some plan → plan.mapOf v = none)

/-- Two records agree in all but rights and pinned flag: the committed map, the state, the size, the map
slot and the generation. -/
def sameMap (r q : VolumeRecord) : Prop :=
  q.status = r.status ∧ q.size = r.size ∧ q.mapPresent = r.mapPresent ∧ q.slot = r.slot ∧
    q.generation = r.generation ∧ q.committedPages = r.committedPages ∧ q.entries = r.entries

/-- The happenings that rebuild the volume table from the cells, or end it with the supply. -/
def rebuildsVolumes : Instr → Bool
  | .powerUp | .lossOfSupply | .recallRootSlots | .recallVolumeTable | .recallPageChecks => true
  | _ => false

end Sys2Proof.Machine
end

