-- ==== Sys2Proof/Certificates/Slice0/Obligations.lean ====
section
/-! DEFINITION. The statements for the provers. An equation `exec i s = .next (s.setPort p …)` says by its form that every other record of the machine, both memories included, is as it was. `awaits s p c args` says that the byte that completes now at port `p` is the one at which command `c` with argument bytes `args` is taken (R166, R167). -/

open Sys2Proof Sys2Proof.Machine

/-! ### The step -/

/-- One step takes the happening at the front of the queue and is `exec` of it on the state with the rest
of the queue; on an empty queue the block idles (the model's choice, log entry 7). -/
def Obligations.StepRunsFrontOfQueue : Prop :=
  (∀ (c : Instr) (rest : List Instr) (s : State),
    step { s with pending := c :: rest } = exec c { s with pending := rest }) ∧
  ∀ s : State, s.pending = [] → step s = .next s

/-! ### The serial frame -/

/-- R163: select fall takes the clock mode from the clock level, clears the frame's fields, fixes the status
byte, and enters COMMAND or NOT_READY by the device state. -/
def Obligations.SelectFallBeginsFrame : Prop :=
  ∀ (p : Port) (high : Bool) (s : State),
    s.ports[p].frame.phase = .noFrame → s.device ≠ .off →
    ∃ f : FrameRecord,
      exec (.selectFall p high) s = .next (s.setPort p { s.ports[p] with frame := f }) ∧
      f.clockMode = (if high = true then .mode3 else .mode0) ∧
      f.bitCount = 0 ∧ f.command = none ∧ f.arguments = [] ∧ f.result = none ∧
      f.status = statusByte s p ∧ f.output = f.status ∧
      (s.device = .running ∨ s.device = .unformatted → f.phase = .command) ∧
      (s.device ≠ .running → s.device ≠ .unformatted → f.phase = .notReady)

/-- R164: the bits of the status byte. -/
def Obligations.StatusByteFields : Prop :=
  ∀ (s : State) (p : Port),
    (s.device ≠ .running → s.device ≠ .unformatted → statusByte s p = 0x00#8) ∧
    (s.device = .running ∨ s.device = .unformatted →
      (statusByte s p).getLsbD 7 = true ∧
      ((statusByte s p).getLsbD 6 = true ↔
        ∃ c : Cause, s.ports[p].pending.has c = true ∧ s.ports[p].mask.has c = true) ∧
      (s.ports[p].txn.state = .noTxn → (statusByte s p).extractLsb' 4 2 = 0#2) ∧
      (s.ports[p].txn.state = .opened → (statusByte s p).extractLsb' 4 2 = 1#2) ∧
      (s.ports[p].txn.state = .queued ∨ s.ports[p].txn.state = .committing →
        (statusByte s p).extractLsb' 4 2 = 2#2) ∧
      (s.ports[p].txn.state = .expired → (statusByte s p).extractLsb' 4 2 = 3#2) ∧
      ((statusByte s p).getLsbD 3 = true ↔
        ∃ r ∈ s.engine.queue ++ s.engine.inFlight.toList, r.port = p) ∧
      (s.ports[p].result.result = none → (statusByte s p).extractLsb' 0 3 = 7#3) ∧
      ∀ x, s.ports[p].result.result = some x →
        (x.cls = .ok → (statusByte s p).extractLsb' 0 3 = 0#3) ∧
        (x.cls = .queued → (statusByte s p).extractLsb' 0 3 = 1#3) ∧
        (x.cls = .refused → (statusByte s p).extractLsb' 0 3 = 2#3) ∧
        (x.cls = .fault → (statusByte s p).extractLsb' 0 3 = 3#3) ∧
        (x.cls = .short → (statusByte s p).extractLsb' 0 3 = 4#3))

/-- A complete command byte that the table does not list sends the frame to IGNORING; one of a command with
arguments sends it to ARGUMENTS; an argument byte that is not the last is kept (R166, R167). -/
def Obligations.CommandAndArgumentBytesKept : Prop :=
  (∀ (p : Port) (value : Byte) (s : State),
    s.ports[p].frame.phase = .command → decodeCommand value = none →
    exec (.unknownCommand p value) s = .next (s.setPort p { s.ports[p] with
      frame := { s.ports[p].frame with
        phase := .ignoring, command := some value, output := 0xFF#8
        result := some ⟨.unknownCommand, some ⟨none, none, none, some (value.setWidth 16)⟩, .refused⟩ } })) ∧
  (∀ (p : Port) (c : Command) (s : State),
    s.ports[p].frame.phase = .command → 0 < c.argCount →
    exec (.commandByteComplete p c.code) s = .next (s.setPort p { s.ports[p] with
      frame := { s.ports[p].frame with phase := .arguments, command := some c.code, output := 0x00#8 } })) ∧
  ∀ (p : Port) (c : Command) (value : Byte) (s : State),
    s.ports[p].frame.phase = .arguments → s.ports[p].frame.command = some c.code →
    s.ports[p].frame.arguments.length + 1 < c.argCount →
    exec (.argumentByte p value) s = .next (s.setPort p { s.ports[p] with
      frame := { s.ports[p].frame with
        arguments := s.ports[p].frame.arguments ++ [value], output := 0x00#8 } })

/-- Select rise: what it records in each phase, the frame record's return to phase NONE, and the end of the burst record
(R169). That the other fields of the frame record hold those of `FrameRecord.idle` while no frame is in progress (clock
mode 0, status 0x00, no command, output 0xFF) is the model's choice (log entry 6). -/
def Obligations.SelectRiseRecordsResult : Prop :=
  ∀ (p : Port) (s : State), s.ports[p].frame.phase ≠ .noFrame →
    ∃ r : ResultRecord,
      exec (.selectRise p) s =
        .next (s.setPort p { s.ports[p] with frame := .idle, burst := none, result := r }) ∧
      (s.ports[p].frame.phase = .command →
        r = ⟨none, some ⟨.shortFrame, some ⟨none, none, none, some 0#16⟩, .short⟩⟩) ∧
      (s.ports[p].frame.phase = .arguments →
        r = ⟨s.ports[p].frame.command, some ⟨.shortFrame,
          some ⟨none, none, none, some (BitVec.ofNat 16 (1 + s.ports[p].frame.arguments.length))⟩,
          .short⟩⟩) ∧
      (∀ x, s.ports[p].frame.phase = .data → s.ports[p].frame.result = some x →
        r = ⟨s.ports[p].frame.command, some x⟩) ∧
      (∀ x, s.ports[p].frame.phase = .ignoring → s.ports[p].frame.result = some x →
        r = ⟨s.ports[p].frame.command, some x⟩) ∧
      (s.ports[p].frame.phase = .ignoring → s.ports[p].frame.result = none → r = s.ports[p].result) ∧
      (s.ports[p].frame.phase = .notReady → r = s.ports[p].result)

/-- In phases IGNORING and NOT_READY every byte shifted in is ignored, whatever command or argument it would
have been, and 0xFF is shifted out (R161, R165, R166). -/
def Obligations.IgnoredBytesChangeNothing : Prop :=
  ∀ (i : Instr) (p : Port) (s : State), bytePort i = some p →
    s.ports[p].frame.phase = .ignoring ∨ s.ports[p].frame.phase = .notReady →
    exec i s = .next (s.setPort p { s.ports[p] with
      frame := { s.ports[p].frame with output := 0xFF#8 } })

/-- The response fixed at the taking shifts out in order, then 0xFF or 0x00 by the command; the bytes shifted
in are ignored (R168). That WRITE_DATA_BYTE stands for a byte position without a burst too, and shifts the response
on as READ_DATA_BYTE does, is the model's choice (log entry 20). -/
def Obligations.ResponseShiftsOut : Prop :=
  ∀ (p : Port) (c : Command) (value : Byte) (s : State),
    s.ports[p].frame.phase = .data → s.ports[p].frame.command = some c.code →
    s.ports[p].burst = none →
    exec (.readDataByte p) s = .next (s.setPort p { s.ports[p] with
      frame := { s.ports[p].frame with
        output := s.ports[p].frame.response.headD (commandFiller c)
        response := s.ports[p].frame.response.tail } }) ∧
    exec (.writeDataByte p value) s = .next (s.setPort p { s.ports[p] with
      frame := { s.ports[p].frame with
        output := s.ports[p].frame.response.headD (commandFiller c)
        response := s.ports[p].frame.response.tail } })

/-! ### Transactions -/

/-- BEGIN opens a transaction under the checks of R28 in their order: the flag byte, then the state. The
engine is not consulted. That lease 0 leaves the stopped timer's count as it stood (log entry 21), and that the claim
count is left, which R28 says is 0 already (log entry 2), are the model's readings. -/
def Obligations.BeginOpensTransaction : Prop :=
  ∀ (p : Port) (lease : Half) (flag : Byte) (s : State),
    awaits s p .begin (halfBytes lease ++ [flag]) = true → s.device ≠ .unformatted →
    (flag ≠ 0x00#8 → flag ≠ 0x01#8 →
      exec (.begin p lease flag) s =
        .next (refused s p .begin (halfBytes lease ++ [flag]) .badArgument)) ∧
    (flag = 0x00#8 ∨ flag = 0x01#8 →
      s.ports[p].txn.state ∈ [TxnState.opened, .queued, .committing] →
      exec (.begin p lease flag) s =
        .next (refused s p .begin (halfBytes lease ++ [flag]) .txnExists)) ∧
    (flag = 0x00#8 ∨ flag = 0x01#8 → s.ports[p].txn.state ∈ [TxnState.noTxn, .expired] →
      exec (.begin p lease flag) s =
        .next (s.setPort p { s.ports[p].answered .begin (halfBytes lease ++ [flag]) .ok [] with
          txn := {
            state := .opened
            lease := lease.toNat
            timer := if 0 < lease.toNat then lease.toNat else s.ports[p].txn.timer
            running := decide (0 < lease.toNat)
            durable := decide (flag = 0x01#8) }
          pending := { s.ports[p].pending with lease := false } }))

/-- TOUCH sets the timer of an OPEN transaction to the full lease; with lease 0 the timer stays stopped (R29, R30);
in the other states it is refused as R27 lists and the timer is unchanged. That the stopped timer keeps its count with
lease 0 is the model's reading (log entry 21). -/
def Obligations.TouchRestartsTimer : Prop :=
  ∀ (p : Port) (s : State), awaits s p .touch [] = true →
    (s.device = .unformatted → exec (.touch p) s = .next (refused s p .touch [] .notFormatted)) ∧
    (s.device ≠ .unformatted →
      (s.ports[p].txn.state = .noTxn → exec (.touch p) s = .next (refused s p .touch [] .noTxn)) ∧
      (s.ports[p].txn.state = .queued ∨ s.ports[p].txn.state = .committing →
        exec (.touch p) s = .next (refused s p .touch [] .txnBusy)) ∧
      (s.ports[p].txn.state = .expired →
        exec (.touch p) s = .next (refused s p .touch [] .txnExpired)) ∧
      (s.ports[p].txn.state = .opened → 0 < s.ports[p].txn.lease →
        exec (.touch p) s = .next (s.setPort p { s.ports[p].answered .touch [] .ok [] with
          txn := { s.ports[p].txn with timer := s.ports[p].txn.lease, running := true } })) ∧
      (s.ports[p].txn.state = .opened → s.ports[p].txn.lease = 0 →
        exec (.touch p) s = .next (s.setPort p { s.ports[p].answered .touch [] .ok [] with
          txn := { s.ports[p].txn with running := false } })))

/-- COMMIT in OPEN (R34): with no claims it ends at once; with claims it is refused while an administration
request of the port waits or the engine is STOPPED, and otherwise joins the queue; the timer stops in every
case (R33). -/
def Obligations.CommitEndsOrJoinsQueue : Prop :=
  ∀ (p : Port) (s : State), awaits s p .commit [] = true → s.device ≠ .unformatted →
    s.ports[p].txn.state = .opened →
    (s.claimCount[p] = 0 →
      exec (.commit p) s = .next (s.setPort p { s.ports[p].answered .commit [] .ok [] with
        txn := { s.ports[p].txn with state := .noTxn, running := false } })) ∧
    (0 < s.claimCount[p] →
      (∃ r ∈ s.engine.queue ++ s.engine.inFlight.toList, r.port = p ∧ r.kind ≠ .commit) →
      exec (.commit p) s = .next (s.setPort p {
        s.ports[p].answered .commit [] ⟨.requestPending, none, .refused⟩ [] with
        txn := { s.ports[p].txn with running := false } })) ∧
    (0 < s.claimCount[p] →
      (∀ r ∈ s.engine.queue ++ s.engine.inFlight.toList, r.port = p → r.kind = .commit) →
      (s.engine.state = .stopped →
        exec (.commit p) s = .next (s.setPort p {
          s.ports[p].answered .commit [] ⟨.updateStopped, none, .refused⟩ [] with
          txn := { s.ports[p].txn with running := false } })) ∧
      (s.engine.state ≠ .stopped →
        exec (.commit p) s = .next ((appended s ⟨p, .commit⟩).setPort p {
          s.ports[p].answered .commit [] ⟨.queued, none, .queued⟩ [] with
          txn := { s.ports[p].txn with state := .queued, running := false } })))

/-- COMMIT, WRITE and PUNCH need an OPEN transaction and are refused by its state otherwise (R27); WRITE and
PUNCH once their window checks have passed. The record is unchanged. -/
def Obligations.NotOpenIsRefused : Prop :=
  ∀ (p : Port) (s : State) (code : Code), s.device ≠ .unformatted →
    (s.ports[p].txn.state, code) ∈ [(TxnState.noTxn, Code.noTxn), (.queued, .txnBusy),
      (.committing, .txnBusy), (.expired, .txnExpired)] →
    (awaits s p .commit [] = true → exec (.commit p) s = .next (refused s p .commit [] code)) ∧
    (∀ (w : WindowNo) (window : Byte) (offset : Half) (b : Binding),
      awaits s p .write (window :: halfBytes offset) = true → window.toNat = w.val →
      s.ports[p].windows[w] = .bound b → b.mode = .write → offset.toNat < 256 * b.count →
      exec (.write p window offset) s =
        .next (refused s p .write (window :: halfBytes offset) code)) ∧
    ∀ (w : WindowNo) (window index : Byte) (b : Binding),
      awaits s p .punch [window, index] = true → window.toNat = w.val →
      s.ports[p].windows[w] = .bound b → b.mode = .write →
      exec (.punch p window index) s = .next (refused s p .punch [window, index] code)

/-- ABORT by the state of the transaction (R39). `releaseClaims` is the release of R53, which
ReleaseOfAllClaims states. -/
def Obligations.AbortAbandonsTransaction : Prop :=
  ∀ (p : Port) (s : State), awaits s p .abort [] = true → s.device ≠ .unformatted →
    (s.ports[p].txn.state = .committing →
      exec (.abort p) s = .next (refused s p .abort [] .txnBusy)) ∧
    (s.ports[p].txn.state = .noTxn →
      exec (.abort p) s = .next (s.setPort p { s.ports[p].answered .abort [] .ok [] with
        pending := { s.ports[p].pending with lease := false } })) ∧
    (s.ports[p].txn.state = .expired →
      exec (.abort p) s = .next (s.setPort p { s.ports[p].answered .abort [] .ok [] with
        txn := { s.ports[p].txn with state := .noTxn, running := false }
        pending := { s.ports[p].pending with lease := false } })) ∧
    (s.ports[p].txn.state = .opened →
      exec (.abort p) s = .next ((releaseClaims s p).setPort p {
        s.ports[p].answered .abort [] .ok [] with
        txn := { s.ports[p].txn with state := .noTxn, running := false }
        pending := { s.ports[p].pending with lease := false } })) ∧
    (s.ports[p].txn.state = .queued →
      exec (.abort p) s = .next
        ((releaseClaims { s with engine := { s.engine with
            queue := s.engine.queue.filter fun r => decide (¬(r.port = p ∧ r.kind = .commit)) } } p).setPort p {
        s.ports[p].answered .abort [] .ok [] with
        txn := { s.ports[p].txn with state := .noTxn, running := false }
        pending := { s.ports[p].pending with lease := false } }))

/-- RELEASE acts on the transaction as ABORT does but leaves a COMMITTING one, unbinds the four windows,
empties the fault record and clears the attention record (R41). -/
def Obligations.ReleaseCleansPort : Prop :=
  ∀ (p : Port) (s : State), awaits s p .release [] = true → s.device ≠ .unformatted →
    (s.ports[p].txn.state ∈ [TxnState.noTxn, .committing] →
      exec (.release p) s = .next (s.setPort p { s.ports[p].answered .release [] .ok [] with
        windows := Vector.replicate 4 .unbound, fault := none, mask := .empty, pending := .empty })) ∧
    (s.ports[p].txn.state = .expired →
      exec (.release p) s = .next (s.setPort p { s.ports[p].answered .release [] .ok [] with
        txn := { s.ports[p].txn with state := .noTxn, running := false }
        windows := Vector.replicate 4 .unbound, fault := none, mask := .empty, pending := .empty })) ∧
    (s.ports[p].txn.state = .opened →
      exec (.release p) s = .next ((releaseClaims s p).setPort p {
        s.ports[p].answered .release [] .ok [] with
        txn := { s.ports[p].txn with state := .noTxn, running := false }
        windows := Vector.replicate 4 .unbound, fault := none, mask := .empty, pending := .empty })) ∧
    (s.ports[p].txn.state = .queued →
      exec (.release p) s = .next
        ((releaseClaims { s with engine := { s.engine with
            queue := s.engine.queue.filter fun r => decide (¬(r.port = p ∧ r.kind = .commit)) } } p).setPort p {
        s.ports[p].answered .release [] .ok [] with
        txn := { s.ports[p].txn with state := .noTxn, running := false }
        windows := Vector.replicate 4 .unbound, fault := none, mask := .empty, pending := .empty }))

/-- R53: a release of all of a port's claims. The entries lose the port's claims and nothing else, the
shadows become FREE at the free-list tail in volume order, then page order, and the count becomes 0. -/
def Obligations.ReleaseOfAllClaims : Prop :=
  ∀ (s : State) (p : Port),
    releaseClaims s p = { s with
      volumes := (releaseClaims s p).volumes
      frameStates := (releaseClaims s p).frameStates
      freeList := s.freeList ++ ((ascending 16).flatMap fun v => (ascending 64).filterMap fun g =>
        (entryOf s v g).shadowOf p)
      claimCount := upd s.claimCount p 0 } ∧
    (∀ (v : VolumeNo) (r : VolumeRecord), s.volumes[v] = .present r →
      ∃ es : Vector Entry 64, (releaseClaims s p).volumes[v] = .present { r with entries := es } ∧
        ∀ g : PageNo, es[g] = { r.entries[g] with
          claim := if r.entries[g].claimedBy p = true then none else r.entries[g].claim }) ∧
    (∀ v : VolumeNo, Volume.isPresent s.volumes[v] = false →
      (releaseClaims s p).volumes[v] = s.volumes[v]) ∧
    (∀ (v : VolumeNo) (g : PageNo) (f : FrameNo), isPool f = true →
      (entryOf s v g).shadowOf p = some f → frameState (releaseClaims s p) f = some .free) ∧
    ∀ f : FrameNo, (∀ (v : VolumeNo) (g : PageNo), (entryOf s v g).shadowOf p ≠ some f) →
      frameState (releaseClaims s p) f = frameState s f

/-- A tick of the timebase takes 1 from the running timer of every OPEN transaction with a lease, while the
device is RUNNING (R29). That a timer which stands at 0 already stays at 0 until its expiry is taken is the model's
choice (log entry 16). -/
def Obligations.LeaseTickCountsDown : Prop :=
  ∀ s : State,
    (s.device ≠ .running → exec .leaseTick s = .next s) ∧
    (s.device = .running → ∃ t : State, exec .leaseTick s = .next { s with ports := t.ports } ∧
      ∀ p : Port,
        (s.ports[p].txn.state = .opened → 0 < s.ports[p].txn.lease → s.ports[p].txn.running = true →
          t.ports[p] = { s.ports[p] with
            txn := { s.ports[p].txn with timer := s.ports[p].txn.timer - 1 } }) ∧
        (s.ports[p].txn.state ≠ .opened ∨ s.ports[p].txn.lease = 0 ∨
          s.ports[p].txn.running = false → t.ports[p] = s.ports[p]))

/-- R31: where a running timer of an OPEN transaction with a lease stands at 0 in RUNNING, the expiry releases
every claim of the port, and makes the transaction EXPIRED and LEASE pending. -/
def Obligations.LeaseExpiryReleasesClaims : Prop :=
  ∀ (p : Port) (s : State), s.device = .running → s.ports[p].txn.state = .opened →
    0 < s.ports[p].txn.lease → s.ports[p].txn.running = true → s.ports[p].txn.timer = 0 →
    exec (.leaseExpiry p) s = .next ((releaseClaims s p).setPort p { s.ports[p] with
      txn := { s.ports[p].txn with state := .expired, running := false }
      pending := { s.ports[p].pending with lease := true } })

/-! ### Commands in UNFORMATTED -/

/-- In UNFORMATTED every command but FORMAT, GET_RESULT, INFO_DEVICE and SET_ATTN is refused with
NOT_FORMATTED before any other check (R27, R56, R111, R123). -/
def Obligations.UnformattedRefusesCommands : Prop :=
  ∀ (i : Instr) (p : Port) (c : Command) (args : List Byte) (s : State),
    commandOf i = some (p, c, args) → takenUnformatted c = false → s.device = .unformatted →
    awaits s p c args = true → exec i s = .next (refused s p c args .notFormatted)

/-! ### Windows -/

/-- BIND: the checks 2 to 7 of R56 in their order, and the window it binds (R57). -/
def Obligations.BindBindsWindow : Prop :=
  ∀ (p : Port) (window volume first count mode : Byte) (s : State),
    awaits s p .bind [window, volume, first, count, mode] = true → s.device ≠ .unformatted →
    (4 ≤ window.toNat ∨ 16 ≤ volume.toNat ∨ count.toNat = 0 ∨ 64 < count.toNat ∨ 2 ≤ mode.toNat →
      exec (.bind p window volume first count mode) s =
        .next (refused s p .bind [window, volume, first, count, mode] .badArgument)) ∧
    ∀ (w : WindowNo) (v : VolumeNo) (m : Mode),
      window.toNat = w.val → volume.toNat = v.val → 1 ≤ count.toNat → count.toNat ≤ 64 →
      mode = (match m with | .read => 0x00#8 | .write => 0x01#8) →
      (Volume.isPresent s.volumes[v] = false →
        exec (.bind p window volume first count mode) s =
          .next (refused s p .bind [window, volume, first, count, mode] .noVolume)) ∧
      ∀ r : VolumeRecord, s.volumes[v] = .present r →
        exec (.bind p window volume first count mode) s = .next (
          if r.status.isDamaged = true then
            refused s p .bind [window, volume, first, count, mode] .volumeDamaged
          else if r.size < first.toNat + count.toNat then
            refused s p .bind [window, volume, first, count, mode] .badArgument
          else if r.rights[p].covers m = false then
            refused s p .bind [window, volume, first, count, mode] .noRight
          else if m = .write ∧ (r.status = .frozen ∨ r.status = .lockedFrozen) then
            refused s p .bind [window, volume, first, count, mode] .volumeFrozen
          else if m = .write ∧ r.status.isChanging = true then
            refused s p .bind [window, volume, first, count, mode] .volumeChanging
          else
            s.setPort p {
              s.ports[p].answered .bind [window, volume, first, count, mode] .ok [] with
              windows := upd s.ports[p].windows w
                (.bound ⟨v, Fin.ofNat 64 first.toNat, count.toNat, m⟩) })

/-- R58: UNBIND in UNFORMATTED, with a window above 3, and otherwise. -/
def Obligations.UnbindUnbindsWindow : Prop :=
  ∀ (p : Port) (window : Byte) (s : State), awaits s p .unbind [window] = true →
    (s.device = .unformatted →
      exec (.unbind p window) s = .next (refused s p .unbind [window] .notFormatted)) ∧
    (s.device ≠ .unformatted → 4 ≤ window.toNat →
      exec (.unbind p window) s = .next (refused s p .unbind [window] .badArgument)) ∧
    ∀ w : WindowNo, s.device ≠ .unformatted → window.toNat = w.val →
      exec (.unbind p window) s = .next (s.setPort p {
        s.ports[p].answered .unbind [window] .ok [] with
        windows := upd s.ports[p].windows w .unbound })

/-! ### Reading -/

/-- READ: the checks 2 to 4 of R62; when they pass the burst record is created and the first data byte is
taken at the same happening, as READ_DATA_BYTE takes the later ones (R63). -/
def Obligations.ReadBeginsBurst : Prop :=
  ∀ (p : Port) (window : Byte) (offset : Half) (s : State),
    awaits s p .read (window :: halfBytes offset) = true → s.device ≠ .unformatted →
    (4 ≤ window.toNat →
      exec (.read p window offset) s =
        .next (refused s p .read (window :: halfBytes offset) .badArgument)) ∧
    ∀ w : WindowNo, window.toNat = w.val →
      (s.ports[p].windows[w] = .unbound →
        exec (.read p window offset) s =
          .next (refused s p .read (window :: halfBytes offset) .windowUnbound)) ∧
      (∀ b, s.ports[p].windows[w] = .stale b →
        exec (.read p window offset) s =
          .next (refused s p .read (window :: halfBytes offset) .windowStale)) ∧
      ∀ b, s.ports[p].windows[w] = .bound b →
        (256 * b.count ≤ offset.toNat →
          exec (.read p window offset) s =
            .next (refused s p .read (window :: halfBytes offset) .windowEnd)) ∧
        (offset.toNat < 256 * b.count → ∃ t : State,
          exec (.read p window offset) s = .next t ∧
          exec (.readDataByte p) (s.setPort p {
            s.ports[p].answered .read (window :: halfBytes offset) .ok [] with
            burst := some ⟨.read, w, offset.toNat, false, false, none, none⟩ }) = .next t)

/-- READ_DATA_BYTE takes the next byte of a READ burst by the cases of R63: stopped, a stale window, the
window end, and the byte of the table of R24, with PAGE_POISONED once per page (R65). That the page of a WINDOW_STALE
fault is 64 where the cursor stands at the end of a window that reaches page 63, by the formula of R72 and against its
table of 0 to 63, is the model's reading (log entry 25). -/
def Obligations.ReadByteIsTaken : Prop :=
  ∀ (p : Port) (s : State) (b : Burst), s.ports[p].frame.phase = .data →
    s.ports[p].burst = some b → b.kind = .read →
    (b.stopped = true →
      exec (.readDataByte p) s = .next (s.setPort p { s.ports[p] with
        frame := { s.ports[p].frame with output := 0xFF#8 } })) ∧
    (∀ w, b.stopped = false → s.ports[p].windows[b.window] = .stale w →
      exec (.readDataByte p) s = .next (s.setPort p (PortContext.faulted
        { s.ports[p] with frame := { s.ports[p].frame with output := 0xFF#8 } }
        { b with stopped := true }
        ⟨.windowStale, .read, b.window, w.volume,
          some (w.first.val + b.cursor / 256), b.cursor, false⟩))) ∧
    ∀ w, b.stopped = false → s.ports[p].windows[b.window] = .bound w →
      (256 * w.count ≤ b.cursor → b.endReported = true →
        exec (.readDataByte p) s = .next (s.setPort p { s.ports[p] with
          frame := { s.ports[p].frame with output := 0xFF#8 } })) ∧
      (256 * w.count ≤ b.cursor → b.endReported = false →
        exec (.readDataByte p) s = .next (s.setPort p (PortContext.faulted
          { s.ports[p] with frame := { s.ports[p].frame with output := 0xFF#8 } }
          { b with endReported := true }
          ⟨.windowEnd, .read, b.window, w.volume, none, b.cursor, false⟩))) ∧
      (b.cursor < 256 * w.count →
        ∀ g : PageNo, g = Fin.ofNat 64 (w.first.val + b.cursor / 256) →
        (∀ x : Byte,
          ((∃ f, (entryOf s w.volume g).claimOf p = some (.data f) ∧
              x = arrayAt s (256 * f.val + b.cursor % 256)) ∨
            ((entryOf s w.volume g).claimOf p = some .hole ∧ x = 0x00#8) ∨
            ((entryOf s w.volume g).claimOf p = none ∧ (entryOf s w.volume g).committed = none ∧
              x = 0x00#8) ∨
            ∃ c, (entryOf s w.volume g).claimOf p = none ∧
              (entryOf s w.volume g).committed = some c ∧ c.poisoned = false ∧
              x = arrayAt s (256 * c.frame.val + b.cursor % 256)) →
          exec (.readDataByte p) s = .next (s.setPort p { s.ports[p] with
            frame := { s.ports[p].frame with output := x }
            burst := some { b with cursor := b.cursor + 1 } })) ∧
        ∀ c, (entryOf s w.volume g).claimOf p = none → (entryOf s w.volume g).committed = some c →
          c.poisoned = true →
          (b.poisonReported = some g →
            exec (.readDataByte p) s = .next (s.setPort p { s.ports[p] with
              frame := { s.ports[p].frame with output := 0xFF#8 }
              burst := some { b with cursor := b.cursor + 1 } })) ∧
          (b.poisonReported ≠ some g →
            exec (.readDataByte p) s = .next (s.setPort p (PortContext.faulted
              { s.ports[p] with frame := { s.ports[p].frame with output := 0xFF#8 } }
              { b with cursor := b.cursor + 1, poisonReported := some g }
              ⟨.pagePoisoned, .read, b.window, w.volume, some g.val, b.cursor, false⟩))))

/-- No port's read returns data of another port's claim: what a port with no claim on a page reads depends
on the entry's committed part and the committed frame's byte alone (R24, R52, R64). -/
def Obligations.ReadsSeeNoForeignClaim : Prop :=
  ∀ (s t : State) (p : Port) (v : VolumeNo) (g : PageNo) (off : Fin 256),
    (∀ k, (entryOf s v g).claim ≠ some ⟨p, k⟩) → (∀ k, (entryOf t v g).claim ≠ some ⟨p, k⟩) →
    (entryOf s v g).committed = (entryOf t v g).committed →
    (∀ c, (entryOf s v g).committed = some c →
      arrayAt s (256 * c.frame.val + off.val) = arrayAt t (256 * c.frame.val + off.val)) →
    translate s p v g off = translate t p v g off

/-! ### Writing -/

/-- WRITE: the checks 2 to 6 of R66 in their order (the transaction's is NotOpenIsRefused), and the burst
record it creates. -/
def Obligations.WriteBeginsBurst : Prop :=
  ∀ (p : Port) (window : Byte) (offset : Half) (s : State),
    awaits s p .write (window :: halfBytes offset) = true → s.device ≠ .unformatted →
    (4 ≤ window.toNat →
      exec (.write p window offset) s =
        .next (refused s p .write (window :: halfBytes offset) .badArgument)) ∧
    ∀ w : WindowNo, window.toNat = w.val →
      (s.ports[p].windows[w] = .unbound →
        exec (.write p window offset) s =
          .next (refused s p .write (window :: halfBytes offset) .windowUnbound)) ∧
      (∀ b, s.ports[p].windows[w] = .stale b →
        exec (.write p window offset) s =
          .next (refused s p .write (window :: halfBytes offset) .windowStale)) ∧
      ∀ b, s.ports[p].windows[w] = .bound b →
        (b.mode = .read →
          exec (.write p window offset) s =
            .next (refused s p .write (window :: halfBytes offset) .windowMode)) ∧
        (b.mode = .write → 256 * b.count ≤ offset.toNat →
          exec (.write p window offset) s =
            .next (refused s p .write (window :: halfBytes offset) .windowEnd)) ∧
        (b.mode = .write → offset.toNat < 256 * b.count → s.ports[p].txn.state = .opened →
          exec (.write p window offset) s = .next (s.setPort p {
            s.ports[p].answered .write (window :: halfBytes offset) .ok [] with
            burst := some ⟨.write, w, offset.toNat, false, false, none, none⟩ }))

/-- WRITE_DATA_BYTE on a page with the port's own DATA claim: the byte is placed in the claim's shadow frame
and nothing else changes but the cursor (R47, R67). `MemoryForm` is the invariant of MemoryFormIsKept. -/
def Obligations.WriteByteInOwnShadow : Prop :=
  ∀ (p : Port) (value : Byte) (s : State) (b : Burst) (w : Binding) (g : PageNo) (f : FrameNo),
    s.ports[p].frame.phase = .data → s.ports[p].burst = some b → b.kind = .write →
    b.stopped = false → s.ports[p].txn.state = .opened → s.ports[p].windows[b.window] = .bound w →
    b.cursor < 256 * w.count → g = Fin.ofNat 64 (w.first.val + b.cursor / 256) →
    (entryOf s w.volume g).claim = some ⟨p, .data f⟩ → MemoryForm s →
    ∃ t : State, exec (.writeDataByte p value) s = .next t ∧
      t = { s with
        array := t.array
        ports := upd s.ports p { s.ports[p] with burst := some { b with cursor := b.cursor + 1 } } } ∧
      arrayAt t (256 * f.val + b.cursor % 256) = value ∧
      ∀ x, x ≠ 256 * f.val + b.cursor % 256 → arrayAt t x = arrayAt s x

/-- WRITE_DATA_BYTE on a page on which the port holds no DATA claim: with the checks of R46 passed a claim is
created, with its count; a HOLE claim of the port is converted, with its count unchanged (R47). Either way the
frame at the head of the free list becomes SHADOW and holds the fill of R25 under the byte. -/
def Obligations.WriteByteMakesDataClaim : Prop :=
  ∀ (p : Port) (value : Byte) (s : State) (b : Burst) (w : Binding) (g : PageNo) (r : VolumeRecord)
    (f : FrameNo) (rest : List FrameNo),
    s.ports[p].frame.phase = .data → s.ports[p].burst = some b → b.kind = .write →
    b.stopped = false → s.ports[p].txn.state = .opened → s.ports[p].windows[b.window] = .bound w →
    b.cursor < 256 * w.count → g = Fin.ofNat 64 (w.first.val + b.cursor / 256) →
    s.volumes[w.volume] = .present r → s.freeList = f :: rest → 8 < s.freeList.length →
    isPool f = true → MemoryForm s →
    ((r.entries[g].claim = none ∧ r.status = .opened ∧ s.claimCount[p] < quotaOf s p) ∨
      r.entries[g].claim = some ⟨p, .hole⟩) →
    ∃ t : State, exec (.writeDataByte p value) s = .next t ∧
      t = { s with
        array := t.array, frameStates := t.frameStates, freeList := rest
        ports := upd s.ports p { s.ports[p] with burst := some { b with cursor := b.cursor + 1 } }
        volumes := upd s.volumes w.volume (.present { r with
          entries := upd r.entries g { r.entries[g] with claim := some ⟨p, .data f⟩ } })
        claimCount := if r.entries[g].claim = none then upd s.claimCount p (s.claimCount[p] + 1)
          else s.claimCount } ∧
      frameState t f = some .shadow ∧ (∀ h, h ≠ f → frameState t h = frameState s h) ∧
      arrayAt t (256 * f.val + b.cursor % 256) = value ∧
      (∀ x, ¬ inFrame f x → arrayAt t x = arrayAt s x) ∧
      ∀ i : Fin 256, i.val ≠ b.cursor % 256 →
        (r.entries[g].claim = some ⟨p, .hole⟩ ∨ r.entries[g].committed = none ∨
          (∃ c, r.entries[g].committed = some c ∧ c.poisoned = true) →
          arrayAt t (256 * f.val + i.val) = 0x00#8) ∧
        ∀ c, r.entries[g].claim = none → r.entries[g].committed = some c → c.poisoned = false →
          arrayAt t (256 * f.val + i.val) = arrayAt s (256 * c.frame.val + i.val)

/-- WRITE_DATA_BYTE where the byte is refused or ignored: a stopped burst, a transaction no longer OPEN, a
stale window, the window end, and the refusals of claim creation in the order of R46; a refusal stops the
burst and becomes the frame result, and no entry, frame or count changes (R67, R68). That the page of a WINDOW_STALE
fault is 64 where the cursor stands at the end of a window that reaches page 63, by the formula of R72 and against its
table of 0 to 63, is the model's reading (log entry 25). -/
def Obligations.WriteByteRefused : Prop :=
  ∀ (p : Port) (value : Byte) (s : State) (b : Burst),
    s.ports[p].frame.phase = .data → s.ports[p].burst = some b → b.kind = .write →
    let refuse : Code → Option Detail → Answer := fun code d =>
      .next (s.setPort p { s.ports[p] with
        burst := some { b with stopped := true }
        frame := { s.ports[p].frame with result := some ⟨code, d, .refused⟩ } })
    (b.stopped = true → exec (.writeDataByte p value) s = .next s) ∧
    (b.stopped = false → s.ports[p].txn.state ≠ .opened →
      exec (.writeDataByte p value) s = refuse .txnExpired none) ∧
    (b.stopped = false → s.ports[p].txn.state = .opened → ∀ w : Binding,
      (s.ports[p].windows[b.window] = .stale w →
        exec (.writeDataByte p value) s = .next (s.setPort p (PortContext.faulted s.ports[p]
          { b with stopped := true }
          ⟨.windowStale, .write, b.window, w.volume,
            some (w.first.val + b.cursor / 256), b.cursor, false⟩))) ∧
      (s.ports[p].windows[b.window] = .bound w → 256 * w.count ≤ b.cursor →
        (b.endReported = true → exec (.writeDataByte p value) s = .next s) ∧
        (b.endReported = false →
          exec (.writeDataByte p value) s = .next (s.setPort p (PortContext.faulted s.ports[p]
            { b with endReported := true }
            ⟨.windowEnd, .write, b.window, w.volume, none, b.cursor, false⟩)))) ∧
      (s.ports[p].windows[b.window] = .bound w → b.cursor < 256 * w.count →
        ∀ (g : PageNo) (r : VolumeRecord), g = Fin.ofNat 64 (w.first.val + b.cursor / 256) →
        s.volumes[w.volume] = .present r →
        (r.entries[g].claim = some ⟨p, .hole⟩ → s.freeList.length ≤ 8 →
          exec (.writeDataByte p value) s =
            refuse .noFrame (some ⟨none, some w.volume, some g, none⟩)) ∧
        ((∀ k, r.entries[g].claim ≠ some ⟨p, k⟩) →
          (r.status.isChanging = true →
            exec (.writeDataByte p value) s =
              refuse .volumeChanging (some ⟨none, some w.volume, some g, none⟩)) ∧
          (r.status = .frozen ∨ r.status = .lockedFrozen →
            exec (.writeDataByte p value) s =
              refuse .volumeFrozen (some ⟨none, some w.volume, some g, none⟩)) ∧
          (∀ q k, r.status = .opened → r.entries[g].claim = some ⟨q, k⟩ →
            exec (.writeDataByte p value) s =
              refuse .claimed (some ⟨some q, some w.volume, some g, none⟩)) ∧
          (r.status = .opened → r.entries[g].claim = none → quotaOf s p ≤ s.claimCount[p] →
            exec (.writeDataByte p value) s =
              refuse .quotaReached (some ⟨none, none, none, some (BitVec.ofNat 16 s.claimCount[p])⟩)) ∧
          (r.status = .opened → r.entries[g].claim = none → s.claimCount[p] < quotaOf s p →
            s.freeList.length ≤ 8 →
            exec (.writeDataByte p value) s =
              refuse .noFrame (some ⟨none, some w.volume, some g, none⟩)))))

/-! ### Punching -/

/-- PUNCH through a WRITE-mode window in an OPEN transaction, with its page index inside the window: the
table of R48, with the creation checks 1 to 3 of R46. That another port's claim answers CLAIMED whatever the volume's
state, before check 1 of R46, is the model's reading (log entry 12). -/
def Obligations.PunchMakesHoleClaim : Prop :=
  ∀ (p : Port) (window index : Byte) (s : State) (w : WindowNo) (b : Binding) (g : PageNo)
    (r : VolumeRecord),
    awaits s p .punch [window, index] = true → s.device ≠ .unformatted → window.toNat = w.val →
    s.ports[p].windows[w] = .bound b → b.mode = .write → s.ports[p].txn.state = .opened →
    index.toNat < b.count → g = Fin.ofNat 64 (b.first.val + index.toNat) →
    s.volumes[b.volume] = .present r →
    let ok := s.ports[p].answered .punch [window, index] .ok []
    let held := Volume.present { r with
      entries := upd r.entries g { r.entries[g] with claim := some ⟨p, .hole⟩ } }
    let refuse : Code → Option Detail → Answer := fun code d =>
      .next (answered s p .punch [window, index] ⟨code, d, .refused⟩ [])
    (r.entries[g].claim = some ⟨p, .hole⟩ →
      exec (.punch p window index) s = .next (s.setPort p ok)) ∧
    (∀ f, r.entries[g].claim = some ⟨p, .data f⟩ → isPool f = true →
      ∃ t : State, exec (.punch p window index) s = .next t ∧
        t = { s with
          ports := upd s.ports p ok, volumes := upd s.volumes b.volume held
          frameStates := t.frameStates, freeList := s.freeList ++ [f] } ∧
        frameState t f = some .free ∧ ∀ h, h ≠ f → frameState t h = frameState s h) ∧
    (∀ q k, q ≠ p → r.entries[g].claim = some ⟨q, k⟩ →
      exec (.punch p window index) s = refuse .claimed (some ⟨some q, some b.volume, some g, none⟩)) ∧
    (r.entries[g].claim = none →
      (r.status.isChanging = true →
        exec (.punch p window index) s =
          refuse .volumeChanging (some ⟨none, some b.volume, some g, none⟩)) ∧
      (r.status = .frozen ∨ r.status = .lockedFrozen →
        exec (.punch p window index) s =
          refuse .volumeFrozen (some ⟨none, some b.volume, some g, none⟩)) ∧
      (r.status = .opened → quotaOf s p ≤ s.claimCount[p] →
        exec (.punch p window index) s =
          refuse .quotaReached (some ⟨none, none, none, some (BitVec.ofNat 16 s.claimCount[p])⟩)) ∧
      (r.status = .opened → s.claimCount[p] < quotaOf s p →
        exec (.punch p window index) s = .next { s with
          ports := upd s.ports p ok, volumes := upd s.volumes b.volume held
          claimCount := upd s.claimCount p (s.claimCount[p] + 1) }))

/-- PUNCH: the checks 2 to 4 of R70 in their order (the transaction's is NotOpenIsRefused), and its check 6: with
a page index at or past the page count WINDOW_END is recorded as a fault of kind punch and is the frame result,
of class FAULT (R70, R73). -/
def Obligations.PunchChecksItsWindow : Prop :=
  ∀ (p : Port) (window index : Byte) (s : State),
    awaits s p .punch [window, index] = true → s.device ≠ .unformatted →
    (4 ≤ window.toNat →
      exec (.punch p window index) s = .next (refused s p .punch [window, index] .badArgument)) ∧
    ∀ w : WindowNo, window.toNat = w.val →
      (s.ports[p].windows[w] = .unbound →
        exec (.punch p window index) s = .next (refused s p .punch [window, index] .windowUnbound)) ∧
      (∀ b, s.ports[p].windows[w] = .stale b →
        exec (.punch p window index) s = .next (refused s p .punch [window, index] .windowStale)) ∧
      ∀ b, s.ports[p].windows[w] = .bound b →
        (b.mode = .read →
          exec (.punch p window index) s = .next (refused s p .punch [window, index] .windowMode)) ∧
        (b.mode = .write → s.ports[p].txn.state = .opened → b.count ≤ index.toNat →
          s.ports[p].burst = none →
          exec (.punch p window index) s = .next (s.setPort p {
            s.ports[p].answered .punch [window, index] ⟨.windowEnd, none, .fault⟩ [] with
            fault := some (faultAfter s.ports[p].fault
              ⟨.windowEnd, .punch, w, b.volume, none, 256 * index.toNat, false⟩)
            pending := { s.ports[p].pending with
              fault := s.ports[p].pending.fault || s.ports[p].fault.isNone } }))


/-! ### Administration -/

/-- The common checks 2 to 4 of every administration command but FORMAT, in their order (R122, R123); check 1
is in UnformattedRefusesCommands. -/
def Obligations.AdminCommonChecks : Prop :=
  ∀ (i : Instr) (p : Port) (c : Command) (args : List Byte) (s : State),
    commandOf i = some (p, c, args) → isAdminCommand c = true → awaits s p c args = true →
    s.device ≠ .unformatted →
    (isAdminPort s p = false → exec i s = .next (refused s p c args .notAdmin)) ∧
    (isAdminPort s p = true → (∃ r ∈ s.engine.queue ++ s.engine.inFlight.toList, r.port = p) →
      exec i s = .next (refused s p c args .requestPending)) ∧
    (isAdminPort s p = true → (∀ r ∈ s.engine.queue ++ s.engine.inFlight.toList, r.port ≠ p) →
      s.engine.state = .stopped → exec i s = .next (refused s p c args .updateStopped))

/-- CREATE after its common checks (R127, R133): its arguments, VOLUME_EXISTS, and its acceptance, which puts
the volume in CREATING with what the request carries. -/
def Obligations.CreateAccepted : Prop :=
  ∀ (p : Port) (volume size rights pinned : Byte) (s : State),
    awaits s p .create [volume, size, rights, pinned] = true → adminReady s p = true →
    (16 ≤ volume.toNat ∨ size.toNat = 0 ∨ 64 < size.toNat ∨ 2 ≤ pinned.toNat ∨
        (∃ q : Port, rights.extractLsb' (2 * q.val) 2 = 3#2) →
      exec (.create p volume size rights pinned) s =
        .next (refused s p .create [volume, size, rights, pinned] .badArgument)) ∧
    ∀ (v : VolumeNo) (r : Vector Right 4) (k : Bool),
      volume.toNat = v.val → 1 ≤ size.toNat → size.toNat ≤ 64 → pinned.toNat = k.toNat →
      (∀ q : Port, rights.extractLsb' (2 * q.val) 2 =
        (match r[q] with | .noAccess => 0#2 | .read => 1#2 | .write => 2#2)) →
      (s.volumes[v] ≠ .absent →
        exec (.create p volume size rights pinned) s =
          .next (answered s p .create [volume, size, rights, pinned]
            ⟨.volumeExists, some ⟨none, some v, none, none⟩, .refused⟩ [])) ∧
      (s.volumes[v] = .absent →
        exec (.create p volume size rights pinned) s =
          .next (answered
            { appended s ⟨p, .create v size.toNat r k⟩ with
              volumes := upd s.volumes v (.creating size.toNat r k) }
            p .create [volume, size, rights, pinned] ⟨.queued, none, .queued⟩ []))

/-- DELETE, RESIZE, FREEZE and LOCK accepted: the volume enters CHANGING with the pending operation, the state
it had becomes the return state, and the request joins the tail of the queue (R19, R75, R128, R135, R137,
R138, R139). -/
def Obligations.ChangingAccepted : Prop :=
  ∀ (p : Port) (volume : Byte) (s : State) (v : VolumeNo) (r : VolumeRecord) (ret : ReturnState),
    adminReady s p = true → volume.toNat = v.val → s.volumes[v] = .present r → guardActs s v = false →
    r.status = ret.status →
    let accepted : Command → List Byte → Operation → RequestKind → Answer := fun c args op kind =>
      .next (answered
        { appended s ⟨p, kind⟩ with
          volumes := upd s.volumes v (.present { r with status := .changing op ret }) }
        p c args ⟨.queued, none, .queued⟩ [])
    (awaits s p .delete [volume] = true → (∀ g : PageNo, r.entries[g].claim = none) →
      exec (.delete p volume) s = accepted .delete [volume] .delete (.delete v)) ∧
    (∀ size : Byte, awaits s p .resize [volume, size] = true → 1 ≤ size.toNat → size.toNat ≤ 64 →
      ret = .opened → (∀ g : PageNo, size.toNat ≤ g.val → r.entries[g].claim = none) →
      exec (.resize p volume size) s =
        accepted .resize [volume, size] (.resize size.toNat) (.resize v size.toNat)) ∧
    (awaits s p .freeze [volume] = true → ret = .opened → (∀ g : PageNo, r.entries[g].claim = none) →
      exec (.freeze p volume) s = accepted .freeze [volume] .freeze (.freeze v)) ∧
    (awaits s p .lock [volume] = true → ret = .opened ∨ ret = .frozen →
      (∀ g : PageNo, r.entries[g].claim = none) →
      exec (.lock p volume) s = accepted .lock [volume] .lock (.lock v))

/-- THAW, SET_RIGHTS, PIN and UNPIN accepted: the request joins the tail of the queue and no volume changes
(R75, R140, R142, R143). The guard does not act on PIN (R125). -/
def Obligations.StatelessAccepted : Prop :=
  ∀ (p : Port) (volume : Byte) (s : State) (v : VolumeNo) (r : VolumeRecord),
    adminReady s p = true → volume.toNat = v.val → s.volumes[v] = .present r →
    let accepted : Command → List Byte → RequestKind → Answer := fun c args kind =>
      .next (answered (appended s ⟨p, kind⟩) p c args ⟨.queued, none, .queued⟩ [])
    (awaits s p .thaw [volume] = true → guardActs s v = false → r.status = .frozen →
      exec (.thaw p volume) s = accepted .thaw [volume] (.thaw v)) ∧
    (∀ (x : Byte) (target : Port) (right : Right),
      awaits s p .setRights [volume, x] = true → guardActs s v = false →
      (∀ st, r.status ≠ .damaged st) → x.toNat / 16 = target.val →
      x.toNat % 16 = (match right with | .noAccess => 0 | .read => 1 | .write => 2) →
      exec (.setRights p volume x) s =
        accepted .setRights [volume, x] (.setRights v target right)) ∧
    (awaits s p .pin [volume] = true → exec (.pin p volume) s = accepted .pin [volume] (.pin v)) ∧
    (awaits s p .unpin [volume] = true → guardActs s v = false →
      exec (.unpin p volume) s = accepted .unpin [volume] (.unpin v))

/-- The refusals of the volume commands after the common checks: BAD_ARGUMENT, NO_VOLUME, and with the guard
not acting the refusals by the volume's state and by its claims (R123, R135, R137 to R143). The detail of
IN_USE names the lowest-numbered page in the way and its claimant. -/
def Obligations.VolumeCommandRefusals : Prop :=
  ∀ (p : Port) (volume size x : Byte) (s : State) (i : Instr) (c : Command) (args : List Byte),
    i ∈ [Instr.delete p volume, .resize p volume size, .freeze p volume, .lock p volume, .thaw p volume,
      .setRights p volume x, .pin p volume, .unpin p volume] →
    commandOf i = some (p, c, args) → awaits s p c args = true → adminReady s p = true →
    (16 ≤ volume.toNat ∨ (c = .resize ∧ (size.toNat = 0 ∨ 64 < size.toNat)) ∨
        (c = .setRights ∧ (4 ≤ x.toNat / 16 ∨ 3 ≤ x.toNat % 16)) →
      exec i s = .next (refused s p c args .badArgument)) ∧
    ∀ v : VolumeNo, volume.toNat = v.val → 1 ≤ size.toNat → size.toNat ≤ 64 → x.toNat / 16 < 4 →
      x.toNat % 16 < 3 →
      (Volume.isPresent s.volumes[v] = false → exec i s = .next (refused s p c args .noVolume)) ∧
      ∀ r : VolumeRecord, s.volumes[v] = .present r → guardActs s v = false →
        (r.status.isChanging = true → c ∈ [Command.delete, .resize, .freeze, .lock, .thaw] →
          exec i s = .next (refused s p c args .volumeChanging)) ∧
        (∀ st, r.status = .damaged st → c ∈ [Command.resize, .freeze, .lock, .thaw, .setRights] →
          exec i s = .next (refused s p c args .volumeDamaged)) ∧
        (r.status = .lockedFrozen → c ∈ [Command.delete, .resize, .freeze, .lock, .thaw] →
          exec i s = .next (refused s p c args .permanent)) ∧
        (r.status = .frozen → c ∈ [Command.resize, .freeze] →
          exec i s = .next (refused s p c args .volumeFrozen)) ∧
        (r.status = .opened → c = .thaw → exec i s = .next (refused s p c args .badArgument)) ∧
        ∀ (g : PageNo) (y : Claim), r.entries[g].claim = some y →
          (c = .delete ∧ r.status.isChanging = false ∧ r.status ≠ .lockedFrozen ∧
              (∀ h : PageNo, h < g → r.entries[h].claim = none) ∨
            c = .resize ∧ r.status = .opened ∧ size.toNat ≤ g.val ∧
              (∀ h : PageNo, size.toNat ≤ h.val → h < g → r.entries[h].claim = none) ∨
            c = .freeze ∧ r.status = .opened ∧ (∀ h : PageNo, h < g → r.entries[h].claim = none) ∨
            c = .lock ∧ (r.status = .opened ∨ r.status = .frozen) ∧
              (∀ h : PageNo, h < g → r.entries[h].claim = none)) →
          exec i s = .next (answered s p c args
            ⟨.inUse, some ⟨some y.port, some v, some g, none⟩, .refused⟩ [])

/-- The LOCKIN guard: while the line is asserted, DELETE, RESIZE, FREEZE, LOCK, THAW, SET_RIGHTS and UNPIN of a
present pinned volume are refused with GUARDED, before any check of the volume's state or claims (R125). -/
def Obligations.GuardRefuses : Prop :=
  ∀ (p : Port) (volume size x : Byte) (s : State) (i : Instr) (c : Command) (args : List Byte)
    (v : VolumeNo) (r : VolumeRecord),
    i ∈ [Instr.delete p volume, .resize p volume size, .freeze p volume, .lock p volume, .thaw p volume,
      .setRights p volume x, .unpin p volume] →
    commandOf i = some (p, c, args) → awaits s p c args = true → adminReady s p = true →
    volume.toNat = v.val → 1 ≤ size.toNat → size.toNat ≤ 64 → x.toNat / 16 < 4 → x.toNat % 16 < 3 →
    s.lockin = true → s.volumes[v] = .present r → r.pinned = true →
    exec i s =
      .next (answered s p c args ⟨.guarded, some ⟨none, some v, none, none⟩, .refused⟩ [])

/-- CONFIG_PORT and CONFIG_DEVICE after their common checks (R144, R146): the argument ranges, a mask that
would be empty, and their acceptance, which changes no setting. -/
def Obligations.ConfigAccepted : Prop :=
  ∀ (p : Port) (s : State) (st : Settings), adminReady s p = true → s.engine.settings = some st →
    (∀ (target bit : Byte) (quota : Half),
      awaits s p .configPort (target :: halfBytes quota ++ [bit]) = true →
      (4 ≤ target.toNat ∨ 1024 < quota.toNat ∨ 2 ≤ bit.toNat →
        exec (.configPort p target quota bit) s =
          .next (refused s p .configPort (target :: halfBytes quota ++ [bit]) .badArgument)) ∧
      ∀ (q : Port) (k : Bool), target.toNat = q.val → quota.toNat ≤ 1024 → bit.toNat = k.toNat →
        (k = false → (∀ h : Port, h ≠ q → st.mask[h] = false) →
          exec (.configPort p target quota bit) s =
          .next (refused s p .configPort (target :: halfBytes quota ++ [bit]) .badArgument)) ∧
        (k = true ∨ (∃ h : Port, h ≠ q ∧ st.mask[h] = true) →
          exec (.configPort p target quota bit) s =
            .next (answered (appended s ⟨p, .configPort q quota.toNat k⟩) p .configPort
              (target :: halfBytes quota ++ [bit]) ⟨.queued, none, .queued⟩ []))) ∧
    ∀ budget : Byte, awaits s p .configDevice [budget] = true →
      exec (.configDevice p budget) s =
        .next (answered (appended s ⟨p, .configDevice budget.toNat⟩) p .configDevice [budget]
          ⟨.queued, none, .queued⟩ [])

/-- FORMAT: the checks of R131 in their order, on any port, and its acceptance. -/
def Obligations.FormatAccepted : Prop :=
  ∀ (p : Port) (s : State), awaits s p .format [] = true →
    (s.device ≠ .unformatted →
      exec (.format p) s = .next (refused s p .format [] .alreadyFormatted)) ∧
    (s.device = .unformatted → (∃ r ∈ s.engine.queue ++ s.engine.inFlight.toList, r.port = p) →
      exec (.format p) s = .next (refused s p .format [] .requestPending)) ∧
    (s.device = .unformatted → (∀ r ∈ s.engine.queue ++ s.engine.inFlight.toList, r.port ≠ p) →
      (s.engine.state = .stopped →
        exec (.format p) s = .next (refused s p .format [] .updateStopped)) ∧
      (s.engine.state ≠ .stopped →
        exec (.format p) s =
          .next (answered (appended s ⟨p, .format⟩) p .format [] ⟨.queued, none, .queued⟩ [])))

/-! ### Results, attention and queries -/

/-- GET_RESULT fixes its response from the records as they stand, empties the fault record, and clears every
cause but LEASE (R182). The response is that of R186 whole: the result record with its presence bits and its detail,
the pending causes and the mask, the fault record, and the update report with its generations; a field that is absent
is sent as 0. The bits that R186 does not list in bytes 3, 11 and 19 are not spoken of (log entry 24). -/
def Obligations.GetResultEmptiesRecords : Prop :=
  ∀ (p : Port) (s : State), awaits s p .getResult [] = true →
    let result := s.ports[p].result.result
    let command := s.ports[p].result.command
    let detail := result.bind fun x => x.detail
    let fault := s.ports[p].fault
    let report := s.ports[p].report
    let generations := (report.bind fun r => r.generations).getD []
    ∃ response : List Byte,
      exec (.getResult p) s = .next (s.setPort p {
        s.ports[p].answered .getResult [] ⟨.ok, none, .ok⟩ response with
        fault := none
        pending := ⟨false, s.ports[p].pending.lease, false, false, false⟩ }) ∧
      response.length = 31 + 5 * generations.length ∧
      (∃ b, response[0]? = some b ∧ b.getLsbD 0 = result.isSome ∧ b.getLsbD 1 = command.isSome ∧
        b.extractLsb' 2 6 = 0#6) ∧
      response[1]? = some (command.getD 0x00#8) ∧
      (∀ x, result = some x → response[2]? = some x.code.value) ∧
      (result = none → response[2]? = some 0x00#8) ∧
      (detail = none → (∃ b, response[3]? = some b ∧ b.extractLsb' 0 4 = 0#4) ∧
        ∀ i, 4 ≤ i → i < 9 → response[i]? = some 0x00#8) ∧
      (∀ d, detail = some d →
        (∃ b, response[3]? = some b ∧ b.getLsbD 0 = d.port.isSome ∧ b.getLsbD 1 = d.volume.isSome ∧
          b.getLsbD 2 = d.page.isSome ∧ b.getLsbD 3 = d.value.isSome) ∧
        response[4]? = some (match d.port with | some q => BitVec.ofNat 8 q.val | none => 0x00#8) ∧
        response[5]? = some (match d.volume with | some v => BitVec.ofNat 8 v.val | none => 0x00#8) ∧
        response[6]? = some (match d.page with | some g => BitVec.ofNat 8 g.val | none => 0x00#8) ∧
        halfAt response 7 = d.value.getD 0#16) ∧
      response[9]? = some s.ports[p].pending.toByte ∧ response[10]? = some s.ports[p].mask.toByte ∧
      (fault = none → (∃ b, response[11]? = some b ∧ b.extractLsb' 0 3 = 0#3) ∧
        ∀ i, 12 ≤ i → i < 19 → response[i]? = some 0x00#8) ∧
      (∀ f, fault = some f →
        (∃ b, response[11]? = some b ∧ b.getLsbD 0 = true ∧ b.getLsbD 1 = f.further ∧
          b.getLsbD 2 = f.page.isSome) ∧
        response[12]? = some f.cause.code.value ∧
        response[13]? = some (match f.access with | .read => 0#8 | .write => 1#8 | .punch => 2#8) ∧
        response[14]? = some (BitVec.ofNat 8 f.window.val) ∧
        response[15]? = some (BitVec.ofNat 8 f.volume.val) ∧
        response[16]? = some (match f.page with | some g => BitVec.ofNat 8 g | none => 0x00#8) ∧
        halfAt response 17 = BitVec.ofNat 16 f.offset) ∧
      (report = none → (∃ b, response[19]? = some b ∧ b.extractLsb' 0 4 = 0#4) ∧
        ∀ i, 20 ≤ i → i < 31 → response[i]? = some 0x00#8) ∧
      ∀ r, report = some r →
        (∃ b, response[19]? = some b ∧ b.getLsbD 0 = true ∧ b.getLsbD 1 = r.volume.isSome ∧
          b.getLsbD 2 = r.sequence.isSome ∧ b.getLsbD 3 = r.failedStep.isSome) ∧
        response[20]? = some r.kind.code ∧ response[21]? = some r.outcome.value ∧
        response[22]? = some (match r.volume with | some v => BitVec.ofNat 8 v.val | none => 0x00#8) ∧
        wordAt response 23 = r.sequence.getD 0#32 ∧
        (response.drop 27).take 3 = (match r.failedStep with
          | none => [0#8, 0#8, 0#8]
          | some (.page v g) => [0#8, BitVec.ofNat 8 v.val, BitVec.ofNat 8 g.val]
          | some (.mapSlot v slot) => [1#8, BitVec.ofNat 8 v.val, BitVec.ofNat 8 slot.val]
          | some (.rootSlot slot) => [2#8, if slot = .a then 0#8 else 1#8, 0#8]) ∧
        response[30]? = some (BitVec.ofNat 8 generations.length) ∧
        ∀ i v gen, generations[i]? = some (v, gen) →
          response[31 + 5 * i]? = some (BitVec.ofNat 8 v.val) ∧ wordAt response (32 + 5 * i) = gen

/-- R181: SET_ATTN replaces the whole mask by the causes of its byte, unless bits 7 to 5 are not 0; the
pending set stays, and the line takes the level the new mask gives. -/
def Obligations.SetAttnReplacesMask : Prop :=
  ∀ (p : Port) (mask : Byte) (s : State), awaits s p .setAttn [mask] = true →
    (mask.extractLsb' 5 3 ≠ 0#3 →
      exec (.setAttn p mask) s = .next (refused s p .setAttn [mask] .badArgument)) ∧
    (mask.extractLsb' 5 3 = 0#3 → ∃ t : State,
      exec (.setAttn p mask) s = .next t ∧
      t = s.setPort p { s.ports[p].answered .setAttn [mask] ⟨.ok, none, .ok⟩ [] with
        mask := ⟨mask.getLsbD 0, mask.getLsbD 1, mask.getLsbD 2, mask.getLsbD 3, mask.getLsbD 4⟩ } ∧
      (s.device = .running ∨ s.device = .unformatted →
        (attnLine t p = true ↔
          ∃ c : Cause, s.ports[p].pending.has c = true ∧ t.ports[p].mask.has c = true)))

/-- INFO_VOLUME, INFO_PAGE and INFO_DEVICE: their checks, and their responses, byte by byte; they change
nothing but their own frame (R183, R184, R185, R187). That the unlisted bits of the flags byte of a CREATING volume
are 0 is the model's choice (log entry 24). -/
def Obligations.QueriesReportRecords : Prop :=
  ∀ (p : Port) (s : State),
    (∀ volume : Byte, awaits s p .infoVolume [volume] = true → s.device ≠ .unformatted →
      (16 ≤ volume.toNat →
        exec (.infoVolume p volume) s = .next (refused s p .infoVolume [volume] .badArgument)) ∧
      ∀ v : VolumeNo, volume.toNat = v.val → ∃ response : List Byte,
        exec (.infoVolume p volume) s =
          .next (answered s p .infoVolume [volume] ⟨.ok, none, .ok⟩ response) ∧
        response.length = 17 ∧
        (s.volumes[v] = .absent → ∀ i < 9, response[i]? = some 0x00#8) ∧
        (∀ n rights k, s.volumes[v] = .creating n rights k →
          response.take 9 = [4#8, BitVec.ofNat 8 n, rightsByte rights, (BitVec.ofBool k).setWidth 8,
            0#8, 0#8, 0#8, 0#8, 0#8]) ∧
        (∀ r, s.volumes[v] = .present r →
          response[0]? = some (match r.status with
            | .opened => 1#8 | .frozen => 2#8 | .lockedFrozen => 3#8
            | .changing _ _ => 5#8 | .damaged _ => 6#8) ∧
          response[1]? = some (BitVec.ofNat 8 r.size) ∧
          response[2]? = some (rightsByte r.rights) ∧
          (∃ b, response[3]? = some b ∧ b.getLsbD 0 = r.pinned ∧ b.getLsbD 1 = r.mapPresent ∧
            b.getLsbD 2 = decide (r.slot = 1)) ∧
          wordAt response 4 = r.generation ∧
          response[8]? = some (BitVec.ofNat 8 r.committedPages)) ∧
        ∀ q : Port, halfAt response (9 + 2 * q.val) = BitVec.ofNat 16 (claimsInVolume s v q)) ∧
    (∀ volume page : Byte, awaits s p .infoPage [volume, page] = true → s.device ≠ .unformatted →
      (16 ≤ volume.toNat ∨ 64 ≤ page.toNat →
        exec (.infoPage p volume page) s = .next (refused s p .infoPage [volume, page] .badArgument)) ∧
      ∀ (v : VolumeNo) (g : PageNo), volume.toNat = v.val → page.toNat = g.val →
        (Volume.isPresent s.volumes[v] = false →
          exec (.infoPage p volume page) s = .next (refused s p .infoPage [volume, page] .noVolume)) ∧
        ∀ r, s.volumes[v] = .present r → ∃ b : Byte,
          exec (.infoPage p volume page) s =
            .next (answered s p .infoPage [volume, page] ⟨.ok, none, .ok⟩ [b]) ∧
          b.getLsbD 0 = r.entries[g].committed.isSome ∧
          (b.getLsbD 1 = true ↔ ∃ c, r.entries[g].committed = some c ∧ c.poisoned = true) ∧
          b.getLsbD 2 = r.entries[g].claim.isSome ∧
          (b.getLsbD 3 = true ↔ ∃ q, r.entries[g].claim = some ⟨q, .hole⟩) ∧
          (∀ c, r.entries[g].claim = some c → (b.extractLsb' 4 2).toNat = c.port.val) ∧
          (r.entries[g].claim = none → b.extractLsb' 4 2 = 0#2) ∧ b.extractLsb' 6 2 = 0#2) ∧
    (awaits s p .infoDevice [] = true → ∃ response : List Byte,
      exec (.infoDevice p) s = .next (answered s p .infoDevice [] ⟨.ok, none, .ok⟩ response) ∧
      response.length = 21 ∧
      (s.device = .unformatted → response[0]? = some 1#8) ∧
      (s.device = .running → response[0]? = some 2#8) ∧
      response[1]? = some (match s.engine.state with
        | .idle => 0#8 | .frames => 1#8 | .maps => 2#8 | .root => 3#8 | .stopped => 4#8) ∧
      response[2]? = some (BitVec.ofNat 8 s.engine.queue.length) ∧
      halfAt response 3 = BitVec.ofNat 16 s.freeList.length ∧
      response[5]? = some (BitVec.ofNat 8 s.engine.retired.length) ∧
      (s.engine.sequence = none → wordAt response 6 = 0#32) ∧
      (∀ n, s.engine.sequence = some n → wordAt response 6 = n) ∧
      (s.engine.settings = none → ∀ i, 10 ≤ i → i < 20 → response[i]? = some 0x00#8) ∧
      (∀ st, s.engine.settings = some st →
        (∃ b, response[10]? = some b ∧ ∀ q : Port, b.getLsbD q.val = st.mask[q]) ∧
        (∀ q : Port, halfAt response (11 + 2 * q.val) = BitVec.ofNat 16 st.quotas[q]) ∧
        response[19]? = some (BitVec.ofNat 8 st.budget)) ∧
      ∃ b, response[20]? = some b ∧ b.getLsbD 0 = s.engine.mediaWorn ∧
        b.getLsbD 1 = s.engine.sysareaFault)

/-! ### The update engine -/

/-- REQUEST_REMOVAL: with nothing to remove the engine stays; otherwise the head leaves the queue, and either
its removal check fails, with a report and no program, or its plan is built and the first step begins (R78).
The plan is the one of R80 and R81, with a COMMIT's page steps before its map steps and these before the root step,
each in volume order, then page order (R79), and a COMMIT's transaction becomes COMMITTING (R35). -/
def Obligations.RequestRemovalStartsUpdate : Prop :=
  (∀ s : State, s.engine.queue = [] ∨ s.engine.state ≠ .idle ∨
      (s.device ≠ .running ∧ s.device ≠ .unformatted) → exec .requestRemoval s = .next s) ∧
  ∀ (s : State) (req : Request) (rest : List Request),
    s.engine.state = .idle → s.engine.inFlight = none → s.engine.queue = req :: rest →
    s.device = .running ∨ s.device = .unformatted →
    (∀ code,
      ((req.kind = .format ∧ s.device = .running ∧ code = .alreadyFormatted) ∨
        (∃ v r, req.kind = .thaw v ∧ s.volumes[v] = .present r ∧
          ((r.status = .opened ∧ code = .badArgument) ∨
            (r.status.isChanging = true ∧ code = .volumeChanging))) ∨
        (∃ v, (req.kind = .pin v ∨ req.kind = .unpin v ∨ ∃ p x, req.kind = .setRights v p x) ∧
          Volume.isPresent s.volumes[v] = false ∧ code = .noVolume) ∨
        (∃ p q st, req.kind = .configPort p q false ∧ s.engine.settings = some st ∧
          (∀ h : Port, h ≠ p → st.mask[h] = false) ∧ code = .badArgument)) →
      exec .requestRemoval s = .next { s with
        engine := { s.engine with queue := rest, plan := none, abandon := false }
        ports := upd s.ports req.port { s.ports[req.port] with
          report := some ⟨req.kind.command, code, req.kind.volume, none, none, none⟩
          pending := { s.ports[req.port].pending with update := true } } }) ∧
    ((req.kind = .format → s.device = .unformatted) →
      (∀ v, req.kind = .thaw v → ∃ r, s.volumes[v] = .present r ∧ r.status = .frozen) →
      (∀ v, (req.kind = .pin v ∨ req.kind = .unpin v ∨ ∃ p x, req.kind = .setRights v p x) →
        Volume.isPresent s.volumes[v] = true) →
      (∀ p q k, req.kind = .configPort p q k → ∃ st, s.engine.settings = some st ∧
        (k = true ∨ ∃ h : Port, h ≠ p ∧ st.mask[h] = true)) →
      ∃ (t : State) (plan : Plan),
        exec .requestRemoval s = .next t ∧ plan.current = 0 ∧
        stepBegun { s with
          engine := { s.engine with queue := rest, abandon := false }
          ports := if req.kind = .commit then
              upd s.ports req.port { s.ports[req.port] with
                txn := { s.ports[req.port].txn with state := .committing, running := false } }
            else s.ports } t req plan ∧
        (req.kind = .format → plan.steps = [.root .a 1 false]) ∧
        ∀ x n, s.engine.selected = some x → s.engine.sequence = some n →
          (req.kind = .commit → plan.steps = commitSteps s req.port x.other (n + 1) ∧
            plan.steps.getLast? = some (.root x.other (n + 1) false) ∧
            plan.programCount = commitCost s req.port ∧
            (∀ (v : VolumeNo) (g : PageNo) (f : FrameNo),
              (entryOf s v g).claim = some ⟨req.port, .data f⟩ → .page v g f 0 none ∈ plan.steps) ∧
            ∀ (v : VolumeNo) (r : VolumeRecord), s.volumes[v] = .present r →
              (∃ (g : PageNo) (k : ClaimKind), r.entries[g].claim = some ⟨req.port, k⟩) →
              .map v (if r.mapPresent then otherSlot r.slot else 0) (r.generation + 1) false ∈
                plan.steps) ∧
          (∀ v m r, req.kind = .resize v m → s.volumes[v] = .present r →
            plan.steps = (if m < r.size ∧ r.mapPresent = true then
                [PlanStep.map v (otherSlot r.slot) (r.generation + 1) false] else []) ++
              [.root x.other (n + 1) false]) ∧
          (req.kind ≠ .commit → req.kind ≠ .format → (∀ v m, req.kind ≠ .resize v m) →
            plan.steps = [.root x.other (n + 1) false]))

/-- PAGE_STEP_PASS, MAP_STEP_PASS and ROOT_STEP_PASS: the frame's cells take its working-array bytes (R2). After a page
or map step the engine hands over the next step (R82, R83, R84); what follows a root step is CommitCompletion and
AdministrationCompletion. An update that a power-fail sequence has marked, of whatever kind, is abandoned
instead, its volume returning (R153, R155), and the device enters HALTED exactly where no candidate is left (R158).
Where no update runs any more the engine does not act, and a root slot whose program passed so holds for the recall the
root that was written for it (R109, R159). -/
def Obligations.PassedProgramStartsNextStep : Prop :=
  ∀ (i : Instr) (s : State) (f : FrameNo), s.program = some f →
    (i = .pageStepPass ∧ isPool f = true) ∨
      (i = .mapStepPass ∧ isPool f = false ∧ isRootSlot f = false) ∨
      (i = .rootStepPass ∧ isRootSlot f = true) →
    ∃ u : State, u = { s with cells := u.cells, program := none } ∧ programmed s u f ∧
      judgeRoot (cellFrame u f) = judgeRoot (arrayFrame s f) ∧
      (s.engine.inFlight = none → exec i s = .next u) ∧
      (∀ req plan, i ≠ .rootStepPass → s.engine.inFlight = some req → s.engine.plan = some plan →
        s.engine.abandon = false → plan.current + 1 < plan.steps.length →
        ∃ t, exec i s = .next t ∧ stepBegun u t req { plan with current := plan.current + 1 }) ∧
      ∀ req plan, s.engine.inFlight = some req → s.engine.plan = some plan → s.engine.abandon = true →
        plan.current < plan.steps.length →
        let idle := { u with engine := s.engine.ended }
        ∃ t, exec i s = .next t ∧ volumesReturned s t req.kind ∧
          t = { idle with device := deviceOnceEnded idle, volumes := t.volumes }

/-- PAGE_STEP_FAIL: only the failed frame's cells change (R2); the checks of R86 in their order; a failure of
the update with WEAR_OUT or NO_FRAME (R98); a relocation, with the retired table, the free list, the shadow's
content and the step's program on the new frame (R87, R88); in a power-fail sequence it costs one unit of the
budget, and without one the update is abandoned (R154); there a failed transaction's timer stays stopped (R156). An
update that the sequence has marked is abandoned whatever the checks say (R153). Once an update has ended in a
sequence the device enters HALTED exactly where no candidate is left (R158). The claim is the step's own and the
failed frame is not on the free list, as in every run (FrameLaw, which SettingsAndWearAreKept keeps). Where no update
runs any more the engine does not act (R109, R159). That a failed transaction with lease 0 keeps the count of its
stopped timer is the model's reading (log entry 21). -/
def Obligations.FailedPageIsRelocated : Prop :=
  (∀ (s : State) (f : FrameNo), s.program = some f → isPool f = true → s.engine.inFlight = none →
    ∃ t, exec .pageStepFail s = .next t ∧ torn s t f ∧
      t = { s with cells := t.cells, program := none, draws := s.draws + 1 }) ∧
  ∀ (s : State) (f : FrameNo) (req : Request) (plan : Plan) (v : VolumeNo) (g : PageNo) (n : Nat)
    (c : Option Half),
    s.program = some f → isPool f = true → s.engine.inFlight = some req → s.engine.plan = some plan →
    plan.step = some (.page v g f n c) → req.kind = .commit →
    (entryOf s v g).claim = some ⟨req.port, .data f⟩ →
    ∃ t, exec .pageStepFail s = .next t ∧ torn s t f ∧
      let idle := { s with
        cells := t.cells, program := none, draws := s.draws + 1, engine := s.engine.ended }
      (s.engine.abandon = true → t = { idle with device := deviceOnceEnded idle }) ∧
      (∀ code, s.engine.abandon = false →
        ((2 ≤ n ∨ 24 ≤ s.engine.retired.length) ∧ code = .wearOut) ∨
          (n < 2 ∧ s.engine.retired.length < 24 ∧ s.freeList = [] ∧ code = .noFrame) →
        let failed := { idle with
          ports := upd s.ports req.port { s.ports[req.port] with
            txn := s.ports[req.port].txn.afterFailure (inPowerFail s)
            report := some ⟨.commit, code, none, none, none, some (.page v g)⟩
            pending := { s.ports[req.port].pending with update := true } } }
        t = { failed with device := deviceOnceEnded failed }) ∧
      (∀ new rest, s.engine.abandon = false → n < 2 → s.engine.retired.length < 24 → s.freeList = new :: rest →
        isPool new = true → f ∉ s.freeList →
        (inPowerFail s = false ∨ ∃ b taken skipped, s.device = .powerFail (b + 1) taken skipped) →
        t.engine = { s.engine with
          retired := s.engine.retired ++ [f]
          mediaWorn := s.engine.mediaWorn || decide (s.engine.retired.length + 1 = 24)
          state := .frames
          plan := some (plan.setStep (.page v g new (n + 1) (some (pageCheck (arrayFrame s f))))) } ∧
        t.program = some new ∧ t.freeList = rest ∧ t.claimCount = s.claimCount ∧
        frameState t f = some .retired ∧ frameState t new = some .shadow ∧
        (∀ h, h ≠ f → h ≠ new → frameState t h = frameState s h) ∧
        arrayFrame t new = arrayFrame s f ∧ (∀ x, ¬ inFrame new x → arrayAt t x = arrayAt s x) ∧
        entryOf t v g = { entryOf s v g with claim := some ⟨req.port, .data new⟩ } ∧
        (∀ w h, (w, h) ≠ (v, g) → entryOf t w h = entryOf s w h) ∧
        (∀ p : Port, t.ports[p] = if s.engine.retired.length + 1 = 24 then
            { s.ports[p] with pending := { s.ports[p].pending with device := true } }
          else s.ports[p]) ∧
        (inPowerFail s = false → t.device = s.device) ∧
        ∀ b taken skipped, s.device = .powerFail (b + 1) taken skipped →
          t.device = .powerFail b taken skipped) ∧
      ∀ taken skipped, s.engine.abandon = false → s.device = .powerFail 0 taken skipped → n < 2 →
        s.engine.retired.length < 24 → s.freeList ≠ [] → t = { idle with device := deviceOnceEnded idle }

/-- SYSTEM_AREA_PROGRAM_FAIL: the first failure of a map or root step hands the same frame over once more, its
content unchanged (R89); the second fails the update and every queued request, and the engine enters STOPPED
(R90, R98). In a power-fail sequence the retry costs one unit of the budget, and without one the update is abandoned
and its volume returns (R154, R155), as an update that the sequence has marked is (R153); there a second failure leads
to STOPPED and HALTED, with the timers of the reopened transactions stopped (R156, R158). The cells of a root slot
whose program failed hold no valid root (R104, R105). Where no update runs any more the engine does not act (R109,
R159). That a failed transaction with lease 0 keeps the count of its stopped timer is the model's reading (log entry
21). -/
def Obligations.SystemAreaFailure : Prop :=
  (∀ (s : State) (f : FrameNo), s.program = some f → isPool f = false → s.engine.inFlight = none →
    ∃ t, exec .systemAreaProgramFail s = .next t ∧ torn s t f ∧
      t = { s with cells := t.cells, program := none, draws := s.draws + 1 } ∧
      (isRootSlot f = true → judgeRoot (cellFrame t f) = none)) ∧
  ∀ (s : State) (f : FrameNo) (req : Request) (plan : Plan) (step again : PlanStep) (failed : FailedStep)
    (used : Bool),
    s.program = some f → isPool f = false → s.engine.inFlight = some req → s.engine.plan = some plan →
    plan.step = some step →
    ((∃ v slot gen, step = .map v slot gen used ∧ again = .map v slot gen true ∧
        failed = .mapSlot v slot) ∨
      ∃ slot seq, step = .root slot seq used ∧ again = .root slot seq true ∧ failed = .rootSlot slot) →
    ∃ t, exec .systemAreaProgramFail s = .next t ∧ torn s t f ∧ t.array = s.array ∧
      (isRootSlot f = true → judgeRoot (cellFrame t f) = none) ∧
      (s.engine.abandon = true ∨
          (used = false ∧ ∃ taken skipped, s.device = .powerFail 0 taken skipped) →
        let idle := { s with
          cells := t.cells, program := none, draws := s.draws + 1, engine := s.engine.ended }
        volumesReturned s t req.kind ∧
          t = { idle with device := deviceOnceEnded idle, volumes := t.volumes }) ∧
      (s.engine.abandon = false → used = false →
        (inPowerFail s = false ∨ ∃ b taken skipped, s.device = .powerFail (b + 1) taken skipped) →
        t = { s with
          cells := t.cells, draws := s.draws + 1, device := t.device
          engine := { s.engine with plan := some (plan.setStep again) } } ∧
        (inPowerFail s = false → t.device = s.device) ∧
        ∀ b taken skipped, s.device = .powerFail (b + 1) taken skipped →
          t.device = .powerFail b taken skipped) ∧
      (s.engine.abandon = false → used = true → (requestPorts s).Nodup →
        t.device = (if inPowerFail s = true then .halted else s.device) ∧ t.program = none ∧ t.claimCount = s.claimCount ∧
        t.frameStates = s.frameStates ∧ t.freeList = s.freeList ∧
        t.engine = { s.engine.ended with state := .stopped, queue := [], sysareaFault := true } ∧
        (∀ p : Port, p ∉ requestPorts s → t.ports[p] =
          { s.ports[p] with pending := { s.ports[p].pending with device := true } }) ∧
        (∀ r ∈ s.engine.queue ++ [req], t.ports[r.port] = { s.ports[r.port] with
          txn := if r.kind = .commit then s.ports[r.port].txn.afterFailure (inPowerFail s)
            else s.ports[r.port].txn
          report := some (if r = req then
              ⟨r.kind.command, .systemAreaFault, r.kind.volume, none, none, some failed⟩
            else ⟨r.kind.command, .updateStopped, r.kind.volume, none, none, none⟩)
          pending := { s.ports[r.port].pending with update := true, device := true } }) ∧
        ∀ v : VolumeNo,
          ((∀ r ∈ s.engine.queue ++ [req], r.kind.volume ≠ some v) → t.volumes[v] = s.volumes[v]) ∧
          (∀ r ∈ s.engine.queue ++ [req], ∀ x op ret,
            (r.kind = .delete v ∨ r.kind = .freeze v ∨ r.kind = .lock v ∨ ∃ n, r.kind = .resize v n) →
            s.volumes[v] = .present x → x.status = .changing op ret →
            t.volumes[v] = .present { x with status := ret.status }) ∧
          ∀ r ∈ s.engine.queue ++ [req], ∀ n rights k, (∃ m q b, r.kind = .create v m q b) →
            s.volumes[v] = .creating n rights k → t.volumes[v] = .absent)

/-- ROOT_STEP_PASS for a COMMIT: the completion of R92 with the effects of R93 (and R36): every claim of the
port becomes committed state, shadows become COMMITTED, replaced frames join the free-list tail in volume order, then
page order (R10), the touched volumes take their new map slot and generation, and the report is OK (R99). In a power-fail
sequence the completion is the same with the ATTN lines low (R155), and the device enters HALTED exactly where no
candidate is left (R158). -/
def Obligations.CommitCompletion : Prop :=
  ∀ (s : State) (p : Port) (plan : Plan) (slot : RootSlot) (seq : Word) (used : Bool),
    s.program = some slot.frame → s.engine.inFlight = some ⟨p, .commit⟩ → s.engine.plan = some plan →
    s.engine.abandon = false → plan.step = some (.root slot seq used) →
    let replaced : FrameNo → Prop := fun f =>
      ∃ v g k c, (entryOf s v g).claim = some ⟨p, k⟩ ∧ (entryOf s v g).committed = some c ∧ c.frame = f
    let released : List FrameNo := (ascending 16).flatMap fun v => (ascending 64).filterMap fun g =>
      if (entryOf s v g).claimedBy p = true then (entryOf s v g).committed.map fun c => c.frame else none
    ∃ t, exec .rootStepPass s = .next t ∧
      t = { s with
        device := t.device, cells := t.cells, program := none, volumes := t.volumes
        frameStates := t.frameStates, freeList := s.freeList ++ released
        claimCount := upd s.claimCount p 0
        engine := { s.engine.ended with selected := some slot, sequence := some seq }
        ports := upd s.ports p { s.ports[p] with
          txn := { s.ports[p].txn with state := .noTxn }
          report := some ⟨.commit, .ok, none, some plan.generations, some seq, none⟩
          pending := { s.ports[p].pending with update := true } } } ∧
      t.device = deviceOnceEnded { t with device := s.device } ∧
      (inPowerFail s = true → ∀ q : Port, attnLine t q = false) ∧
      programmed s t slot.frame ∧
      (∀ f, f ∈ released ↔ replaced f) ∧
      (∀ f, isPool f = true →
        (replaced f → frameState t f = some .free) ∧
        (¬ replaced f → (∃ v g, (entryOf s v g).claim = some ⟨p, .data f⟩) →
          frameState t f = some .committed) ∧
        (¬ replaced f → (∀ v g, (entryOf s v g).claim ≠ some ⟨p, .data f⟩) →
          frameState t f = frameState s f)) ∧
      ∀ v : VolumeNo,
        (Volume.isPresent s.volumes[v] = false → t.volumes[v] = s.volumes[v]) ∧
        ∀ r, s.volumes[v] = .present r → ∃ r' : VolumeRecord, t.volumes[v] = .present r' ∧
          r'.status = r.status ∧ r'.size = r.size ∧ r'.rights = r.rights ∧ r'.pinned = r.pinned ∧
          r'.committedPages = countCommitted r'.entries ∧
          (plan.mapOf v = none →
            r'.mapPresent = r.mapPresent ∧ r'.slot = r.slot ∧ r'.generation = r.generation) ∧
          (∀ x gen, plan.mapOf v = some (x, gen) →
            r'.mapPresent = true ∧ r'.slot = x ∧ r'.generation = gen) ∧
          ∀ g : PageNo,
            (∀ f, r.entries[g].claim = some ⟨p, .data f⟩ →
              r'.entries[g] = ⟨some ⟨f, plan.checkOf v g, false⟩, none⟩) ∧
            (r.entries[g].claim = some ⟨p, .hole⟩ → r'.entries[g] = .hole) ∧
            ((∀ k, r.entries[g].claim ≠ some ⟨p, k⟩) → r'.entries[g] = r.entries[g])

/-- ROOT_STEP_PASS for an administration request: the completion of R92 with the effects of R94 to R97, the
staleness of R59, and the report with OK (R99). The frames that a DELETE or a RESIZE removes join the free-list tail in
page order (R10). That a THAW which completes while a LOCK or a DELETE accepted meanwhile holds its volume in CHANGING
(R129) keeps CHANGING and makes OPEN the return state is the model's reading of R96 (log entry 9). In a power-fail sequence the completion is the same with the ATTN
lines low, a FORMAT leaves the device in the sequence (R155), and the device enters HALTED exactly where no candidate
is left (R158). -/
def Obligations.AdministrationCompletion : Prop :=
  ∀ (s : State) (req : Request) (plan : Plan) (slot : RootSlot) (seq : Word) (used : Bool),
    s.program = some slot.frame → s.engine.inFlight = some req → req.kind ≠ .commit →
    s.engine.plan = some plan → s.engine.abandon = false → plan.step = some (.root slot seq used) →
    let removed : VolumeNo → Nat → List FrameNo := fun v n => (ascending 64).filterMap fun g =>
      if n ≤ g.val then (entryOf s v g).committed.map fun c => c.frame else none
    ∃ t, exec .rootStepPass s = .next t ∧ programmed s t slot.frame ∧
      t = { s with
        device := t.device, cells := t.cells, program := none, volumes := t.volumes
        frameStates := t.frameStates, freeList := t.freeList, ports := t.ports
        engine := { s.engine.ended with
          selected := some slot, sequence := some seq, settings := t.engine.settings } } ∧
      (∀ q : Port, t.ports[q] = { s.ports[q] with
        windows := t.ports[q].windows
        report := if q = req.port then
            some ⟨req.kind.command, .ok, req.kind.volume, some plan.generations, some seq, none⟩
          else s.ports[q].report
        pending := { s.ports[q].pending with
          update := s.ports[q].pending.update || decide (q = req.port)
          window := t.ports[q].pending.window } }) ∧
      (∀ q : Port,
        (∀ (i : WindowNo) (b : Binding), s.ports[q].windows[i] = .bound b →
          (windowGone req.kind q b →
            t.ports[q].windows[i] = .stale b ∧ t.ports[q].pending.window = true) ∧
          (¬ windowGone req.kind q b → t.ports[q].windows[i] = .bound b)) ∧
        (∀ i : WindowNo, (∀ b, s.ports[q].windows[i] ≠ .bound b) →
          t.ports[q].windows[i] = s.ports[q].windows[i]) ∧
        ((∀ (i : WindowNo) (b : Binding), s.ports[q].windows[i] = .bound b →
            ¬ windowGone req.kind q b) →
          t.ports[q].pending.window = s.ports[q].pending.window)) ∧
      ((∀ p x k, req.kind ≠ .configPort p x k) → (∀ n, req.kind ≠ .configDevice n) →
        req.kind ≠ .format → t.engine.settings = s.engine.settings) ∧
      (req.kind ≠ .format ∨ s.device ≠ .unformatted →
        t.device = deviceOnceEnded { t with device := s.device }) ∧
      (inPowerFail s = true → ∀ q : Port, attnLine t q = false) ∧
      (∀ p x k st, req.kind = .configPort p x k → s.engine.settings = some st →
        t.engine.settings =
          some { st with mask := upd st.mask p k, quotas := upd st.quotas p x }) ∧
      (∀ n st, req.kind = .configDevice n → s.engine.settings = some st →
        t.engine.settings = some { st with budget := n }) ∧
      (req.kind = .format →
        t.engine.settings =
          some ⟨Vector.replicate 4 true, Vector.replicate 4 256, 0⟩ ∧
        (s.device = .unformatted → t.device = .running)) ∧
      (req.kind.volume = none → t.volumes = s.volumes) ∧
      ((∀ v, req.kind ≠ .delete v) → (∀ v n, req.kind ≠ .resize v n) →
        t.frameStates = s.frameStates ∧ t.freeList = s.freeList) ∧
      (∀ v n rights k, req.kind = .create v n rights k →
        t.volumes = upd s.volumes v (.present
          ⟨.opened, n, rights, k, false, 0, 1, 0, Vector.replicate 64 ⟨none, none⟩⟩)) ∧
      (∀ v, req.kind = .delete v →
        t.volumes = upd s.volumes v .absent ∧ t.freeList = s.freeList ++ removed v 0 ∧
        ∀ f, isPool f = true → frameState t f =
          if f ∈ removed v 0 then some .free else frameState s f) ∧
      ∀ v r, req.kind.volume = some v → s.volumes[v] = .present r →
        (∀ n, req.kind = .resize v n →
          t.freeList = s.freeList ++ removed v n ∧
          (∀ f, isPool f = true → frameState t f =
            if f ∈ removed v n then some .free else frameState s f) ∧
          ∃ r' : VolumeRecord, t.volumes = upd s.volumes v (.present r') ∧
            r'.size = n ∧ r'.rights = r.rights ∧ r'.pinned = r.pinned ∧
            (∀ op ret, r.status = .changing op ret → r'.status = ret.status) ∧
            r'.committedPages = countCommitted r'.entries ∧
            (∀ g : PageNo, r'.entries[g] =
              if n ≤ g.val then { r.entries[g] with committed := none } else r.entries[g]) ∧
            (plan.mapOf v = none →
              r'.mapPresent = r.mapPresent ∧ r'.slot = r.slot ∧ r'.generation = r.generation) ∧
            ∀ x gen, plan.mapOf v = some (x, gen) →
              r'.mapPresent = true ∧ r'.slot = x ∧ r'.generation = gen) ∧
        (req.kind = .freeze v → t.volumes = upd s.volumes v (.present { r with status := .frozen })) ∧
        (req.kind = .lock v →
          t.volumes = upd s.volumes v (.present { r with status := .lockedFrozen })) ∧
        (req.kind = .thaw v → r.status = .frozen →
          t.volumes = upd s.volumes v (.present { r with status := .opened })) ∧
        (∀ op ret, req.kind = .thaw v → r.status = .changing op ret →
          t.volumes = upd s.volumes v (.present { r with status := .changing op .opened })) ∧
        (∀ p x, req.kind = .setRights v p x →
          t.volumes = upd s.volumes v (.present { r with rights := upd r.rights p x })) ∧
        (req.kind = .pin v → t.volumes = upd s.volumes v (.present { r with pinned := true })) ∧
        (req.kind = .unpin v → t.volumes = upd s.volumes v (.present { r with pinned := false }))

/-! ### Power failure, RESET_N and the supply -/

/-- DURABLE_ON_LOSS_CANDIDATE: the queued COMMITs of durable-on-loss transactions in queue order, then the OPEN
durable-on-loss transactions with claims in port order; the candidate is taken whole when its program count
fits the budget in use, with the plan of R80, and is otherwise skipped (R157). After a skip the device enters HALTED
exactly where no candidate is left (R158); the last clause says when `nextCandidate` has none. -/
def Obligations.CandidateTakenOrSkipped : Prop :=
  (∀ (s : State) (b : Nat) (taken skipped : Vector Bool 4) (p : Port) (queue : List Request),
    s.device = .powerFail b taken skipped → s.engine.inFlight = none → s.engine.state ≠ .stopped →
    let eligible : Request → Prop := fun r =>
      r.kind = .commit ∧ s.ports[r.port].txn.durable = true ∧ skipped[r.port] = false
    let waits : Port → Prop := fun q =>
      s.ports[q].txn.state = .opened ∧ s.ports[q].txn.durable = true ∧ 0 < s.claimCount[q] ∧
        taken[q] = false ∧ skipped[q] = false
    ((∃ pre post, s.engine.queue = pre ++ ⟨p, .commit⟩ :: post ∧ (∀ r ∈ pre, ¬ eligible r) ∧
        eligible ⟨p, .commit⟩ ∧
        queue = s.engine.queue.filter fun r => decide (¬(r.port = p ∧ r.kind = .commit))) ∨
      ((∀ r ∈ s.engine.queue, ¬ eligible r) ∧ waits p ∧ (∀ q, q < p → ¬ waits q) ∧
        queue = s.engine.queue)) →
    ∃ t, exec .durableOnLossCandidate s = .next t ∧
      (b < commitCost s p →
        let passed := { s with device := .powerFail b taken (upd skipped p true) }
        t = { passed with device := deviceOnceEnded passed }) ∧
      (commitCost s p ≤ b → ∃ plan : Plan, plan.current = 0 ∧ plan.programCount = commitCost s p ∧
        (∀ x n, s.engine.selected = some x → s.engine.sequence = some n →
          plan.steps = commitSteps s p x.other (n + 1)) ∧
        stepBegun { s with
          device := .powerFail (b - commitCost s p) (upd taken p true) skipped
          engine := { s.engine with abandon := false, queue := queue }
          ports := upd s.ports p { s.ports[p] with
            txn := { s.ports[p].txn with state := .committing, running := false } } }
          t ⟨p, .commit⟩ plan)) ∧
  ∀ (s : State) (b : Nat) (taken skipped : Vector Bool 4),
    s.device = .powerFail b taken skipped → s.engine.inFlight = none →
    (nextCandidate s = none ↔ s.engine.state = .stopped ∨
      ((∀ r ∈ s.engine.queue,
          ¬ (r.kind = .commit ∧ s.ports[r.port].txn.durable = true ∧ skipped[r.port] = false)) ∧
        ∀ q : Port, ¬ (s.ports[q].txn.state = .opened ∧ s.ports[q].txn.durable = true ∧
          0 < s.claimCount[q] ∧ taken[q] = false ∧ skipped[q] = false)))

/-- PFAIL asserted in RUNNING or UNFORMATTED: every link closes, as `linkClosed` spells out, and the timers stop (R29,
R150, R165), queued
administration requests are discarded and their volumes return (R151), the budget in use is the hold-up budget
(R152), and the update in flight is judged once (R153). In RECALLING the device goes to HALTED (R148); in
POWER_FAIL and HALTED nothing but the level changes (R160). That a frame which ignored already after an unknown command
loses its result with the others (log entry 11), and that the byte of the position in progress is shifted out whole
(log entry 23), are the model's readings of the close. -/
def Obligations.PowerFailEntry : Prop :=
  (∀ (s : State) (b : Nat), s.device = .running ∨ s.device = .unformatted →
    (∀ st, s.engine.settings = some st → b = st.budget) → (s.engine.settings = none → b = 0) →
    ∃ t, exec .pfailAsserted s = .next t ∧
      t = { s with
        pfail := true, device := t.device, volumes := t.volumes
        ports := t.ports
        engine := { s.engine with
          abandon := t.engine.abandon
          queue := s.engine.queue.filter fun r => decide (r.kind = .commit) } } ∧
      (∀ p : Port, linkClosed s.ports[p] t.ports[p]) ∧
      (∀ v : VolumeNo,
        ((∀ r ∈ s.engine.queue, r.kind.volume ≠ some v) → t.volumes[v] = s.volumes[v]) ∧
        (∀ r ∈ s.engine.queue, ∀ x op ret,
          (r.kind = .delete v ∨ r.kind = .freeze v ∨ r.kind = .lock v ∨ ∃ n, r.kind = .resize v n) →
          s.volumes[v] = .present x → x.status = .changing op ret →
          t.volumes[v] = .present { x with status := ret.status }) ∧
        ∀ r ∈ s.engine.queue, ∀ n rights k, (∃ m q c, r.kind = .create v m q c) →
          s.volumes[v] = .creating n rights k → t.volumes[v] = .absent) ∧
      (∀ req plan, s.engine.inFlight = some req → s.engine.plan = some plan →
        ∃ taken : Vector Bool 4,
          (∀ q : Port, taken[q] = true ↔ req.kind = .commit ∧ q = req.port) ∧
          (plan.steps.length - (plan.current + 1) ≤ b →
            t.device = .powerFail (b - (plan.steps.length - (plan.current + 1))) taken
                (Vector.replicate 4 false) ∧
              t.engine.abandon = false) ∧
          (b < plan.steps.length - (plan.current + 1) →
            t.device = .powerFail b taken (Vector.replicate 4 false) ∧ t.engine.abandon = true)) ∧
      (s.engine.inFlight = none →
        ((s.engine.state ≠ .stopped ∧
            ((∃ r ∈ s.engine.queue, r.kind = .commit ∧ s.ports[r.port].txn.durable = true) ∨
              ∃ p : Port, s.ports[p].txn.state = .opened ∧ s.ports[p].txn.durable = true ∧
                0 < s.claimCount[p])) →
          t.device = .powerFail b (Vector.replicate 4 false) (Vector.replicate 4 false)) ∧
        (s.engine.state = .stopped ∨
            ((∀ r ∈ s.engine.queue, r.kind = .commit → s.ports[r.port].txn.durable = false) ∧
              ∀ p : Port, s.ports[p].txn.state = .opened → s.ports[p].txn.durable = true →
                s.claimCount[p] = 0) →
          t.device = .halted))) ∧
  (∀ (s : State) (x : RecallStep), s.device = .recalling x →
    exec .pfailAsserted s = .next { s with pfail := true, device := .halted }) ∧
  ∀ s : State, s.device = .halted ∨ inPowerFail s = true →
    exec .pfailAsserted s = .next { s with pfail := true }

/-- PFAIL deasserted, RESET_N released and RESET_N asserted (R148, R149, R159): from HALTED a recall begins once
both lines are deasserted; from POWER_FAIL it begins at once, with no outcome for an update in flight, whose volume
returns (R155), while its program runs on; an assertion of RESET_N leads to HALTED from every state, closes every
link, as `linkClosed` spells out (R150, R165), and cuts the program in progress, after which a root slot under program holds no valid root (R104, R105). The model's readings: what
the close of the links does to a frame that ignored already and to the byte in progress (log entries 11 and 23), that
RESET_N drops the request in flight and the plan at once and leaves a STOPPED engine so (log entry 14), and that a
release of RESET_N outside HALTED, which R148 says cannot occur, changes the level alone (log entry 1). -/
def Obligations.LinesLeadToRecall : Prop :=
  (∀ s : State, s.device = .halted →
    exec .pfailDeasserted s = .next { s with
      pfail := false, device := if s.resetN then .halted else .recalling .rootSlots } ∧
    exec .resetNReleased s = .next { s with
      resetN := false, device := if s.pfail then .halted else .recalling .rootSlots }) ∧
  (∀ s : State, s.device = .running ∨ s.device = .unformatted ∨ (∃ x, s.device = .recalling x) →
    exec .pfailDeasserted s = .next { s with pfail := false } ∧
    exec .resetNReleased s = .next { s with resetN := false }) ∧
  (∀ s : State, inPowerFail s = true →
    exec .resetNReleased s = .next { s with resetN := false } ∧
    (s.engine.inFlight = none → exec .pfailDeasserted s =
      .next { s with pfail := false, device := .recalling .rootSlots }) ∧
    ∀ req, s.engine.inFlight = some req → ∃ t, exec .pfailDeasserted s = .next t ∧
      t = { s with
        pfail := false, device := .recalling .rootSlots, volumes := t.volumes
        engine := s.engine.ended } ∧
      volumesReturned s t req.kind) ∧
  ∀ s : State, s.device ≠ .off → ∃ t, exec .resetNAsserted s = .next t ∧
    t = { s with
      resetN := true, device := .halted, cells := t.cells, program := none, draws := t.draws
      ports := t.ports
      engine := if s.engine.state = .stopped then s.engine else s.engine.ended } ∧
    (∀ p : Port, linkClosed s.ports[p] t.ports[p]) ∧
    (s.program = none → t.cells = s.cells) ∧ ∀ f, s.program = some f →
      torn s t f ∧ (isRootSlot f = true → judgeRoot (cellFrame t f) = none)

/-- Power-up leads to RECALLING (R147) and loss of supply ends every state (R148). Either way every volatile record is
gone, as `supplyLost` spells out: the port contexts hold the values of R115, no frame is in progress (R161), the
data-out lines are released and the ATTN lines low (R162, R173), and the engine and the map unit hold nothing. The cells
stay but for a program in progress that is cut short (R2, R4), after which a root slot under program holds
no valid root (R104, R105). LOCKIN is a level that later acceptances read (R126). The model's choices: the values of
the engine, the map unit and the working array between power-up and the recall (log entries 5 and 6); a part without
supply as a state of its own, with these values too, and lines that start deasserted (log entry 13); and that a power-up
with supply, and a line or a loss without it, change nothing (log entries 1 and 13). -/
def Obligations.SupplyAndGuard : Prop :=
  (∀ s : State, s.device = .off → ∃ t, exec .powerUp s = .next t ∧
    t.device = .recalling .rootSlots ∧ supplyLost s t ∧ t.cells = s.cells ∧ t.draws = s.draws) ∧
  (∀ s : State, s.device ≠ .off → exec .powerUp s = .next s) ∧
  (∀ s : State, s.device ≠ .off → ∃ t, exec .lossOfSupply s = .next t ∧
    t.device = .off ∧ supplyLost s t ∧
    (s.program = none → t.cells = s.cells ∧ t.draws = s.draws) ∧ ∀ f, s.program = some f →
      torn s t f ∧ t.draws = s.draws + 1 ∧ (isRootSlot f = true → judgeRoot (cellFrame t f) = none)) ∧
  (∀ (i : Instr) (s : State), s.device = .off →
    i ∈ [Instr.lossOfSupply, .pfailAsserted, .pfailDeasserted, .resetNAsserted, .resetNReleased] →
    exec i s = .next s) ∧
  ∀ (asserted : Bool) (s : State),
    exec (.lockinChange asserted) s = .next { s with lockin := asserted }

/-! ### Recall -/

/-- RECALL_ROOT_SLOTS: both root slots are recalled and judged (R105), the table of R106 selects one or none,
and recall takes the selected root's sequence, settings and retired table (R110), or rebuilds an unformatted
part (R111). The step waits for a program still in progress (R109). That the row changes nothing where the recall does
not stand at this step, or still waits, is the model's choice (log entry 1). -/
def Obligations.RecallSelectsRoot : Prop :=
  (∀ s : State, s.device ≠ .recalling .rootSlots ∨ s.program ≠ none →
    exec .recallRootSlots s = .next s) ∧
  ∀ s : State, s.device = .recalling .rootSlots → s.program = none →
    let a := judgeRoot (cellFrame s 0)
    let b := judgeRoot (cellFrame s 1)
    ∃ t, exec .recallRootSlots s = .next t ∧
      (∀ x, x < 512 → arrayAt t x = cellAt s x) ∧ (∀ x, 512 ≤ x → arrayAt t x = arrayAt s x) ∧
      (a = none → b = none →
        t = { s with
          device := .recalling .finish, array := t.array
          volumes := Vector.replicate 16 .absent, frameStates := Vector.replicate 2014 .free
          freeList := wholePool, claimCount := Vector.replicate 4 0
          engine := { s.engine with
            sequence := none, selected := none, settings := none, retired := [] } }) ∧
      ∀ (slot : RootSlot) (r : Root),
        ((a = some r ∧ slot = .a ∧ b = none) ∨ (b = some r ∧ slot = .b ∧ a = none) ∨
          ∃ x y, a = some x ∧ b = some y ∧
            ((y.sequence = x.sequence + 1 ∧ slot = .b ∧ r = y) ∨
              (x.sequence = y.sequence + 1 ∧ slot = .a ∧ r = x) ∨
              (y.sequence ≠ x.sequence + 1 ∧ x.sequence ≠ y.sequence + 1 ∧
                x.sequence.toNat < y.sequence.toNat ∧ slot = .b ∧ r = y) ∨
              (y.sequence ≠ x.sequence + 1 ∧ x.sequence ≠ y.sequence + 1 ∧
                y.sequence.toNat ≤ x.sequence.toNat ∧ slot = .a ∧ r = x))) →
        t = { s with
          device := .recalling .volumeTable, array := t.array
          engine := { s.engine with
            sequence := some r.sequence, selected := some slot, settings := some r.settings
            retired := r.retired } }

/-- RECALL_VOLUME_TABLE: every volume is rebuilt from its durable record in the selected root, an image being
judged against the frames of the images accepted before it (R108, R112). -/
def Obligations.RecallRebuildsVolumes : Prop :=
  ∀ (s : State) (slot : RootSlot) (root : Root), s.device = .recalling .volumeTable →
    s.program = none → s.engine.selected = some slot →
    judgeRoot (arrayFrame s slot.frame) = some root →
    ∃ t, exec .recallVolumeTable s = .next t ∧
      t = { s with device := .recalling .pageChecks, volumes := t.volumes, array := t.array } ∧
      (∀ x, (∀ v m, ¬ inFrame (mapFrame v m) x) → arrayAt t x = arrayAt s x) ∧
      ∀ v : VolumeNo,
        let accepted : List FrameNo :=
          ((ascending 16).filter fun w => decide (w < v)).flatMap fun w =>
            (ascending 64).filterMap fun g => (entryOf t w g).frame
        (root.volumes[v] = .absent → t.volumes[v] = .absent) ∧
        (∀ st n rights k m gen, root.volumes[v] = .kept st n rights k false m gen →
          t.volumes[v] = .present
            ⟨st.status, n, rights, k, false, m, gen, 0, Vector.replicate 64 ⟨none, none⟩⟩) ∧
        ∀ st n rights k m gen, root.volumes[v] = .kept st n rights k true m gen →
          (judgeImage (cellFrame s (mapFrame v m)) v gen n root.retired accepted = none →
            t.volumes[v] = .present
              ⟨.damaged st, n, rights, k, true, m, gen, 0, Vector.replicate 64 ⟨none, none⟩⟩) ∧
          ∀ es, judgeImage (cellFrame s (mapFrame v m)) v gen n root.retired accepted = some es →
            ∃ entries : Vector Entry 64,
              t.volumes[v] = .present
                ⟨st.status, n, rights, k, true, m, gen, countCommitted entries, entries⟩ ∧
              ∀ g : PageNo, entries[g] =
                ⟨(es[g]).map fun (x : FrameNo × Half) => ⟨x.1, x.2, false⟩, none⟩

/-- RECALL_PAGE_CHECKS: every committed frame is recalled, and its entry is poisoned exactly when its content
does not meet the recorded page check; the entry keeps its frame and its check (R23, R113). -/
def Obligations.RecallFindsPoison : Prop :=
  ∀ s : State, s.device = .recalling .pageChecks → s.program = none →
    ∃ t, exec .recallPageChecks s = .next t ∧
      t = { s with device := .recalling .finish, volumes := t.volumes, array := t.array } ∧
      (∀ v : VolumeNo,
        (Volume.isPresent s.volumes[v] = false → t.volumes[v] = s.volumes[v]) ∧
        ∀ r, s.volumes[v] = .present r → ∃ entries : Vector Entry 64,
          t.volumes[v] = .present { r with entries := entries } ∧
          ∀ g : PageNo,
            (r.entries[g].committed = none → entries[g] = r.entries[g]) ∧
            ∀ c, r.entries[g].committed = some c →
              (pageCheck (cellFrame s c.frame) = c.check → entries[g] = r.entries[g]) ∧
              (pageCheck (cellFrame s c.frame) ≠ c.check →
                entries[g] = { r.entries[g] with committed := some { c with poisoned := true } })) ∧
      (∀ v g c, (entryOf s v g).committed = some c → arrayFrame t c.frame = cellFrame s c.frame) ∧
      ∀ x, (∀ v g c, (entryOf s v g).committed = some c → ¬ inFrame c.frame x) →
        arrayAt t x = arrayAt s x

/-- RECALL_END: every pool frame takes its state and the free list its order (R114), every port its context
after recall with its frame record left (R115, R161), the engine its values (R116), and the device becomes
RUNNING or UNFORMATTED (R116). -/
def Obligations.RecallEndRebuilds : Prop :=
  ∀ s : State, s.device = .recalling .finish → s.program = none →
    let held : FrameNo → Prop := fun f => ∃ v g c, (entryOf s v g).committed = some c ∧ c.frame = f
    ∃ t, exec .recallEnd s = .next t ∧
      t = { s with
        device := if s.engine.selected = none then .unformatted else .running
        ports := tab fun p => {
          frame := s.ports[p].frame, burst := none, windows := Vector.replicate 4 .unbound
          txn := ⟨.noTxn, 0, 0, false, false⟩, fault := none, result := ⟨none, none⟩, report := none
          mask := ⟨false, false, false, false, false⟩
          pending := ⟨false, false, false, false, false⟩ }
        claimCount := Vector.replicate 4 0, frameStates := t.frameStates, freeList := t.freeList
        engine := { s.engine with
          state := .idle, queue := [], inFlight := none, plan := none, abandon := false
          sysareaFault := false, mediaWorn := decide (s.engine.retired.length = 24) } } ∧
      (∀ f, isPool f = true →
        (held f → frameState t f = some .committed) ∧
        (¬ held f → f ∈ s.engine.retired → frameState t f = some .retired) ∧
        (¬ held f → f ∉ s.engine.retired → frameState t f = some .free)) ∧
      t.freeList.Pairwise (· < ·) ∧ ∀ f, f ∈ t.freeList ↔ frameState t f = some .free

/-! ### Encodings -/

/-- The bytes of a command's frame are its command byte and as many argument bytes as the command table gives
it (R166, R167, R171); they read back as the command with every operand, and nothing else reads as it.

Within a frame each byte travels as eight bits (R162). The data-out line is released while select is high, and edges are
then not taken. The first output bit, bit 7 of the status byte, is on the line at select fall in clock mode 0 and at the
first falling edge in clock mode 3. At the eight rising edges of a byte the host samples the byte fixed for the position
and the part samples the byte shifted in, both most significant bit first, and the eighth rising edge is the happening of
that byte's row. That these edges are operations beside the rows, and that the line is unstated in mode 3 before the
first falling edge, is the model's choice (log entries 8 and 26). A byte that select rise cuts short counts as none
(R169). -/
def Obligations.FrameBytesReadBack : Prop :=
  (∀ (i : Instr) (p : Port) (c : Command) (args : List Byte), commandOf i = some (p, c, args) →
    args.length = c.argCount ∧ encodeFrame i = some (p, c.code :: args) ∧
    decodeFrame p (c.code :: args) = some i ∧
    -- the row that the last byte of the frame stands for
    ∀ x : PortContext,
      (args = [] → x.frame.phase = .command → x.byteRow p c.code = i) ∧
      ∀ (kept : List Byte) (b : Byte), args = kept ++ [b] → x.frame.phase = .arguments →
        x.frame.command = some c.code → x.frame.arguments = kept → x.byteRow p b = i) ∧
  (∀ (p : Port) (bytes : List Byte) (i : Instr), decodeFrame p bytes = some i →
    encodeFrame i = some (p, bytes)) ∧
  (∀ (p : Port) (c : Command) (bytes : List Byte), bytes.length = c.argCount →
    ∃ i, decodeFrame p (c.code :: bytes) = some i) ∧
  -- the rows of the other bytes, by the phase of the frame (R161, R166 to R168)
  (∀ (x : PortContext) (p : Port) (b : Byte),
    (x.frame.phase = .command → decodeCommand b = none → x.byteRow p b = .unknownCommand p b) ∧
    (∀ c : Command, x.frame.phase = .command → decodeCommand b = some c → 0 < c.argCount →
      x.byteRow p b = .commandByteComplete p b) ∧
    (∀ c : Command, x.frame.phase = .arguments → x.frame.command = some c.code →
      x.frame.arguments.length + 1 < c.argCount → x.byteRow p b = .argumentByte p b) ∧
    (x.frame.phase = .data → (∃ y, x.burst = some y ∧ y.kind = .write) →
      x.byteRow p b = .writeDataByte p b) ∧
    (x.frame.phase = .data → (∀ y, x.burst = some y → y.kind = .read) →
      x.byteRow p b = .readDataByte p) ∧
    (x.frame.phase = .ignoring ∨ x.frame.phase = .notReady → x.byteRow p b = .argumentByte p b)) ∧
  -- select high
  (∀ (p : Port) (s : State),
    (lineLevel s p = .released ↔ s.ports[p].frame.phase = .noFrame) ∧
    (s.ports[p].frame.phase = .noFrame →
      clockFall p s = s ∧ ∀ bit, clockRise p bit s = .next s)) ∧
  -- the first output bit, by the clock mode
  (∀ (p : Port) (high : Bool) (s : State), s.ports[p].frame.phase = .noFrame → s.device ≠ .off →
    ∃ t, exec (.selectFall p high) s = .next t ∧
      (t.ports[p].frame.clockMode = .mode0 →
        lineLevel t p = .driven ((statusByte s p).getLsbD 7)) ∧
      (t.ports[p].frame.clockMode = .mode3 → lineLevel t p = .unstated) ∧
      lineLevel (clockFall p t) p = .driven ((statusByte s p).getLsbD 7)) ∧
  ∀ (p : Port) (s : State), s.ports[p].frame.phase ≠ .noFrame → s.ports[p].frame.bitCount = 0 →
    -- a whole byte
    (∀ b : Byte,
      clockBits p (msbFirst b) s =
        ((msbFirst s.ports[p].frame.output).map .driven,
          exec (s.ports[p].byteRow p b) (s.setPort p { s.ports[p] with
            frame := { s.ports[p].frame with
              clock := true, sampled := b, shown := some (s.ports[p].frame.output.getLsbD 0) } }))) ∧
    -- a byte that select rise cuts short, with the level that every edge leaves on the line
    ∀ (bits : List Bool) (n : Fin 8), bits.length = n.val →
      ∃ t, clockBits p bits s =
          ((msbFirst s.ports[p].frame.output).take n |>.map .driven, .next t) ∧
        (∃ f : FrameRecord, t = s.setPort p { s.ports[p] with frame := f } ∧
          f = { s.ports[p].frame with
            bitCount := n, clock := f.clock, sampled := f.sampled, shown := f.shown }) ∧
        lineLevel (clockFall p t) p = .driven (s.ports[p].frame.output.getLsbD (7 - n.val)) ∧
        (∀ bit u, n.val < 7 → clockRise p bit (clockFall p t) = .next u →
          lineLevel u p = lineLevel (clockFall p t) p) ∧
        exec (.selectRise p) t = exec (.selectRise p) s

/-- A root and a map image that the engine writes are read back whole by recall: the marker, the checks, the
packing of the entries and every field (R102, R103, R105, R107, R108). -/
def Obligations.ImagesReadBack : Prop :=
  (∀ r : Root, (∃ p : Port, r.settings.mask[p] = true) → r.settings.budget < 256 →
    (∀ p : Port, r.settings.quotas[p] ≤ 1024) → r.retired.length ≤ 24 → r.retired.Nodup →
    (∀ f ∈ r.retired, isPool f = true) →
    (∀ (v : VolumeNo) st n rights k m slot gen, r.volumes[v] = .kept st n rights k m slot gen →
      1 ≤ n ∧ n ≤ 64) →
    r.bytes.length = 256 ∧ judgeRoot r.bytes = some r) ∧
  ∀ (m : MapImage) (size : Nat) (retired accepted : List FrameNo),
    (∀ (g : PageNo) f c, m.entries[g] = some (f, c) →
      g.val < size ∧ isPool f = true ∧ f ∉ retired ∧ f ∉ accepted) →
    (∀ (g h : PageNo) f c d, m.entries[g] = some (f, c) → m.entries[h] = some (f, d) → g = h) →
    m.bytes.length = 256 ∧
    judgeImage m.bytes m.volume m.generation size retired accepted = some m.entries

/-! ### Laws that every step keeps -/

/-- Every step keeps both memories in canonical form and inside the 524,288 bytes of the array (R1). -/
def Obligations.MemoryFormIsKept : Prop :=
  ∀ s t : State, MemoryForm s → step s = .next t → MemoryForm t

/-- The administration mask is never empty (R122), and the retired table holds at most 24 entries with
MEDIA_WORN set exactly when it holds 24 while the device works (R8, R88): every step keeps both. So does it keep the law
of the pool frames: the free list holds exactly the FREE frames, without duplicates, the RETIRED ones are those of the
table, and each COMMITTED or SHADOW frame is referenced by exactly one entry or DATA claim, whose port's transaction is
OPEN, QUEUED or COMMITTING (R5, R7, R8, R9, R43). -/
def Obligations.SettingsAndWearAreKept : Prop :=
  (∀ s t : State, MaskLaw s → step s = .next t → MaskLaw t) ∧
  (∀ s t : State, RetiredLaw s → step s = .next t → RetiredLaw t) ∧
  ∀ s t : State, MaskLaw s → QueueLaw s → FrameLaw s → step s = .next t → FrameLaw t

/-- The update queue never holds more than 4 requests nor two from the same port, and no port has both a queued
request and a request in flight (R74): every step keeps the law. -/
def Obligations.QueueLawIsKept : Prop :=
  ∀ s t : State, QueueLaw s → step s = .next t → QueueLaw t

/-- A LOCKED_FROZEN volume stays LOCKED_FROZEN and its committed map, its size, its map slot and its generation
never change again, whatever the ports, the engine, the power-fail sequence and the lines do; only the recall
and the supply, which rebuild the volume table, are left aside (R141). -/
def Obligations.LockedVolumeIsKept : Prop :=
  ∀ (v : VolumeNo) (r : VolumeRecord) (s t : State), LockedLaw v r s →
    (∀ i, s.pending.head? = some i → rebuildsVolumes i = false) → step s = .next t →
    ∃ q, LockedLaw v q t ∧ sameMap r q

/-- The laws hold right after reset, and reset stands as the manual has the part after power-up: RECALLING, with
no frame in progress and the cells never programmed (R3, R147, R161). The values of the records that the recall
rebuilds are the model's (log entry 6). -/
def Obligations.LawsHoldAtReset : Prop :=
  MemoryForm State.reset ∧ MaskLaw State.reset ∧ QueueLaw State.reset ∧ RetiredLaw State.reset ∧
  FrameLaw State.reset ∧
  State.reset.device = .recalling .rootSlots ∧ State.reset.program = none ∧
  State.reset.pending = [] ∧ (∀ x, cellAt State.reset x = 0xFF#8) ∧
  ∀ p : Port, State.reset.ports[p].frame.phase = .noFrame
end

