-- ==== Sys2Proof/Laws/State.lean ====
section
/-! SUPPORT. Record updates: for each update of one part of the state, one lemma per field, so that no proof unfolds an update. -/

namespace Sys2Proof.Machine

variable (s : State)

/-! ### State.setPort -/

@[simp] theorem State.setPort_device (p : Port) (c : PortContext) :
    (s.setPort p c).device = s.device := rfl
@[simp] theorem State.setPort_pfail (p : Port) (c : PortContext) :
    (s.setPort p c).pfail = s.pfail := rfl
@[simp] theorem State.setPort_resetN (p : Port) (c : PortContext) :
    (s.setPort p c).resetN = s.resetN := rfl
@[simp] theorem State.setPort_lockin (p : Port) (c : PortContext) :
    (s.setPort p c).lockin = s.lockin := rfl
@[simp] theorem State.setPort_ports (p : Port) (c : PortContext) :
    (s.setPort p c).ports = upd s.ports p c := rfl
@[simp] theorem State.setPort_claimCount (p : Port) (c : PortContext) :
    (s.setPort p c).claimCount = s.claimCount := rfl
@[simp] theorem State.setPort_volumes (p : Port) (c : PortContext) :
    (s.setPort p c).volumes = s.volumes := rfl
@[simp] theorem State.setPort_frameStates (p : Port) (c : PortContext) :
    (s.setPort p c).frameStates = s.frameStates := rfl
@[simp] theorem State.setPort_freeList (p : Port) (c : PortContext) :
    (s.setPort p c).freeList = s.freeList := rfl
@[simp] theorem State.setPort_engine (p : Port) (c : PortContext) :
    (s.setPort p c).engine = s.engine := rfl
@[simp] theorem State.setPort_array (p : Port) (c : PortContext) :
    (s.setPort p c).array = s.array := rfl
@[simp] theorem State.setPort_cells (p : Port) (c : PortContext) :
    (s.setPort p c).cells = s.cells := rfl
@[simp] theorem State.setPort_program (p : Port) (c : PortContext) :
    (s.setPort p c).program = s.program := rfl
@[simp] theorem State.setPort_draws (p : Port) (c : PortContext) :
    (s.setPort p c).draws = s.draws := rfl
@[simp] theorem State.setPort_pending (p : Port) (c : PortContext) :
    (s.setPort p c).pending = s.pending := rfl

/-! ### State.modPort -/

@[simp] theorem State.modPort_device (p : Port) (f : PortContext → PortContext) :
    (s.modPort p f).device = s.device := rfl
@[simp] theorem State.modPort_pfail (p : Port) (f : PortContext → PortContext) :
    (s.modPort p f).pfail = s.pfail := rfl
@[simp] theorem State.modPort_resetN (p : Port) (f : PortContext → PortContext) :
    (s.modPort p f).resetN = s.resetN := rfl
@[simp] theorem State.modPort_lockin (p : Port) (f : PortContext → PortContext) :
    (s.modPort p f).lockin = s.lockin := rfl
@[simp] theorem State.modPort_ports (p : Port) (f : PortContext → PortContext) :
    (s.modPort p f).ports = upd s.ports p (f s.ports[p]) := rfl
@[simp] theorem State.modPort_claimCount (p : Port) (f : PortContext → PortContext) :
    (s.modPort p f).claimCount = s.claimCount := rfl
@[simp] theorem State.modPort_volumes (p : Port) (f : PortContext → PortContext) :
    (s.modPort p f).volumes = s.volumes := rfl
@[simp] theorem State.modPort_frameStates (p : Port) (f : PortContext → PortContext) :
    (s.modPort p f).frameStates = s.frameStates := rfl
@[simp] theorem State.modPort_freeList (p : Port) (f : PortContext → PortContext) :
    (s.modPort p f).freeList = s.freeList := rfl
@[simp] theorem State.modPort_engine (p : Port) (f : PortContext → PortContext) :
    (s.modPort p f).engine = s.engine := rfl
@[simp] theorem State.modPort_array (p : Port) (f : PortContext → PortContext) :
    (s.modPort p f).array = s.array := rfl
@[simp] theorem State.modPort_cells (p : Port) (f : PortContext → PortContext) :
    (s.modPort p f).cells = s.cells := rfl
@[simp] theorem State.modPort_program (p : Port) (f : PortContext → PortContext) :
    (s.modPort p f).program = s.program := rfl
@[simp] theorem State.modPort_draws (p : Port) (f : PortContext → PortContext) :
    (s.modPort p f).draws = s.draws := rfl
@[simp] theorem State.modPort_pending (p : Port) (f : PortContext → PortContext) :
    (s.modPort p f).pending = s.pending := rfl

/-! ### State.modPorts -/

@[simp] theorem State.modPorts_device (f : Port → PortContext → PortContext) :
    (s.modPorts f).device = s.device := rfl
@[simp] theorem State.modPorts_pfail (f : Port → PortContext → PortContext) :
    (s.modPorts f).pfail = s.pfail := rfl
@[simp] theorem State.modPorts_resetN (f : Port → PortContext → PortContext) :
    (s.modPorts f).resetN = s.resetN := rfl
@[simp] theorem State.modPorts_lockin (f : Port → PortContext → PortContext) :
    (s.modPorts f).lockin = s.lockin := rfl
@[simp] theorem State.modPorts_ports (f : Port → PortContext → PortContext) :
    (s.modPorts f).ports = tab fun p => f p s.ports[p] := rfl
@[simp] theorem State.modPorts_claimCount (f : Port → PortContext → PortContext) :
    (s.modPorts f).claimCount = s.claimCount := rfl
@[simp] theorem State.modPorts_volumes (f : Port → PortContext → PortContext) :
    (s.modPorts f).volumes = s.volumes := rfl
@[simp] theorem State.modPorts_frameStates (f : Port → PortContext → PortContext) :
    (s.modPorts f).frameStates = s.frameStates := rfl
@[simp] theorem State.modPorts_freeList (f : Port → PortContext → PortContext) :
    (s.modPorts f).freeList = s.freeList := rfl
@[simp] theorem State.modPorts_engine (f : Port → PortContext → PortContext) :
    (s.modPorts f).engine = s.engine := rfl
@[simp] theorem State.modPorts_array (f : Port → PortContext → PortContext) :
    (s.modPorts f).array = s.array := rfl
@[simp] theorem State.modPorts_cells (f : Port → PortContext → PortContext) :
    (s.modPorts f).cells = s.cells := rfl
@[simp] theorem State.modPorts_program (f : Port → PortContext → PortContext) :
    (s.modPorts f).program = s.program := rfl
@[simp] theorem State.modPorts_draws (f : Port → PortContext → PortContext) :
    (s.modPorts f).draws = s.draws := rfl
@[simp] theorem State.modPorts_pending (f : Port → PortContext → PortContext) :
    (s.modPorts f).pending = s.pending := rfl

/-! ### State.modFrame -/

@[simp] theorem State.modFrame_device (p : Port) (f : FrameRecord → FrameRecord) :
    (s.modFrame p f).device = s.device := rfl
@[simp] theorem State.modFrame_pfail (p : Port) (f : FrameRecord → FrameRecord) :
    (s.modFrame p f).pfail = s.pfail := rfl
@[simp] theorem State.modFrame_resetN (p : Port) (f : FrameRecord → FrameRecord) :
    (s.modFrame p f).resetN = s.resetN := rfl
@[simp] theorem State.modFrame_lockin (p : Port) (f : FrameRecord → FrameRecord) :
    (s.modFrame p f).lockin = s.lockin := rfl
@[simp] theorem State.modFrame_ports (p : Port) (f : FrameRecord → FrameRecord) :
    (s.modFrame p f).ports = upd s.ports p { s.ports[p] with frame := f s.ports[p].frame } := rfl
@[simp] theorem State.modFrame_claimCount (p : Port) (f : FrameRecord → FrameRecord) :
    (s.modFrame p f).claimCount = s.claimCount := rfl
@[simp] theorem State.modFrame_volumes (p : Port) (f : FrameRecord → FrameRecord) :
    (s.modFrame p f).volumes = s.volumes := rfl
@[simp] theorem State.modFrame_frameStates (p : Port) (f : FrameRecord → FrameRecord) :
    (s.modFrame p f).frameStates = s.frameStates := rfl
@[simp] theorem State.modFrame_freeList (p : Port) (f : FrameRecord → FrameRecord) :
    (s.modFrame p f).freeList = s.freeList := rfl
@[simp] theorem State.modFrame_engine (p : Port) (f : FrameRecord → FrameRecord) :
    (s.modFrame p f).engine = s.engine := rfl
@[simp] theorem State.modFrame_array (p : Port) (f : FrameRecord → FrameRecord) :
    (s.modFrame p f).array = s.array := rfl
@[simp] theorem State.modFrame_cells (p : Port) (f : FrameRecord → FrameRecord) :
    (s.modFrame p f).cells = s.cells := rfl
@[simp] theorem State.modFrame_program (p : Port) (f : FrameRecord → FrameRecord) :
    (s.modFrame p f).program = s.program := rfl
@[simp] theorem State.modFrame_draws (p : Port) (f : FrameRecord → FrameRecord) :
    (s.modFrame p f).draws = s.draws := rfl
@[simp] theorem State.modFrame_pending (p : Port) (f : FrameRecord → FrameRecord) :
    (s.modFrame p f).pending = s.pending := rfl

/-! ### State.modTxn -/

@[simp] theorem State.modTxn_device (p : Port) (f : Txn → Txn) :
    (s.modTxn p f).device = s.device := rfl
@[simp] theorem State.modTxn_pfail (p : Port) (f : Txn → Txn) :
    (s.modTxn p f).pfail = s.pfail := rfl
@[simp] theorem State.modTxn_resetN (p : Port) (f : Txn → Txn) :
    (s.modTxn p f).resetN = s.resetN := rfl
@[simp] theorem State.modTxn_lockin (p : Port) (f : Txn → Txn) :
    (s.modTxn p f).lockin = s.lockin := rfl
@[simp] theorem State.modTxn_ports (p : Port) (f : Txn → Txn) :
    (s.modTxn p f).ports = upd s.ports p { s.ports[p] with txn := f s.ports[p].txn } := rfl
@[simp] theorem State.modTxn_claimCount (p : Port) (f : Txn → Txn) :
    (s.modTxn p f).claimCount = s.claimCount := rfl
@[simp] theorem State.modTxn_volumes (p : Port) (f : Txn → Txn) :
    (s.modTxn p f).volumes = s.volumes := rfl
@[simp] theorem State.modTxn_frameStates (p : Port) (f : Txn → Txn) :
    (s.modTxn p f).frameStates = s.frameStates := rfl
@[simp] theorem State.modTxn_freeList (p : Port) (f : Txn → Txn) :
    (s.modTxn p f).freeList = s.freeList := rfl
@[simp] theorem State.modTxn_engine (p : Port) (f : Txn → Txn) :
    (s.modTxn p f).engine = s.engine := rfl
@[simp] theorem State.modTxn_array (p : Port) (f : Txn → Txn) :
    (s.modTxn p f).array = s.array := rfl
@[simp] theorem State.modTxn_cells (p : Port) (f : Txn → Txn) :
    (s.modTxn p f).cells = s.cells := rfl
@[simp] theorem State.modTxn_program (p : Port) (f : Txn → Txn) :
    (s.modTxn p f).program = s.program := rfl
@[simp] theorem State.modTxn_draws (p : Port) (f : Txn → Txn) :
    (s.modTxn p f).draws = s.draws := rfl
@[simp] theorem State.modTxn_pending (p : Port) (f : Txn → Txn) :
    (s.modTxn p f).pending = s.pending := rfl

/-! ### State.setVolume -/

@[simp] theorem State.setVolume_device (v : VolumeNo) (x : Volume) :
    (s.setVolume v x).device = s.device := rfl
@[simp] theorem State.setVolume_pfail (v : VolumeNo) (x : Volume) :
    (s.setVolume v x).pfail = s.pfail := rfl
@[simp] theorem State.setVolume_resetN (v : VolumeNo) (x : Volume) :
    (s.setVolume v x).resetN = s.resetN := rfl
@[simp] theorem State.setVolume_lockin (v : VolumeNo) (x : Volume) :
    (s.setVolume v x).lockin = s.lockin := rfl
@[simp] theorem State.setVolume_ports (v : VolumeNo) (x : Volume) :
    (s.setVolume v x).ports = s.ports := rfl
@[simp] theorem State.setVolume_claimCount (v : VolumeNo) (x : Volume) :
    (s.setVolume v x).claimCount = s.claimCount := rfl
@[simp] theorem State.setVolume_volumes (v : VolumeNo) (x : Volume) :
    (s.setVolume v x).volumes = upd s.volumes v x := rfl
@[simp] theorem State.setVolume_frameStates (v : VolumeNo) (x : Volume) :
    (s.setVolume v x).frameStates = s.frameStates := rfl
@[simp] theorem State.setVolume_freeList (v : VolumeNo) (x : Volume) :
    (s.setVolume v x).freeList = s.freeList := rfl
@[simp] theorem State.setVolume_engine (v : VolumeNo) (x : Volume) :
    (s.setVolume v x).engine = s.engine := rfl
@[simp] theorem State.setVolume_array (v : VolumeNo) (x : Volume) :
    (s.setVolume v x).array = s.array := rfl
@[simp] theorem State.setVolume_cells (v : VolumeNo) (x : Volume) :
    (s.setVolume v x).cells = s.cells := rfl
@[simp] theorem State.setVolume_program (v : VolumeNo) (x : Volume) :
    (s.setVolume v x).program = s.program := rfl
@[simp] theorem State.setVolume_draws (v : VolumeNo) (x : Volume) :
    (s.setVolume v x).draws = s.draws := rfl
@[simp] theorem State.setVolume_pending (v : VolumeNo) (x : Volume) :
    (s.setVolume v x).pending = s.pending := rfl

/-! ### State.modEngine -/

@[simp] theorem State.modEngine_device (f : Engine → Engine) :
    (s.modEngine f).device = s.device := rfl
@[simp] theorem State.modEngine_pfail (f : Engine → Engine) :
    (s.modEngine f).pfail = s.pfail := rfl
@[simp] theorem State.modEngine_resetN (f : Engine → Engine) :
    (s.modEngine f).resetN = s.resetN := rfl
@[simp] theorem State.modEngine_lockin (f : Engine → Engine) :
    (s.modEngine f).lockin = s.lockin := rfl
@[simp] theorem State.modEngine_ports (f : Engine → Engine) :
    (s.modEngine f).ports = s.ports := rfl
@[simp] theorem State.modEngine_claimCount (f : Engine → Engine) :
    (s.modEngine f).claimCount = s.claimCount := rfl
@[simp] theorem State.modEngine_volumes (f : Engine → Engine) :
    (s.modEngine f).volumes = s.volumes := rfl
@[simp] theorem State.modEngine_frameStates (f : Engine → Engine) :
    (s.modEngine f).frameStates = s.frameStates := rfl
@[simp] theorem State.modEngine_freeList (f : Engine → Engine) :
    (s.modEngine f).freeList = s.freeList := rfl
@[simp] theorem State.modEngine_engine (f : Engine → Engine) :
    (s.modEngine f).engine = f s.engine := rfl
@[simp] theorem State.modEngine_array (f : Engine → Engine) :
    (s.modEngine f).array = s.array := rfl
@[simp] theorem State.modEngine_cells (f : Engine → Engine) :
    (s.modEngine f).cells = s.cells := rfl
@[simp] theorem State.modEngine_program (f : Engine → Engine) :
    (s.modEngine f).program = s.program := rfl
@[simp] theorem State.modEngine_draws (f : Engine → Engine) :
    (s.modEngine f).draws = s.draws := rfl
@[simp] theorem State.modEngine_pending (f : Engine → Engine) :
    (s.modEngine f).pending = s.pending := rfl

/-! ### State.setClaims -/

@[simp] theorem State.setClaims_device (p : Port) (n : Nat) :
    (s.setClaims p n).device = s.device := rfl
@[simp] theorem State.setClaims_pfail (p : Port) (n : Nat) :
    (s.setClaims p n).pfail = s.pfail := rfl
@[simp] theorem State.setClaims_resetN (p : Port) (n : Nat) :
    (s.setClaims p n).resetN = s.resetN := rfl
@[simp] theorem State.setClaims_lockin (p : Port) (n : Nat) :
    (s.setClaims p n).lockin = s.lockin := rfl
@[simp] theorem State.setClaims_ports (p : Port) (n : Nat) :
    (s.setClaims p n).ports = s.ports := rfl
@[simp] theorem State.setClaims_claimCount (p : Port) (n : Nat) :
    (s.setClaims p n).claimCount = upd s.claimCount p n := rfl
@[simp] theorem State.setClaims_volumes (p : Port) (n : Nat) :
    (s.setClaims p n).volumes = s.volumes := rfl
@[simp] theorem State.setClaims_frameStates (p : Port) (n : Nat) :
    (s.setClaims p n).frameStates = s.frameStates := rfl
@[simp] theorem State.setClaims_freeList (p : Port) (n : Nat) :
    (s.setClaims p n).freeList = s.freeList := rfl
@[simp] theorem State.setClaims_engine (p : Port) (n : Nat) :
    (s.setClaims p n).engine = s.engine := rfl
@[simp] theorem State.setClaims_array (p : Port) (n : Nat) :
    (s.setClaims p n).array = s.array := rfl
@[simp] theorem State.setClaims_cells (p : Port) (n : Nat) :
    (s.setClaims p n).cells = s.cells := rfl
@[simp] theorem State.setClaims_program (p : Port) (n : Nat) :
    (s.setClaims p n).program = s.program := rfl
@[simp] theorem State.setClaims_draws (p : Port) (n : Nat) :
    (s.setClaims p n).draws = s.draws := rfl
@[simp] theorem State.setClaims_pending (p : Port) (n : Nat) :
    (s.setClaims p n).pending = s.pending := rfl

/-! ### raise -/

@[simp] theorem raise_device (p : Port) (c : Cause) :
    (raise s p c).device = s.device := rfl
@[simp] theorem raise_pfail (p : Port) (c : Cause) :
    (raise s p c).pfail = s.pfail := rfl
@[simp] theorem raise_resetN (p : Port) (c : Cause) :
    (raise s p c).resetN = s.resetN := rfl
@[simp] theorem raise_lockin (p : Port) (c : Cause) :
    (raise s p c).lockin = s.lockin := rfl
@[simp] theorem raise_ports (p : Port) (c : Cause) :
    (raise s p c).ports = upd s.ports p { s.ports[p] with pending := s.ports[p].pending.add c } := rfl
@[simp] theorem raise_claimCount (p : Port) (c : Cause) :
    (raise s p c).claimCount = s.claimCount := rfl
@[simp] theorem raise_volumes (p : Port) (c : Cause) :
    (raise s p c).volumes = s.volumes := rfl
@[simp] theorem raise_frameStates (p : Port) (c : Cause) :
    (raise s p c).frameStates = s.frameStates := rfl
@[simp] theorem raise_freeList (p : Port) (c : Cause) :
    (raise s p c).freeList = s.freeList := rfl
@[simp] theorem raise_engine (p : Port) (c : Cause) :
    (raise s p c).engine = s.engine := rfl
@[simp] theorem raise_array (p : Port) (c : Cause) :
    (raise s p c).array = s.array := rfl
@[simp] theorem raise_cells (p : Port) (c : Cause) :
    (raise s p c).cells = s.cells := rfl
@[simp] theorem raise_program (p : Port) (c : Cause) :
    (raise s p c).program = s.program := rfl
@[simp] theorem raise_draws (p : Port) (c : Cause) :
    (raise s p c).draws = s.draws := rfl
@[simp] theorem raise_pending (p : Port) (c : Cause) :
    (raise s p c).pending = s.pending := rfl

/-! ### raiseAll -/

@[simp] theorem raiseAll_device (c : Cause) :
    (raiseAll s c).device = s.device := rfl
@[simp] theorem raiseAll_pfail (c : Cause) :
    (raiseAll s c).pfail = s.pfail := rfl
@[simp] theorem raiseAll_resetN (c : Cause) :
    (raiseAll s c).resetN = s.resetN := rfl
@[simp] theorem raiseAll_lockin (c : Cause) :
    (raiseAll s c).lockin = s.lockin := rfl
@[simp] theorem raiseAll_ports (c : Cause) :
    (raiseAll s c).ports = tab fun p => { s.ports[p] with pending := s.ports[p].pending.add c } := rfl
@[simp] theorem raiseAll_claimCount (c : Cause) :
    (raiseAll s c).claimCount = s.claimCount := rfl
@[simp] theorem raiseAll_volumes (c : Cause) :
    (raiseAll s c).volumes = s.volumes := rfl
@[simp] theorem raiseAll_frameStates (c : Cause) :
    (raiseAll s c).frameStates = s.frameStates := rfl
@[simp] theorem raiseAll_freeList (c : Cause) :
    (raiseAll s c).freeList = s.freeList := rfl
@[simp] theorem raiseAll_engine (c : Cause) :
    (raiseAll s c).engine = s.engine := rfl
@[simp] theorem raiseAll_array (c : Cause) :
    (raiseAll s c).array = s.array := rfl
@[simp] theorem raiseAll_cells (c : Cause) :
    (raiseAll s c).cells = s.cells := rfl
@[simp] theorem raiseAll_program (c : Cause) :
    (raiseAll s c).program = s.program := rfl
@[simp] theorem raiseAll_draws (c : Cause) :
    (raiseAll s c).draws = s.draws := rfl
@[simp] theorem raiseAll_pending (c : Cause) :
    (raiseAll s c).pending = s.pending := rfl

/-! ### writeFrame -/

@[simp] theorem writeFrame_device (f : FrameNo) (b : List Byte) :
    (writeFrame s f b).device = s.device := rfl
@[simp] theorem writeFrame_pfail (f : FrameNo) (b : List Byte) :
    (writeFrame s f b).pfail = s.pfail := rfl
@[simp] theorem writeFrame_resetN (f : FrameNo) (b : List Byte) :
    (writeFrame s f b).resetN = s.resetN := rfl
@[simp] theorem writeFrame_lockin (f : FrameNo) (b : List Byte) :
    (writeFrame s f b).lockin = s.lockin := rfl
@[simp] theorem writeFrame_ports (f : FrameNo) (b : List Byte) :
    (writeFrame s f b).ports = s.ports := rfl
@[simp] theorem writeFrame_claimCount (f : FrameNo) (b : List Byte) :
    (writeFrame s f b).claimCount = s.claimCount := rfl
@[simp] theorem writeFrame_volumes (f : FrameNo) (b : List Byte) :
    (writeFrame s f b).volumes = s.volumes := rfl
@[simp] theorem writeFrame_frameStates (f : FrameNo) (b : List Byte) :
    (writeFrame s f b).frameStates = s.frameStates := rfl
@[simp] theorem writeFrame_freeList (f : FrameNo) (b : List Byte) :
    (writeFrame s f b).freeList = s.freeList := rfl
@[simp] theorem writeFrame_engine (f : FrameNo) (b : List Byte) :
    (writeFrame s f b).engine = s.engine := rfl
@[simp] theorem writeFrame_array (f : FrameNo) (b : List Byte) :
    (writeFrame s f b).array = storeFrame arrayFill s.array f b := rfl
@[simp] theorem writeFrame_cells (f : FrameNo) (b : List Byte) :
    (writeFrame s f b).cells = s.cells := rfl
@[simp] theorem writeFrame_program (f : FrameNo) (b : List Byte) :
    (writeFrame s f b).program = s.program := rfl
@[simp] theorem writeFrame_draws (f : FrameNo) (b : List Byte) :
    (writeFrame s f b).draws = s.draws := rfl
@[simp] theorem writeFrame_pending (f : FrameNo) (b : List Byte) :
    (writeFrame s f b).pending = s.pending := rfl

/-! ### writeArrayByte -/

@[simp] theorem writeArrayByte_device (f : FrameNo) (o : Fin 256) (b : Byte) :
    (writeArrayByte s f o b).device = s.device := rfl
@[simp] theorem writeArrayByte_pfail (f : FrameNo) (o : Fin 256) (b : Byte) :
    (writeArrayByte s f o b).pfail = s.pfail := rfl
@[simp] theorem writeArrayByte_resetN (f : FrameNo) (o : Fin 256) (b : Byte) :
    (writeArrayByte s f o b).resetN = s.resetN := rfl
@[simp] theorem writeArrayByte_lockin (f : FrameNo) (o : Fin 256) (b : Byte) :
    (writeArrayByte s f o b).lockin = s.lockin := rfl
@[simp] theorem writeArrayByte_ports (f : FrameNo) (o : Fin 256) (b : Byte) :
    (writeArrayByte s f o b).ports = s.ports := rfl
@[simp] theorem writeArrayByte_claimCount (f : FrameNo) (o : Fin 256) (b : Byte) :
    (writeArrayByte s f o b).claimCount = s.claimCount := rfl
@[simp] theorem writeArrayByte_volumes (f : FrameNo) (o : Fin 256) (b : Byte) :
    (writeArrayByte s f o b).volumes = s.volumes := rfl
@[simp] theorem writeArrayByte_frameStates (f : FrameNo) (o : Fin 256) (b : Byte) :
    (writeArrayByte s f o b).frameStates = s.frameStates := rfl
@[simp] theorem writeArrayByte_freeList (f : FrameNo) (o : Fin 256) (b : Byte) :
    (writeArrayByte s f o b).freeList = s.freeList := rfl
@[simp] theorem writeArrayByte_engine (f : FrameNo) (o : Fin 256) (b : Byte) :
    (writeArrayByte s f o b).engine = s.engine := rfl
@[simp] theorem writeArrayByte_array (f : FrameNo) (o : Fin 256) (b : Byte) :
    (writeArrayByte s f o b).array = Memory.store arrayFill s.array (frameBase f + o.val) b := rfl
@[simp] theorem writeArrayByte_cells (f : FrameNo) (o : Fin 256) (b : Byte) :
    (writeArrayByte s f o b).cells = s.cells := rfl
@[simp] theorem writeArrayByte_program (f : FrameNo) (o : Fin 256) (b : Byte) :
    (writeArrayByte s f o b).program = s.program := rfl
@[simp] theorem writeArrayByte_draws (f : FrameNo) (o : Fin 256) (b : Byte) :
    (writeArrayByte s f o b).draws = s.draws := rfl
@[simp] theorem writeArrayByte_pending (f : FrameNo) (o : Fin 256) (b : Byte) :
    (writeArrayByte s f o b).pending = s.pending := rfl

/-! ### State.modVolume -/

@[simp] theorem State.modVolume_device (v : VolumeNo) (f : VolumeRecord → VolumeRecord) :
    (s.modVolume v f).device = s.device := by
  unfold State.modVolume; split <;> rfl
@[simp] theorem State.modVolume_pfail (v : VolumeNo) (f : VolumeRecord → VolumeRecord) :
    (s.modVolume v f).pfail = s.pfail := by
  unfold State.modVolume; split <;> rfl
@[simp] theorem State.modVolume_resetN (v : VolumeNo) (f : VolumeRecord → VolumeRecord) :
    (s.modVolume v f).resetN = s.resetN := by
  unfold State.modVolume; split <;> rfl
@[simp] theorem State.modVolume_lockin (v : VolumeNo) (f : VolumeRecord → VolumeRecord) :
    (s.modVolume v f).lockin = s.lockin := by
  unfold State.modVolume; split <;> rfl
@[simp] theorem State.modVolume_ports (v : VolumeNo) (f : VolumeRecord → VolumeRecord) :
    (s.modVolume v f).ports = s.ports := by
  unfold State.modVolume; split <;> rfl
@[simp] theorem State.modVolume_claimCount (v : VolumeNo) (f : VolumeRecord → VolumeRecord) :
    (s.modVolume v f).claimCount = s.claimCount := by
  unfold State.modVolume; split <;> rfl
@[simp] theorem State.modVolume_frameStates (v : VolumeNo) (f : VolumeRecord → VolumeRecord) :
    (s.modVolume v f).frameStates = s.frameStates := by
  unfold State.modVolume; split <;> rfl
@[simp] theorem State.modVolume_freeList (v : VolumeNo) (f : VolumeRecord → VolumeRecord) :
    (s.modVolume v f).freeList = s.freeList := by
  unfold State.modVolume; split <;> rfl
@[simp] theorem State.modVolume_engine (v : VolumeNo) (f : VolumeRecord → VolumeRecord) :
    (s.modVolume v f).engine = s.engine := by
  unfold State.modVolume; split <;> rfl
@[simp] theorem State.modVolume_array (v : VolumeNo) (f : VolumeRecord → VolumeRecord) :
    (s.modVolume v f).array = s.array := by
  unfold State.modVolume; split <;> rfl
@[simp] theorem State.modVolume_cells (v : VolumeNo) (f : VolumeRecord → VolumeRecord) :
    (s.modVolume v f).cells = s.cells := by
  unfold State.modVolume; split <;> rfl
@[simp] theorem State.modVolume_program (v : VolumeNo) (f : VolumeRecord → VolumeRecord) :
    (s.modVolume v f).program = s.program := by
  unfold State.modVolume; split <;> rfl
@[simp] theorem State.modVolume_draws (v : VolumeNo) (f : VolumeRecord → VolumeRecord) :
    (s.modVolume v f).draws = s.draws := by
  unfold State.modVolume; split <;> rfl
@[simp] theorem State.modVolume_pending (v : VolumeNo) (f : VolumeRecord → VolumeRecord) :
    (s.modVolume v f).pending = s.pending := by
  unfold State.modVolume; split <;> rfl

/-! ### State.setFrameState -/

@[simp] theorem State.setFrameState_device (f : FrameNo) (x : FrameState) :
    (s.setFrameState f x).device = s.device := by
  unfold State.setFrameState; split <;> rfl
@[simp] theorem State.setFrameState_pfail (f : FrameNo) (x : FrameState) :
    (s.setFrameState f x).pfail = s.pfail := by
  unfold State.setFrameState; split <;> rfl
@[simp] theorem State.setFrameState_resetN (f : FrameNo) (x : FrameState) :
    (s.setFrameState f x).resetN = s.resetN := by
  unfold State.setFrameState; split <;> rfl
@[simp] theorem State.setFrameState_lockin (f : FrameNo) (x : FrameState) :
    (s.setFrameState f x).lockin = s.lockin := by
  unfold State.setFrameState; split <;> rfl
@[simp] theorem State.setFrameState_ports (f : FrameNo) (x : FrameState) :
    (s.setFrameState f x).ports = s.ports := by
  unfold State.setFrameState; split <;> rfl
@[simp] theorem State.setFrameState_claimCount (f : FrameNo) (x : FrameState) :
    (s.setFrameState f x).claimCount = s.claimCount := by
  unfold State.setFrameState; split <;> rfl
@[simp] theorem State.setFrameState_volumes (f : FrameNo) (x : FrameState) :
    (s.setFrameState f x).volumes = s.volumes := by
  unfold State.setFrameState; split <;> rfl
@[simp] theorem State.setFrameState_freeList (f : FrameNo) (x : FrameState) :
    (s.setFrameState f x).freeList = s.freeList := by
  unfold State.setFrameState; split <;> rfl
@[simp] theorem State.setFrameState_engine (f : FrameNo) (x : FrameState) :
    (s.setFrameState f x).engine = s.engine := by
  unfold State.setFrameState; split <;> rfl
@[simp] theorem State.setFrameState_array (f : FrameNo) (x : FrameState) :
    (s.setFrameState f x).array = s.array := by
  unfold State.setFrameState; split <;> rfl
@[simp] theorem State.setFrameState_cells (f : FrameNo) (x : FrameState) :
    (s.setFrameState f x).cells = s.cells := by
  unfold State.setFrameState; split <;> rfl
@[simp] theorem State.setFrameState_program (f : FrameNo) (x : FrameState) :
    (s.setFrameState f x).program = s.program := by
  unfold State.setFrameState; split <;> rfl
@[simp] theorem State.setFrameState_draws (f : FrameNo) (x : FrameState) :
    (s.setFrameState f x).draws = s.draws := by
  unfold State.setFrameState; split <;> rfl
@[simp] theorem State.setFrameState_pending (f : FrameNo) (x : FrameState) :
    (s.setFrameState f x).pending = s.pending := by
  unfold State.setFrameState; split <;> rfl

end Sys2Proof.Machine
end

