-- ==== Sys2Proof/Laws/Ops.lean ====
section
/-! SUPPORT. What the shared operations of a port do, said once: taking a command, answering it, the byte that is ignored, the close of the links. -/

namespace Sys2Proof.Machine

/-! ### Port contexts -/

@[simp] theorem setPort_setPort (s : State) (p : Port) (c d : PortContext) :
    (s.setPort p c).setPort p d = s.setPort p d := by
  simp [State.setPort]

@[simp] theorem setPort_self (s : State) (p : Port) : s.setPort p s.ports[p] = s := by
  have : upd s.ports p s.ports[p] = s.ports := table_ext fun i => by
    rw [upd_get]; split
    · next h => rw [h]
    · rfl
  unfold State.setPort
  rw [this]

theorem setPort_ports_self (s : State) (p : Port) (c : PortContext) : (s.setPort p c).ports[p] = c := by
  simp

theorem setPort_ports_ne (s : State) (p q : Port) (c : PortContext) (h : p ≠ q) :
    (s.setPort p c).ports[q] = s.ports[q] := by
  simp only [State.setPort_ports]; exact upd_get_ne _ _ _ _ h

/-! ### The command table -/

@[simp] theorem decodeCommand_code (c : Command) : decodeCommand c.code = some c := by
  cases c <;> decide

theorem code_injective (c d : Command) (h : c.code = d.code) : c = d := by
  have := congrArg decodeCommand h; simpa using this

/-- A byte that names a command is that command's code. -/
theorem code_of_decodeCommand (b : Byte) (c : Command) (h : decodeCommand b = some c) : b = c.code := by
  have := List.find?_some h
  simpa using (beq_iff_eq.mp this).symm

/-! ### Taking and answering -/

/-- Taking a command that the link waits for is its effect on the state whose frame holds it. -/
theorem taking_of_awaits (s : State) (p : Port) (c : Command) (args : List Byte) (act : State → State)
    (h : awaits s p c args = true) : taking s p c args act = act (enterData s p c args) := by
  simp [taking, h]

/-- Taking a command that the link does not wait for is an ignored byte. -/
theorem taking_of_not_awaits (s : State) (p : Port) (c : Command) (args : List Byte)
    (act : State → State) (h : awaits s p c args = false) :
    taking s p c args act = ignoreByte s p := by
  simp [taking, h]

/-- A command is taken in phase COMMAND or ARGUMENTS only. -/
theorem phase_of_awaits (s : State) (p : Port) (c : Command) (args : List Byte)
    (h : awaits s p c args = true) :
    s.ports[p].frame.phase = .command ∨ s.ports[p].frame.phase = .arguments := by
  unfold awaits at h
  split at h
  · left; simpa using h
  · right; simp at h; exact h.1

/-- What the link waits for depends on the frame record of its port alone. -/
theorem awaits_congr (s t : State) (p : Port) (c : Command) (args : List Byte)
    (h : s.ports[p].frame = t.ports[p].frame) : awaits s p c args = awaits t p c args := by
  simp only [awaits, h]

/-- An answer on a port context that the command has changed elsewhere. -/
theorem reply_setPort (s : State) (p : Port) (x : PortContext) (r : Result) (response : List Byte) :
    reply (s.setPort p x) p r response = s.setPort p { x with
      frame := FrameRecord.shift { x.frame with result := some r, response := response } } := by
  simp [reply, State.modFrame, State.modPort]

/-- The byte shifted out next once a frame in phase DATA holds its response. -/
theorem shift_answered (f : FrameRecord) (c : Command) (args : List Byte) (r : Result)
    (response : List Byte) :
    FrameRecord.shift { f with
      phase := .data, command := some c.code, arguments := args, result := some r
      response := response } = f.answered c args r response := by
  cases response <;>
    simp [FrameRecord.shift, FrameRecord.answered, FrameRecord.filler]

/-- The state whose frame holds a taken command. -/
theorem enterData_eq (s : State) (p : Port) (c : Command) (args : List Byte) :
    enterData s p c args = s.setPort p { s.ports[p] with
      frame := { s.ports[p].frame with phase := .data, command := some c.code, arguments := args } } :=
  rfl

/-- A taken command answered with nothing else changed. -/
theorem reply_enterData (s : State) (p : Port) (c : Command) (args : List Byte) (r : Result)
    (response : List Byte) : reply (enterData s p c args) p r response = answered s p c args r response := by
  rw [enterData_eq, reply_setPort]
  simp only [answered, PortContext.answered, shift_answered]

/-- A refused command is answered with the refusal and nothing else changes. -/
theorem unlessRefused_some (s : State) (p : Port) (r : Result) (act : State → State) :
    unlessRefused s p (some r) act = reply s p r [] := rfl

theorem unlessRefused_none (s : State) (p : Port) (act : State → State) :
    unlessRefused s p none act = act s := rfl

/-! ### Bytes that are ignored -/

/-- All that an ignored byte can do: where the frame ignores, the next byte out is 0xFF. -/
theorem ignoreByte_eq (s : State) (p : Port) :
    ignoreByte s p =
      if s.ports[p].frame.phase = .ignoring ∨ s.ports[p].frame.phase = .notReady then
        s.setPort p { s.ports[p] with frame := { s.ports[p].frame with output := 0xFF#8 } }
      else s := rfl

/-! ### The links close -/

/-- The close of the links, port by port. -/
theorem closeLinks_port (s : State) (p : Port) :
    (closeLinks s).ports[p] = { s.ports[p] with
      frame := s.ports[p].frame.close, burst := none, txn := s.ports[p].txn.stopTimer } := by
  simp [closeLinks]

/-- The close of the links in the statements' words (R150, R165). -/
theorem closeLinks_linkClosed (s : State) (p : Port) : linkClosed s.ports[p] (closeLinks s).ports[p] := by
  rw [closeLinks_port]
  refine ⟨rfl, fun h => ?_, fun h => ?_⟩ <;> simp at h <;> unfold FrameRecord.close <;> split <;> simp_all

/-- No closed frame is in a phase that takes bytes. -/
theorem close_phase (f : FrameRecord) :
    f.close.phase ≠ .command ∧ f.close.phase ≠ .arguments ∧ f.close.phase ≠ .data := by
  cases h : f.phase <;> simp [FrameRecord.close, h]

/-- The byte of the position in progress stays when the links close (R63, R162). -/
@[simp] theorem close_output (f : FrameRecord) : f.close.output = f.output := by
  cases h : f.phase <;> simp [FrameRecord.close, h]

/-! ### The data-out line -/

/-- The line is released exactly while no frame is in progress (R162). -/
@[simp] theorem dataOut_eq_none (s : State) (p : Port) :
    dataOut s p = none ↔ s.ports[p].frame.phase = .noFrame := by
  unfold dataOut
  split <;> simp_all

/-- While a frame is in progress the line carries the byte fixed for its position (R162). -/
theorem dataOut_eq_some (s : State) (p : Port) (h : s.ports[p].frame.phase ≠ .noFrame) :
    dataOut s p = some s.ports[p].frame.output := if_neg h

end Sys2Proof.Machine
end

