-- ==== Sys2Proof/Laws/MapUnit.lean ====
section
/-! SUPPORT. What the shared operations of the map unit do, said once: the orders of volumes and pages, the state of a frame after frames were marked, the entries after one was replaced. -/

namespace Sys2Proof.Machine

/-! ### Orders -/

theorem mem_ascending {n : Nat} (i : Fin n) : i ∈ ascending n := by
  unfold ascending
  exact List.mem_ofFn.2 ⟨i, rfl⟩

theorem ascending_nodup (n : Nat) : (ascending n).Nodup := by
  unfold ascending
  exact List.nodup_ofFn.2 fun _ _ h => h

/-- Every page of every volume is visited. -/
theorem mem_allPages (x : VolumeNo × PageNo) : x ∈ allPages := by
  unfold allPages
  exact List.mem_flatMap.2 ⟨x.1, mem_ascending _, List.mem_map.2 ⟨x.2, mem_ascending _, rfl⟩⟩

/-- What the pages give is in volume order, then page order (R10). -/
theorem filterMap_allPages {α : Type} (C : VolumeNo → PageNo → Option α) :
    allPages.filterMap (fun x => C x.1 x.2) =
      (ascending 16).flatMap fun v => (ascending 64).filterMap fun g => C v g := by
  simp only [allPages, List.filterMap_flatMap, List.filterMap_map, Function.comp_def]

theorem mem_shadowsOf (s : State) (p : Port) (f : FrameNo) :
    f ∈ shadowsOf s p ↔ ∃ v g, (entryOf s v g).shadowOf p = some f := by
  unfold shadowsOf
  rw [List.mem_filterMap]
  exact ⟨fun ⟨x, _, h⟩ => ⟨x.1, x.2, h⟩, fun ⟨v, g, h⟩ => ⟨(v, g), mem_allPages _, h⟩⟩

/-! ### Frame states -/

/-- The state of each frame after one frame took a state (R5). -/
theorem frameState_setFrameState (s : State) (f g : FrameNo) (x : FrameState) :
    frameState (s.setFrameState f x) g =
      if f = g ∧ isPool f = true then some x else frameState s g := by
  unfold State.setFrameState frameState
  by_cases hf : Config.firstPoolFrame ≤ f.val <;> by_cases hg : Config.firstPoolFrame ≤ g.val
  · simp only [poolIndex, hf, hg, dif_pos, Option.map_some, isPool, decide_true, upd_get, and_true]
    have hiff : ((⟨f.val - 34, by
          have := f.isLt; simp only [Config.firstPoolFrame] at hf; omega⟩ : Fin 2014) =
        ⟨g.val - 34, by
          have := g.isLt; simp only [Config.firstPoolFrame] at hg; omega⟩) ↔ f = g := by
      simp only [Config.firstPoolFrame] at hf hg
      rw [Fin.mk.injEq, Fin.ext_iff]
      omega
    simp only [hiff]
    split <;> rfl
  · have : f ≠ g := by rintro rfl; exact hg hf
    simp [poolIndex, hf, hg, this]
  · simp [poolIndex, hf, hg, isPool]
  · simp [poolIndex, hf, hg, isPool]

/-- Marking frames changes the table of frame states alone. -/
theorem setFrames_eq (s : State) (fs : List FrameNo) (x : FrameState) :
    setFrames s fs x = { s with frameStates := (setFrames s fs x).frameStates } := by
  induction fs generalizing s with
  | nil => rfl
  | cons f fs ih =>
    simp only [setFrames, List.foldl_cons] at ih ⊢
    rw [ih]
    unfold State.setFrameState
    split <;> rfl

/-- The state of each frame after frames took a state. -/
theorem frameState_setFrames (s : State) (fs : List FrameNo) (x : FrameState) (g : FrameNo) :
    frameState (setFrames s fs x) g =
      if g ∈ fs ∧ isPool g = true then some x else frameState s g := by
  induction fs generalizing s with
  | nil => simp [setFrames]
  | cons f fs ih =>
    simp only [setFrames, List.foldl_cons] at ih ⊢
    rw [ih, frameState_setFrameState]
    have hmem : g ∈ f :: fs ↔ f = g ∨ g ∈ fs := by rw [List.mem_cons, eq_comm]
    by_cases h2 : g ∈ fs ∧ isPool g = true
    · rw [if_pos h2, if_pos ⟨hmem.2 (Or.inr h2.1), h2.2⟩]
    · rw [if_neg h2]
      by_cases h : f = g ∧ isPool f = true
      · rw [if_pos h, if_pos ⟨hmem.2 (Or.inl h.1), h.1 ▸ h.2⟩]
      · rw [if_neg h, if_neg]
        rintro ⟨hm, hp⟩
        rcases hmem.1 hm with rfl | hm
        · exact h ⟨rfl, hp⟩
        · exact h2 ⟨hm, hp⟩

/-- Marking frames commutes with an update of a port. -/
theorem setFrames_setPort (s : State) (p : Port) (c : PortContext) (fs : List FrameNo)
    (x : FrameState) : setFrames (s.setPort p c) fs x = (setFrames s fs x).setPort p c := by
  induction fs generalizing s with
  | nil => rfl
  | cons f fs ih =>
    simp only [setFrames, List.foldl_cons] at ih ⊢
    rw [show (s.setPort p c).setFrameState f x = (s.setFrameState f x).setPort p c by
      unfold State.setFrameState; split <;> rfl, ih]

/-! ### Releases -/

/-- A release of all claims leaves every port context. -/
theorem releaseClaims_ports (s : State) (p : Port) : (releaseClaims s p).ports = s.ports := by
  have := congrArg State.ports (setFrames_eq s (shadowsOf s p) .free)
  exact this

/-- A release of all claims leaves the engine. -/
theorem releaseClaims_engine (s : State) (p : Port) : (releaseClaims s p).engine = s.engine := by
  have := congrArg State.engine (setFrames_eq s (shadowsOf s p) .free)
  exact this

/-- A release of all claims leaves the device state. -/
theorem releaseClaims_device (s : State) (p : Port) : (releaseClaims s p).device = s.device := by
  have := congrArg State.device (setFrames_eq s (shadowsOf s p) .free)
  exact this

/-- A release of all claims leaves both memories. -/
theorem releaseClaims_memories (s : State) (p : Port) :
    (releaseClaims s p).array = s.array ∧ (releaseClaims s p).cells = s.cells := by
  have ha := congrArg State.array (setFrames_eq s (shadowsOf s p) .free)
  have hc := congrArg State.cells (setFrames_eq s (shadowsOf s p) .free)
  exact ⟨ha, hc⟩

/-- A release of all claims commutes with an update of a port. -/
theorem releaseClaims_setPort (s : State) (p q : Port) (c : PortContext) :
    releaseClaims (s.setPort q c) p = (releaseClaims s p).setPort q c := by
  simp only [releaseClaims, freeFrames]
  rw [show shadowsOf (s.setPort q c) p = shadowsOf s p from rfl, setFrames_setPort]
  rfl

/-! ### Entries -/

/-- The entry of each page of each volume after one entry of a present volume was replaced (R22). -/
theorem entryOf_setEntry (s : State) (v w : VolumeNo) (g h : PageNo) (e : Entry)
    (hv : Volume.isPresent s.volumes[v] = true) :
    entryOf (s.setEntry v g e) w h = if v = w ∧ g = h then e else entryOf s w h := by
  unfold State.setEntry State.modVolume
  cases hs : s.volumes[v] with
  | absent => rw [hs] at hv; cases hv
  | creating _ _ _ => rw [hs] at hv; cases hv
  | present r =>
    simp only [entryOf, State.setVolume_volumes, upd_get]
    by_cases hvw : v = w
    · subst hvw
      simp only [if_true, Volume.entry, hs, upd_get, true_and]
    · simp [hvw]

/-- An entry with a claim is an entry of a present volume (R13). -/
theorem isPresent_of_claim (s : State) (v : VolumeNo) (g : PageNo) (c : Claim)
    (h : (entryOf s v g).claim = some c) : Volume.isPresent s.volumes[v] = true := by
  unfold entryOf at h
  cases hs : s.volumes[v] with
  | absent => rw [hs] at h; cases h
  | creating _ _ _ => rw [hs] at h; cases h
  | present r => rfl

end Sys2Proof.Machine
end

