-- ==== Sys2Proof/Laws/Admin.lean ====
section
/-! SUPPORT. What the argument encodings and the shared checks of administration commands do, said once. -/

namespace Sys2Proof.Machine

/-! ### Arguments (R172) -/

theorem windowArg_of_toNat (w : WindowNo) (b : Byte) (h : b.toNat = w.val) : windowArg b = some w := by
  unfold windowArg
  have := w.isLt
  rw [dif_pos (by omega)]
  simp [h]

theorem windowArg_none (b : Byte) (h : 4 ≤ b.toNat) : windowArg b = none := by
  unfold windowArg
  rw [dif_neg (by omega)]

theorem volumeArg_of_toNat (v : VolumeNo) (b : Byte) (h : b.toNat = v.val) : volumeArg b = some v := by
  unfold volumeArg
  have := v.isLt
  rw [dif_pos (by omega)]
  simp [h]

theorem volumeArg_none (b : Byte) (h : 16 ≤ b.toNat) : volumeArg b = none := by
  unfold volumeArg
  rw [dif_neg (by omega)]

theorem pageArg_of_toNat (g : PageNo) (b : Byte) (h : b.toNat = g.val) : pageArg b = some g := by
  unfold pageArg
  have := g.isLt
  rw [dif_pos (by omega)]
  simp [h]

theorem pageArg_none (b : Byte) (h : 64 ≤ b.toNat) : pageArg b = none := by
  unfold pageArg
  rw [dif_neg (by omega)]

theorem sizeArg_of_toNat (b : Byte) (h : 1 ≤ b.toNat) (h2 : b.toNat ≤ 64) :
    sizeArg b = some b.toNat := by
  simp [sizeArg, h, h2]

theorem sizeArg_none (b : Byte) (h : b.toNat = 0 ∨ 64 < b.toNat) : sizeArg b = none := by
  unfold sizeArg
  rw [if_neg (by omega)]

/-- The two-bit code of a port in a rights byte (R172). -/
theorem rightsCode_eq (b : Byte) (q : Port) : rightsCode b q = (b.extractLsb' (2 * q.val) 2).toNat := by
  simp [rightsCode, BitVec.extractLsb'_toNat]

/-! ### Requests of a port (R123) -/

theorem requestPending_iff (s : State) (p : Port) : requestPending s p = true ↔
    ∃ r ∈ s.engine.queue ++ s.engine.inFlight.toList, r.port = p := by
  unfold requestPending
  cases h : s.engine.inFlight <;> simp [or_and_right, exists_or]

/-- The common checks pass at a port that is ready for an administration command (R123). -/
theorem adminCheck_of_ready (s : State) (p : Port) (h : adminReady s p = true) :
    adminCheck s p = none := by
  simp only [adminReady, Bool.decide_and, Bool.and_eq_true, decide_eq_true_eq] at h
  obtain ⟨h1, h2, h3, h4⟩ := h
  simp [adminCheck, h1, h2, h3, engineStopped, h4]

/-! ### Checks read nothing of the frame being taken -/

theorem adminCheck_enterData (s : State) (p q : Port) (c : Command) (args : List Byte) :
    adminCheck (enterData s q c args) p = adminCheck s p := rfl

theorem volumeChecks_enterData (s : State) (p : Port) (c : Command) (args : List Byte) (v : VolumeNo)
    (f : Option Status → Option Result) (n : Option Nat) :
    volumeChecks (enterData s p c args) v f n = volumeChecks s v f n := rfl

/-! ### Answers (R75, R123) -/

/-- An accepted request joins the queue and its command is answered QUEUED. -/
theorem accept_enterData (s : State) (p : Port) (c : Command) (args : List Byte) (k : RequestKind) :
    accept (enterData s p c args) p k =
      answered (appended s ⟨p, k⟩) p c args ⟨.queued, none, .queued⟩ [] :=
  reply_enterData (appended s ⟨p, k⟩) p c args Result.queued []

/-- A refused command is answered and changes nothing. -/
theorem unlessRefused_enterData (s : State) (p : Port) (c : Command) (args : List Byte) (r : Result)
    (act : State → State) :
    unlessRefused (enterData s p c args) p (some r) act = answered s p c args r [] :=
  reply_enterData ..

/-- An administration command at a ready port goes on with its arguments, or is refused with
BAD_ARGUMENT. -/
theorem withArgs_enterData {α : Type} (s : State) (p : Port) (c : Command) (args : List Byte)
    (x : Option α) (act : State → α → State) (h : adminReady s p = true) :
    withArgs (enterData s p c args) p x act =
      match x with
      | none => refused s p c args .badArgument
      | some y => act (enterData s p c args) y := by
  unfold withArgs
  rw [adminCheck_enterData, adminCheck_of_ready s p h, unlessRefused_none]
  cases x
  · exact reply_enterData ..
  · rfl

/-! ### The guard and the claims in the way (R125, R135, R137) -/

theorem guardCheck_none (s : State) (v : VolumeNo) (h : guardActs s v = false) :
    guardCheck s v = none := by
  unfold guardActs at h
  unfold guardCheck refuseUnless
  rw [h]
  rfl

theorem inUseCheck_none (s : State) (v : VolumeNo) (n : Nat) (r : VolumeRecord)
    (hr : s.volumes[v] = .present r)
    (h : ∀ g : PageNo, n ≤ g.val → r.entries[g].claim = none) : inUseCheck s v n = none := by
  unfold inUseCheck lowestClaim
  rw [List.findSome?_eq_none_iff.2]
  · rfl
  · intro g _
    split
    · next hn =>
      unfold entryOf
      rw [hr]
      simp only [Volume.entry]
      rw [h g hn]
      rfl
    · rfl

/-- The lowest-numbered claimed page at or above `n` is the one named. -/
theorem inUseCheck_lowest (s : State) (v : VolumeNo) (n : Nat) (r : VolumeRecord)
    (hr : s.volumes[v] = .present r) (g : PageNo) (y : Claim) (hg : n ≤ g.val)
    (hy : r.entries[g].claim = some y)
    (h : ∀ h : PageNo, n ≤ h.val → h < g → r.entries[h].claim = none) :
    inUseCheck s v n = some (refusalWith .inUse (.ofClaim y.port v g)) := by
  have key : ∀ l : List PageNo, l.Pairwise (· < ·) → g ∈ l →
      l.findSome? (fun g => if n ≤ g.val then (entryOf s v g).claim.map fun c => (g, c.port) else none) =
        some (g, y.port) := by
    intro l hl hm
    induction l with
    | nil => cases hm
    | cons a l ih =>
      rw [List.findSome?_cons]
      rcases List.mem_cons.1 hm with rfl | hm
      · simp only [hg, if_true, entryOf, hr, Volume.entry, hy, Option.map_some]
      · have hlt : a < g := (List.pairwise_cons.1 hl).1 g hm
        have : (if n ≤ a.val then (entryOf s v a).claim.map fun c => (a, c.port) else none) =
            none := by
          split
          · next hn =>
            unfold entryOf
            rw [hr]
            simp only [Volume.entry]
            rw [h a hn hlt]
            rfl
          · rfl
        rw [this]
        exact ih (List.pairwise_cons.1 hl).2 hm
  unfold inUseCheck lowestClaim
  rw [key _ (by unfold ascending; rw [List.pairwise_ofFn]; intro i j hij; exact hij) (mem_ascending g)]
  rfl

/-! ### The mask (R122, R144) -/

/-- A CONFIG_PORT leaves a member in the mask when it sets the bit, or another port keeps its own. -/
theorem wouldEmptyMask_false_iff (s : State) (st : Settings) (h : s.engine.settings = some st)
    (p : Port) (k : Bool) : wouldEmptyMask s p k = false ↔
      (k = true ∨ ∃ q : Port, q ≠ p ∧ st.mask[q] = true) := by
  simp only [wouldEmptyMask, h, maskEmpty, List.all_eq_false]
  constructor
  · rintro ⟨q, _, h⟩
    rw [upd_get] at h
    split at h
    · left
      simpa using h
    · next hne =>
      right
      exact ⟨q, Ne.symm hne, by simpa [-Fin.getElem_fin] using h⟩
  · rintro (rfl | ⟨q, hne, hq⟩)
    · exact ⟨p, mem_ascending _, by rw [upd_get]; simp⟩
    · exact ⟨q, mem_ascending _, by rw [upd_get, if_neg (Ne.symm hne)]; simp [-Fin.getElem_fin, hq]⟩

end Sys2Proof.Machine
end

