-- ==== Sys2Proof/Laws/Memory.lean ====
section
/-! SUPPORT. The two memories: a read after a write gives the value written, a write leaves every other address alone, and every memory operation keeps the canonical form. -/

namespace Sys2Proof.Machine

variable (fill : Byte)

/-! ### One byte -/

/-- A stored byte leaves every other address alone. -/
theorem read_store_other (m : Memory) (x y : Nat) (b : Byte) (h : y ≠ x) :
    Memory.read fill (Memory.store fill m x b) y = Memory.read fill m y := by
  induction m with
  | nil =>
    simp only [Memory.store]
    split <;> simp [Memory.read, Ne.symm h]
  | cons c rest ih =>
    obtain ⟨a, d⟩ := c
    simp only [Memory.store]
    split
    · split <;> simp [Memory.read, Ne.symm h]
    · split
      · next hxa => subst hxa; split <;> simp [Memory.read, Ne.symm h]
      · simp only [Memory.read, ih]

/-- What an address that no pair holds reads as. -/
theorem read_absent (m : Memory) (x : Nat) (h : ∀ c ∈ m, c.1 ≠ x) : Memory.read fill m x = fill := by
  induction m with
  | nil => rfl
  | cons c rest ih =>
    obtain ⟨a, d⟩ := c
    have ha : a ≠ x := h (a, d) (by simp)
    simp only [Memory.read, ha, if_false]
    exact ih fun c hc => h c (by simp [hc])

/-- A stored byte is read back, in a memory whose addresses rise. -/
theorem read_store_same (m : Memory) (x : Nat) (b : Byte)
    (hm : m.Pairwise fun c d => c.1 < d.1) :
    Memory.read fill (Memory.store fill m x b) x = b := by
  induction m with
  | nil =>
    simp only [Memory.store]
    split <;> simp_all [Memory.read]
  | cons c rest ih =>
    obtain ⟨a, d⟩ := c
    obtain ⟨hlt, hrest⟩ := List.pairwise_cons.1 hm
    have habs : x ≤ a → Memory.read fill rest x = fill := fun hxa =>
      read_absent fill rest x fun c hc => by have := hlt c hc; simp only at this; omega
    simp only [Memory.store]
    split
    · next hxa =>
      split
      · next hb =>
        have ha : a ≠ x := by omega
        simp only [Memory.read, ha, if_false, habs (by omega), hb]
      · simp [Memory.read]
    · split
      · next hxa =>
        split
        · next hb => rw [habs (by omega), hb]
        · simp [Memory.read]
      · next hxa => simp only [Memory.read, (Ne.symm hxa : a ≠ x), if_false, ih hrest]

/-- Every pair of a memory after a store is the stored one or was there. -/
theorem mem_store (m : Memory) (x : Nat) (b : Byte) (c : Host.Cell)
    (h : c ∈ Memory.store fill m x b) : (c = (x, b) ∧ b ≠ fill) ∨ c ∈ m := by
  induction m with
  | nil =>
    simp only [Memory.store] at h
    split at h <;> simp_all
  | cons d rest ih =>
    obtain ⟨a, e⟩ := d
    simp only [Memory.store] at h
    split at h
    · split at h
      · exact Or.inr h
      · rcases List.mem_cons.1 h with h | h
        · exact Or.inl ⟨h, by assumption⟩
        · exact Or.inr h
    · split at h
      · split at h
        · exact Or.inr (List.mem_cons_of_mem _ h)
        · rcases List.mem_cons.1 h with h | h
          · exact Or.inl ⟨h, by assumption⟩
          · exact Or.inr (List.mem_cons_of_mem _ h)
      · rcases List.mem_cons.1 h with h | h
        · exact Or.inr (h ▸ List.mem_cons_self)
        · rcases ih h with h | h
          · exact Or.inl h
          · exact Or.inr (List.mem_cons_of_mem _ h)

/-- A store inside the array keeps the canonical form. -/
theorem store_wf (m : Memory) (x : Nat) (b : Byte) (hm : Memory.wf fill m)
    (hx : x < Config.arrayBytes) : Memory.wf fill (Memory.store fill m x b) := by
  refine ⟨?_, ?_⟩
  · obtain ⟨hp, -⟩ := hm
    induction m with
    | nil =>
      simp only [Memory.store]
      split <;> simp
    | cons d rest ih =>
      obtain ⟨a, e⟩ := d
      obtain ⟨hlt, hrest⟩ := List.pairwise_cons.1 hp
      simp only [Memory.store]
      split
      · next hxa =>
        split
        · exact hp
        · refine List.pairwise_cons.2 ⟨?_, hp⟩
          intro c hc
          rcases List.mem_cons.1 hc with rfl | hc
          · exact hxa
          · exact Nat.lt_trans hxa (hlt c hc)
      · split
        · next hxa =>
          split
          · exact hrest
          · exact List.pairwise_cons.2 ⟨fun c hc => hxa ▸ hlt c hc, hrest⟩
        · next h1 h2 =>
          refine List.pairwise_cons.2 ⟨?_, ih hrest⟩
          intro c hc
          rcases mem_store fill rest x b c hc with ⟨rfl, -⟩ | hc
          · exact Nat.lt_of_le_of_ne (Nat.le_of_not_lt h1) (Ne.symm h2)
          · exact hlt c hc
  · intro c hc
    rcases mem_store fill m x b c hc with ⟨rfl, hb⟩ | hc
    · exact ⟨hb, hx⟩
    · exact hm.2 c hc

/-! ### A run of bytes -/

/-- The pairs of a run lie in its range and hold no fill. -/
theorem mem_run (base : Nat) (bytes : List Byte) (c : Host.Cell)
    (h : c ∈ Memory.run fill base bytes) :
    base ≤ c.1 ∧ c.1 < base + bytes.length ∧ c.2 ≠ fill := by
  induction bytes generalizing base with
  | nil => cases h
  | cons b rest ih =>
    simp only [Memory.run] at h
    split at h
    · obtain ⟨h1, h2, h3⟩ := ih (base + 1) h
      simp only [List.length_cons]
      exact ⟨by omega, by omega, h3⟩
    · rcases List.mem_cons.1 h with rfl | h
      · simp only [List.length_cons]
        exact ⟨Nat.le_refl _, by omega, by assumption⟩
      · obtain ⟨h1, h2, h3⟩ := ih (base + 1) h
        simp only [List.length_cons]
        exact ⟨by omega, by omega, h3⟩

/-- The addresses of a run rise. -/
theorem run_pairwise (base : Nat) (bytes : List Byte) :
    (Memory.run fill base bytes).Pairwise fun c d => c.1 < d.1 := by
  induction bytes generalizing base with
  | nil => simp [Memory.run]
  | cons b rest ih =>
    simp only [Memory.run]
    split
    · exact ih _
    · refine List.pairwise_cons.2 ⟨?_, ih _⟩
      intro c hc
      have := mem_run fill _ _ c hc
      simp only
      omega

/-- A run reads as its bytes. -/
theorem read_run (base : Nat) (bytes : List Byte) (i : Nat) :
    Memory.read fill (Memory.run fill base bytes) (base + i) = bytes.getD i fill := by
  induction bytes generalizing base i with
  | nil => simp [Memory.run, Memory.read]
  | cons b rest ih =>
    simp only [Memory.run]
    cases i with
    | zero =>
      split
      · next hb =>
        rw [read_absent]
        · simp [hb]
        · intro c hc
          have := mem_run fill _ _ c hc
          omega
      · simp [Memory.read]
    | succ i =>
      have hi := ih (base + 1) i
      rw [show base + 1 + i = base + (i + 1) by omega] at hi
      split
      · simpa using hi
      · have hne : base ≠ base + (i + 1) := by omega
        simp only [Memory.read, hne, if_false, hi]
        simp

/-- Reading one memory in front of another. -/
theorem read_append_left (m n : Memory) (x : Nat) (h : ∀ c ∈ m, c.1 ≠ x) :
    Memory.read fill (m ++ n) x = Memory.read fill n x := by
  induction m with
  | nil => rfl
  | cons c rest ih =>
    obtain ⟨a, d⟩ := c
    have ha : a ≠ x := h (a, d) (by simp)
    simp only [List.cons_append, Memory.read, ha, if_false]
    exact ih fun c hc => h c (by simp [hc])

theorem read_append_right (m n : Memory) (x : Nat) (h : ∀ c ∈ n, c.1 ≠ x) :
    Memory.read fill (m ++ n) x = Memory.read fill m x := by
  induction m with
  | nil => simpa [Memory.read] using read_absent fill n x h
  | cons c rest ih =>
    obtain ⟨a, d⟩ := c
    simp only [List.cons_append, Memory.read, ih]

/-- Reading at an address that a filter keeps. -/
theorem read_filter (m : Memory) (x : Nat) (q : Nat → Bool) (h : q x = true) :
    Memory.read fill (m.filter fun c => q c.1) x = Memory.read fill m x := by
  induction m with
  | nil => rfl
  | cons c rest ih =>
    obtain ⟨a, d⟩ := c
    by_cases ha : a = x
    · subst ha; simp [h, Memory.read]
    · by_cases hq : q a = true
      · simp [hq, Memory.read, ha, ih]
      · simp [hq, Memory.read, ha, ih]

/-- A replaced run reads as its bytes inside, and every other address as before. -/
theorem read_storeRun (m : Memory) (base : Nat) (bytes : List Byte) (x : Nat) :
    Memory.read fill (Memory.storeRun fill m base bytes) x =
      if base ≤ x ∧ x < base + bytes.length then bytes.getD (x - base) fill
      else Memory.read fill m x := by
  unfold Memory.storeRun
  split
  · next h =>
    rw [read_append_right, read_append_left]
    · have := read_run fill base bytes (x - base)
      rwa [show base + (x - base) = x by omega] at this
    · intro c hc
      have := (List.mem_filter.1 hc).2
      simp only [decide_eq_true_eq] at this
      omega
    · intro c hc
      have := (List.mem_filter.1 hc).2
      simp only [decide_eq_true_eq] at this
      omega
  · next h =>
    have hrun : ∀ c ∈ Memory.run fill base bytes, c.1 ≠ x := by
      intro c hc
      have := mem_run fill base bytes c hc
      omega
    by_cases hlt : x < base
    · rw [read_append_right, read_append_right _ _ _ _ hrun]
      · exact read_filter fill m x (fun a => decide (a < base)) (by simpa using hlt)
      · intro c hc
        have := (List.mem_filter.1 hc).2
        simp only [decide_eq_true_eq] at this
        omega
    · rw [List.append_assoc, read_append_left, read_append_left _ _ _ _ hrun]
      · exact read_filter fill m x (fun a => decide (base + bytes.length ≤ a))
          (by simp; omega)
      · intro c hc
        have := (List.mem_filter.1 hc).2
        simp only [decide_eq_true_eq] at this
        omega

/-- A replaced run inside the array keeps the canonical form. -/
theorem storeRun_wf (m : Memory) (base : Nat) (bytes : List Byte) (hm : Memory.wf fill m)
    (hb : base + bytes.length ≤ Config.arrayBytes) :
    Memory.wf fill (Memory.storeRun fill m base bytes) := by
  obtain ⟨hp, hc⟩ := hm
  unfold Memory.storeRun
  refine ⟨List.pairwise_append.2 ⟨List.pairwise_append.2 ⟨hp.filter _, run_pairwise fill _ _, ?_⟩,
    hp.filter _, ?_⟩, ?_⟩
  · intro c h d hd
    have h1 := (List.mem_filter.1 h).2
    have h2 := mem_run fill _ _ d hd
    simp only [decide_eq_true_eq] at h1
    omega
  · intro c h d hd
    have h1 := (List.mem_filter.1 hd).2
    simp only [decide_eq_true_eq] at h1
    rcases List.mem_append.1 h with h | h
    · have h2 := (List.mem_filter.1 h).2
      simp only [decide_eq_true_eq] at h2
      omega
    · have h2 := mem_run fill _ _ c h
      omega
  · intro c h
    rcases List.mem_append.1 h with h | h
    · rcases List.mem_append.1 h with h | h
      · exact hc c (List.mem_of_mem_filter h)
      · have h2 := mem_run fill _ _ c h
        exact ⟨h2.2.2, by omega⟩
    · exact hc c (List.mem_of_mem_filter h)

/-! ### Frames -/

@[simp] theorem length_readRun (m : Memory) (base n : Nat) :
    (Memory.readRun fill m base n).length = n := by
  simp [Memory.readRun]

@[simp] theorem length_frameBytes (m : Memory) (f : FrameNo) : (frameBytes fill m f).length = 256 := by
  simp [frameBytes, Config.frameBytes]

/-- Byte `i` of a frame (R1). -/
theorem frameBytes_getD (m : Memory) (f : FrameNo) (i : Nat) (hi : i < 256) (d : Byte) :
    (frameBytes fill m f).getD i d = Memory.read fill m (256 * f.val + i) := by
  simp [frameBytes, Memory.readRun, Config.frameBytes, frameBase, hi, List.getD_eq_getElem?_getD]

/-- A frame replaced by 256 bytes reads as those bytes, and every other address as before (R1). -/
theorem read_storeFrame (m : Memory) (f : FrameNo) (bytes : List Byte) (hl : bytes.length = 256)
    (x : Nat) : Memory.read fill (storeFrame fill m f bytes) x =
      if 256 * f.val ≤ x ∧ x < 256 * f.val + 256 then bytes.getD (x - 256 * f.val) fill
      else Memory.read fill m x := by
  have ht : bytes.take 256 = bytes := List.take_of_length_le (by omega)
  simp only [storeFrame, Config.frameBytes, frameBase, ht, read_storeRun, hl]

/-- A frame's address range lies in the array (R1). -/
theorem frame_in_array (f : FrameNo) (i : Fin 256) : frameBase f + i.val < Config.arrayBytes := by
  simp only [frameBase, Config.frameBytes, Config.arrayBytes]
  omega

/-- A replaced frame keeps the canonical form. -/
theorem storeFrame_wf (m : Memory) (f : FrameNo) (bytes : List Byte) (hm : Memory.wf fill m) :
    Memory.wf fill (storeFrame fill m f bytes) := by
  refine storeRun_wf fill m _ _ hm ?_
  have : (bytes.take Config.frameBytes).length ≤ 256 := by
    simp [Config.frameBytes]
  simp only [frameBase, Config.frameBytes, Config.arrayBytes] at *
  omega

/-- The frames of a memory in which a frame was replaced (R1). -/
theorem frameBytes_storeFrame (m : Memory) (f g : FrameNo) (bytes : List Byte)
    (hl : bytes.length = 256) :
    frameBytes fill (storeFrame fill m f bytes) g = if f = g then bytes else frameBytes fill m g := by
  apply List.ext_getElem?
  intro i
  by_cases hi : i < 256
  · have e : ∀ l : List Byte, l.length = 256 → l[i]? = some (l.getD i fill) := by
      intro l h
      rw [List.getD_eq_getElem?_getD, List.getElem?_eq_getElem (by omega)]
      rfl
    rw [e _ (length_frameBytes fill _ _), e _ (by split <;> simp [hl]),
      frameBytes_getD fill _ _ _ hi, read_storeFrame fill m f bytes hl]
    by_cases hfg : f = g
    · subst hfg
      rw [if_pos (by omega), if_pos rfl, Nat.add_sub_cancel_left]
    · rw [if_neg, if_neg hfg, frameBytes_getD fill _ _ _ hi]
      have : f.val ≠ g.val := fun h => hfg (Fin.ext h)
      omega
  · have e : ∀ l : List Byte, l.length = 256 → l[i]? = none := by
      intro l h
      exact List.getElem?_eq_none (by omega)
    rw [e _ (length_frameBytes fill _ _), e _ (by split <;> simp [hl])]

end Sys2Proof.Machine
end

