-- ==== Sys2Proof/Laws/Engine.lean ====
section
/-! SUPPORT. What the shared operations of the update engine do, said once: the start of a step, the outcome of a program, the failure of a request, the end of the power-fail sequence. -/

namespace Sys2Proof.Machine

/-! ### Frames of the two memories -/

theorem frameBase_eq (f : FrameNo) : frameBase f = 256 * f.val := rfl

/-- A frame written with at least 256 bytes holds the first 256 of them. -/
theorem arrayFrame_writeFrame (s : State) (f g : FrameNo) (bytes : List Byte)
    (h : 256 ≤ bytes.length) :
    arrayFrame (writeFrame s f bytes) g = if f = g then bytes.take 256 else arrayFrame s g := by
  have hl : (bytes.take 256).length = 256 := by simp [h]
  have e : storeFrame arrayFill s.array f bytes = storeFrame arrayFill s.array f (bytes.take 256) := by
    simp only [storeFrame, Config.frameBytes, List.take_take, Nat.min_self]
  show frameBytes arrayFill (storeFrame arrayFill s.array f bytes) g = _
  rw [e, frameBytes_storeFrame arrayFill s.array f g _ hl]
  rfl

/-- Writing a frame leaves every byte of the other frames (R1). -/
theorem arrayAt_writeFrame (s : State) (f : FrameNo) (bytes : List Byte) (x : Nat)
    (h : ¬ inFrame f x) : arrayAt (writeFrame s f bytes) x = arrayAt s x := by
  simp only [arrayAt, writeFrame, storeFrame, frameBase_eq, read_storeRun]
  rw [if_neg]
  intro hx
  have : (bytes.take Config.frameBytes).length ≤ 256 := by simp [Config.frameBytes]
  exact h ⟨hx.1, by omega⟩

theorem length_arrayFrame (s : State) (f : FrameNo) : (arrayFrame s f).length = 256 :=
  length_frameBytes _ _ _

/-- A program that passes (R2). -/
theorem programPasses_programmed (s : State) (f : FrameNo) : programmed s (programPasses s f) f := by
  constructor
  · rintro x ⟨h1, h2⟩
    simp only [cellAt, programPasses]
    rw [read_storeFrame cellFill s.cells f _ (length_arrayFrame s f), if_pos ⟨h1, h2⟩,
      List.getD_eq_getElem?_getD]
    have := frameBytes_getD arrayFill s.array f (x - 256 * f.val) (by omega) cellFill
    rw [List.getD_eq_getElem?_getD] at this
    rw [show arrayFrame s f = frameBytes arrayFill s.array f from rfl, this, arrayAt]
    congr 1
    omega
  · intro x h
    simp only [cellAt, programPasses]
    rw [read_storeFrame cellFill s.cells f _ (length_arrayFrame s f)]
    exact if_neg h

/-- The cells of the frame whose program passed, as recall will read them (R2). -/
@[simp] theorem cellFrame_programPasses (s : State) (f : FrameNo) :
    cellFrame (programPasses s f) f = arrayFrame s f := by
  simp only [cellFrame, programPasses]
  rw [frameBytes_storeFrame cellFill _ _ _ _ (length_arrayFrame s f), if_pos rfl]

/-- Replacing the cells of one frame leaves every other cell (R2). -/
theorem cells_outside (m : Memory) (f : FrameNo) (bytes : List Byte) (x : Nat) (h : ¬ inFrame f x) :
    Memory.read cellFill (storeFrame cellFill m f bytes) x = Memory.read cellFill m x := by
  simp only [storeFrame, frameBase_eq, read_storeRun]
  rw [if_neg]
  intro hx
  have : (bytes.take Config.frameBytes).length ≤ 256 := by simp [Config.frameBytes]
  exact h ⟨hx.1, by omega⟩

/-- A program that fails (R2). -/
theorem programFails_torn (s : State) (f : FrameNo) : torn s (programFails s f) f :=
  fun _ h => cells_outside _ _ _ _ h

/-! ### The start of a step -/

theorem length_flatMap_const {α β : Type} (l : List α) (f : α → List β) (k : Nat)
    (h : ∀ x, (f x).length = k) : (l.flatMap f).length = k * l.length := by
  induction l with
  | nil => rfl
  | cons a l ih => simp [h, ih, Nat.mul_succ, Nat.add_comm]

theorem length_ascending (n : Nat) : (ascending n).length = n := List.length_ofFn

theorem length_mapImage_bytes (m : MapImage) : m.bytes.length = 256 := by
  have h1 : ((ascending 32).flatMap (packedPair m.entries)).length = 96 := by
    rw [length_flatMap_const _ _ 3 (fun _ => rfl), length_ascending]
  have h2 : ((ascending 64).flatMap fun g => halfBytes (entryCheck m.entries[g])).length = 128 := by
    rw [length_flatMap_const _ _ 2 (fun _ => rfl), length_ascending]
  simp only [MapImage.bytes, MapImage.body, List.length_append, h1, h2, List.length_replicate]
  rfl

theorem length_durable_bytes (d : Durable) : d.bytes.length = 8 := by
  cases d <;> rfl

theorem length_root_bytes (r : Root) : 256 ≤ r.bytes.length := by
  have h1 : (quotaBytes r.settings.quotas).length = 8 := by
    unfold quotaBytes
    rw [length_flatMap_const _ _ 2 (fun _ => rfl), length_ascending]
  have h2 : ((ascending 16).flatMap fun v => r.volumes[v].bytes).length = 128 := by
    rw [length_flatMap_const _ _ 8 (fun _ => length_durable_bytes _), length_ascending]
  have h3 : 48 ≤ (retiredBytes r.retired).length := by
    simp only [retiredBytes, List.length_append, List.length_replicate]
    omega
  have h4 : ∀ w : Word, (bytes32 w).length = 4 := fun _ => rfl
  simp only [Root.bytes, Root.body, List.length_append, h1, h2, h4, List.length_replicate,
    List.length_singleton]
  omega

/-- Replacing the current step of a plan by itself changes nothing. -/
theorem setStep_self (plan : Plan) (step : PlanStep) (h : plan.step = some step) :
    plan.setStep step = plan := by
  obtain ⟨steps, n⟩ := plan
  simp only [Plan.step] at h
  simp only [Plan.setStep, Plan.mk.injEq, and_true]
  apply List.ext_getElem?
  intro i
  rw [List.getElem?_set]
  split
  · next hi =>
    subst hi
    have := (List.getElem?_eq_some_iff.1 h).1
    rw [if_pos this, h]
  · rfl

/-- The current step's program is handed to the store array (R82 to R85). -/
theorem startStep_begun (s : State) (req : Request) (plan : Plan) (step : PlanStep)
    (hp : s.engine.plan = some plan) (hr : s.engine.inFlight = some req)
    (hs : plan.step = some step) : stepBegun s (startStep s) req plan := by
  refine ⟨step, hs, ?_⟩
  unfold startStep
  simp only [hp, hr, hs]
  cases step with
  | page v g f n c =>
    refine ⟨?_, ?_, fun _ _ => rfl⟩
    · simp only [startPage, PlanStep.begun, PlanStep.target, PlanStep.engineState, ← hr]
    · simp only [PlanStep.target, stepContent]
      rw [List.take_of_length_le (by rw [length_arrayFrame])]
      rfl
  | map v slot gen used =>
    have hset := setStep_self plan _ hs
    simp only [startMap, PlanStep.begun, PlanStep.target, PlanStep.engineState, stepContent, hset]
    cases hv : s.volumes[v] with
    | present r =>
      simp only
      refine ⟨?_, ?_, ?_⟩
      · simp only [writeFrame, ← hr, ← hp]
      · have := arrayFrame_writeFrame s (mapFrame v slot) (mapFrame v slot)
          (mapImageFor plan req v r gen).bytes (by rw [length_mapImage_bytes])
        rw [if_pos rfl] at this
        exact this
      · exact fun x hx => arrayAt_writeFrame s _ _ x hx
    | absent =>
      refine ⟨by simp only [← hr, ← hp], ?_, fun _ _ => rfl⟩
      rw [List.take_of_length_le (by rw [length_arrayFrame])]
      rfl
    | creating _ _ _ =>
      refine ⟨by simp only [← hr, ← hp], ?_, fun _ _ => rfl⟩
      rw [List.take_of_length_le (by rw [length_arrayFrame])]
      rfl
  | root slot seq used =>
    have hset := setStep_self plan _ hs
    simp only [startRoot, PlanStep.begun, PlanStep.target, PlanStep.engineState, stepContent, hset]
    refine ⟨?_, ?_, ?_⟩
    · simp only [writeFrame, ← hr, ← hp]
    · have := arrayFrame_writeFrame s slot.frame slot.frame (rootFor s plan req.kind seq).bytes
        (length_root_bytes _)
      rw [if_pos rfl] at this
      exact this
    · exact fun x hx => arrayAt_writeFrame s _ _ x hx

/-! ### The end of the power-fail sequence (R158) -/

/-- While an update is in flight, or outside a power-fail sequence, there is nothing to settle. -/
theorem settleSequence_self (s : State) (h : inPowerFail s = false ∨ s.engine.inFlight ≠ none) :
    settleSequence s = s := by
  unfold settleSequence
  rw [if_neg]
  rintro ⟨h1, h2, -⟩
  rcases h with h | h
  · rw [h] at h1; cases h1
  · exact h h2

/-- All that settling can do: the device enters HALTED, or nothing changes. -/
theorem settleSequence_cases (s : State) :
    settleSequence s = s ∨
      (inPowerFail s = true ∧ s.engine.inFlight = none ∧ nextCandidate s = none ∧
        settleSequence s = { s with device := .halted }) := by
  unfold settleSequence
  split
  · next h => exact Or.inr ⟨h.1, h.2.1, h.2.2, rfl⟩
  · exact Or.inl rfl

/-- The outcome of a program whose update goes on (R82). -/
theorem afterOutcome_acts (s : State) (act : Request → Plan → PlanStep → State) (req : Request)
    (plan : Plan) (step : PlanStep) (hr : s.engine.inFlight = some req)
    (hp : s.engine.plan = some plan) (hs : plan.step = some step) (ha : s.engine.abandon = false) :
    afterOutcome s act = settleSequence (act req plan step) := by
  simp only [afterOutcome, hr, hp, hs, ha, Bool.false_eq_true, if_false]

/-- The outcome of a program whose update the power-fail sequence has marked (R153). -/
theorem afterOutcome_abandons (s : State) (act : Request → Plan → PlanStep → State) (req : Request)
    (plan : Plan) (step : PlanStep) (hr : s.engine.inFlight = some req)
    (hp : s.engine.plan = some plan) (hs : plan.step = some step) (ha : s.engine.abandon = true) :
    afterOutcome s act = settleSequence (abandonUpdate s) := by
  simp only [afterOutcome, hr, hp, hs, ha, if_true]

/-- The outcome of a program of no update any more (R109, R159). -/
theorem afterOutcome_idle (s : State) (act : Request → Plan → PlanStep → State)
    (h : s.engine.inFlight = none) : afterOutcome s act = s := by
  simp only [afterOutcome, h]

/-! ### Transactions and volumes of a failed request (R37, R98) -/

theorem reopen_true (x : Txn) : x.reopen true = x.reopened := by
  unfold Txn.reopen Txn.reopened Txn.startTimer
  simp only [if_true]
  split <;> simp_all

/-- What the return of a request's volume does to one volume (R19, R98, R151). -/
def returnedBy (v : VolumeNo) (x : Volume) : RequestKind → Volume
  | .delete w | .resize w _ | .freeze w | .lock w => if w = v then x.returned else x
  | .create w _ _ _ => if w = v then x.uncreated else x
  | .commit | .format | .setRights _ _ _ | .thaw _ | .pin _ | .unpin _ | .configPort _ _ _
  | .configDevice _ => x

theorem returnVolume_at (s : State) (k : RequestKind) (v : VolumeNo) :
    (returnVolume s k).volumes[v] = returnedBy v s.volumes[v] k := by
  cases k <;> simp only [returnVolume, returnedBy, State.setVolume_volumes, upd_get] <;>
    (split <;> simp_all)

/-- The return of a request's volume changes the volume table alone. -/
theorem returnVolume_eq (s : State) (k : RequestKind) :
    returnVolume s k = { s with volumes := (returnVolume s k).volumes } := by
  cases k <;> rfl

/-- The return of the volumes of several requests, at one volume. -/
theorem returnVolumes_at (l : List Request) (s : State) (v : VolumeNo) :
    (l.foldl (fun t r => returnVolume t r.kind) s).volumes[v] =
      l.foldl (fun x r => returnedBy v x r.kind) s.volumes[v] := by
  induction l generalizing s with
  | nil => rfl
  | cons a l ih =>
    simp only [List.foldl_cons]
    rw [ih, returnVolume_at]

theorem returnVolumes_eq (l : List Request) (s : State) :
    l.foldl (fun t r => returnVolume t r.kind) s =
      { s with volumes := (l.foldl (fun t r => returnVolume t r.kind) s).volumes } := by
  induction l generalizing s with
  | nil => rfl
  | cons a l ih =>
    simp only [List.foldl_cons]
    rw [ih, returnVolume_eq]

/-- A volume that no request names stays. -/
theorem returnedBy_unnamed (l : List Request) (v : VolumeNo) (x : Volume)
    (h : ∀ r ∈ l, r.kind.volume ≠ some v) : l.foldl (fun x r => returnedBy v x r.kind) x = x := by
  induction l generalizing x with
  | nil => rfl
  | cons a l ih =>
    simp only [List.foldl_cons]
    have : returnedBy v x a.kind = x := by
      have := h a (by simp)
      cases hk : a.kind <;> rw [hk] at this <;>
        simp only [RequestKind.volume, ne_eq, Option.some.injEq, reduceCtorEq,
          not_false_eq_true] at this <;>
        simp [returnedBy, this]
    rw [this]
    exact ih _ fun r hr => h r (by simp [hr])

/-- A present volume that is not CHANGING stays. -/
theorem returnedBy_settled (l : List Request) (v : VolumeNo) (x : VolumeRecord)
    (h : x.status.isChanging = false) :
    l.foldl (fun x r => returnedBy v x r.kind) (.present x) = .present x := by
  induction l with
  | nil => rfl
  | cons a l ih =>
    simp only [List.foldl_cons]
    have hx : Volume.returned (.present x) = .present x := by
      unfold Volume.returned
      cases hs : x.status <;> simp_all [Status.isChanging]
    have : returnedBy v (.present x) a.kind = .present x := by
      unfold returnedBy
      split <;> (try split) <;> first | rfl | exact hx
    rw [this]
    exact ih

/-- A CHANGING volume returns when one of the requests holds it (R19). -/
theorem returnedBy_returns (l : List Request) (v : VolumeNo) (x : VolumeRecord) (op : Operation)
    (ret : ReturnState) (hs : x.status = .changing op ret) (r : Request) (hr : r ∈ l)
    (hk : r.kind = .delete v ∨ r.kind = .freeze v ∨ r.kind = .lock v ∨ ∃ n, r.kind = .resize v n) :
    l.foldl (fun x r => returnedBy v x r.kind) (.present x) =
      .present { x with status := ret.status } := by
  have hret : Volume.returned (.present x) = .present { x with status := ret.status } := by
    unfold Volume.returned
    simp [hs]
  have hset : ({ x with status := ret.status } : VolumeRecord).status.isChanging = false := by
    cases ret <;> rfl
  induction l with
  | nil => cases hr
  | cons a l ih =>
    simp only [List.foldl_cons]
    have : returnedBy v (.present x) a.kind = .present { x with status := ret.status } ∨
        returnedBy v (.present x) a.kind = .present x := by
      unfold returnedBy
      split <;> (try split) <;> first | (left; exact hret) | (right; rfl)
    rcases List.mem_cons.1 hr with rfl | hm
    · have : returnedBy v (.present x) r.kind = .present { x with status := ret.status } := by
        rcases hk with h | h | h | ⟨n, h⟩ <;> rw [h] <;> simp [returnedBy, hret]
      rw [this]
      exact returnedBy_settled l v _ hset
    · rcases this with h | h
      · rw [h]
        exact returnedBy_settled l v _ hset
      · rw [h]
        exact ih hm

theorem returnedBy_absent (l : List Request) (v : VolumeNo) :
    l.foldl (fun x r => returnedBy v x r.kind) .absent = .absent := by
  induction l with
  | nil => rfl
  | cons a l ih =>
    simp only [List.foldl_cons]
    have : returnedBy v .absent a.kind = .absent := by
      unfold returnedBy
      split <;> (try split) <;> rfl
    rw [this]
    exact ih

/-- A CREATING volume becomes ABSENT when one of the requests holds it (R98). -/
theorem returnedBy_uncreates (l : List Request) (v : VolumeNo) (n : Nat) (rights : Vector Right 4)
    (k : Bool) (r : Request) (hr : r ∈ l) (hk : ∃ m q b, r.kind = .create v m q b) :
    l.foldl (fun x r => returnedBy v x r.kind) (.creating n rights k) = .absent := by
  induction l with
  | nil => cases hr
  | cons a l ih =>
    simp only [List.foldl_cons]
    have : returnedBy v (.creating n rights k) a.kind = .absent ∨
        returnedBy v (.creating n rights k) a.kind = .creating n rights k := by
      unfold returnedBy
      split <;> (try split) <;> first | (left; rfl) | (right; rfl)
    rcases List.mem_cons.1 hr with rfl | hm
    · obtain ⟨m, q, b, h⟩ := hk
      rw [show returnedBy v (.creating n rights k) r.kind = .absent by
        rw [h]; simp [returnedBy, Volume.uncreated]]
      exact returnedBy_absent l v
    · rcases this with h | h
      · rw [h]
        exact returnedBy_absent l v
      · rw [h]
        exact ih hm

/-- The failure of a COMMIT in flight outside a power-fail sequence (R37, R98, R99). -/
theorem failUpdate_commit (s : State) (req : Request) (code : Code) (step : Option FailedStep)
    (h : s.engine.inFlight = some req) (hk : req.kind = .commit) (hp : inPowerFail s = false) :
    failUpdate s code step = { s with
      engine := s.engine.ended
      ports := upd s.ports req.port { s.ports[req.port] with
        txn := s.ports[req.port].txn.reopened
        report := some ⟨.commit, code, none, none, none, step⟩
        pending := { s.ports[req.port].pending with update := true } } } := by
  simp only [failUpdate, h, failRequest, returnRecord, hk, hp, Bool.not_false, reopen_true]
  simp [writeReport, raise, State.modTxn, State.modPort, State.setPort, failReport,
    RequestKind.command, RequestKind.volume, State.modEngine, Engine.rest, Engine.ended, upd_get_self,
    -Fin.getElem_fin, Causes.add]

/-! ### Frame states -/

theorem frameState_congr (s t : State) (h : s.frameStates = t.frameStates) (f : FrameNo) :
    frameState s f = frameState t f := by
  unfold frameState
  rw [h]

theorem setFrameState_eq (s : State) (f : FrameNo) (x : FrameState) :
    s.setFrameState f x = { s with frameStates := (s.setFrameState f x).frameStates } := by
  unfold State.setFrameState
  split <;> rfl

theorem arrayFrame_congr (s t : State) (h : s.array = t.array) (f : FrameNo) :
    arrayFrame s f = arrayFrame t f := by
  unfold arrayFrame
  rw [h]

/-- The steps of a COMMIT's plan are as many as its program count says (R80). -/
theorem commit_programCount (s : State) (p : Port) :
    (buildPlan s p .commit).programCount = commitCost s p := by
  simp only [buildPlan, Plan.programCount, planSteps, List.length_append, commitCost,
    List.length_singleton]
  have e1 : (pageSteps s p).length = (shadowsOf s p).length := by
    simp only [pageSteps, shadowsOf]
    rw [List.length_filterMap_eq_countP, List.length_filterMap_eq_countP]
    congr 1
    funext x
    simp
  have e2 : (mapSteps s p).length = touchedVolumes s p := by
    simp only [mapSteps, touchedVolumes]
    rw [List.length_filterMap_eq_countP]
    apply List.countP_congr
    intro v _
    cases hv : s.volumes[v] with
    | present r =>
      have : touches s p v = (ascending 64).any fun g => (entryOf s v g).claimedBy p := rfl
      simp [-Fin.getElem_fin, this]
    | absent =>
      simp [-Fin.getElem_fin, hv, entryOf, Volume.entry, Entry.claimedBy, Entry.claimOf, Entry.hole]
    | creating =>
      simp [-Fin.getElem_fin, hv, entryOf, Volume.entry, Entry.claimedBy, Entry.claimOf, Entry.hole]
  rw [e1, e2]

/-! ### Budget (R154) -/

theorem spendOne_outside (s : State) (h : inPowerFail s = false) : spendOne s = some s := by
  unfold spendOne
  cases hd : s.device <;> simp_all [inPowerFail]

theorem spendOne_succ (s : State) (b : Nat) (taken skipped : Vector Bool 4)
    (h : s.device = .powerFail (b + 1) taken skipped) :
    spendOne s = some { s with device := .powerFail b taken skipped } := by
  simp [spendOne, h]

theorem spendOne_zero (s : State) (taken skipped : Vector Bool 4)
    (h : s.device = .powerFail 0 taken skipped) : spendOne s = none := by
  simp [spendOne, h]

end Sys2Proof.Machine
end

