-- ==== Sys2Proof/Laws/Frames.lean ====
section
/-! SUPPORT. The accounts of the pool frames: what the law of the pool frames says, over plain functions, and how each operation of the map unit and the engine keeps it. -/

namespace Sys2Proof.Machine

/-! ### Accounts over plain functions -/

/-- A page of a volume. -/
abbrev Page := VolumeNo × PageNo

/-- The law of the pool frames over the frame states `S`, the free list `F`, the retired table `R`, the committed
frame `C x` and the shadow frame `K x` of each page `x`. -/
structure Accounts (S : FrameNo → Option FrameState) (F R : List FrameNo) (C K : Page → Option FrameNo) :
    Prop where
  freeOnce : F.Nodup
  retiredOnce : R.Nodup
  free : ∀ f, S f = some .free ↔ f ∈ F
  retired : ∀ f, S f = some .retired ↔ f ∈ R
  committed : ∀ f, S f = some .committed ↔ ∃ x, C x = some f
  shadow : ∀ f, S f = some .shadow ↔ ∃ x, K x = some f
  committedOnce : ∀ x y f, C x = some f → C y = some f → x = y
  shadowOnce : ∀ x y f, K x = some f → K y = some f → x = y

variable {S S' : FrameNo → Option FrameState} {F R : List FrameNo} {C C' K K' : Page → Option FrameNo}

/-- The head of the free list becomes the shadow of a page that had none (R9, R46). -/
theorem Accounts.take {f : FrameNo} (h : Accounts S (f :: F) R C K) (a : Page) (ha : K a = none)
    (hS : ∀ g, S' g = if g = f then some .shadow else S g)
    (hK : ∀ x, K' x = if x = a then some f else K x) : Accounts S' F R C K' := by
  have hf : S f = some .free := (h.free f).2 (by simp)
  obtain ⟨hn, hF⟩ := List.nodup_cons.1 h.freeOnce
  have other : ∀ g, g ≠ f → S' g = S g := fun g hg => by rw [hS, if_neg hg]
  have self : S' f = some .shadow := by rw [hS, if_pos rfl]
  refine ⟨hF, h.retiredOnce, ?_, ?_, ?_, ?_, h.committedOnce, ?_⟩
  · intro g
    by_cases hg : g = f
    · subst hg; simp [self, hn]
    · rw [other g hg, h.free]; simp [hg]
  · intro g
    by_cases hg : g = f
    · subst hg
      have := (h.retired g).not.1 (by rw [hf]; simp)
      simp [self, this]
    · rw [other g hg, h.retired]
  · intro g
    by_cases hg : g = f
    · subst hg
      have := (h.committed g).not.1 (by rw [hf]; simp)
      simpa [self] using this
    · rw [other g hg, h.committed]
  · intro g
    by_cases hg : g = f
    · subst hg
      exact ⟨fun _ => ⟨a, by rw [hK, if_pos rfl]⟩, fun _ => self⟩
    · rw [other g hg, h.shadow]
      constructor
      · rintro ⟨x, hx⟩
        refine ⟨x, ?_⟩
        rw [hK, if_neg (by rintro rfl; rw [ha] at hx; cases hx), hx]
      · rintro ⟨x, hx⟩
        rw [hK] at hx
        split at hx
        · exact absurd (Option.some.inj hx).symm hg
        · exact ⟨x, hx⟩
  · have fresh : ∀ x, K x ≠ some f := fun x hx => by
      have := (h.shadow f).2 ⟨x, hx⟩
      rw [hf] at this
      cases this
    intro x y g hx hy
    rw [hK] at hx hy
    split at hx <;> split at hy
    · simp_all
    · cases hx; exact absurd hy (fresh y)
    · cases hy; exact absurd hx (fresh x)
    · exact h.shadowOnce x y g hx hy

/-- Frames that pages held join the tail of the free list, and those pages hold them no more (R10). -/
theorem Accounts.release (h : Accounts S F R C K) (L : List FrameNo) (hL : L.Nodup)
    (held : ∀ f ∈ L, (∃ x, C x = some f) ∨ ∃ x, K x = some f)
    (hS : ∀ g, S' g = if g ∈ L then some .free else S g)
    (hC : ∀ x g, C' x = some g ↔ C x = some g ∧ g ∉ L)
    (hK : ∀ x g, K' x = some g ↔ K x = some g ∧ g ∉ L) : Accounts S' (F ++ L) R C' K' := by
  have out : ∀ f ∈ L, S f = some .committed ∨ S f = some .shadow := fun f hf =>
    (held f hf).imp (h.committed f).2 (h.shadow f).2
  have self : ∀ g, g ∈ L → S' g = some .free := fun g hg => by rw [hS, if_pos hg]
  have other : ∀ g, g ∉ L → S' g = S g := fun g hg => by rw [hS, if_neg hg]
  refine ⟨?_, h.retiredOnce, ?_, ?_, ?_, ?_, ?_, ?_⟩
  · refine List.nodup_append.2 ⟨h.freeOnce, hL, ?_⟩
    rintro f hf g hg rfl
    have := (h.free f).2 hf
    rcases out f hg with h' | h' <;> rw [this] at h' <;> cases h'
  · intro g
    by_cases hg : g ∈ L
    · simp [self g hg, hg]
    · rw [other g hg, h.free]; simp [hg]
  · intro g
    by_cases hg : g ∈ L
    · have := (h.retired g).not.1 (by rcases out g hg with h' | h' <;> rw [h'] <;> simp)
      simp [self g hg, this]
    · rw [other g hg, h.retired]
  · intro g
    by_cases hg : g ∈ L
    · simp [self g hg, hC, hg]
    · rw [other g hg, h.committed]; simp [hC, hg]
  · intro g
    by_cases hg : g ∈ L
    · simp [self g hg, hK, hg]
    · rw [other g hg, h.shadow]; simp [hK, hg]
  · exact fun x y g hx hy => h.committedOnce x y g ((hC x g).1 hx).1 ((hC y g).1 hy).1
  · exact fun x y g hx hy => h.shadowOnce x y g ((hK x g).1 hx).1 ((hK y g).1 hy).1

/-- A shadow is retired, and the head of the free list takes its place (R87). -/
theorem Accounts.relocate {f n : FrameNo} (h : Accounts S (n :: F) R C K) (a : Page) (ha : K a = some f)
    (hS : ∀ g, S' g = if g = n then some .shadow else if g = f then some .retired else S g)
    (hK : ∀ x, K' x = if x = a then some n else K x) : Accounts S' F (R ++ [f]) C K' := by
  have hn : S n = some .free := (h.free n).2 (by simp)
  have hf : S f = some .shadow := (h.shadow f).2 ⟨a, ha⟩
  have hne : f ≠ n := by rintro rfl; rw [hf] at hn; cases hn
  obtain ⟨hnF, hF⟩ := List.nodup_cons.1 h.freeOnce
  have sn : S' n = some .shadow := by rw [hS, if_pos rfl]
  have sf : S' f = some .retired := by rw [hS, if_neg hne, if_pos rfl]
  have other : ∀ g, g ≠ n → g ≠ f → S' g = S g := fun g h1 h2 => by rw [hS, if_neg h1, if_neg h2]
  refine ⟨hF, ?_, ?_, ?_, ?_, ?_, h.committedOnce, ?_⟩
  · refine List.nodup_append.2 ⟨h.retiredOnce, by simp, ?_⟩
    rintro g hg k hk rfl
    rw [List.mem_singleton] at hk
    subst hk
    have := (h.retired g).2 hg
    rw [hf] at this
    cases this
  · intro g
    by_cases h1 : g = n
    · subst h1; simp [sn, hnF]
    · by_cases h2 : g = f
      · subst h2
        have := (h.free g).not.1 (by rw [hf]; simp)
        simp only [List.mem_cons, not_or] at this
        simp [sf, this.2]
      · rw [other g h1 h2, h.free]; simp [h1]
  · intro g
    by_cases h1 : g = n
    · subst h1
      have := (h.retired g).not.1 (by rw [hn]; simp)
      simp [sn, this, Ne.symm hne]
    · by_cases h2 : g = f
      · subst h2; simp [sf]
      · rw [other g h1 h2, h.retired]; simp [h2]
  · intro g
    by_cases h1 : g = n
    · subst h1
      have := (h.committed g).not.1 (by rw [hn]; simp)
      simpa [sn] using this
    · by_cases h2 : g = f
      · subst h2
        have := (h.committed g).not.1 (by rw [hf]; simp)
        simpa [sf] using this
      · rw [other g h1 h2, h.committed]
  · intro g
    by_cases h1 : g = n
    · subst h1
      exact ⟨fun _ => ⟨a, by rw [hK, if_pos rfl]⟩, fun _ => sn⟩
    · by_cases h2 : g = f
      · subst h2
        refine ⟨fun hh => (by rw [sf] at hh; cases hh), ?_⟩
        rintro ⟨x, hx⟩
        rw [hK] at hx
        split at hx
        · exact absurd (Option.some.inj hx).symm hne
        · next hxa => exact absurd (h.shadowOnce x a g hx ha) hxa
      · rw [other g h1 h2, h.shadow]
        constructor
        · rintro ⟨x, hx⟩
          refine ⟨x, ?_⟩
          rw [hK, if_neg (by rintro rfl; rw [ha] at hx; exact h2 (Option.some.inj hx).symm), hx]
        · rintro ⟨x, hx⟩
          rw [hK] at hx
          split at hx
          · exact absurd (Option.some.inj hx).symm h1
          · exact ⟨x, hx⟩
  · have fresh : ∀ x, K x ≠ some n := fun x hx => by
      have := (h.shadow n).2 ⟨x, hx⟩
      rw [hn] at this
      cases this
    intro x y g hx hy
    rw [hK] at hx hy
    split at hx <;> split at hy
    · simp_all
    · cases hx; exact absurd hy (fresh y)
    · cases hy; exact absurd hx (fresh x)
    · exact h.shadowOnce x y g hx hy

/-- The pages of `A` take their shadow, or nothing, as their committed frame, and the frames they replace join the
tail of the free list (R93). -/
theorem Accounts.commit (h : Accounts S F R C K) (A : Page → Bool) (L M : List FrameNo) (hM : M.Nodup)
    (memL : ∀ f, f ∈ L ↔ ∃ x, A x = true ∧ K x = some f)
    (memM : ∀ f, f ∈ M ↔ ∃ x, A x = true ∧ C x = some f)
    (hS : ∀ g, S' g = if g ∈ M then some .free else if g ∈ L then some .committed else S g)
    (hC : ∀ x, C' x = if A x = true then K x else C x)
    (hK : ∀ x, K' x = if A x = true then none else K x) : Accounts S' (F ++ M) R C' K' := by
  have sM : ∀ f ∈ M, S f = some .committed := fun f hf =>
    (h.committed f).2 (((memM f).1 hf).imp fun _ hx => hx.2)
  have sL : ∀ f ∈ L, S f = some .shadow := fun f hf =>
    (h.shadow f).2 (((memL f).1 hf).imp fun _ hx => hx.2)
  have apart : ∀ f ∈ L, f ∉ M := fun f hl hm => by
    have := sL f hl
    rw [sM f hm] at this
    cases this
  have inM : ∀ g, g ∈ M → S' g = some .free := fun g hg => by rw [hS, if_pos hg]
  have inL : ∀ g, g ∈ L → S' g = some .committed := fun g hg => by
    rw [hS, if_neg (apart g hg), if_pos hg]
  have other : ∀ g, g ∉ M → g ∉ L → S' g = S g := fun g h1 h2 => by rw [hS, if_neg h1, if_neg h2]
  have cross : ∀ x y f, C x = some f → K y = some f → False := fun x y f hx hy => by
    have := (h.committed f).2 ⟨x, hx⟩
    rw [(h.shadow f).2 ⟨y, hy⟩] at this
    cases this
  refine ⟨?_, h.retiredOnce, ?_, ?_, ?_, ?_, ?_, ?_⟩
  · refine List.nodup_append.2 ⟨h.freeOnce, hM, ?_⟩
    rintro f hf g hg rfl
    have := (h.free f).2 hf
    rw [sM f hg] at this
    cases this
  · intro g
    by_cases h1 : g ∈ M
    · simp [inM g h1, h1]
    · by_cases h2 : g ∈ L
      · have := (h.free g).not.1 (by rw [sL g h2]; simp)
        simp [inL g h2, h1, this]
      · rw [other g h1 h2, h.free]; simp [h1]
  · intro g
    by_cases h1 : g ∈ M
    · have := (h.retired g).not.1 (by rw [sM g h1]; simp)
      simp [inM g h1, this]
    · by_cases h2 : g ∈ L
      · have := (h.retired g).not.1 (by rw [sL g h2]; simp)
        simp [inL g h2, this]
      · rw [other g h1 h2, h.retired]
  · intro g
    by_cases h1 : g ∈ M
    · refine ⟨fun hh => (by rw [inM g h1] at hh; cases hh), ?_⟩
      obtain ⟨y, hy, hcy⟩ := (memM g).1 h1
      rintro ⟨x, hx⟩
      rw [hC] at hx
      split at hx
      · exact (cross y x g hcy hx).elim
      · next hA => exact absurd (h.committedOnce x y g hx hcy ▸ hy) hA
    · by_cases h2 : g ∈ L
      · obtain ⟨y, hy, hky⟩ := (memL g).1 h2
        exact ⟨fun _ => ⟨y, by rw [hC, if_pos hy, hky]⟩, fun _ => inL g h2⟩
      · rw [other g h1 h2, h.committed]
        constructor
        · rintro ⟨x, hx⟩
          exact ⟨x, by rw [hC, if_neg (fun hA => h1 ((memM g).2 ⟨x, hA, hx⟩)), hx]⟩
        · rintro ⟨x, hx⟩
          rw [hC] at hx
          split at hx
          · next hA => exact absurd ((memL g).2 ⟨x, hA, hx⟩) h2
          · exact ⟨x, hx⟩
  · intro g
    have back : (∃ x, K' x = some g) ↔ ∃ x, A x = false ∧ K x = some g := by
      constructor
      · rintro ⟨x, hx⟩
        rw [hK] at hx
        split at hx
        · cases hx
        · next hA => exact ⟨x, by simpa using hA, hx⟩
      · rintro ⟨x, hA, hx⟩
        exact ⟨x, by rw [hK, if_neg (by simp [hA]), hx]⟩
    rw [back]
    by_cases h1 : g ∈ M
    · refine ⟨fun hh => (by rw [inM g h1] at hh; cases hh), ?_⟩
      rintro ⟨x, -, hx⟩
      have := (h.shadow g).2 ⟨x, hx⟩
      rw [sM g h1] at this
      cases this
    · by_cases h2 : g ∈ L
      · refine ⟨fun hh => (by rw [inL g h2] at hh; cases hh), ?_⟩
        obtain ⟨y, hy, hky⟩ := (memL g).1 h2
        rintro ⟨x, hA, hx⟩
        rw [h.shadowOnce x y g hx hky, hy] at hA
        cases hA
      · rw [other g h1 h2, h.shadow]
        constructor
        · rintro ⟨x, hx⟩
          refine ⟨x, ?_, hx⟩
          by_contra hA
          exact h2 ((memL g).2 ⟨x, by simpa using hA, hx⟩)
        · rintro ⟨x, -, hx⟩
          exact ⟨x, hx⟩
  · intro x y g hx hy
    rw [hC] at hx hy
    split at hx <;> split at hy
    · exact h.shadowOnce x y g hx hy
    · exact (cross y x g hy hx).elim
    · exact (cross x y g hx hy).elim
    · exact h.committedOnce x y g hx hy
  · intro x y g hx hy
    rw [hK] at hx hy
    split at hx
    · cases hx
    · split at hy
      · cases hy
      · exact h.shadowOnce x y g hx hy

/-! ### The accounts of a state -/

/-- The shadow frame of the DATA claim on an entry, whoever holds it. -/
def Entry.shadow (e : Entry) : Option FrameNo :=
  match e.claim with
  | some ⟨_, .data f⟩ => some f
  | some ⟨_, .hole⟩ | none => none

/-- The committed frame of a page. -/
def committedAt (s : State) (x : Page) : Option FrameNo := (entryOf s x.1 x.2).frame

/-- The shadow frame of a page. -/
def shadowAt (s : State) (x : Page) : Option FrameNo := (entryOf s x.1 x.2).shadow

theorem frame_eq_some (e : Entry) (f : FrameNo) :
    e.frame = some f ↔ ∃ c, e.committed = some c ∧ c.frame = f := by
  unfold Entry.frame
  cases e.committed <;> simp

theorem shadow_eq_some (e : Entry) (f : FrameNo) :
    e.shadow = some f ↔ ∃ p, e.claim = some ⟨p, .data f⟩ := by
  unfold Entry.shadow
  rcases e.claim with _ | ⟨q, _ | f'⟩ <;> simp

/-- The law of the pool frames is the accounts of the state. -/
theorem poolLaw_iff (s : State) : PoolLaw s ↔
    Accounts (frameState s) s.freeList s.engine.retired (committedAt s) (shadowAt s) := by
  have hc : ∀ f, (∃ x, committedAt s x = some f) ↔
      ∃ v g c, (entryOf s v g).committed = some c ∧ c.frame = f := by
    intro f
    simp only [committedAt, frame_eq_some, Prod.exists]
  have hk : ∀ f, (∃ x, shadowAt s x = some f) ↔
      ∃ v g p, (entryOf s v g).claim = some ⟨p, .data f⟩ := by
    intro f
    simp only [shadowAt, shadow_eq_some, Prod.exists]
  constructor
  · rintro ⟨h1, h2, h3, h4, h5, h6, h7, h8⟩
    refine ⟨h1, h2, h3, h4, fun f => (h5 f).trans (hc f).symm, fun f => (h6 f).trans (hk f).symm, ?_, ?_⟩
    · rintro ⟨v, g⟩ ⟨w, k⟩ f hx hy
      obtain ⟨c, hc, hf⟩ := (frame_eq_some _ f).1 hx
      obtain ⟨d, hd, hg⟩ := (frame_eq_some _ f).1 hy
      obtain ⟨rfl, rfl⟩ := h7 v g w k c d hc hd (hf.trans hg.symm)
      rfl
    · rintro ⟨v, g⟩ ⟨w, k⟩ f hx hy
      obtain ⟨p, hp⟩ := (shadow_eq_some _ f).1 hx
      obtain ⟨q, hq⟩ := (shadow_eq_some _ f).1 hy
      obtain ⟨rfl, rfl⟩ := h8 v g w k p q f hp hq
      rfl
  · intro h
    refine ⟨h.freeOnce, h.retiredOnce, h.free, h.retired, fun f => (h.committed f).trans (hc f),
      fun f => (h.shadow f).trans (hk f), ?_, ?_⟩
    · intro v g w k c d hc hd hcd
      have := h.committedOnce (v, g) (w, k) c.frame ((frame_eq_some _ _).2 ⟨c, hc, rfl⟩)
        ((frame_eq_some _ _).2 ⟨d, hd, hcd.symm⟩)
      exact ⟨congrArg Prod.fst this, congrArg Prod.snd this⟩
    · intro v g w k p q f hp hq
      have := h.shadowOnce (v, g) (w, k) f ((shadow_eq_some _ f).2 ⟨p, hp⟩)
        ((shadow_eq_some _ f).2 ⟨q, hq⟩)
      exact ⟨congrArg Prod.fst this, congrArg Prod.snd this⟩

/-- The law of the pool frames reads the frame states, the free list, the retired table and the frames of the
entries. -/
theorem poolLaw_congr {s t : State} (h : PoolLaw s) (hs : t.frameStates = s.frameStates)
    (hf : t.freeList = s.freeList) (hr : t.engine.retired = s.engine.retired)
    (hC : ∀ x, committedAt t x = committedAt s x) (hK : ∀ x, shadowAt t x = shadowAt s x) : PoolLaw t := by
  rw [poolLaw_iff] at *
  rw [show frameState t = frameState s from funext (frameState_congr t s hs), hf, hr, funext hC, funext hK]
  exact h

/-- A frame with a state is a pool frame (R1, R5). -/
theorem isPool_of_frameState (s : State) (f : FrameNo) (x : FrameState) (h : frameState s f = some x) :
    isPool f = true := by
  unfold frameState poolIndex at h
  split at h
  · next hf => simpa [isPool] using hf
  · cases h

/-- Every page is visited once. -/
theorem allPages_nodup : allPages.Nodup := by
  unfold allPages
  refine List.nodup_flatMap.2 ⟨fun v _ => (ascending_nodup 64).map fun g k hh => (Prod.mk.inj hh).2, ?_⟩
  refine (ascending_nodup 16).imp fun {v w} hvw => ?_
  simp only [List.disjoint_left, List.mem_map, not_exists, not_and]
  rintro _ ⟨g, -, rfl⟩ k - hh
  exact hvw (Prod.mk.inj hh).1.symm

/-- The frames that pages hold under an injective account are listed once. -/
theorem nodup_pages (C : Page → Option FrameNo)
    (h : ∀ x y f, C x = some f → C y = some f → x = y) : (allPages.filterMap C).Nodup :=
  List.Nodup.filterMap (fun x y f hx hy => h x y f hx hy) allPages_nodup

/-! ### What each operation does to the accounts -/

/-- The entries after a release of all claims of a port (R53). -/
theorem entryOf_releaseClaims (s : State) (p : Port) (v : VolumeNo) (g : PageNo) :
    entryOf (releaseClaims s p) v g = (entryOf s v g).release p := by
  unfold entryOf releaseClaims
  simp only [tab_get]
  cases hv : s.volumes[v] with
  | present r => simp only [Volume.release, Volume.entry, tab_get]
  | absent => rfl
  | creating _ _ _ => rfl

theorem release_frame (e : Entry) (p : Port) : (e.release p).frame = e.frame := by
  unfold Entry.release
  split <;> rfl

theorem release_shadow (e : Entry) (p : Port) (f : FrameNo) :
    (e.release p).shadow = some f ↔ e.shadow = some f ∧ e.shadowOf p ≠ some f := by
  unfold Entry.release Entry.shadow Entry.claimedBy Entry.shadowOf Entry.claimOf
  rcases he : e.claim with _ | ⟨q, _ | k⟩
  · simp [he]
  · by_cases hq : q = p <;> simp [hq, he]
  · by_cases hq : q = p <;> simp [hq, he]

theorem shadow_of_shadowOf (e : Entry) (p : Port) (f : FrameNo) (h : e.shadowOf p = some f) :
    e.shadow = some f := by
  unfold Entry.shadowOf Entry.claimOf at h
  unfold Entry.shadow
  rcases he : e.claim with _ | ⟨q, _ | k⟩ <;> rw [he] at h
  · cases h
  · by_cases hq : q = p <;> simp [hq] at h
    exact congrArg some h
  · by_cases hq : q = p <;> simp [hq] at h

/-- The shadows of a port are listed once (R10). -/
theorem nodup_shadowsOf {s : State} (h : PoolLaw s) (p : Port) : (shadowsOf s p).Nodup :=
  nodup_pages _ fun x y f hx hy => ((poolLaw_iff s).1 h).shadowOnce x y f
    (shadow_of_shadowOf _ p f hx) (shadow_of_shadowOf _ p f hy)

/-- Frames that pages held become FREE at the tail of the free list, and those pages hold them no more (R10). -/
theorem poolLaw_freed {s t : State} (h : PoolLaw s) (L : List FrameNo) (hL : L.Nodup)
    (held : ∀ f ∈ L, (∃ x, committedAt s x = some f) ∨ ∃ x, shadowAt s x = some f)
    (hs : t.frameStates = (setFrames s L .free).frameStates) (hf : t.freeList = s.freeList ++ L)
    (hr : t.engine.retired = s.engine.retired)
    (hC : ∀ x g, committedAt t x = some g ↔ committedAt s x = some g ∧ g ∉ L)
    (hK : ∀ x g, shadowAt t x = some g ↔ shadowAt s x = some g ∧ g ∉ L) : PoolLaw t := by
  have ha := (poolLaw_iff s).1 h
  rw [poolLaw_iff, hf, hr]
  refine ha.release L hL held ?_ hC hK
  intro g
  rw [frameState_congr t _ hs, frameState_setFrames]
  by_cases hg : g ∈ L
  · have : isPool g = true := by
      rcases held g hg with hx | hx
      · exact isPool_of_frameState s g _ ((ha.committed g).2 hx)
      · exact isPool_of_frameState s g _ ((ha.shadow g).2 hx)
    simp [hg, this]
  · simp [hg]

/-- No frame is committed at one page and a shadow at another (R5). -/
theorem shadow_not_committed {s : State} (h : PoolLaw s) (x y : Page) (f : FrameNo)
    (hx : committedAt s x = some f) (hy : shadowAt s y = some f) : False := by
  have ha := (poolLaw_iff s).1 h
  have := (ha.committed f).2 ⟨x, hx⟩
  rw [(ha.shadow f).2 ⟨y, hy⟩] at this
  cases this

/-- A release of all claims keeps the law of the pool frames (R53). -/
theorem poolLaw_releaseClaims {s : State} (h : PoolLaw s) (p : Port) : PoolLaw (releaseClaims s p) := by
  have held : ∀ f ∈ shadowsOf s p, ∃ x, shadowAt s x = some f := fun f hf => by
    obtain ⟨v, g, hv⟩ := (mem_shadowsOf s p f).1 hf
    exact ⟨(v, g), shadow_of_shadowOf _ p f hv⟩
  refine poolLaw_freed h (shadowsOf s p) (nodup_shadowsOf h p) (fun f hf => Or.inr (held f hf)) rfl rfl
    (by rw [releaseClaims_engine]) ?_ ?_
  · intro x g
    unfold committedAt
    rw [entryOf_releaseClaims, release_frame]
    refine ⟨fun hx => ⟨hx, fun hg => ?_⟩, fun hx => hx.1⟩
    obtain ⟨y, hy⟩ := held g hg
    exact shadow_not_committed h x y g hx hy
  · intro x g
    unfold shadowAt
    rw [entryOf_releaseClaims, release_shadow]
    refine and_congr_right fun hx => not_congr ⟨fun hs => (mem_shadowsOf s p g).2 ⟨x.1, x.2, hs⟩, fun hg => ?_⟩
    obtain ⟨v, k, hv⟩ := (mem_shadowsOf s p g).1 hg
    have := ((poolLaw_iff s).1 h).shadowOnce x (v, k) g hx (shadow_of_shadowOf _ p g hv)
    rw [this]
    exact hv

/-- The entries after a DATA claim was made on a page (R46, R47). -/
theorem shadowPage_eq (s : State) (p : Port) (v : VolumeNo) (g : PageNo) (fill : List Byte) (f : FrameNo)
    (rest : List FrameNo) (hf : s.freeList = f :: rest) :
    shadowPage s p v g fill = (writeFrame (State.setFrameState { s with freeList := rest } f .shadow) f
      fill).setEntry v g { entryOf s v g with claim := some ⟨p, .data f⟩ } := by
  unfold shadowPage takeFree
  rw [hf]

/-- A replaced entry changes the volume table alone. -/
theorem setEntry_eq (s : State) (v : VolumeNo) (g : PageNo) (e : Entry) :
    s.setEntry v g e = { s with volumes := (s.setEntry v g e).volumes } := by
  unfold State.setEntry State.modVolume
  split <;> rfl

/-- A DATA claim made on a page without a shadow keeps the law of the pool frames (R9, R46, R47). -/
theorem poolLaw_shadowPage {s : State} (h : PoolLaw s) (p : Port) (v : VolumeNo) (g : PageNo)
    (fill : List Byte) (hv : Volume.isPresent s.volumes[v] = true) (hn : (entryOf s v g).shadow = none)
    (hf : s.freeList ≠ []) : PoolLaw (shadowPage s p v g fill) := by
  obtain ⟨f, rest, hfl⟩ := List.exists_cons_of_ne_nil hf
  have ha := (poolLaw_iff s).1 h
  rw [hfl] at ha
  have hpool := isPool_of_frameState s f _ ((ha.free f).2 (by simp))
  set u : State := writeFrame (State.setFrameState { s with freeList := rest } f .shadow) f fill with hu
  have hue : u = { s with
      freeList := rest, array := u.array
      frameStates := (State.setFrameState { s with freeList := rest } f .shadow).frameStates } := by
    rw [hu, writeFrame, setFrameState_eq]
  have huv : u.volumes = s.volumes := by rw [hue]
  have hent : ∀ w k, entryOf (shadowPage s p v g fill) w k =
      if v = w ∧ g = k then { entryOf s v g with claim := some ⟨p, .data f⟩ } else entryOf s w k := by
    intro w k
    rw [shadowPage_eq s p v g fill f rest hfl, entryOf_setEntry _ _ _ _ _ _ (by rw [← hu, huv]; exact hv)]
    unfold entryOf
    rw [← hu, huv]
  have heq : ∀ k, frameState (shadowPage s p v g fill) k = frameState u k := fun k => by
    rw [shadowPage_eq s p v g fill f rest hfl, ← hu, setEntry_eq]
    rfl
  rw [poolLaw_iff]
  have e1 : (shadowPage s p v g fill).freeList = rest := by
    rw [shadowPage_eq s p v g fill f rest hfl, ← hu, setEntry_eq, hue]
  have e2 : (shadowPage s p v g fill).engine = s.engine := by
    rw [shadowPage_eq s p v g fill f rest hfl, ← hu, setEntry_eq, hue]
  have e3 : committedAt (shadowPage s p v g fill) = committedAt s := by
    funext x
    unfold committedAt
    rw [hent]
    split
    · next hx => rw [← hx.1, ← hx.2]; rfl
    · rfl
  rw [e1, e2, e3]
  refine ha.take (v, g) hn ?_ ?_
  · intro k
    have hk : frameState u k =
        frameState (State.setFrameState { s with freeList := rest } f .shadow) k := rfl
    rw [heq, hk, frameState_setFrameState]
    by_cases hk : k = f
    · simp [hk, hpool]
    · rw [if_neg (fun hh => hk hh.1.symm), if_neg hk]
      rfl
  · rintro ⟨w, k⟩
    unfold shadowAt
    rw [hent]
    by_cases hx : v = w ∧ g = k
    · rw [if_pos hx, if_pos (by rw [hx.1, hx.2])]
      rfl
    · rw [if_neg hx, if_neg (fun hh => hx ⟨(Prod.mk.inj hh).1.symm, (Prod.mk.inj hh).2.symm⟩)]

/-- The entries after a HOLE claim was made on a page (R48). -/
theorem entryOf_holePage (s : State) (p : Port) (v w : VolumeNo) (g k : PageNo)
    (hv : Volume.isPresent s.volumes[v] = true) : entryOf (holePage s p v g) w k =
      if v = w ∧ g = k then { entryOf s v g with claim := some ⟨p, .hole⟩ } else entryOf s w k :=
  entryOf_setEntry s v w g k _ hv

/-- A HOLE claim made on a page without a shadow keeps the law of the pool frames (R48). -/
theorem poolLaw_holePage {s : State} (h : PoolLaw s) (p : Port) (v : VolumeNo) (g : PageNo)
    (hv : Volume.isPresent s.volumes[v] = true) (hn : (entryOf s v g).shadow = none) :
    PoolLaw (holePage s p v g) := by
  have he : holePage s p v g = { s with volumes := (holePage s p v g).volumes } := setEntry_eq s v g _
  refine poolLaw_congr h (by rw [he]) (by rw [he]) (by rw [he]) ?_ ?_
  · intro x
    unfold committedAt
    rw [entryOf_holePage s p v x.1 g x.2 hv]
    split
    · next hx => rw [← hx.1, ← hx.2]; rfl
    · rfl
  · intro x
    unfold shadowAt
    rw [entryOf_holePage s p v x.1 g x.2 hv]
    split
    · next hx => rw [← hx.1, ← hx.2, hn]; rfl
    · rfl

/-- A DATA claim that becomes a HOLE claim frees its shadow (R48). -/
theorem poolLaw_punchShadow {s : State} (h : PoolLaw s) (p : Port) (v : VolumeNo) (g : PageNo) (f : FrameNo)
    (hc : (entryOf s v g).claim = some ⟨p, .data f⟩) :
    PoolLaw (freeFrames (holePage s p v g) [f]) := by
  have hv := isPresent_of_claim s v g _ hc
  have hs : shadowAt s (v, g) = some f := (shadow_eq_some _ f).2 ⟨p, hc⟩
  have he : holePage s p v g = { s with volumes := (holePage s p v g).volumes } := setEntry_eq s v g _
  have hfs := setFrames_eq (holePage s p v g) [f] .free
  have hent : ∀ w k, entryOf (freeFrames (holePage s p v g) [f]) w k = entryOf (holePage s p v g) w k := by
    intro w k
    unfold entryOf freeFrames
    rw [hfs]
  refine poolLaw_freed h [f] (by simp) ?_ ?_ ?_ ?_ ?_ ?_
  · intro k hk
    rw [List.mem_singleton] at hk
    exact Or.inr ⟨(v, g), by rw [hk, hs]⟩
  · unfold freeFrames
    rw [he]
    simp only [setFrames, List.foldl_cons, List.foldl_nil, State.setFrameState]
    split <;> rfl
  · unfold freeFrames
    rw [he]
  · unfold freeFrames
    rw [hfs, he]
  · intro x k
    unfold committedAt
    rw [hent, entryOf_holePage s p v x.1 g x.2 hv]
    have : (if v = x.1 ∧ g = x.2 then { entryOf s v g with claim := some ⟨p, .hole⟩ }
        else entryOf s x.1 x.2 : Entry).frame = committedAt s x := by
      split
      · next hx => unfold committedAt; rw [← hx.1, ← hx.2]; rfl
      · rfl
    rw [this]
    refine ⟨fun hx => ⟨hx, fun hk => ?_⟩, fun hx => hx.1⟩
    rw [List.mem_singleton] at hk
    exact shadow_not_committed h x (v, g) f (hk ▸ hx) hs
  · intro x k
    unfold shadowAt
    rw [hent, entryOf_holePage s p v x.1 g x.2 hv]
    by_cases hx : v = x.1 ∧ g = x.2
    · rw [if_pos hx]
      obtain ⟨w, l⟩ := x
      obtain ⟨rfl, rfl⟩ := hx
      have : (entryOf s v g).shadow = some f := hs
      simp only [this, List.mem_singleton]
      exact ⟨fun hh => (by cases hh), fun hh => absurd (Option.some.inj hh.1).symm hh.2⟩
    · rw [if_neg hx, List.mem_singleton]
      refine ⟨fun hh => ⟨hh, ?_⟩, fun hh => hh.1⟩
      rintro rfl
      have := ((poolLaw_iff s).1 h).shadowOnce x (v, g) k hh hs
      exact hx ⟨by rw [this], by rw [this]⟩

/-! ### Relocation (R87, R88) -/

/-- All that the retirement of a frame does (R88). -/
theorem retire_eq (s : State) (f : FrameNo) : retire s f = { s with
    frameStates := (s.setFrameState f .retired).frameStates
    engine := { s.engine with
      retired := s.engine.retired ++ [f]
      mediaWorn := s.engine.mediaWorn || decide (s.engine.retired.length + 1 = 24) }
    ports := if s.engine.retired.length + 1 = 24 then
        tab fun p => { s.ports[p] with pending := { s.ports[p].pending with device := true } }
      else s.ports } := by
  unfold retire
  rw [setFrameState_eq]
  simp only [State.modEngine, List.length_append, List.length_singleton]
  by_cases h : s.engine.retired.length + 1 = 24
  · rw [if_pos (show _ = Config.retiredCapacity from h)]
    simp [raiseAll, State.modPorts, Causes.add, h]
  · rw [if_neg (show ¬ _ = Config.retiredCapacity from h)]
    simp [h]

/-- The volume table after an entry was replaced depends on the volume table alone. -/
theorem setEntry_volumes (s t : State) (v : VolumeNo) (g : PageNo) (e : Entry)
    (h : t.volumes = s.volumes) : (t.setEntry v g e).volumes = (s.setEntry v g e).volumes := by
  unfold State.setEntry State.modVolume
  rw [h]
  split
  · rw [State.setVolume_volumes, State.setVolume_volumes, h]
  · exact h

/-- A claim of a port that holds a shadow is renamed by replacing its entry (R87). -/
theorem renameShadow_eq (s : State) (p : Port) (v : VolumeNo) (g : PageNo) (f new : FrameNo)
    (hc : (entryOf s v g).claim = some ⟨p, .data f⟩) :
    renameShadow s p v g new =
      s.setEntry v g { entryOf s v g with claim := some ⟨p, .data new⟩ } := by
  unfold renameShadow
  rw [show (entryOf s v g).shadowOf p = some f by simp [Entry.shadowOf, Entry.claimOf, hc]]

/-- All that a relocation does (R87, R88). -/
theorem relocate_eq (s : State) (req : Request) (plan : Plan) (v : VolumeNo) (g : PageNo)
    (f new : FrameNo) (rest : List FrameNo) (n : Nat) (hf : s.freeList = new :: rest)
    (hc : (entryOf s v g).claim = some ⟨req.port, .data f⟩) :
    relocate s req plan v g f n = { s with
      ports := (retire s f).ports
      volumes := (s.setEntry v g { entryOf s v g with claim := some ⟨req.port, .data new⟩ }).volumes
      frameStates := ((s.setFrameState f .retired).setFrameState new .shadow).frameStates
      freeList := rest
      array := storeFrame arrayFill s.array new (arrayFrame s f)
      program := some new
      engine := { (retire s f).engine with
        state := .frames
        plan := some (plan.setStep (.page v g new (n + 1)
          (some (pageCheck (frameBytes arrayFill
            (storeFrame arrayFill s.array new (arrayFrame s f)) new))))) } } := by
  have hr := retire_eq s f
  set x := State.setFrameState { retire s f with freeList := rest } new .shadow with hx
  have htake : takeFree (retire s f) = some (new, x) := by
    unfold takeFree
    rw [hr]
    simp only [hf]
    rw [hx, hr]
  have hxe : x = { s with
      ports := (retire s f).ports, freeList := rest, engine := (retire s f).engine
      frameStates := ((s.setFrameState f .retired).setFrameState new .shadow).frameStates } := by
    rw [hx, setFrameState_eq]
    have : (State.setFrameState { retire s f with freeList := rest } new .shadow).frameStates =
        ((s.setFrameState f .retired).setFrameState new .shadow).frameStates := by
      have e : ∀ a b : State, a.frameStates = b.frameStates →
          (a.setFrameState new .shadow).frameStates = (b.setFrameState new .shadow).frameStates := by
        intro a b hab
        unfold State.setFrameState
        split <;> simp only [hab]
      exact e _ _ (by rw [hr])
    rw [this, hr]
  have hent : entryOf (writeFrame x new (arrayFrame s f)) v g = entryOf s v g := by
    unfold entryOf
    rw [show (writeFrame x new (arrayFrame s f)).volumes = s.volumes by rw [hxe]; rfl]
  unfold relocate
  rw [htake]
  simp only
  rw [renameShadow_eq _ _ v g f new (by rw [hent]; exact hc), hent, setEntry_eq,
    setEntry_volumes s _ v g _ (by rw [hxe]; rfl)]
  simp only [startPage, writeFrame, arrayFrame]
  rw [hxe]

/-- A relocation keeps the law of the pool frames (R87). -/
theorem poolLaw_relocate {s : State} (h : PoolLaw s) (req : Request) (plan : Plan) (v : VolumeNo)
    (g : PageNo) (f : FrameNo) (n : Nat) (hf : s.freeList ≠ [])
    (hc : (entryOf s v g).claim = some ⟨req.port, .data f⟩) :
    PoolLaw (relocate s req plan v g f n) := by
  obtain ⟨new, rest, hfl⟩ := List.exists_cons_of_ne_nil hf
  have ha := (poolLaw_iff s).1 h
  rw [hfl] at ha
  have hs : shadowAt s (v, g) = some f := (shadow_eq_some _ f).2 ⟨_, hc⟩
  have p1 := isPool_of_frameState s new _ ((ha.free new).2 (by simp))
  have p2 := isPool_of_frameState s f _ ((ha.shadow f).2 ⟨_, hs⟩)
  have heq := relocate_eq s req plan v g f new rest n hfl hc
  have hent : ∀ x : Page, entryOf (relocate s req plan v g f n) x.1 x.2 =
      if v = x.1 ∧ g = x.2 then { entryOf s v g with claim := some ⟨req.port, .data new⟩ }
      else entryOf s x.1 x.2 := by
    intro x
    rw [← entryOf_setEntry s v x.1 g x.2 _ (isPresent_of_claim s v g _ hc)]
    have hv := congrArg State.volumes heq
    unfold entryOf at hv ⊢
    rw [hv]
  rw [poolLaw_iff]
  have e1 : (relocate s req plan v g f n).freeList = rest := by rw [heq]
  have e2 : (relocate s req plan v g f n).engine.retired = s.engine.retired ++ [f] := by
    rw [heq]
    simp only
    rw [retire_eq]
  have e3 : committedAt (relocate s req plan v g f n) = committedAt s := by
    funext x
    unfold committedAt
    rw [hent]
    split
    · next hx => rw [← hx.1, ← hx.2]; rfl
    · rfl
  rw [e1, e2, e3]
  refine ha.relocate (v, g) hs ?_ ?_
  · intro k
    have : frameState (relocate s req plan v g f n) k =
        frameState ((s.setFrameState f .retired).setFrameState new .shadow) k :=
      frameState_congr _ _ (by rw [heq]) k
    rw [this, frameState_setFrameState, frameState_setFrameState]
    simp only [p1, p2, and_true, eq_comm]
  · intro x
    unfold shadowAt
    rw [hent]
    by_cases hx : v = x.1 ∧ g = x.2
    · rw [if_pos hx, if_pos (Prod.ext hx.1.symm hx.2.symm)]
      rfl
    · rw [if_neg hx, if_neg (fun hh => hx ⟨by rw [hh], by rw [hh]⟩)]

/-! ### Completions (R93 to R95) -/

/-- The entries after the completion of a commit (R93). -/
theorem entryOf_completeCommit (s : State) (p : Port) (plan : Plan) (v : VolumeNo) (g : PageNo) :
    entryOf (completeCommit s p plan) v g = (entryOf s v g).commit p (plan.checkOf v g) := by
  have hm : ∀ (r : VolumeRecord) (m : Option (MapSlot × Word)), (r.withMap m).entries = r.entries := by
    intro r m
    cases m <;> rfl
  unfold entryOf completeCommit
  simp only [State.modTxn, State.modPort, State.setPort, tab_get]
  cases hv : s.volumes[v] with
  | present r =>
    simp only [Volume.commit, Volume.entry, hm, VolumeRecord.withEntries, tab_get]
  | absent => simp [Volume.commit, Volume.entry, Entry.hole, Entry.commit, Entry.claimOf]
  | creating _ _ _ => simp [Volume.commit, Volume.entry, Entry.hole, Entry.commit, Entry.claimOf]

/-- The completion of a commit keeps the law of the pool frames (R93). -/
theorem poolLaw_completeCommit {s : State} (h : PoolLaw s) (p : Port) (plan : Plan) :
    PoolLaw (completeCommit s p plan) := by
  have ha := (poolLaw_iff s).1 h
  have hs : (completeCommit s p plan).frameStates =
      (setFrames (setFrames s (shadowsOf s p) .committed) (replacedFrames s p) .free).frameStates := by
    simp only [completeCommit, freeFrames, State.modTxn, State.modPort, State.setPort]
  have hl : (completeCommit s p plan).freeList = s.freeList ++ replacedFrames s p := by
    simp only [completeCommit, freeFrames, State.modTxn, State.modPort, State.setPort]
    rw [setFrames_eq s]
  have hr : (completeCommit s p plan).engine = s.engine := by
    simp only [completeCommit, freeFrames, State.modTxn, State.modPort, State.setPort]
    rw [setFrames_eq, setFrames_eq s]
  have claimed : ∀ e : Entry, e.claimedBy p = true → e.shadow = e.shadowOf p := by
    intro e
    unfold Entry.claimedBy Entry.shadow Entry.shadowOf Entry.claimOf
    rcases e.claim with _ | ⟨q, _ | k⟩
    · intro hh; cases hh
    all_goals by_cases hq : q = p <;> simp [hq]
  have own : ∀ (e : Entry) f, e.shadowOf p = some f → e.claimedBy p = true := by
    intro e f
    unfold Entry.claimedBy Entry.shadowOf
    cases e.claimOf p <;> simp
  have memL : ∀ f, f ∈ shadowsOf s p ↔
      ∃ x : Page, (entryOf s x.1 x.2).claimedBy p = true ∧ shadowAt s x = some f := by
    intro f
    rw [mem_shadowsOf]
    constructor
    · rintro ⟨v, g, hv⟩
      exact ⟨(v, g), own _ f hv, shadow_of_shadowOf _ p f hv⟩
    · rintro ⟨x, hx, hf⟩
      exact ⟨x.1, x.2, by rw [← claimed _ hx]; exact hf⟩
  have repl : ∀ (x : Page) f, (entryOf s x.1 x.2).replaced p = some f ↔
      (entryOf s x.1 x.2).claimedBy p = true ∧ committedAt s x = some f := by
    intro x f
    unfold Entry.replaced committedAt
    split <;> simp_all
  have memM : ∀ f, f ∈ replacedFrames s p ↔
      ∃ x : Page, (entryOf s x.1 x.2).claimedBy p = true ∧ committedAt s x = some f := by
    intro f
    unfold replacedFrames
    rw [List.mem_filterMap]
    exact ⟨fun ⟨x, _, hx⟩ => ⟨x, (repl x f).1 hx⟩, fun ⟨x, hx⟩ => ⟨x, mem_allPages x, (repl x f).2 hx⟩⟩
  rw [poolLaw_iff, hl, hr]
  refine ha.commit (fun x => (entryOf s x.1 x.2).claimedBy p) (shadowsOf s p) (replacedFrames s p) ?_ memL
    memM ?_ ?_ ?_
  · exact nodup_pages _ fun x y f hx hy => ha.committedOnce x y f ((repl x f).1 hx).2 ((repl y f).1 hy).2
  · intro g
    rw [frameState_congr _ _ hs, frameState_setFrames, frameState_setFrames]
    have hM : g ∈ replacedFrames s p → isPool g = true := fun hg => by
      obtain ⟨x, -, hx⟩ := (memM g).1 hg
      exact isPool_of_frameState s g _ ((ha.committed g).2 ⟨x, hx⟩)
    have hL : g ∈ shadowsOf s p → isPool g = true := fun hg => by
      obtain ⟨x, -, hx⟩ := (memL g).1 hg
      exact isPool_of_frameState s g _ ((ha.shadow g).2 ⟨x, hx⟩)
    by_cases h1 : g ∈ replacedFrames s p
    · rw [if_pos ⟨h1, hM h1⟩, if_pos h1]
    · rw [if_neg (fun hh => h1 hh.1), if_neg h1]
      by_cases h2 : g ∈ shadowsOf s p
      · rw [if_pos ⟨h2, hL h2⟩, if_pos h2]
      · rw [if_neg (fun hh => h2 hh.1), if_neg h2]
  · intro x
    unfold committedAt shadowAt
    rw [entryOf_completeCommit]
    unfold Entry.commit Entry.claimedBy Entry.shadow Entry.claimOf
    rcases he : (entryOf s x.1 x.2).claim with _ | ⟨q, k | _⟩
    · simp
    all_goals by_cases hq : q = p <;> simp [hq, Entry.frame]
  · intro x
    unfold shadowAt
    rw [entryOf_completeCommit]
    unfold Entry.commit Entry.claimedBy Entry.shadow Entry.claimOf
    rcases he : (entryOf s x.1 x.2).claim with _ | ⟨q, k | _⟩
    · simp [he]
    all_goals by_cases hq : q = p <;> simp [hq, he]

/-- The frames that a DELETE or a RESIZE frees (R10). -/
theorem mem_framesFrom (s : State) (v : VolumeNo) (n : Nat) (f : FrameNo) :
    f ∈ framesFrom s v n ↔ ∃ g : PageNo, n ≤ g.val ∧ committedAt s (v, g) = some f := by
  unfold framesFrom
  rw [List.mem_filterMap]
  constructor
  · rintro ⟨g, -, hg⟩
    split at hg
    · next hn => exact ⟨g, hn, hg⟩
    · cases hg
  · rintro ⟨g, hn, hg⟩
    exact ⟨g, mem_ascending g, by rw [if_pos hn]; exact hg⟩

theorem nodup_framesFrom {s : State} (h : PoolLaw s) (v : VolumeNo) (n : Nat) :
    (framesFrom s v n).Nodup := by
  have ha := (poolLaw_iff s).1 h
  refine List.Nodup.filterMap (fun g k f hg hk => ?_) (ascending_nodup 64)
  simp only [Option.mem_def] at hg hk
  split at hg
  · split at hk
    · exact congrArg Prod.snd (ha.committedOnce (v, g) (v, k) f hg hk)
    · cases hk
  · cases hg

/-- A volume whose pages from `n` on give up their committed frames keeps the law of the pool frames: a DELETE
of a volume without claims (with `n` 0) or a RESIZE (R94, R95). -/
theorem poolLaw_cut {s t : State} (h : PoolLaw s) (v : VolumeNo) (n : Nat)
    (hs : t.frameStates = (setFrames s (framesFrom s v n) .free).frameStates)
    (hf : t.freeList = s.freeList ++ framesFrom s v n) (hr : t.engine.retired = s.engine.retired)
    (hC : ∀ x : Page, committedAt t x = if x.1 = v ∧ n ≤ x.2.val then none else committedAt s x)
    (hK : ∀ x : Page, shadowAt t x = shadowAt s x) : PoolLaw t := by
  have ha := (poolLaw_iff s).1 h
  refine poolLaw_freed h (framesFrom s v n) (nodup_framesFrom h v n) ?_ hs hf hr ?_ ?_
  · intro f hm
    obtain ⟨g, -, hg⟩ := (mem_framesFrom s v n f).1 hm
    exact Or.inl ⟨(v, g), hg⟩
  · intro x f
    rw [hC, mem_framesFrom]
    by_cases hx : x.1 = v ∧ n ≤ x.2.val
    · rw [if_pos hx]
      refine ⟨fun hh => (by cases hh), fun hh => absurd ⟨x.2, hx.2, ?_⟩ hh.2⟩
      rw [← hx.1]
      exact hh.1
    · rw [if_neg hx]
      refine ⟨fun hh => ⟨hh, ?_⟩, fun hh => hh.1⟩
      rintro ⟨g, hn, hg⟩
      have := ha.committedOnce x (v, g) f hh hg
      exact hx (by rw [this]; exact ⟨rfl, hn⟩)
  · intro x f
    rw [hK, mem_framesFrom]
    refine ⟨fun hh => ⟨hh, ?_⟩, fun hh => hh.1⟩
    rintro ⟨g, -, hg⟩
    exact shadow_not_committed h (v, g) x f hg hh

end Sys2Proof.Machine
end

