-- ==== Sys2Proof/Laws/Link.lean ====
section
/-! SUPPORT. What the clock edges of a port do, said once: the level of the data-out line, what a falling edge and a rising edge change, and the byte that eight samples make. -/

namespace Sys2Proof.Machine

/-! ### Bits of a byte -/

/-- Eight bits taken one after the other leave nothing of what stood before, and the first stands in bit 7
(R162). -/
theorem foldl_shiftIn_msbFirst (old b : Byte) : (msbFirst b).foldl shiftIn old = b := by
  apply BitVec.eq_of_getLsbD_eq
  intro i hi
  have h : i = 0 ∨ i = 1 ∨ i = 2 ∨ i = 3 ∨ i = 4 ∨ i = 5 ∨ i = 6 ∨ i = 7 := by omega
  rcases h with rfl | rfl | rfl | rfl | rfl | rfl | rfl | rfl <;>
    simp [msbFirst, shiftIn]

/-! ### The fields of a rising edge -/

section Rise
variable (f : FrameRecord) (bit : Bool)

@[simp] theorem FrameRecord.rise_phase : (f.rise bit).phase = f.phase := rfl
@[simp] theorem FrameRecord.rise_command : (f.rise bit).command = f.command := rfl
@[simp] theorem FrameRecord.rise_arguments : (f.rise bit).arguments = f.arguments := rfl
@[simp] theorem FrameRecord.rise_result : (f.rise bit).result = f.result := rfl
@[simp] theorem FrameRecord.rise_output : (f.rise bit).output = f.output := rfl
@[simp] theorem FrameRecord.rise_response : (f.rise bit).response = f.response := rfl
@[simp] theorem FrameRecord.rise_clock : (f.rise bit).clock = true := rfl
@[simp] theorem FrameRecord.rise_shown : (f.rise bit).shown = some f.outputBit := rfl
@[simp] theorem FrameRecord.rise_sampled : (f.rise bit).sampled = shiftIn f.sampled bit := rfl
@[simp] theorem FrameRecord.rise_bitCount : (f.rise bit).bitCount = f.bitCount + 1 := rfl

end Rise

/-! ### The data-out line -/

/-- The line is released exactly where it carries no byte: while no frame is in progress (R162). -/
theorem lineLevel_released (s : State) (p : Port) : lineLevel s p = .released ↔ dataOut s p = none := by
  rw [dataOut_eq_none, lineLevel]
  refine ⟨fun h => ?_, fun h => if_pos h⟩
  by_contra hp
  simp only [if_neg hp] at h
  split at h
  · cases h
  · split at h <;> cases h

/-- While the clock is low within a frame the line shows the output bit of the position in progress (R162). -/
theorem lineLevel_low (s : State) (p : Port) (h : s.ports[p].frame.phase ≠ .noFrame)
    (hc : s.ports[p].frame.clock = false) : lineLevel s p = .driven s.ports[p].frame.outputBit :=
  (if_neg h).trans (if_pos hc)

/-- While the clock is high within a frame the line keeps the bit that the last rising edge found (R162). -/
theorem lineLevel_high (s : State) (p : Port) (bit : Bool) (h : s.ports[p].frame.phase ≠ .noFrame)
    (hc : s.ports[p].frame.clock = true) (hs : s.ports[p].frame.shown = some bit) :
    lineLevel s p = .driven bit := by
  simp only [lineLevel, if_neg h, hc, hs]
  rfl

/-! ### Clock edges -/

/-- A falling edge while select is high is not taken (R162). -/
theorem clockFall_released (s : State) (p : Port) (h : s.ports[p].frame.phase = .noFrame) :
    clockFall p s = s := if_pos (.inl h)

/-- A rising edge while select is high is not taken (R162). -/
theorem clockRise_released (s : State) (p : Port) (bit : Bool) (h : s.ports[p].frame.phase = .noFrame) :
    clockRise p bit s = .next s := if_pos (.inl h)

/-- Within a frame the clock is low after a falling edge, and nothing else changes (R162). -/
theorem clockFall_frame (s : State) (p : Port) (h : s.ports[p].frame.phase ≠ .noFrame) :
    clockFall p s = s.modFrame p fun f => { f with clock := false } := by
  unfold clockFall
  split
  · next hc =>
    have hc : s.ports[p].frame.clock = false := hc.resolve_left h
    have hf : { s.ports[p].frame with clock := false } = s.ports[p].frame := by rw [← hc]
    rw [State.modFrame, State.modPort, hf]
    exact (setPort_self s p).symm
  · rfl

/-- A rising edge that completes no byte changes the frame record only (R162). -/
theorem clockRise_within (s : State) (p : Port) (bit : Bool) (h : s.ports[p].frame.phase ≠ .noFrame)
    (hc : s.ports[p].frame.clock = false) (hn : s.ports[p].frame.bitCount ≠ 7) :
    clockRise p bit s = .next (s.modFrame p fun f => f.rise bit) := by
  have hg : ¬(s.ports[p].frame.phase = .noFrame ∨ s.ports[p].frame.clock = true) := by simp_all
  exact (if_neg hg).trans (if_neg hn)

/-- The rising edge of the eighth bit is the happening of the byte's row (R162). -/
theorem clockRise_completes (s : State) (p : Port) (bit : Bool) (h : s.ports[p].frame.phase ≠ .noFrame)
    (hc : s.ports[p].frame.clock = false) (hn : s.ports[p].frame.bitCount = 7) :
    clockRise p bit s =
      exec ((s.modFrame p fun f => f.rise bit).ports[p].byteRow p (shiftIn s.ports[p].frame.sampled bit))
        (s.modFrame p fun f => f.rise bit) := by
  have hg : ¬(s.ports[p].frame.phase = .noFrame ∨ s.ports[p].frame.clock = true) := by simp_all
  have hb : (s.modFrame p fun f => f.rise bit).ports[p].frame.sampled =
      shiftIn s.ports[p].frame.sampled bit := by simp
  rw [← hb]
  exact (if_neg hg).trans (if_pos hn)

end Sys2Proof.Machine
end

