-- ==== Sys2Proof/Laws/Sequence.lean ====
section
/-! SUPPORT. The words of the statements about the end of an update and of a sequence, met by the operations: the return of a volume, an abandonment, the device state once an update has ended, the steps of a COMMIT, the root slot whose program failed or was cut short, the order of the frames released, and what is left without the supply. -/

namespace Sys2Proof.Machine

/-! ### The return of a volume (R19, R98, R151, R155) -/

/-- The return of a request's volume is the one that R19 fixes. -/
theorem volumesReturned_returnVolume (s : State) (k : RequestKind) :
    volumesReturned s (returnVolume s k) k := by
  intro v
  rw [returnVolume_at]
  refine ⟨?_, ?_, ?_⟩
  · intro h1 h2
    cases k <;> simp_all [returnedBy, RequestKind.changes, RequestKind.creates]
  · intro x op ret h hx hs
    rw [hx]
    cases k <;> simp_all [returnedBy, RequestKind.changes, Volume.returned]
  · intro n rights b h hx
    rw [hx]
    cases k <;> simp_all [returnedBy, RequestKind.creates, Volume.uncreated]

/-- `volumesReturned` reads the volume tables alone. -/
theorem volumesReturned_congr (s s' t t' : State) (k : RequestKind) (hs : s.volumes = s'.volumes)
    (ht : t.volumes = t'.volumes) (h : volumesReturned s t k) : volumesReturned s' t' k := by
  intro v
  rw [← hs, ← ht]
  exact h v

/-- All that an abandonment does: the volume returns, and the engine rests (R155). -/
theorem abandonUpdate_eq (s : State) (req : Request) (h : s.engine.inFlight = some req) :
    abandonUpdate s =
      { s with volumes := (returnVolume s req.kind).volumes, engine := s.engine.ended } := by
  simp only [abandonUpdate, h]
  rw [returnVolume_eq]
  rfl

/-- The transaction a failed COMMIT leaves (R37, R156). -/
theorem reopen_afterFailure (x : Txn) (b : Bool) : x.reopen (!b) = x.afterFailure b := by
  cases b
  · exact reopen_true x
  · rfl

/-! ### The end of the sequence (R158) -/

/-- With no update in flight, settling takes the device to the state that R158 says, and changes nothing else. -/
theorem settleSequence_ended (s : State) (h : s.engine.inFlight = none) :
    settleSequence s = { s with device := deviceOnceEnded s } := by
  unfold settleSequence deviceOnceEnded
  by_cases hc : inPowerFail s = true ∧ nextCandidate s = none
  · rw [if_pos ⟨hc.1, h, hc.2⟩, if_pos hc]
  · rw [if_neg (fun hh => hc ⟨hh.1, hh.2.2⟩), if_neg hc]

/-- Outside a power-fail sequence the end of an update leaves the device state. -/
theorem deviceOnceEnded_outside (s : State) (h : inPowerFail s = false) : deviceOnceEnded s = s.device := by
  unfold deviceOnceEnded
  rw [if_neg (by rw [h]; simp)]

/-- What `deviceOnceEnded` reads of a state. -/
theorem deviceOnceEnded_congr (s t : State) (hd : s.device = t.device) (he : s.engine = t.engine)
    (hp : s.ports = t.ports) (hc : s.claimCount = t.claimCount) :
    deviceOnceEnded s = deviceOnceEnded t := by
  unfold deviceOnceEnded inPowerFail nextCandidate engineStopped nextQueued nextOpen
  rw [hd, he, hp, hc]

/-- A power-fail sequence keeps every ATTN line low (R155, R173). -/
theorem attnLine_notReady (s : State) (p : Port) (h : ready s = false) : attnLine s p = false := by
  unfold attnLine
  rw [h]
  rfl

/-! ### The steps of a COMMIT (R80, R81) -/

/-- The plan of a COMMIT holds the steps of R80 in the order of R79. -/
theorem planSteps_commit (s : State) (p : Port) (x : RootSlot) (n : Word)
    (hx : s.engine.selected = some x) (hn : s.engine.sequence = some n) :
    planSteps s p .commit = commitSteps s p x.other (n + 1) := by
  have h1 : pageSteps s p = commitPages s p := by
    simp only [pageSteps, commitPages, allPages, List.filterMap_flatMap, List.filterMap_map]
    congr 1
    funext v
    congr 1
    funext g
    simp only [Function.comp_apply, Entry.shadowOf, Entry.claimOf]
    rcases (entryOf s v g).claim with _ | ⟨q, _ | f⟩
    · rfl
    all_goals by_cases hq : q = p <;> simp [hq]
  have h2 : mapSteps s p = commitMaps s p := by
    simp only [mapSteps, commitMaps]
    congr 1
    funext v
    cases hv : s.volumes[v] with
    | present r =>
      have : touches s p v = true ↔ ∃ g : PageNo, r.entries[g].claimedBy p = true := by
        simp only [touches, List.any_eq_true, mem_ascending, true_and, entryOf, hv, Volume.entry]
      simp only [this, mapStepOf]
    | absent => rfl
    | creating _ _ _ => rfl
  simp only [planSteps, commitSteps, h1, h2, rootStep, hx, hn]

/-! ### A root slot without a pass (R104, R105) -/

/-- Bytes whose first word is not the marker hold no valid root. -/
theorem judgeRoot_unmarked (l : List Byte) (h : wordAt l 0 ≠ formatMarker) : judgeRoot l = none := by
  unfold judgeRoot
  rw [if_neg (fun hh => h hh.1)]

/-- One erased marker cell leaves no valid root. -/
theorem judgeRoot_erased (l : List Byte) (i : Nat) (hi : i < 4) (h : byteAt l i = 0xFF#8) :
    judgeRoot l = none := by
  apply judgeRoot_unmarked
  intro hh
  have bit : ∀ n, (wordAt l 0).getLsbD n = formatMarker.getLsbD n := fun n => by rw [hh]
  have hi : i = 0 ∨ i = 1 ∨ i = 2 ∨ i = 3 := by omega
  rcases hi with rfl | rfl | rfl | rfl
  · have := bit 24
    simp only [wordAt, BitVec.getLsbD_append, h] at this
    simp [formatMarker] at this
  · have := bit 16
    simp only [wordAt, BitVec.getLsbD_append, h] at this
    simp [formatMarker] at this
  · have := bit 9
    simp only [wordAt, BitVec.getLsbD_append, h] at this
    simp [formatMarker] at this
  · have := bit 1
    simp only [wordAt, BitVec.getLsbD_append, h] at this
    simp [formatMarker] at this

/-- The cells of a root slot whose program failed hold no valid root. -/
theorem judgeRoot_programFails (s : State) (f : FrameNo) (h : isRootSlot f = true) :
    judgeRoot (cellFrame (programFails s f) f) = none := by
  apply judgeRoot_erased _ 0 (by omega)
  simp only [cellFrame, programFails, failedBytes, h, if_true]
  rw [frameBytes_storeFrame cellFill _ _ _ _ (by simp [tornBytes, Config.frameBytes]), if_pos rfl]
  simp [byteAt, cellFill]

/-- At least one marker cell of a root slot whose program was cut short is erased. -/
theorem tornMarker_erases (n : Nat) :
    ∃ i, i < 4 ∧ ((Config.tornMarker n).val + 1).testBit i = true := by
  generalize Config.tornMarker n = m
  revert m
  decide

/-- The cells of a root slot whose program was cut short hold no valid root. -/
theorem judgeRoot_cutProgram (s : State) (f : FrameNo) (hp : s.program = some f)
    (h : isRootSlot f = true) : judgeRoot (cellFrame (cutProgram s) f) = none := by
  obtain ⟨i, hi, hb⟩ := tornMarker_erases s.draws
  apply judgeRoot_erased _ i hi
  simp only [cellFrame, cutProgram, hp, cutBytes, h, if_true]
  rw [frameBytes_storeFrame cellFill _ _ _ _ (by simp [tornBytes, Config.frameBytes]), if_pos rfl]
  simp [byteAt, List.getElem?_append, hi, tornMarkerByte, hb, cellFill]

/-! ### Frames released at a completion, and the supply -/

/-- The frames a COMMIT's completion releases, in volume order, then page order (R10, R93). -/
theorem replacedFrames_eq (s : State) (p : Port) : replacedFrames s p =
    (ascending 16).flatMap fun v => (ascending 64).filterMap fun g =>
      if (entryOf s v g).claimedBy p = true then (entryOf s v g).committed.map fun c => c.frame else none :=
  filterMap_allPages fun v g => (entryOf s v g).replaced p

/-- The frames a DELETE or a RESIZE releases, in page order (R10). -/
theorem framesFrom_eq (s : State) (v : VolumeNo) (n : Nat) : framesFrom s v n =
    (ascending 64).filterMap fun g =>
      if n ≤ g.val then (entryOf s v g).committed.map fun c => c.frame else none := rfl

/-- What is left without the supply, and right after power-up (R115, R147, R148). -/
theorem volatileLost_supplyLost (s : State) (d : Device) (h : d = .off ∨ d = .recalling .rootSlots) :
    supplyLost s (volatileLost s d) := by
  have hp : ∀ p : Port, (volatileLost s d).ports[p] = .recalled .idle := fun p => by
    show (Vector.replicate 4 (PortContext.recalled .idle))[p.val] = _
    rw [Vector.getElem_replicate]
  refine ⟨by simp only [volatileLost, State.reset, Engine.unformatted], fun p => ?_⟩
  rw [hp]
  refine ⟨rfl, rfl, ?_, attnLine_notReady _ p ?_⟩
  · rw [dataOut_eq_none, hp]
    rfl
  · rcases h with rfl | rfl <;> rfl

end Sys2Proof.Machine
end

