-- ==== Sys2Proof/Tests/Slice0.lean ====
section
/-! SUPPORT. The model's own tests: the smoke test of WellFormed, the command table, small cases of every row with the values the manual's rules and worked sequences give, and for every statement for the provers one theorem that shows a state and operands meeting its hypotheses. -/

namespace Sys2Proof.Machine.Tests

-- The kernel's evaluations run one after the other, so that few threads are alive at once.
set_option Elab.async false

open Sys2Proof Sys2Proof.Machine

/-! ### Small states -/

/-- The state a happening leads to. -/
def after (i : Instr) (s : State) : State :=
  match exec i s with
  | .next t => t
  | .fault _ => .reset
  | .refused _ => .reset

/-- A formatted part with a short free list: sequence 90 in slot A, every port in the mask, quotas 256,
hold-up budget 3. -/
def base : State :=
  { State.reset with
    device := .running
    freeList := [1600, 1601, 1602, 1603, 1604, 1605, 1606, 1607, 1608, 1609]
    engine := { Engine.unformatted with
      sequence := some 90, selected := some .a
      settings := some ⟨#v[true, true, true, true], #v[256, 256, 256, 256], 3⟩ } }

/-- A part that holds no root. -/
def blank : State := { State.reset with device := .unformatted, freeList := [34, 35, 36] }

/-- The state with the frame of port `p` about to complete the byte that command `c` is taken at. -/
def ask (s : State) (p : Port) (c : Command) (args : List Byte) : State :=
  s.modFrame p fun f =>
    if args = [] then { f with phase := .command }
    else { f with phase := .arguments, command := some c.code, arguments := args.dropLast }

/-- The state with the frame of port `p` in phase DATA of command `c`, with burst `b`. -/
def inData (s : State) (p : Port) (c : Command) (b : Option Burst) : State :=
  s.modPort p fun x => { x with
    frame := { x.frame with phase := .data, command := some c.code, result := some .ok }, burst := b }

/-- The state with the transaction of port `p` in state `x`, with a lease of 200 ms that runs. -/
def withTxn (s : State) (p : Port) (x : TxnState) : State :=
  s.modTxn p fun _ => ⟨x, 200, 7, decide (x = .opened), false⟩

/-- The state with window `w` of port `p` holding `x`. -/
def withWindow (s : State) (p : Port) (w : WindowNo) (x : Window) : State :=
  s.modPort p fun c => { c with windows := upd c.windows w x }

/-- A volume of size 8, WRITE for every port, with map image in slot 0 at generation 5 and the page entries
given; every other page is a hole. -/
def volumeOf (status : Status) (entries : List (PageNo × Entry)) : VolumeRecord where
  status := status
  size := 8
  rights := #v[.write, .write, .write, .write]
  pinned := false
  mapPresent := true
  slot := 0
  generation := 5
  committedPages := 1
  entries := tab fun g => ((entries.find? fun x => x.1 = g).map fun x => x.2).getD .hole

/-- The state with volume 4 present. -/
def withVolume (s : State) (r : VolumeRecord) : State := s.setVolume 4 (.present r)

/-- A committed part without poison. -/
def kept (f : FrameNo) : Option Committed := some ⟨f, 0x1234#16, false⟩

/-- Pages 0 to 7 of volume 4. -/
def span (m : Mode) : Binding := ⟨4, 0, 8, m⟩

/-! ### Rows with operands that cannot be -/

/-- 0x11 is BEGIN's byte, so it is no unknown command (R166, R171). -/
theorem test_wf_refuses_known_byte_as_unknown : (Instr.unknownCommand 0 0x11#8).wf = false := by decide

/-- 0x10 is in no row of the command table (R171). -/
theorem test_wf_refuses_unlisted_byte_with_arguments :
    (Instr.commandByteComplete 0 0x10#8).wf = false := by decide

/-- TOUCH takes no arguments, so its byte does not lead to phase ARGUMENTS (R166, R171). -/
theorem test_wf_refuses_byte_without_arguments :
    (Instr.commandByteComplete 0 0x12#8).wf = false := by decide

/-- The two rows with a condition, where it holds, and a command with an argument out of range (R172). -/
theorem test_wf_admits : (Instr.unknownCommand 3 0xFF#8).wf = true ∧
    (Instr.commandByteComplete 3 0x21#8).wf = true ∧ (Instr.unbind 0 0xFF#8).wf = true := by decide

/-! ### The command table and the argument encodings (R171, R172) -/

/-- The codes of the command table, in its order, and no others. -/
theorem test_command_codes :
    ((List.range 256).filter fun n => (decodeCommand (BitVec.ofNat 8 n)).isSome) =
      [0x11, 0x12, 0x13, 0x14, 0x15, 0x21, 0x22, 0x24, 0x25, 0x26, 0x40, 0x41, 0x42, 0x43, 0x44, 0x45,
       0x46, 0x47, 0x48, 0x49, 0x4A, 0x4B, 0x60, 0x61, 0x62, 0x63, 0x64] := by decide +kernel

/-- The argument counts of the command table, by ascending code. -/
theorem test_argument_counts :
    (Command.all.map Command.argCount) =
      [3, 0, 0, 0, 0, 5, 1, 3, 3, 2, 0, 4, 1, 2, 1, 1, 1, 2, 1, 1, 4, 1, 0, 1, 1, 2, 0] := by decide

/-- Two-byte arguments travel most significant byte first. -/
theorem test_frame_of_write :
    decodeFrame 2 [0x25#8, 0x00#8, 0x01#8, 0xF4#8] = some (.write 2 0x00#8 500#16) := by decide

/-- CONFIG_PORT's quota stands in its second and third argument bytes. -/
theorem test_frame_of_config_port :
    decodeFrame 0 [0x4A#8, 0x03#8, 0x04#8, 0x00#8, 0x01#8] = some (.configPort 0 3 1024 1) := by decide

/-- A rights set: WRITE for P0, READ for P1, NONE for P2 and P3; code 3 is out of range. -/
theorem test_rights_set :
    rightsArg 0x06#8 = some #v[.write, .read, .noAccess, .noAccess] ∧ rightsArg 0xC0#8 = none := by decide

/-! ### Checks (R23, R103) -/

/-- The value the general literature gives the 16-bit check of the digits 1 to 9 (PRESUMED, log entry 18). -/
theorem test_page_check_of_digits :
    pageCheck ((List.range 9).map fun i => BitVec.ofNat 8 (0x31 + i)) = 0x29B1#16 := by decide +kernel

/-- The value the general literature gives the 32-bit check of the digits 1 to 9 (PRESUMED, log entry 18). -/
theorem test_image_check_of_digits :
    imageCheck ((List.range 9).map fun i => BitVec.ofNat 8 (0x31 + i)) = 0x0376E6E7#32 := by decide +kernel

/-! ### Frames -/

/-- The first status byte after recall: READY, no transaction, class 7 (R164). -/
theorem test_select_fall_status :
    (after (.selectFall 1 true) base).ports[1].frame.output = 0x87#8 := by decide +kernel

theorem test_select_fall_not_ready :
    (after (.selectFall 1 false) State.reset).ports[1].frame.phase = .notReady := by decide +kernel

/-- SHORT_FRAME counts the complete bytes: the command byte and two arguments (R169). -/
theorem test_select_rise_short_frame :
    (after (.selectRise 0) (ask base 0 .begin [0#8, 0#8, 0#8])).ports[0].result =
      ⟨some 0x11#8, some ⟨.shortFrame, some ⟨none, none, none, some 3#16⟩, .short⟩⟩ := by decide +kernel

/-- The line is released while select is high, and carries the status byte once it fell (R162 to R164). -/
theorem test_data_out_released :
    dataOut base 0 = none ∧ dataOut (after (.selectFall 0 false) base) 0 = some 0x87#8 := by decide +kernel

/-- PFAIL in a READ: the byte taken for the position in progress still shifts out (R63, R150, log entry 23). -/
theorem test_close_keeps_byte :
    dataOut (after .pfailAsserted (State.modFrame (inData base 1 .read none) 1 fun f =>
      { f with output := 0xA5#8 })) 1 = some 0xA5#8 := by decide +kernel

/-- The state that the bits of `input` leave when they are clocked into port `p`. -/
def clocked (p : Port) (input : List Bool) (s : State) : State :=
  match (clockBits p input s).2 with
  | .next t => t
  | .fault _ => .reset
  | .refused _ => .reset

/-- Bit 7 of the status byte 0x87 is on the line at select fall in mode 0, and at the first falling edge in
mode 3 (R162). -/
theorem test_first_output_bit_by_mode :
    lineLevel (after (.selectFall 0 false) base) 0 = .driven true ∧
    lineLevel (after (.selectFall 0 true) base) 0 = .unstated ∧
    lineLevel (clockFall 0 (after (.selectFall 0 true) base)) 0 = .driven true := by decide +kernel

/-- 0x41, CREATE, most significant bit first, while the host samples the bits of the status byte 0x87 (R162, R166):
the command byte completes at the eighth rising edge. -/
theorem test_byte_travels_msb_first :
    (clockBits 0 [false, true, false, false, false, false, false, true] (after (.selectFall 0 true) base)).1 =
      [true, false, false, false, false, true, true, true].map .driven ∧
    (clocked 0 [false, true, false, false, false, false, false, true]
      (after (.selectFall 0 true) base)).ports[0].frame.command = some 0x41#8 := by decide +kernel

/-- Seven bits complete no byte, and select rise discards them (R162, R169). -/
theorem test_partial_byte_discarded :
    (clocked 0 (List.replicate 7 true) (after (.selectFall 0 false) base)).ports[0].frame.bitCount = 7 ∧
    (after (.selectRise 0) (clocked 0 (List.replicate 7 true) (after (.selectFall 0 false) base))).ports[0].result =
      ⟨none, some (shortResult 0)⟩ := by decide +kernel

theorem test_unknown_command_ignores :
    (after (.unknownCommand 0 0x10#8) (ask base 0 .touch [])).ports[0].frame.phase = .ignoring := by
  decide +kernel

theorem test_command_byte_waits_for_arguments :
    (after (.commandByteComplete 0 0x42#8) (ask base 0 .touch [])).ports[0].frame.phase =
      .arguments := by decide +kernel

theorem test_argument_byte_kept :
    (after (.argumentByte 0 7#8) (ask base 0 .bind [1#8, 2#8])).ports[0].frame.arguments =
      [1#8, 7#8] := by decide +kernel

/-! ### Transactions -/

theorem test_begin_opens :
    (after (.begin 0 200 1#8) (ask base 0 .begin [0#8, 200#8, 1#8])).ports[0].txn =
      ⟨.opened, 200, 200, true, true⟩ := by decide +kernel

theorem test_touch_reloads :
    (after (.touch 0) (ask (withTxn base 0 .opened) 0 .touch [])).ports[0].txn.timer = 200 := by
  decide +kernel

/-- A COMMIT with no claims ends at once with OK (R34). -/
theorem test_commit_without_claims :
    (after (.commit 0) (ask (withTxn base 0 .opened) 0 .commit [])).ports[0].txn.state = .noTxn := by
  decide +kernel

/-- "A lease runs out against a late commit": the late COMMIT is refused. -/
theorem test_commit_after_expiry :
    ((after (.commit 2) (ask (withTxn base 2 .expired) 2 .commit [])).ports[2].frame.result.map
      fun r => r.code) = some .txnExpired := by decide +kernel

/-- The port of "A lease runs out against a late commit": two DATA claims on pages 10 and 11. -/
def leased : State :=
  { (withTxn (withVolume base { volumeOf .opened
      [(10, ⟨kept 330, some ⟨2, .data 760⟩⟩), (11, ⟨kept 331, some ⟨2, .data 761⟩⟩)] with size := 64 })
      2 .opened).modTxn 2 (fun t => { t with timer := 0 }) with
    claimCount := #v[0, 0, 2, 0] }

theorem test_lease_expiry_releases :
    (after (.leaseExpiry 2) leased).freeList.drop 10 = [760, 761] ∧
      (after (.leaseExpiry 2) leased).ports[2].txn.state = .expired := by decide +kernel

theorem test_lease_tick_counts : (after .leaseTick (withTxn base 2 .opened)).ports[2].txn.timer = 6 := by
  decide +kernel

theorem test_abort_ends_expired :
    (after (.abort 2) (ask (withTxn base 2 .expired) 2 .abort [])).ports[2].txn.state = .noTxn := by
  decide +kernel

theorem test_release_unbinds :
    (after (.release 0) (ask (withWindow base 0 3 (.bound (span .read))) 0 .release [])).ports[0].windows[3] =
      .unbound := by decide +kernel

/-! ### Windows and data -/

/-- The starting state of "Two ports contend for one page", with P0 writing through window 0. -/
def contend : State :=
  withWindow (withTxn (withWindow (withTxn
    (withVolume base (volumeOf .opened [(2, ⟨kept 412, none⟩), (5, ⟨kept 415, none⟩)]))
    0 .opened) 0 0 (.bound (span .write))) 2 .opened) 2 0 (.bound (span .write))

/-- A WRITE burst through window 0 whose next byte is at offset `x`. -/
def writing (x : Nat) : Option Burst := some ⟨.write, 0, x, false, false, none, none⟩

/-- A READ burst through window 3 whose next byte is at offset `x`. -/
def reading (x : Nat) : Option Burst := some ⟨.read, 3, x, false, false, none, none⟩

/-- The same, with P0's claim on page 2 made. -/
def contended : State := after (.writeDataByte 0 0xAB#8) (inData contend 0 .write (writing 512))

theorem test_bind_binds :
    (after (.bind 1 3 4 0 8 0) (ask contend 1 .bind [3, 4, 0, 8, 0])).ports[1].windows[3] =
      .bound ⟨4, 0, 8, .read⟩ := by decide +kernel

/-- A span past the volume's size of 8 pages is refused (R56, check 5). -/
theorem test_bind_past_size :
    ((after (.bind 1 3 4 1 8 0) (ask contend 1 .bind [3, 4, 1, 8, 0])).ports[1].frame.result.map
      fun r => r.code) = some .badArgument := by decide +kernel

theorem test_unbind_unbinds :
    (after (.unbind 0 0) (ask contend 0 .unbind [0])).ports[0].windows[0] = .unbound := by decide +kernel

/-- P0's byte at offset 512 makes a DATA claim on page 2 with shadow 1600, over committed frame 412. -/
theorem test_write_byte_makes_claim :
    entryOf contended 4 2 = ⟨kept 412, some ⟨0, .data 1600⟩⟩ ∧ contended.freeList.head? = some 1601 := by
  decide +kernel

/-- P2's byte on the page P0 claims is refused with CLAIMED, naming port 0, volume 4 and page 2. -/
theorem test_write_byte_claimed :
    (after (.writeDataByte 2 1#8) (inData contended 2 .write (writing 512))).ports[2].frame.result =
      some ⟨.claimed, some ⟨some 0, some 4, some 2, none⟩, .refused⟩ := by decide +kernel

theorem test_read_own_claim :
    (after (.readDataByte 0) (inData (withWindow contended 0 3 (.bound (span .read))) 0 .read
      (reading 512))).ports[0].frame.output = 0xAB#8 := by decide +kernel

theorem test_read_hole :
    (after (.read 0 0 0) (ask contend 0 .read [0, 0, 0])).ports[0].frame.output = 0x00#8 := by
  decide +kernel

/-- An offset equal to the window end is refused (R62). -/
theorem test_read_window_end :
    ((after (.read 0 0 2048) (ask contend 0 .read [0, 8, 0])).ports[0].frame.result.map
      fun r => r.code) = some .windowEnd := by decide +kernel

theorem test_write_begins :
    (after (.write 0 0 500) (ask contend 0 .write [0, 1, 0xF4])).ports[0].burst = writing 500 := by
  decide +kernel

/-- "A DELETE accepted while another port reads": the byte at cursor 300 meets the STALE window. -/
theorem test_read_byte_stale :
    (after (.readDataByte 1) (inData (withWindow base 1 3 (.stale ⟨8, 0, 2, .read⟩)) 1 .read
      (reading 300))).ports[1].fault =
      some ⟨.windowStale, .read, 3, 8, some 1, 300, false⟩ := by decide +kernel

/-- The cursor stands at the end of a stale window of pages 60 to 63: the fault's page is 60 + 4 (R72). -/
theorem test_read_byte_stale_past_last_page :
    (after (.readDataByte 1) (inData (withWindow base 1 3 (.stale ⟨8, 60, 4, .read⟩)) 1 .read
      (reading 1024))).ports[1].fault =
      some ⟨.windowStale, .read, 3, 8, some 64, 1024, false⟩ := by decide +kernel

theorem test_punch_makes_hole :
    (entryOf (after (.punch 2 0 5) (ask contend 2 .punch [0, 5])) 4 5).claim = some ⟨2, .hole⟩ := by
  decide +kernel

/-- A page index equal to the page count is a fault at offset 256 times 8 (R70). -/
theorem test_punch_past_end :
    (after (.punch 2 0 8) (ask contend 2 .punch [0, 8])).ports[2].fault =
      some ⟨.windowEnd, .punch, 0, 4, none, 2048, false⟩ := by decide +kernel

/-! ### Administration -/

/-- The request of kind `k` of port 1 joins the queue at the taking of `i`. -/
def joins (i : Instr) (s : State) (k : RequestKind) : Bool :=
  (after i s).engine.queue = [⟨1, k⟩]

theorem test_format_joins : joins (.format 1) (ask blank 1 .format []) .format = true := by decide +kernel

theorem test_create_creating :
    (after (.create 1 9 64 0x06 1) (ask base 1 .create [9, 64, 0x06, 1])).volumes[9] =
      .creating 64 #v[.write, .read, .noAccess, .noAccess] true := by decide +kernel

theorem test_delete_changing :
    Volume.status (after (.delete 1 4) (ask contend 1 .delete [4])).volumes[4] =
      some (.changing .delete .opened) := by decide +kernel

/-- A DELETE of a volume with a claim is refused with IN_USE, naming its lowest page (R135). -/
theorem test_delete_in_use :
    (after (.delete 1 4) (ask contended 1 .delete [4])).ports[1].frame.result =
      some ⟨.inUse, some ⟨some 0, some 4, some 2, none⟩, .refused⟩ := by decide +kernel

theorem test_resize_joins :
    joins (.resize 1 4 2) (ask contend 1 .resize [4, 2]) (.resize 4 2) = true := by decide +kernel

theorem test_freeze_joins : joins (.freeze 1 4) (ask contend 1 .freeze [4]) (.freeze 4) = true := by
  decide +kernel

theorem test_lock_joins : joins (.lock 1 4) (ask contend 1 .lock [4]) (.lock 4) = true := by decide +kernel

theorem test_thaw_joins :
    joins (.thaw 1 4) (ask (withVolume base (volumeOf .frozen [])) 1 .thaw [4]) (.thaw 4) = true := by
  decide +kernel

theorem test_set_rights_joins :
    joins (.setRights 1 4 0x31) (ask contend 1 .setRights [4, 0x31]) (.setRights 4 3 .read) = true := by
  decide +kernel

theorem test_pin_joins : joins (.pin 1 4) (ask contend 1 .pin [4]) (.pin 4) = true := by decide +kernel

theorem test_unpin_joins : joins (.unpin 1 4) (ask contend 1 .unpin [4]) (.unpin 4) = true := by
  decide +kernel

theorem test_config_port_joins :
    joins (.configPort 1 3 1024 0) (ask base 1 .configPort [3, 4, 0, 0]) (.configPort 3 1024 false) = true := by
  decide +kernel

theorem test_config_device_joins :
    joins (.configDevice 1 255) (ask base 1 .configDevice [255]) (.configDevice 255) = true := by
  decide +kernel

/-! ### Results and queries -/

/-- A port with nothing recorded answers 31 bytes, all 0x00 (R186). -/
theorem test_get_result_empty :
    (after (.getResult 0) (ask base 0 .getResult [])).ports[0].frame.response =
      List.replicate 30 0x00#8 := by decide +kernel

theorem test_set_attn_mask :
    (after (.setAttn 0 0x12) (ask base 0 .setAttn [0x12])).ports[0].mask =
      ⟨false, true, false, false, true⟩ := by decide +kernel

/-- Bytes 0 to 4 of INFO_VOLUME: OPEN, size 8, rights, map present in slot 0, generation 5 (R187). -/
theorem test_info_volume :
    (after (.infoVolume 0 4) (ask contend 0 .infoVolume [4])).ports[0].frame.response.take 7 =
      [8#8, 0xAA#8, 0x02#8, 0#8, 0#8, 0#8, 5#8] := by decide +kernel

/-- "P2 polls INFO_PAGE for page 2": committed, not poisoned, a DATA claim of P0. -/
theorem test_info_page :
    (after (.infoPage 2 4 2) (ask contended 2 .infoPage [4, 2])).ports[2].frame.output = 0x05#8 := by
  decide +kernel

theorem test_info_device :
    (after (.infoDevice 0) (ask base 0 .infoDevice [])).ports[0].frame.response.take 9 =
      [0#8, 0#8, 0#8, 10#8, 0#8, 0#8, 0#8, 0#8, 90#8] := by decide +kernel

/-! ### The update engine -/

/-- "P0 commits", with its COMMIT queued. -/
def committing : State :=
  { withTxn contended 0 .queued with
    engine := { contended.engine with queue := [⟨0, .commit⟩] } }

/-- The frames the steps of a plan program. -/
def targets (s : State) : List FrameNo :=
  (s.engine.plan.map fun x => x.steps.map PlanStep.target).getD []

/-- The plan has three steps: page frame 1600, map frame 11, root slot B. -/
theorem test_removal_plan :
    targets (after .requestRemoval committing) = [1600, 11, 1] := by decide +kernel

/-- P0's commit at the step with index `n`, its program in progress. -/
def inStep (n : Nat) (f : FrameNo) : State :=
  { withTxn contended 0 .committing with
    program := some f
    engine := { contended.engine with
      state := .root, inFlight := some ⟨0, .commit⟩
      plan := some ⟨[.page 4 2 1600 0 (some 0x5678#16), .map 4 1 6 false, .root .b 91 false], n⟩ } }

theorem test_page_step_pass :
    (after .pageStepPass (inStep 0 1600)).program = some 11 := by decide +kernel

theorem test_map_step_pass : (after .mapStepPass (inStep 1 11)).program = some 1 := by decide +kernel

/-- "P0's root program passes": page 2 in frame 1600 and generation 6. -/
theorem test_root_step_pass_entry :
    entryOf (after .rootStepPass (inStep 2 1)) 4 2 = ⟨some ⟨1600, 0x5678#16, false⟩, none⟩ := by
  decide +kernel

/-- Frame 412 joins the free-list tail, sequence 91 stands in slot B and the transaction is NONE. -/
theorem test_root_step_pass_records :
    (after .rootStepPass (inStep 2 1)).freeList.getLast? = some 412 ∧
      (after .rootStepPass (inStep 2 1)).engine.selected = some .b ∧
      (after .rootStepPass (inStep 2 1)).ports[0].txn.state = .noTxn := by decide +kernel

/-- A THAW that completes while a LOCK holds its volume: the LOCK is still to come, and would return to OPEN (R96, R129,
log entry 9). -/
theorem test_thaw_under_lock :
    Volume.status (Volume.present { volumeOf (.changing .lock .frozen) [] with
      status := (Status.changing .lock .frozen).thawed }) = some (.changing .lock .opened) := by decide +kernel

/-- The relocation takes the head of the free list and retires the failed frame. -/
theorem test_page_step_fail_relocates :
    (after .pageStepFail (inStep 0 1600)).program = some 1601 ∧
      (after .pageStepFail (inStep 0 1600)).engine.retired = [1600] := by decide +kernel

/-- The first failure of a map step is retried on the same frame (R89). -/
theorem test_system_area_retry :
    (after .systemAreaProgramFail (inStep 1 11)).program = some 11 := by decide +kernel

/-! ### Power failure and the lines -/

/-- R = 3 - 1 = 2 programs fit the budget of 3, which becomes 1. -/
theorem test_pfail_judges :
    (after .pfailAsserted (inStep 0 1600)).device =
      .powerFail 1 #v[true, false, false, false] #v[false, false, false, false] := by decide +kernel

/-- "P2 considered: 3 ≤ 3, taken": a program count of 3 takes the whole budget of 3. -/
theorem test_candidate_taken :
    (after .durableOnLossCandidate
      { (committing.modTxn 0 fun t => { t with durable := true }) with
        device := .powerFail 3 #v[false, true, false, false] #v[false, false, false, false] }).device =
      .powerFail 0 #v[true, true, false, false] #v[false, false, false, false] := by decide +kernel

theorem test_pfail_deasserted_recalls :
    (after .pfailDeasserted { base with device := .halted, pfail := true }).device =
      .recalling .rootSlots := by decide +kernel

theorem test_reset_n_asserted_halts : (after .resetNAsserted base).device = .halted := by decide +kernel

/-- RESET_N released while PFAIL is asserted leaves the part HALTED (R149). -/
theorem test_reset_n_released_waits :
    (after .resetNReleased { base with device := .halted, pfail := true, resetN := true }).device =
      .halted := by decide +kernel

theorem test_power_up : (after .powerUp { base with device := .off }).device = .recalling .rootSlots := by
  decide +kernel

theorem test_loss_of_supply : (after .lossOfSupply base).device = .off := by decide +kernel

theorem test_lockin_guards :
    ((after (.delete 1 4) (ask (after (.lockinChange true)
      (withVolume base { volumeOf .opened [] with pinned := true })) 1 .delete [4])).ports[1].frame.result.map
      fun r => r.code) = some .guarded := by decide +kernel

/-! ### Recall -/

/-- The check of a list of bytes, with each intermediate value looked at, so that the kernel evaluates the
bytes in turn. -/
def inTurn {n : Nat} (poly : BitVec n) : List Byte → BitVec n → BitVec n
  | [], c => c
  | b :: rest, c =>
    if c.toNat = 0 then inTurn poly rest (crcByte poly c b) else inTurn poly rest (crcByte poly c b)

theorem foldl_inTurn {n : Nat} (poly : BitVec n) (l : List Byte) (c : BitVec n) :
    l.foldl (crcByte poly) c = inTurn poly l c := by
  induction l generalizing c with
  | nil => rfl
  | cons b l ih => simp [inTurn, ih]

theorem imageCheck_inTurn (l : List Byte) :
    imageCheck l = inTurn 0x04C11DB7#32 l 0xFFFFFFFF#32 := foldl_inTurn _ _ _

/-- The root of `base` with sequence `n`, one retired frame and the volume records given. -/
def rootOf (n : Word) (volumes : Vector Durable 16) : Root :=
  ⟨n, ⟨#v[true, true, true, true], #v[256, 256, 256, 256], 3⟩, [1999], volumes⟩

/-- The slot selected where slots A and B hold roots of the sequences given. -/
def selects (a b : Word) : Option RootSlot :=
  (selectRoot (some (rootOf a (Vector.replicate 16 .absent)))
    (some (rootOf b (Vector.replicate 16 .absent)))).map fun x => x.1

/-- "Root slots: A valid at 500, B valid at 501. B is one greater and is selected." -/
theorem test_recall_selects_b : selects 500 501 = some .b := by decide +kernel

/-- One greater wraps: sequence 0 follows the greatest (R106). -/
theorem test_recall_selects_over_wrap : selects 0 0xFFFFFFFF = some .a := by decide +kernel

/-- Cells never programmed hold no root (R105, R111). -/
theorem test_recall_finds_no_root :
    (after .recallRootSlots State.reset).device = .recalling .finish := by decide +kernel

/-- The image of volume 3 at generation 20: page 1 in frame 1200. -/
def imageOf3 : MapImage := ⟨3, 20, tab fun g => if g = 1 then some (1200, 0xBEEF#16) else none⟩

/-- Volume 3 recalled from frame 8 at generation 20: the image is good. -/
theorem test_recall_volume_good :
    judgeImage imageOf3.bytes 3 20 4 [1999] [] = some imageOf3.entries := by
  simp only [judgeImage, MapImage.bytes, imageCheck_inTurn]
  decide +kernel

/-- A map slot that was never programmed holds no good image (R108, R112). -/
theorem test_recall_volume_damaged :
    judgeImage (List.replicate 256 0xFF#8) 5 8 64 [1999] [] = none := by
  simp only [judgeImage, imageCheck_inTurn]
  decide +kernel

/-- A part at the page checks, page 2 of volume 4 committed in frame 412 with check `c`. -/
def checking (c : Half) : State :=
  { withVolume State.reset (volumeOf .opened [(2, ⟨some ⟨412, c, false⟩, none⟩)]) with
    device := .recalling .pageChecks }

/-- The cells of frame 412 do not meet check 0x0000, so the page is poisoned (R113). -/
theorem test_recall_poisons :
    ((entryOf (after .recallPageChecks (checking 0x0000#16)) 4 2).committed.map fun c => c.poisoned) =
      some true := by
  simp only [after, exec, execRecallPageChecks, checkPages, Volume.checked, Entry.checked, pageCheck,
    foldl_inTurn]
  decide +kernel

/-- With no root selected the part is UNFORMATTED (R116). -/
theorem test_recall_end_unformatted :
    (after .recallEnd { State.reset with device := .recalling .finish }).device = .unformatted := rfl

/-! ### The step -/

theorem test_step_takes_front :
    step { base with pending := [.lockinChange true, .leaseTick] } =
      exec (.lockinChange true) { base with pending := [.leaseTick] } := rfl

theorem test_no_word_spells_a_row : decodeTableWord 8 0x11 = none := rfl

/-! ### For every statement, a state and operands that meet its hypotheses -/

theorem witness_StepRunsFrontOfQueue : State.reset.pending = [] := rfl

theorem witness_SelectFallBeginsFrame :
    (base.ports[(0 : Port)].frame.phase = .noFrame ∧ base.device = .running) ∧
    (blank.ports[(3 : Port)].frame.phase = .noFrame ∧ blank.device = .unformatted) ∧
    State.reset.ports[(0 : Port)].frame.phase = .noFrame ∧ State.reset.device ≠ .off ∧
      State.reset.device ≠ .running ∧ State.reset.device ≠ .unformatted := by decide +kernel

/-- The state with the result of port 0 of class `x`. -/
def withClass (x : ResultClass) : State :=
  base.modPort 0 fun c => { c with result := ⟨some 0x12#8, some ⟨.ok, none, x⟩⟩ }

theorem witness_StatusByteFields :
    (State.reset.device ≠ .running ∧ State.reset.device ≠ .unformatted) ∧ base.device = .running ∧
    blank.device = .unformatted ∧ base.ports[(0 : Port)].result.result = none ∧
    (∀ x ∈ [TxnState.noTxn, .opened, .queued, .committing, .expired],
      (withTxn base 0 x).ports[(0 : Port)].txn.state = x) ∧
    ∀ x ∈ [ResultClass.ok, .queued, .refused, .fault, .short],
      (withClass x).ports[(0 : Port)].result.result = some ⟨.ok, none, x⟩ := by decide +kernel

theorem witness_CommandAndArgumentBytesKept :
    ((ask base 0 .touch []).ports[(0 : Port)].frame.phase = .command ∧
      decodeCommand 0x00#8 = none ∧ decodeCommand 0x10#8 = none ∧ decodeCommand 0xFF#8 = none ∧
      0 < Command.unbind.argCount ∧ 0 < Command.bind.argCount) ∧
    ((ask base 0 .bind [0]).ports[(0 : Port)].frame.phase = .arguments ∧
      (ask base 0 .bind [0]).ports[(0 : Port)].frame.command = some Command.bind.code ∧
      (ask base 0 .bind [0]).ports[(0 : Port)].frame.arguments.length + 1 < Command.bind.argCount) ∧
    (ask base 0 .bind [0, 0, 0, 0]).ports[(0 : Port)].frame.arguments.length + 1 <
      Command.bind.argCount := by decide +kernel

/-- The state with the frame of port 0 in phase `x`, with frame result `r`. -/
def inPhase (x : Phase) (r : Option Result) : State :=
  base.modFrame 0 fun f => { f with phase := x, command := some 0x12#8, result := r }

theorem witness_SelectRiseRecordsResult :
    (∀ x ∈ [Phase.command, .arguments, .data, .ignoring, .notReady],
      (inPhase x none).ports[(0 : Port)].frame.phase = x ∧ x ≠ .noFrame) ∧
    (∀ x ∈ [Phase.data, .ignoring],
      (inPhase x (some .ok)).ports[(0 : Port)].frame.phase = x ∧
      (inPhase x (some .ok)).ports[(0 : Port)].frame.result = some .ok) ∧
    (inPhase .ignoring none).ports[(0 : Port)].frame.result = none := by decide +kernel

theorem witness_IgnoredBytesChangeNothing :
    (∀ i ∈ [Instr.touch 0, .unknownCommand 0 0#8, .argumentByte 0 0xFF#8, .readDataByte 0,
      .writeDataByte 0 0#8, .commandByteComplete 0 0x11#8], bytePort i = some 0) ∧
    (inPhase .ignoring none).ports[(0 : Port)].frame.phase = .ignoring ∧
    (inPhase .notReady none).ports[(0 : Port)].frame.phase = .notReady := by decide +kernel

theorem witness_ResponseShiftsOut :
    (inData base 0 .infoDevice none).ports[(0 : Port)].frame.phase = .data ∧
    (inData base 0 .infoDevice none).ports[(0 : Port)].frame.command = some Command.infoDevice.code ∧
    (inData base 0 .infoDevice none).ports[(0 : Port)].burst = none := by decide +kernel

/-! Transactions. -/

theorem witness_BeginOpensTransaction :
    (∀ x ∈ [TxnState.noTxn, .opened, .queued, .committing, .expired],
      let s := ask (withTxn base 0 x) 0 .begin (halfBytes 0 ++ [0])
      awaits s 0 .begin (halfBytes 0 ++ [0]) = true ∧ s.device ≠ .unformatted ∧
        s.ports[(0 : Port)].txn.state = x) ∧
    (∀ flag ∈ [0#8, 1#8, 2#8, 0xFF#8], awaits (ask base 0 .begin (halfBytes 0xFFFF ++ [flag])) 0 .begin
      (halfBytes 0xFFFF ++ [flag]) = true) := by decide +kernel

/-- An OPEN transaction of port 0 without a lease. -/
def unleased : State := base.modTxn 0 fun t => { t with state := .opened }

theorem witness_TouchRestartsTimer :
    awaits (ask blank 0 .touch []) 0 .touch [] = true ∧ blank.device = .unformatted ∧
    (∀ x ∈ [TxnState.noTxn, .opened, .queued, .committing, .expired],
      let s := ask (withTxn base 0 x) 0 .touch []
      awaits s 0 .touch [] = true ∧ s.device ≠ .unformatted ∧ s.ports[(0 : Port)].txn.state = x ∧
        0 < s.ports[(0 : Port)].txn.lease) ∧
    awaits (ask unleased 0 .touch []) 0 .touch [] = true ∧
    unleased.ports[(0 : Port)].txn.state = .opened ∧
    unleased.ports[(0 : Port)].txn.lease = 0 := by decide +kernel

/-- A port with an OPEN transaction and `n` claims that sends COMMIT, the engine in state `e` with the queue `q`. -/
def commits (n : Nat) (e : EngineState) (q : List Request) : State :=
  let s := ask (withTxn base 0 .opened) 0 .commit []
  { s with claimCount := #v[n, 0, 0, 0], engine := { s.engine with state := e, queue := q } }

theorem witness_CommitEndsOrJoinsQueue :
    (∀ s ∈ [commits 0 .idle [], commits 1 .idle [⟨0, .format⟩], commits 1 .stopped [],
        commits 1 .idle [⟨1, .commit⟩]],
      awaits s 0 .commit [] = true ∧ s.device ≠ .unformatted ∧
        s.ports[(0 : Port)].txn.state = .opened) ∧
    (commits 0 .idle []).claimCount[(0 : Port)] = 0 ∧
    (0 < (commits 1 .idle [⟨0, .format⟩]).claimCount[(0 : Port)] ∧
      ∃ r ∈ (commits 1 .idle [⟨0, .format⟩]).engine.queue ++
        (commits 1 .idle [⟨0, .format⟩]).engine.inFlight.toList, r.port = 0 ∧ r.kind ≠ .commit) ∧
    ((∀ r ∈ (commits 1 .stopped []).engine.queue ++ (commits 1 .stopped []).engine.inFlight.toList,
        r.port = 0 → r.kind = .commit) ∧ (commits 1 .stopped []).engine.state = .stopped) ∧
    (∀ r ∈ (commits 1 .idle [⟨1, .commit⟩]).engine.queue ++
        (commits 1 .idle [⟨1, .commit⟩]).engine.inFlight.toList, r.port = 0 → r.kind = .commit) ∧
      (commits 1 .idle [⟨1, .commit⟩]).engine.state ≠ .stopped := by decide +kernel

theorem witness_NotOpenIsRefused :
    ∀ x ∈ [(TxnState.noTxn, Code.noTxn), (.queued, .txnBusy), (.committing, .txnBusy),
        (.expired, .txnExpired)],
      let s := withTxn (withWindow base 0 3 (.bound (span .write))) 0 x.1
      s.device ≠ .unformatted ∧ s.ports[(0 : Port)].txn.state = x.1 ∧
      awaits (ask s 0 .commit []) 0 .commit [] = true ∧
      awaits (ask s 0 .write (3#8 :: halfBytes 2047)) 0 .write (3#8 :: halfBytes 2047) = true ∧
      awaits (ask s 0 .punch [3, 255]) 0 .punch [3, 255] = true ∧ (3#8).toNat = (3 : WindowNo).val ∧
      s.ports[(0 : Port)].windows[(3 : WindowNo)] = .bound (span .write) ∧
      (2047#16).toNat < 256 * (span .write).count := by decide +kernel

theorem witness_AbortAbandonsTransaction :
    ∀ x ∈ [TxnState.noTxn, .opened, .queued, .committing, .expired],
      let s := ask (withTxn base 0 x) 0 .abort []
      awaits s 0 .abort [] = true ∧ s.device ≠ .unformatted ∧ s.ports[(0 : Port)].txn.state = x := by
  decide +kernel

theorem witness_ReleaseCleansPort :
    ∀ x ∈ [TxnState.noTxn, .opened, .queued, .committing, .expired],
      let s := ask (withTxn base 0 x) 0 .release []
      awaits s 0 .release [] = true ∧ s.device ≠ .unformatted ∧ s.ports[(0 : Port)].txn.state = x := by
  decide +kernel

/-- Volume 4 is present, volume 3 is not; frame 1600 is P0's shadow on page 2. -/
theorem witness_ReleaseOfAllClaims :
    contended.volumes[(4 : VolumeNo)] =
      .present (volumeOf .opened [(2, ⟨kept 412, some ⟨0, .data 1600⟩⟩), (5, ⟨kept 415, none⟩)]) ∧
    Volume.isPresent contended.volumes[(3 : VolumeNo)] = false ∧ isPool 1600 = true ∧
    (entryOf contended 4 2).shadowOf 0 = some 1600 := by decide +kernel

/-- No frame of a part without volumes is a shadow. -/
theorem witness_ReleaseOfAllClaims_no_shadow (v : VolumeNo) (g : PageNo) :
    (entryOf base v g).shadowOf 0 ≠ some 1601 := by
  have h : base.volumes[v] = .absent := by simp [base, State.reset]
  simp [entryOf, h, Volume.entry, Entry.hole, Entry.shadowOf, Entry.claimOf]

theorem witness_LeaseTickCountsDown :
    blank.device ≠ .running ∧ base.device = .running ∧
    (withTxn base 0 .opened).ports[(0 : Port)].txn.state = .opened ∧
    0 < (withTxn base 0 .opened).ports[(0 : Port)].txn.lease ∧
    (withTxn base 0 .opened).ports[(0 : Port)].txn.running = true ∧
    base.ports[(0 : Port)].txn.state ≠ .opened := by decide +kernel

theorem witness_LeaseExpiryReleasesClaims :
    leased.device = .running ∧ leased.ports[(2 : Port)].txn.state = .opened ∧
    0 < leased.ports[(2 : Port)].txn.lease ∧ leased.ports[(2 : Port)].txn.running = true ∧
    leased.ports[(2 : Port)].txn.timer = 0 := by decide +kernel

theorem witness_UnformattedRefusesCommands :
    commandOf (.unbind 0 0) = some (0, .unbind, [0]) ∧ takenUnformatted .unbind = false ∧
    (ask blank 0 .unbind [0]).device = .unformatted ∧
    awaits (ask blank 0 .unbind [0]) 0 .unbind [0] = true := by decide +kernel

/-! Windows. -/

/-- Volume 4 of 8 pages in status `x`, with READ for port 0 and NONE for port 1. -/
def bindable (x : Status) : VolumeRecord :=
  { volumeOf x [] with rights := #v[.write, .noAccess, .read, .write] }

theorem witness_BindBindsWindow :
    (∀ a ∈ [[3#8, 15, 0, 64, 1], [4, 0, 0, 1, 0], [0, 16, 0, 1, 0], [0, 0, 0, 0, 0], [0, 0, 0, 65, 0],
        [0, 0, 0, 1, 2]],
      awaits (ask base 0 .bind a) 0 .bind a = true ∧ base.device ≠ .unformatted) ∧
    Volume.isPresent base.volumes[(15 : VolumeNo)] = false ∧
    (∀ x ∈ [Status.opened, .frozen, .lockedFrozen, .changing .delete .opened,
        .changing .delete (.damaged .opened), .damaged .opened],
      (withVolume base (bindable x)).volumes[(4 : VolumeNo)] = .present (bindable x)) := by decide +kernel

theorem witness_UnbindUnbindsWindow :
    (awaits (ask blank 0 .unbind [0]) 0 .unbind [0] = true ∧ blank.device = .unformatted) ∧
    (awaits (ask base 0 .unbind [4]) 0 .unbind [4] = true ∧ base.device ≠ .unformatted ∧
      4 ≤ (4#8).toNat) ∧
    awaits (ask base 0 .unbind [3]) 0 .unbind [3] = true ∧ (3#8).toNat = (3 : WindowNo).val := by
  decide +kernel

/-! Reading. -/

/-- A port whose windows 0 to 3 are UNBOUND, STALE, bound to READ and bound to WRITE. -/
def windowed : State :=
  withWindow (withWindow (withWindow (withTxn base 0 .opened) 0 0 (.stale (span .write))) 0 2 (.bound (span .read)))
    0 3 (.bound (span .write))

/-- Port 0 of that state can complete command `c` with window and offset. -/
def awaitsAt (c : Command) (window : Byte) (offset : Half) : Bool :=
  awaits (ask windowed 0 c (window :: halfBytes offset)) 0 c (window :: halfBytes offset)

theorem witness_ReadBeginsBurst :
    awaitsAt .read 4 0 ∧ awaitsAt .read 0 0 ∧ awaitsAt .read 1 0 ∧ awaitsAt .read 2 2048 ∧
    awaitsAt .read 2 2047 ∧
    windowed.device ≠ .unformatted ∧
    windowed.ports[(0 : Port)].windows[(0 : WindowNo)] = .stale (span .write) ∧
    windowed.ports[(0 : Port)].windows[(1 : WindowNo)] = .unbound ∧
    windowed.ports[(0 : Port)].windows[(2 : WindowNo)] = .bound (span .read) ∧
    256 * (span .read).count ≤ (2048#16).toNat ∧ (2047#16).toNat < 256 * (span .read).count := by
  decide +kernel

/-- Volume 4 with a committed page 0, a poisoned page 1, P0's DATA claim on page 2, P0's HOLE claim on page 3
and P1's claim on hole page 4. -/
def pages : VolumeRecord :=
  volumeOf .opened [(0, ⟨kept 412, none⟩), (1, ⟨some ⟨413, 0#16, true⟩, none⟩),
    (2, ⟨kept 414, some ⟨0, .data 1600⟩⟩), (3, ⟨kept 415, some ⟨0, .hole⟩⟩), (4, ⟨none, some ⟨1, .hole⟩⟩)]

/-- Port 0 in a READ burst `b` through window 3, which holds `w`, over those pages. -/
def readsPages (w : Window) (b : Burst) : State :=
  inData (withWindow (withVolume base pages) 0 3 w) 0 .read (some b)

/-- A READ burst through window 3 at offset `x`. -/
def readBurst (x : Nat) : Burst := ⟨.read, 3, x, false, false, none, none⟩

theorem witness_ReadByteIsTaken :
    (∀ b ∈ [readBurst 0, { readBurst 0 with stopped := true }, readBurst 2048,
        { readBurst 2048 with endReported := true }, readBurst 2047],
      ∀ w ∈ [Window.bound (span .read), .stale (span .read)],
      (readsPages w b).ports[(0 : Port)].frame.phase = .data ∧
      (readsPages w b).ports[(0 : Port)].burst = some b ∧ b.kind = .read ∧
      (readsPages w b).ports[(0 : Port)].windows[b.window] = w) ∧
    ((entryOf (readsPages (.bound (span .read)) (readBurst 512)) 4 2).claimOf 0 = some (.data 1600) ∧
      (entryOf (readsPages (.bound (span .read)) (readBurst 768)) 4 3).claimOf 0 = some .hole) ∧
    ((entryOf (readsPages (.bound (span .read)) (readBurst 1024)) 4 4).claimOf 0 = none ∧
      (entryOf (readsPages (.bound (span .read)) (readBurst 1024)) 4 4).committed = none) ∧
    ((entryOf (readsPages (.bound (span .read)) (readBurst 0)) 4 0).claimOf 0 = none ∧
      (entryOf (readsPages (.bound (span .read)) (readBurst 0)) 4 0).committed =
        some ⟨412, 0x1234#16, false⟩) ∧
    (1 : PageNo) = Fin.ofNat 64 ((span .read).first.val + 256 / 256) ∧
    (1 : PageNo) = Fin.ofNat 64 ((span .read).first.val + 511 / 256) ∧
    (7 : PageNo) = Fin.ofNat 64 ((span .read).first.val + 2047 / 256) ∧
    2047 < 256 * (span .read).count ∧ 256 * (span .read).count ≤ 2048 ∧
    (entryOf (readsPages (.bound (span .read)) (readBurst 256)) 4 1).claimOf 0 = none ∧
    (entryOf (readsPages (.bound (span .read)) (readBurst 256)) 4 1).committed =
      some ⟨413, 0#16, true⟩ ∧
    { readBurst 257 with poisonReported := some 1 }.poisonReported = some 1 ∧
    (readBurst 256).poisonReported ≠ some 1 := by decide +kernel

/-- Two states that differ in P1's claim on page 2 alone; P0 holds none there. -/
theorem witness_ReadsSeeNoForeignClaim :
    let s := withVolume base (volumeOf .opened [(2, ⟨kept 412, some ⟨1, .data 1600⟩⟩)])
    let t := withVolume base (volumeOf .opened [(2, ⟨kept 412, none⟩)])
    (∀ k, (entryOf s 4 2).claim ≠ some ⟨0, k⟩) ∧ (∀ k, (entryOf t 4 2).claim ≠ some ⟨0, k⟩) ∧
    (entryOf s 4 2).committed = (entryOf t 4 2).committed ∧
    ∀ c, (entryOf s 4 2).committed = some c →
      arrayAt s (256 * c.frame.val + 255) = arrayAt t (256 * c.frame.val + 255) := by
  intro s t
  have hs : (entryOf s 4 2).claim = some ⟨1, .data 1600⟩ := by decide +kernel
  have ht : (entryOf t 4 2).claim = none := by decide +kernel
  have ha : s.array = [] := rfl
  have hb : t.array = [] := rfl
  refine ⟨fun k h => ?_, fun k h => ?_, by decide +kernel, fun c _ => ?_⟩
  · rw [hs] at h; injection h with h; injection h with h _; exact absurd h (by decide)
  · rw [ht] at h; cases h
  · rw [arrayAt, arrayAt, ha, hb]

/-! Writing. -/

theorem witness_WriteBeginsBurst :
    awaitsAt .write 4 0 ∧ awaitsAt .write 0 0 ∧ awaitsAt .write 1 0 ∧ awaitsAt .write 2 0 ∧
    awaitsAt .write 3 2048 ∧ awaitsAt .write 3 2047 ∧
    windowed.device ≠ .unformatted ∧
    windowed.ports[(0 : Port)].windows[(0 : WindowNo)] = .stale (span .write) ∧
    windowed.ports[(0 : Port)].windows[(1 : WindowNo)] = .unbound ∧
    windowed.ports[(0 : Port)].windows[(2 : WindowNo)] = .bound (span .read) ∧
    windowed.ports[(0 : Port)].windows[(3 : WindowNo)] = .bound (span .write) ∧
    windowed.ports[(0 : Port)].txn.state = .opened := by
  decide +kernel

/-- A WRITE burst through window 3 at offset `x`. -/
def writeBurst (x : Nat) : Burst := ⟨.write, 3, x, false, false, none, none⟩

/-- Port 0 with an OPEN transaction in a WRITE burst `b` through window 3, which holds `w`, volume 4 being
`r`, with `n` claims. -/
def writesPages (w : Window) (b : Burst) (r : VolumeRecord) (n : Nat) : State :=
  { inData (withWindow (withTxn (withVolume base r) 0 .opened) 0 3 w) 0 .write (some b) with
    claimCount := #v[n, 0, 0, 0] }

/-- What every write of a byte inside the window has. -/
def writesInside (x : Nat) (g : PageNo) (r : VolumeRecord) (n : Nat) : Bool :=
  let s := writesPages (.bound (span .write)) (writeBurst x) r n
  decide <| s.ports[(0 : Port)].frame.phase = .data ∧ s.ports[(0 : Port)].burst = some (writeBurst x) ∧
  (writeBurst x).kind = .write ∧ (writeBurst x).stopped = false ∧
  s.ports[(0 : Port)].txn.state = .opened ∧
  s.ports[(0 : Port)].windows[(writeBurst x).window] = .bound (span .write) ∧
  (writeBurst x).cursor < 256 * (span .write).count ∧
  g = Fin.ofNat 64 ((span .write).first.val + (writeBurst x).cursor / 256) ∧
  s.volumes[(4 : VolumeNo)] = .present r

theorem witness_WriteByteInOwnShadow :
    writesInside 767 2 pages 2 ∧
    (entryOf (writesPages (.bound (span .write)) (writeBurst 767) pages 2) 4 2).claim =
      some ⟨0, .data 1600⟩ ∧
    MemoryForm (writesPages (.bound (span .write)) (writeBurst 767) pages 2) := by
  unfold MemoryForm
  decide +kernel

/-- What a write that takes frame 1600 needs of the free list and the memories. -/
def writesFrom (s : State) : Prop :=
  s.freeList = 1600 :: s.freeList.tail ∧ 8 < s.freeList.length ∧ MemoryForm s

theorem witness_WriteByteMakesDataClaim :
    (writesInside 2047 7 pages 255 ∧ writesInside 0 0 pages 0 ∧ writesInside 256 1 pages 0 ∧
      writesInside 768 3 pages 2) ∧
    (writesFrom (writesPages (.bound (span .write)) (writeBurst 2047) pages 255) ∧
      writesFrom (writesPages (.bound (span .write)) (writeBurst 0) pages 0)) ∧
    isPool 1600 = true ∧
    (pages.entries[(7 : PageNo)].claim = none ∧ pages.status = .opened ∧
      255 < quotaOf (writesPages (.bound (span .write)) (writeBurst 2047) pages 255) 0) ∧
    pages.entries[(7 : PageNo)].committed = none ∧
    pages.entries[(0 : PageNo)].committed = some ⟨412, 0x1234#16, false⟩ ∧
    pages.entries[(1 : PageNo)].committed = some ⟨413, 0#16, true⟩ ∧
    pages.entries[(3 : PageNo)].claim = some ⟨0, .hole⟩ := by
  unfold writesFrom MemoryForm
  decide +kernel

/-- The same state with 8 free frames. -/
def atReserve (s : State) : State := { s with freeList := s.freeList.take 8 }

theorem witness_WriteByteRefused :
    (∀ b ∈ [{ writeBurst 0 with stopped := true }, writeBurst 0, writeBurst 2048,
        { writeBurst 2048 with endReported := true }],
      ∀ w ∈ [Window.bound (span .write), .stale (span .write)],
      (writesPages w b pages 0).ports[(0 : Port)].frame.phase = .data ∧
      (writesPages w b pages 0).ports[(0 : Port)].burst = some b ∧ b.kind = .write ∧
      (writesPages w b pages 0).ports[(0 : Port)].windows[b.window] = w) ∧
    (withTxn (writesPages .unbound (writeBurst 0) pages 0) 0 .expired).ports[(0 : Port)].txn.state ≠
      .opened ∧
    (writesInside 768 3 pages 2 ∧ pages.entries[(3 : PageNo)].claim = some ⟨0, .hole⟩ ∧
      (atReserve (writesPages (.bound (span .write)) (writeBurst 768) pages 2)).freeList.length ≤ 8) ∧
    (∀ x ∈ [Status.changing .lock .opened, .frozen, .lockedFrozen, .opened],
      writesInside 2047 7 (volumeOf x []) 256 ∧ (volumeOf x []).entries[(7 : PageNo)].claim = none) ∧
    (writesInside 1024 4 pages 0 ∧ pages.entries[(4 : PageNo)].claim = some ⟨1, .hole⟩) ∧
    (atReserve (writesPages (.bound (span .write)) (writeBurst 2047) (volumeOf .opened [])
      255)).freeList.length ≤ 8 ∧ quotaOf base 0 ≤ 256 ∧ 255 < quotaOf base 0 := by
  decide +kernel

theorem witness_WriteByteRefused_other_claims (k : ClaimKind) :
    pages.entries[(4 : PageNo)].claim ≠ some ⟨0, k⟩ ∧
    (volumeOf .opened []).entries[(7 : PageNo)].claim ≠ some ⟨0, k⟩ := by
  have h : pages.entries[(4 : PageNo)].claim = some ⟨1, .hole⟩ := by decide +kernel
  have h7 : (volumeOf .opened []).entries[(7 : PageNo)].claim = none := by decide +kernel
  rw [h, h7]
  exact ⟨by simp, by simp⟩

/-- Port 0 about to punch page `index` of volume 4, which is `r`, through window 3, with `n` claims. -/
def punches (index : Byte) (r : VolumeRecord) (n : Nat) : State :=
  ask { withWindow (withTxn (withVolume base r) 0 .opened) 0 3 (.bound (span .write)) with
    claimCount := #v[n, 0, 0, 0] } 0 .punch [3, index]

/-- What every punch through that window has. -/
def punchesThrough (index : Byte) (r : VolumeRecord) (n : Nat) : Bool :=
  decide <| awaits (punches index r n) 0 .punch [3, index] = true ∧ (punches index r n).device ≠ .unformatted ∧
  (3#8).toNat = (3 : WindowNo).val ∧
  (punches index r n).ports[(0 : Port)].windows[(3 : WindowNo)] = .bound (span .write) ∧
  (punches index r n).ports[(0 : Port)].txn.state = .opened ∧
  (punches index r n).volumes[(4 : VolumeNo)] = .present r

theorem witness_PunchMakesHoleClaim :
    (∀ i ∈ [3#8, 2, 4, 7], punchesThrough i pages 0 ∧ i.toNat < (span .write).count) ∧
    pages.entries[(3 : PageNo)].claim = some ⟨0, .hole⟩ ∧
    (pages.entries[(2 : PageNo)].claim = some ⟨0, .data 1600⟩ ∧ isPool 1600 = true) ∧
    pages.entries[(4 : PageNo)].claim = some ⟨1, .hole⟩ ∧
    (∀ x ∈ [Status.changing .lock .opened, .frozen, .lockedFrozen, .opened],
      punchesThrough 7 (volumeOf x []) 256 ∧ punchesThrough 0 (volumeOf x []) 255 ∧
      (volumeOf x []).entries[(7 : PageNo)].claim = none ∧
      (volumeOf x []).entries[(0 : PageNo)].claim = none) ∧
    quotaOf base 0 = 256 := by
  decide +kernel

theorem witness_PunchChecksItsWindow :
    (∀ w ∈ [0#8, 1, 2, 4, 255], awaits (ask windowed 0 .punch [w, 0]) 0 .punch [w, 0] = true) ∧
    windowed.device ≠ .unformatted ∧
    windowed.ports[(0 : Port)].windows[(0 : WindowNo)] = .stale (span .write) ∧
    windowed.ports[(0 : Port)].windows[(1 : WindowNo)] = .unbound ∧
    windowed.ports[(0 : Port)].windows[(2 : WindowNo)] = .bound (span .read) ∧
    (punchesThrough 8 pages 0 ∧ punchesThrough 255 pages 0 ∧ (span .write).count ≤ (8#8).toNat) ∧
    (punches 8 pages 0).ports[(0 : Port)].burst = none := by decide +kernel

/-! Administration. -/

/-- The state with the mask holding P3 alone. -/
def onlyP3 : State :=
  { base with engine := { base.engine with
      settings := some ⟨#v[false, false, false, true], #v[256, 256, 256, 256], 3⟩ } }

/-- The state with the queue `q` and the engine in state `e`. -/
def queued (e : EngineState) (q : List Request) : State :=
  { base with engine := { base.engine with state := e, queue := q } }

theorem witness_AdminCommonChecks :
    commandOf (.pin 0 15) = some (0, .pin, [15]) ∧ isAdminCommand .pin = true ∧
    (awaits (ask onlyP3 0 .pin [15]) 0 .pin [15] = true ∧ onlyP3.device ≠ .unformatted ∧
      isAdminPort (ask onlyP3 0 .pin [15]) 0 = false) ∧
    (isAdminPort (ask (queued .root [⟨0, .commit⟩]) 0 .pin [15]) 0 = true ∧
      ∃ r ∈ (queued .root [⟨0, .commit⟩]).engine.queue ++
        (queued .root [⟨0, .commit⟩]).engine.inFlight.toList, r.port = 0) ∧
    (isAdminPort (ask (queued .stopped []) 0 .pin [15]) 0 = true ∧
      (∀ r ∈ (queued .stopped []).engine.queue ++ (queued .stopped []).engine.inFlight.toList,
        r.port ≠ 0) ∧ (queued .stopped []).engine.state = .stopped) := by decide +kernel

/-- Port 0 about to have command `c` taken, with its common checks passing. -/
def administers (s : State) (c : Command) (args : List Byte) : Bool :=
  awaits (ask s 0 c args) 0 c args && adminReady (ask s 0 c args) 0

theorem witness_CreateAccepted :
    administers contended .create [16, 1, 0, 0] = true ∧ administers contended .create [0, 0, 0, 0] = true ∧
    administers contended .create [0, 65, 0, 0] = true ∧
    administers contended .create [0, 1, 0, 2] = true ∧
    (administers contended .create [0, 1, 0xC0, 0] = true ∧
      (0xC0#8).extractLsb' (2 * (3 : Port).val) 2 = 3#2) ∧
    (administers contended .create [4, 64, 0, 1] = true ∧
      contended.volumes[(4 : VolumeNo)] ≠ .absent) ∧
    (administers contended .create [15, 1, 0, 0] = true ∧
      contended.volumes[(15 : VolumeNo)] = .absent) ∧ (1#8).toNat = true.toNat ∧
    ∀ q : Port, (0xA4#8).extractLsb' (2 * q.val) 2 =
      (match (#v[Right.noAccess, .read, .write, .write] : Vector Right 4)[q] with
        | .noAccess => 0#2 | .read => 1#2 | .write => 2#2) := by decide +kernel

/-- Volume 4 without claims in status `x`, with its page 2 committed. -/
def quiet (x : Status) : State := withVolume base (volumeOf x [(2, ⟨kept 412, none⟩)])

theorem witness_ChangingAccepted :
    (∀ x ∈ [ReturnState.opened, .frozen, .damaged .opened],
      (quiet x.status).volumes[(4 : VolumeNo)] =
        .present (volumeOf x.status [(2, ⟨kept 412, none⟩)]) ∧
      administers (quiet x.status) .delete [4] = true ∧ guardActs (quiet x.status) 4 = false) ∧
    (4#8).toNat = (4 : VolumeNo).val ∧
    (∀ g : PageNo, (volumeOf .opened [(2, ⟨kept 412, none⟩)]).entries[g].claim = none) ∧
    (administers (quiet .opened) .resize [4, 1] = true ∧
      administers (quiet .opened) .resize [4, 64] = true) ∧
    administers (quiet .opened) .freeze [4] = true ∧ administers (quiet .frozen) .lock [4] = true := by
  decide +kernel

/-- RESIZE to 3 pages leaves the claim of page 2 alone. -/
theorem witness_ChangingAccepted_resize_below_claim :
    ∀ g : PageNo, (3#8).toNat ≤ g.val →
      (volumeOf .opened [(2, ⟨none, some ⟨1, .hole⟩⟩)]).entries[g].claim = none := by decide +kernel

theorem witness_StatelessAccepted :
    (administers (quiet .frozen) .thaw [4] = true ∧ guardActs (quiet .frozen) 4 = false ∧
      (volumeOf .frozen []).status = .frozen) ∧
    (administers (quiet .opened) .setRights [4, 0x32] = true ∧ (0x32#8).toNat / 16 = (3 : Port).val ∧
      (0x32#8).toNat % 16 = 2 ∧ ∀ st, (volumeOf .opened []).status ≠ .damaged st) ∧
    administers (quiet (.damaged .frozen)) .pin [4] = true ∧
    administers (quiet .lockedFrozen) .unpin [4] = true := by
  refine ⟨by decide +kernel, ⟨by decide +kernel, by decide, by decide, fun st h => by cases h⟩, ?_⟩
  decide +kernel

theorem witness_VolumeCommandRefusals :
    (commandOf (.resize 0 16 1) = some (0, .resize, [16, 1]) ∧
      administers base .resize [16, 1] = true) ∧
    (commandOf (.resize 0 0 0) = some (0, .resize, [0, 0]) ∧ administers base .resize [0, 0] = true) ∧
    administers base .resize [0, 65] = true ∧ administers base .setRights [0, 0x40] = true ∧
    administers base .setRights [0, 0x33] = true ∧
    (administers base .unpin [15] = true ∧ Volume.isPresent base.volumes[(15 : VolumeNo)] = false) ∧
    (∀ x ∈ [Status.changing (.resize 3) .opened, .damaged .opened, .lockedFrozen, .frozen, .opened],
      (quiet x).volumes[(4 : VolumeNo)] = .present (volumeOf x [(2, ⟨kept 412, none⟩)]) ∧
      guardActs (quiet x) 4 = false ∧ administers (quiet x) .freeze [4] = true ∧
      administers (quiet x) .delete [4] = true ∧ administers (quiet x) .thaw [4] = true) ∧
    (contended.volumes[(4 : VolumeNo)] =
        .present (volumeOf .opened [(2, ⟨kept 412, some ⟨0, .data 1600⟩⟩), (5, ⟨kept 415, none⟩)]) ∧
      administers contended .delete [4] = true ∧ administers contended .resize [4, 2] = true ∧
      administers contended .freeze [4] = true ∧ administers contended .lock [4] = true ∧
      guardActs contended 4 = false) ∧
    ∀ h : PageNo, h < 2 →
      (volumeOf .opened [(2, ⟨kept 412, some ⟨0, .data 1600⟩⟩), (5, ⟨kept 415, none⟩)]).entries[h].claim =
        none := by decide +kernel

/-- The same volume pinned, LOCKIN asserted. -/
def guarded : State :=
  { withVolume base { volumeOf .opened [] with pinned := true } with lockin := true }

theorem witness_GuardRefuses :
    commandOf (.unpin 0 4) = some (0, .unpin, [4]) ∧ administers guarded .unpin [4] = true ∧
    (4#8).toNat = (4 : VolumeNo).val ∧ guarded.lockin = true ∧
    guarded.volumes[(4 : VolumeNo)] = .present { volumeOf .opened [] with pinned := true } ∧
    administers guarded .resize [4, 64] = true ∧ administers guarded .setRights [4, 0x32] = true := by
  decide +kernel

theorem witness_ConfigAccepted :
    base.engine.settings = some ⟨#v[true, true, true, true], #v[256, 256, 256, 256], 3⟩ ∧
    (administers base .configPort (4 :: halfBytes 0 ++ [0]) = true ∧
      administers base .configPort (0 :: halfBytes 1025 ++ [0]) = true ∧
      administers base .configPort (0 :: halfBytes 0 ++ [2]) = true) ∧
    (administers base .configPort (3 :: halfBytes 1024 ++ [0]) = true ∧
      ∃ h : Port, h ≠ 3 ∧ (#v[true, true, true, true] : Vector Bool 4)[h] = true) ∧
    administers base .configDevice [255] = true := by decide +kernel

/-- A mask that holds P0 alone, which CONFIG_PORT would take out of it. -/
def onlyP0 : State :=
  { base with engine := { base.engine with
      settings := some ⟨#v[true, false, false, false], #v[256, 256, 256, 256], 3⟩ } }

theorem witness_ConfigAccepted_empty_mask :
    administers onlyP0 .configPort (0 :: halfBytes 0 ++ [0]) = true ∧
    ∀ h : Port, h ≠ 0 → (#v[true, false, false, false] : Vector Bool 4)[h] = false := by decide +kernel

theorem witness_FormatAccepted :
    (awaits (ask base 0 .format []) 0 .format [] = true ∧ base.device ≠ .unformatted) ∧
    (awaits (ask blank 0 .format []) 0 .format [] = true ∧ blank.device = .unformatted ∧
      (∀ r ∈ blank.engine.queue ++ blank.engine.inFlight.toList, r.port ≠ 0) ∧
      blank.engine.state ≠ .stopped) ∧
    (∃ r ∈ ({ blank.engine with queue := [⟨0, .format⟩] } : Engine).queue, r.port = 0) ∧
    ({ blank.engine with state := .stopped } : Engine).state = .stopped := by decide +kernel

/-! Results and queries. -/

/-- Port 0 with every record full. -/
def recorded : State :=
  ask (base.modPort 0 fun c => { c with
    result := ⟨some 0x13#8, some ⟨.claimed, some ⟨some 2, some 4, some 63, none⟩, .refused⟩⟩
    fault := some ⟨.pagePoisoned, .read, 3, 15, some 63, 16383, true⟩
    report := some ⟨.commit, .ok, none, some [(0, 101), (12, 2)], some 301, none⟩ }) 0 .getResult []

theorem witness_GetResultEmptiesRecords :
    (awaits (ask base 0 .getResult []) 0 .getResult [] = true ∧
      base.ports[(0 : Port)].result.result = none ∧ base.ports[(0 : Port)].fault = none ∧
      base.ports[(0 : Port)].report = none) ∧
    awaits recorded 0 .getResult [] = true ∧ recorded.ports[(0 : Port)].result.command = some 0x13#8 ∧
    recorded.ports[(0 : Port)].result.result =
      some ⟨.claimed, some ⟨some 2, some 4, some 63, none⟩, .refused⟩ ∧
    recorded.ports[(0 : Port)].fault = some ⟨.pagePoisoned, .read, 3, 15, some 63, 16383, true⟩ ∧
    recorded.ports[(0 : Port)].report =
      some ⟨.commit, .ok, none, some [(0, 101), (12, 2)], some 301, none⟩ ∧
    ([(0, 101), (12, 2)] : List (VolumeNo × Word))[1]? = some (12, 2) := by decide +kernel

theorem witness_SetAttnReplacesMask :
    (awaits (ask base 0 .setAttn [0x20]) 0 .setAttn [0x20] = true ∧
      (0x20#8).extractLsb' 5 3 ≠ 0#3) ∧
    (awaits (ask base 0 .setAttn [0x1F]) 0 .setAttn [0x1F] = true ∧
      (0x1F#8).extractLsb' 5 3 = 0#3) ∧ base.device = .running := by decide +kernel

theorem witness_QueriesReportRecords :
    (awaits (ask contended 0 .infoVolume [16]) 0 .infoVolume [16] = true ∧
      awaits (ask contended 0 .infoVolume [15]) 0 .infoVolume [15] = true ∧
      contended.device ≠ .unformatted ∧ contended.volumes[(15 : VolumeNo)] = .absent) ∧
    (contended.setVolume 9 (.creating 64 #v[.write, .read, .noAccess, .noAccess] true)).volumes[(9 : VolumeNo)] =
      .creating 64 #v[.write, .read, .noAccess, .noAccess] true ∧
    (awaits (ask contended 0 .infoPage [0, 64]) 0 .infoPage [0, 64] = true ∧
      awaits (ask contended 0 .infoPage [4, 63]) 0 .infoPage [4, 63] = true ∧
      Volume.isPresent contended.volumes[(15 : VolumeNo)] = false ∧
      Volume.isPresent contended.volumes[(4 : VolumeNo)] = true ∧
      (entryOf contended 4 2).claim = some ⟨0, .data 1600⟩ ∧ (entryOf contended 4 63).claim = none) ∧
    (awaits (ask base 0 .infoDevice []) 0 .infoDevice [] = true ∧ base.device = .running ∧
      base.engine.sequence = some 90 ∧
      base.engine.settings = some ⟨#v[true, true, true, true], #v[256, 256, 256, 256], 3⟩) ∧
    awaits (ask blank 0 .infoDevice []) 0 .infoDevice [] = true ∧ blank.device = .unformatted ∧
    blank.engine.sequence = none ∧ blank.engine.settings = none := by decide +kernel

/-! The update engine. -/

/-- The part with volume 4 in status `x`, and with the queue `q`. -/
def queues (x : Status) (q : List Request) : State :=
  { quiet x with engine := { (quiet x).engine with queue := q } }

/-- The queue holds the request of kind `k` of port 0 alone, and the engine may remove it. -/
def removes (s : State) (k : RequestKind) : Bool :=
  decide (s.engine.state = .idle ∧ s.engine.inFlight = none ∧ s.engine.queue = [⟨0, k⟩] ∧
    (s.device = .running ∨ s.device = .unformatted))

theorem witness_RequestRemovalStartsUpdate_nothing :
    base.engine.queue = [] ∧ (queued .root [⟨0, .commit⟩]).engine.state ≠ .idle ∧
    State.reset.device ≠ .running ∧ State.reset.device ≠ .unformatted := by decide +kernel

theorem witness_RequestRemovalStartsUpdate_fails :
    (removes (queues .opened [⟨0, .format⟩]) .format = true ∧
      (queues .opened [⟨0, .format⟩]).device = .running) ∧
    (∀ x ∈ [Status.opened, .changing .lock .frozen],
      removes (queues x [⟨0, .thaw 4⟩]) (.thaw 4) = true ∧
      (queues x [⟨0, .thaw 4⟩]).volumes[(4 : VolumeNo)] =
        .present (volumeOf x [(2, ⟨kept 412, none⟩)])) ∧
    (removes (queues .opened [⟨0, .pin 15⟩]) (.pin 15) = true ∧
      Volume.isPresent (queues .opened [⟨0, .pin 15⟩]).volumes[(15 : VolumeNo)] = false) ∧
    (removes { onlyP0 with engine := { onlyP0.engine with queue := [⟨0, .configPort 0 0 false⟩] } }
        (.configPort 0 0 false) = true ∧
      ∀ h : Port, h ≠ 0 → (#v[true, false, false, false] : Vector Bool 4)[h] = false) := by
  decide +kernel

theorem witness_RequestRemovalStartsUpdate_starts :
    (removes { blank with engine := { blank.engine with queue := [⟨0, .format⟩] } } .format = true ∧
      blank.device = .unformatted) ∧
    (removes (queues .frozen [⟨0, .thaw 4⟩]) (.thaw 4) = true ∧
      (queues .frozen [⟨0, .thaw 4⟩]).volumes[(4 : VolumeNo)] =
        .present (volumeOf .frozen [(2, ⟨kept 412, none⟩)])) ∧
    (removes (queues .opened [⟨0, .setRights 4 3 .read⟩]) (.setRights 4 3 .read) = true ∧
      Volume.isPresent (queues .opened [⟨0, .setRights 4 3 .read⟩]).volumes[(4 : VolumeNo)] = true) ∧
    (removes (queues .opened [⟨0, .configPort 3 0 false⟩]) (.configPort 3 0 false) = true ∧
      ∃ h : Port, h ≠ 3 ∧ (#v[true, true, true, true] : Vector Bool 4)[h] = true) ∧
    (removes committing .commit = true ∧ committing.engine.selected = some .a ∧
      committing.engine.sequence = some 90 ∧ (entryOf committing 4 2).claim = some ⟨0, .data 1600⟩) ∧
    removes (queues (.changing (.resize 7) .opened) [⟨0, .resize 4 7⟩]) (.resize 4 7) = true ∧
    removes (queues (.changing (.resize 8) .opened) [⟨0, .resize 4 8⟩]) (.resize 4 8) = true := by
  decide +kernel

/-- The state with the update marked for abandonment. -/
def marked (s : State) : State := { s with engine := { s.engine with abandon := true } }

/-- The state with the program of the update running on alone. -/
def alone (s : State) : State := { s with engine := s.engine.ended }

/-- A RESIZE of volume 4 to 2 pages at its map step, with frame `f` in program, in device state `d`. -/
def resizing (d : Device) (f : FrameNo) : State :=
  let s := queues (.changing (.resize 2) .opened) []
  { s with
    device := d, program := some f
    engine := { s.engine with
      state := .maps, inFlight := some ⟨1, .resize 4 2⟩
      plan := some ⟨[.map 4 1 6 false, .root .b 91 false], 0⟩ } }

/-- A power-fail sequence with budget `b` in which port 0 is taken. -/
def failing (b : Nat) : Device :=
  .powerFail b #v[true, false, false, false] #v[false, false, false, false]

theorem witness_PassedProgramStartsNextStep :
    ((inStep 0 1600).program = some 1600 ∧ isPool 1600 = true) ∧
    ((inStep 1 11).program = some 11 ∧ isPool 11 = false ∧ isRootSlot 11 = false) ∧
    ((alone (inStep 0 1600)).program = some 1600 ∧ (alone (inStep 0 1600)).engine.inFlight = none) ∧
    (∀ n ∈ [0, 1], (inStep n 11).engine.inFlight = some ⟨0, .commit⟩ ∧
      (inStep n 11).engine.plan =
        some ⟨[.page 4 2 1600 0 (some 0x5678#16), .map 4 1 6 false, .root .b 91 false], n⟩ ∧
      (inStep n 11).engine.abandon = false ∧ n + 1 < 3) ∧
    ((alone (inStep 2 1)).program = some 1 ∧ isRootSlot 1 = true ∧
      (alone (inStep 2 1)).engine.inFlight = none) ∧
    ((marked (inStep 2 1)).engine.abandon = true ∧ (marked (inStep 2 1)).engine.inFlight = some ⟨0, .commit⟩) ∧
    (marked (inStep 1 11)).engine.abandon = true ∧
    ((marked (resizing (failing 0) 11)).engine.abandon = true ∧
      (marked (resizing (failing 0) 11)).engine.inFlight = some ⟨1, .resize 4 2⟩ ∧
      (RequestKind.resize 4 2).changes 4 = true ∧
      (marked (resizing (failing 0) 11)).volumes[(4 : VolumeNo)] =
        .present (volumeOf (.changing (.resize 2) .opened) [(2, ⟨kept 412, none⟩)])) := by decide +kernel

/-- P0's commit at its page step, relocated `n` times before, with `r` retired frames. -/
def atPage (n : Nat) (r : Nat) (d : Device) : State :=
  { contended with
    device := d, program := some 1600
    engine := { contended.engine with
      state := .frames, inFlight := some ⟨0, .commit⟩
      plan := some ⟨[.page 4 2 1600 n (some 0x5678#16), .map 4 1 6 false, .root .b 91 false], 0⟩
      retired := (List.range r).map fun i => Fin.ofNat 2048 (100 + i) } }

theorem witness_FailedPageIsRelocated :
    ((alone (atPage 0 0 (.recalling .rootSlots))).program = some 1600 ∧
      (alone (atPage 0 0 (.recalling .rootSlots))).engine.inFlight = none) ∧
    (marked (atPage 0 0 (failing 0))).engine.abandon = true ∧
    (∀ s ∈ [atPage 0 0 .running, atPage 0 0 (failing 0), atPage 0 0 (failing 1)],
      s.program = some 1600 ∧ s.engine.inFlight = some ⟨0, .commit⟩ ∧ s.engine.abandon = false ∧
      (s.engine.plan.bind Plan.step) = some (.page 4 2 1600 0 (some 0x5678#16)) ∧
      (entryOf s 4 2).claim = some ⟨0, .data 1600⟩) ∧ isPool 1600 = true ∧
    (inPowerFail (atPage 2 0 .running) = false ∧
      ((atPage 2 0 .running).engine.plan.bind Plan.step) =
        some (.page 4 2 1600 2 (some 0x5678#16))) ∧
    (inPowerFail (atPage 2 0 (failing 0)) = true ∧
      ((atPage 2 0 (failing 0)).engine.plan.bind Plan.step) =
        some (.page 4 2 1600 2 (some 0x5678#16))) ∧
    24 ≤ (atPage 0 24 .running).engine.retired.length ∧
    (atPage 1 23 .running).engine.retired.length < 24 ∧
    ({ atPage 0 0 .running with freeList := [] }).freeList = [] ∧
    (atPage 1 23 .running).freeList = 1601 :: (atPage 1 23 .running).freeList.tail ∧
    isPool 1601 = true ∧ 1600 ∉ (atPage 1 23 .running).freeList ∧
    (atPage 0 0 (failing 1)).device = .powerFail (0 + 1) #v[true, false, false, false]
      #v[false, false, false, false] ∧
    (atPage 0 0 (failing 0)).device = .powerFail 0 #v[true, false, false, false]
      #v[false, false, false, false] ∧
    (atPage 0 0 (failing 0)).freeList ≠ [] := by decide +kernel

/-- A part whose update in flight is at step `step` with `f` in program, in device state `d`; queued behind it
are a DELETE of volume 4, which is CHANGING, and a CREATE of volume 9. -/
def atSystem (d : Device) (f : FrameNo) (step : PlanStep) : State :=
  let s := (queues (.changing .delete .frozen)
    [⟨1, .delete 4⟩, ⟨2, .create 9 64 #v[.write, .read, .noAccess, .noAccess] true⟩]).setVolume 9
      (.creating 64 #v[.write, .read, .noAccess, .noAccess] true)
  { s with
    device := d, program := some f
    engine := { s.engine with state := .maps, inFlight := some ⟨0, .commit⟩, plan := some ⟨[step], 0⟩ } }

theorem witness_SystemAreaFailure :
    (∀ used ∈ [false, true], ∀ d ∈ [Device.running, failing 0, failing 1],
      let s := atSystem d 11 (.map 4 1 6 used)
      s.program = some 11 ∧ s.engine.inFlight = some ⟨0, .commit⟩ ∧
      s.engine.plan = some ⟨[.map 4 1 6 used], 0⟩ ∧ s.engine.abandon = false ∧
      (⟨[.map 4 1 6 used], 0⟩ : Plan).step = some (.map 4 1 6 used) ∧ (requestPorts s).Nodup) ∧
    (∀ f ∈ [(1 : FrameNo), 11], (alone (resizing (.recalling .rootSlots) f)).program = some f ∧
      (alone (resizing (.recalling .rootSlots) f)).engine.inFlight = none) ∧
    (marked (resizing (failing 1) 11)).engine.abandon = true ∧
    ((resizing (failing 0) 11).engine.abandon = false ∧
      (resizing (failing 0) 11).engine.plan = some ⟨[.map 4 1 6 false, .root .b 91 false], 0⟩ ∧
      (resizing (failing 0) 11).device =
        .powerFail 0 #v[true, false, false, false] #v[false, false, false, false]) ∧
    inPowerFail (atSystem (failing 1) 1 (.root .b 91 true)) = true ∧
    isPool 11 = false ∧ isPool 1 = false ∧ isRootSlot 1 = true ∧
    (atSystem .running 1 (.root .b 91 true)).program = some 1 ∧
    inPowerFail (atSystem .running 11 (.map 4 1 6 true)) = false ∧
    (atSystem (failing 1) 11 (.map 4 1 6 false)).device =
      .powerFail (0 + 1) #v[true, false, false, false] #v[false, false, false, false] ∧
    (3 : Port) ∉ requestPorts (atSystem .running 11 (.map 4 1 6 true)) ∧
    ⟨1, .delete 4⟩ ∈ (atSystem .running 11 (.map 4 1 6 true)).engine.queue ∧
    (atSystem .running 11 (.map 4 1 6 true)).volumes[(4 : VolumeNo)] =
      .present (volumeOf (.changing .delete .frozen) [(2, ⟨kept 412, none⟩)]) ∧
    (atSystem .running 11 (.map 4 1 6 true)).volumes[(9 : VolumeNo)] =
      .creating 64 #v[.write, .read, .noAccess, .noAccess] true := by decide +kernel

theorem witness_CommitCompletion :
    (inStep 2 1).program = some RootSlot.b.frame ∧ (inStep 2 1).engine.inFlight = some ⟨0, .commit⟩ ∧
    (inStep 2 1).engine.abandon = false ∧
    ((inStep 2 1).engine.plan.bind Plan.step) = some (.root .b 91 false) ∧
    inPowerFail (inStep 2 1) = false ∧ inPowerFail { inStep 2 1 with device := failing 0 } = true ∧
    (entryOf (inStep 2 1) 4 2) = ⟨some ⟨412, 0x1234#16, false⟩, some ⟨0, .data 1600⟩⟩ ∧
    ((inStep 2 1).engine.plan.bind fun x => x.mapOf 4) = some (1, 6) ∧
    ((inStep 2 1).engine.plan.bind fun x => x.mapOf 3) = none ∧
    Volume.isPresent (inStep 2 1).volumes[(3 : VolumeNo)] = false := by decide +kernel

/-- A request of kind `k` of port 1 at its root step, volume 4 in status `x`, window 3 of port 0 bound in WRITE
mode to its pages 0 to 7. -/
def rooting (x : Status) (k : RequestKind) (steps : List PlanStep) : State :=
  let s := withWindow (quiet x) 0 3 (.bound (span .write))
  { s with
    program := some 1
    engine := { s.engine with
      state := .root, inFlight := some ⟨1, k⟩, plan := some ⟨steps ++ [.root .b 91 false], steps.length⟩ } }

theorem witness_AdministrationCompletion :
    (∀ k ∈ [RequestKind.configPort 3 1024 false, .configDevice 255, .format, .create 9 64
          #v[.write, .read, .noAccess, .noAccess] true, .delete 4, .freeze 4, .lock 4, .thaw 4,
          .setRights 4 0 .read, .pin 4, .unpin 4, .resize 4 8],
      (rooting .frozen k []).program = some RootSlot.b.frame ∧
      (rooting .frozen k []).engine.inFlight = some ⟨1, k⟩ ∧ k ≠ .commit ∧
      (rooting .frozen k []).engine.abandon = false ∧
      ((rooting .frozen k []).engine.plan.bind Plan.step) = some (.root .b 91 false) ∧
      inPowerFail (rooting .frozen k []) = false ∧
      inPowerFail { rooting .frozen k [] with device := failing 0 } = true ∧
      (rooting .frozen k []).ports[(0 : Port)].windows[(3 : WindowNo)] = .bound (span .write) ∧
      (rooting .frozen k []).volumes[(4 : VolumeNo)] =
        .present (volumeOf .frozen [(2, ⟨kept 412, none⟩)])) ∧
    ((rooting (.changing (.resize 2) .opened) (.resize 4 2) [.map 4 1 6 false]).engine.plan.bind
      Plan.step) = some (.root .b 91 false) ∧
    ((rooting (.changing (.resize 2) .opened) (.resize 4 2) [.map 4 1 6 false]).engine.plan.bind
      fun x => x.mapOf 4) = some (1, 6) ∧
    (∀ op ∈ [Operation.lock, .delete],
      (rooting (.changing op .frozen) (.thaw 4) []).engine.inFlight = some ⟨1, .thaw 4⟩ ∧
      (rooting (.changing op .frozen) (.thaw 4) []).volumes[(4 : VolumeNo)] =
        .present (volumeOf (.changing op .frozen) [(2, ⟨kept 412, none⟩)])) ∧
    (base.engine.settings = some ⟨#v[true, true, true, true], #v[256, 256, 256, 256], 3⟩ ∧
      blank.device = .unformatted) := by decide +kernel

/-- The windows that a completion makes STALE, at the edge of each condition, and one it leaves. -/
theorem witness_AdministrationCompletion_windows :
    windowGone (.delete 4) 0 (span .read) ∧ windowGone (.resize 4 7) 0 (span .read) ∧
    windowGone (.freeze 4) 0 (span .write) ∧ windowGone (.lock 4) 0 (span .write) ∧
    windowGone (.setRights 4 0 .read) 0 (span .write) ∧ ¬ windowGone (.resize 4 8) 0 (span .read) ∧
    ¬ windowGone (.freeze 4) 0 (span .read) ∧ ¬ windowGone (.setRights 4 1 .noAccess) 0 (span .read) := by
  refine ⟨.inl rfl, .inr (.inl ⟨7, rfl, by decide⟩), .inr (.inr (.inl ⟨.inl rfl, rfl⟩)),
    .inr (.inr (.inl ⟨.inr rfl, rfl⟩)), .inr (.inr (.inr ⟨.read, rfl, rfl⟩)), ?_, ?_, ?_⟩
  all_goals simp [windowGone, span]

/-! Power failure, the lines and the supply. -/

/-- A power-fail sequence with budget `b`, P0's durable-on-loss COMMIT queued and P2's durable-on-loss
transaction OPEN with a claim. -/
def sequence (b : Nat) (skipped : Vector Bool 4) : State :=
  let s := (committing.modTxn 0 fun t => { t with durable := true }).modTxn 2 fun t =>
    { t with state := .opened, durable := true }
  { s with
    claimCount := #v[1, 0, 1, 0]
    device := .powerFail b #v[false, false, false, false] skipped }

theorem witness_CandidateTakenOrSkipped :
    (∀ b ∈ [2, 3], ∀ k ∈ [#v[false, false, false, false], #v[true, false, false, false]],
      (sequence b k).device = .powerFail b #v[false, false, false, false] k ∧
      (sequence b k).engine.inFlight = none ∧ (sequence b k).engine.state ≠ .stopped ∧
      (sequence b k).engine.queue = [] ++ ⟨0, .commit⟩ :: [] ∧
      (sequence b k).ports[(0 : Port)].txn.durable = true) ∧
    ((sequence 3 #v[true, false, false, false]).ports[(2 : Port)].txn.state = .opened ∧
      (sequence 3 #v[true, false, false, false]).ports[(2 : Port)].txn.durable = true ∧
      0 < (sequence 3 #v[true, false, false, false]).claimCount[(2 : Port)] ∧
      ∀ q : Port, q < 2 → (sequence 3 #v[true, false, false, false]).ports[q].txn.state ≠ .opened) ∧
    commitCost (sequence 2 #v[false, false, false, false]) 0 = 3 ∧
    ((sequence 3 #v[false, false, false, false]).engine.selected = some .a ∧
      (sequence 3 #v[false, false, false, false]).engine.sequence = some 90) ∧
    nextCandidate (sequence 3 #v[true, false, false, false]) = some (.opened 2) ∧
    nextCandidate (sequence 3 #v[true, false, true, false]) = none := by decide +kernel

theorem witness_PowerFailEntry :
    (base.device = .running ∧
      base.engine.settings = some ⟨#v[true, true, true, true], #v[256, 256, 256, 256], 3⟩) ∧
    (blank.device = .unformatted ∧ blank.engine.settings = none) ∧
    (⟨1, .delete 4⟩ ∈ (atSystem .running 11 (.map 4 1 6 false)).engine.queue ∧
      (atSystem .running 11 (.map 4 1 6 false)).volumes[(4 : VolumeNo)] =
        .present (volumeOf (.changing .delete .frozen) [(2, ⟨kept 412, none⟩)]) ∧
      (atSystem .running 11 (.map 4 1 6 false)).volumes[(9 : VolumeNo)] =
        .creating 64 #v[.write, .read, .noAccess, .noAccess] true) ∧
    ((inStep 0 1600).engine.inFlight = some ⟨0, .commit⟩ ∧
      ((inStep 0 1600).engine.plan.map fun x => x.steps.length - (x.current + 1)) = some 2) ∧
    ((sequence 3 #v[false, false, false, false]).engine.inFlight = none ∧
      ∃ r ∈ (sequence 3 #v[false, false, false, false]).engine.queue, r.kind = .commit ∧
        (sequence 3 #v[false, false, false, false]).ports[r.port].txn.durable = true) ∧
    (∀ p : Port, base.ports[p].txn.state ≠ .opened) ∧ State.reset.device = .recalling .rootSlots ∧
    inPowerFail (sequence 0 #v[false, false, false, false]) = true := by decide +kernel

/-- Frames in each phase that the close of the links tells apart, in a part that runs. -/
theorem witness_PowerFailEntry_links :
    ∀ x ∈ [Phase.command, .arguments, .data, .ignoring, .notReady, .noFrame],
      (inPhase x (some .ok)).device = .running ∧ (inPhase x (some .ok)).ports[(0 : Port)].frame.phase = x := by
  decide +kernel

theorem witness_LinesLeadToRecall :
    ({ base with device := .halted }).device = .halted ∧ base.device = .running ∧
    blank.device = .unformatted ∧ State.reset.device = .recalling .rootSlots ∧
    (inPowerFail (sequence 0 #v[false, false, false, false]) = true ∧
      (sequence 0 #v[false, false, false, false]).engine.inFlight = none) ∧
    (inPowerFail (atPage 0 0 (failing 0)) = true ∧
      (atPage 0 0 (failing 0)).engine.inFlight = some ⟨0, .commit⟩) ∧
    (inPowerFail (resizing (failing 0) 11) = true ∧
      (resizing (failing 0) 11).engine.inFlight = some ⟨1, .resize 4 2⟩ ∧
      (RequestKind.resize 4 2).changes 4 = true) ∧
    ((inStep 0 1600).device ≠ .off ∧ (inStep 0 1600).program = some 1600 ∧ base.program = none) ∧
    (inStep 2 1).program = some 1 ∧ isRootSlot 1 = true := by
  decide +kernel

theorem witness_SupplyAndGuard :
    ({ base with device := .off }).device = .off ∧ base.device ≠ .off ∧ base.program = none ∧
    (inStep 0 1600).program = some 1600 ∧ (inStep 0 1600).device ≠ .off ∧
    (inStep 2 1).program = some 1 ∧ (inStep 2 1).device ≠ .off ∧ isRootSlot 1 = true := by decide +kernel

/-! Recall. -/

/-- A root without volumes. -/
def plain (n : Word) : Root := rootOf n (Vector.replicate 16 .absent)

/-- Volume 3 with a map image, volume 5 with a map slot never programmed, volume 6 without a map. -/
def recalledVolumes : Vector Durable 16 :=
  tab fun v =>
    if v = 3 then .kept .opened 4 #v[.write, .read, .noAccess, .noAccess] true true 0 20
    else if v = 5 then .kept .frozen 64 #v[.write, .read, .noAccess, .noAccess] false true 1 8
    else if v = 6 then .kept .lockedFrozen 1 #v[.write, .read, .noAccess, .noAccess] false false 0 1
    else .absent

theorem root_bytes_judged :
    judgeRoot (plain 500).bytes = some (plain 500) ∧ judgeRoot (plain 501).bytes = some (plain 501) ∧
    judgeRoot (plain 503).bytes = some (plain 503) ∧
    judgeRoot (rootOf 500 recalledVolumes).bytes = some (rootOf 500 recalledVolumes) := by
  simp only [judgeRoot, Root.bytes, imageCheck_inTurn]
  decide +kernel

theorem root_bytes_length :
    (plain 500).bytes.length = 256 ∧ (plain 501).bytes.length = 256 ∧ (plain 503).bytes.length = 256 ∧
    (rootOf 500 recalledVolumes).bytes.length = 256 := by decide +kernel

/-- A part at the first recall step whose root slots hold the bytes given. -/
def slots (a b : List Byte) : State :=
  { State.reset with cells := storeFrame cellFill (storeFrame cellFill [] 0 a) 1 b }

theorem slots_hold (a b : List Byte) (ha : a.length = 256) (hb : b.length = 256) :
    judgeRoot (cellFrame (slots a b) 0) = judgeRoot a ∧ judgeRoot (cellFrame (slots a b) 1) = judgeRoot b := by
  simp [cellFrame, slots, frameBytes_storeFrame, ha, hb]

theorem erased_judged : judgeRoot (List.replicate 256 0xFF#8) = none := by decide +kernel

/-- Every pair of root slots, valid or not, that the selection tells apart; each stands at the first recall step
with no program in progress. -/
theorem witness_RecallSelectsRoot :
    (base.device ≠ .recalling .rootSlots ∧
      ∀ a b, (slots a b).device = .recalling .rootSlots ∧ (slots a b).program = none) ∧
    (∀ x ∈ [500#32, 501#32, 503#32], ∀ y ∈ [500#32, 501#32, 503#32],
      judgeRoot (cellFrame (slots (plain x).bytes (plain y).bytes) 0) = some (plain x) ∧
      judgeRoot (cellFrame (slots (plain x).bytes (plain y).bytes) 1) = some (plain y)) ∧
    (judgeRoot (cellFrame (slots (plain 500).bytes (List.replicate 256 0xFF#8)) 0) = some (plain 500) ∧
      judgeRoot (cellFrame (slots (plain 500).bytes (List.replicate 256 0xFF#8)) 1) = none) ∧
    (judgeRoot (cellFrame (slots (List.replicate 256 0xFF#8) (plain 500).bytes) 0) = none ∧
      judgeRoot (cellFrame (slots (List.replicate 256 0xFF#8) (plain 500).bytes) 1) = some (plain 500)) ∧
    (judgeRoot (cellFrame (slots (List.replicate 256 0xFF#8) (List.replicate 256 0xFF#8)) 0) = none ∧
      judgeRoot (cellFrame (slots (List.replicate 256 0xFF#8) (List.replicate 256 0xFF#8)) 1) = none) ∧
    ((plain 501).sequence = (plain 500).sequence + 1 ∧ (plain 503).sequence ≠ (plain 500).sequence + 1 ∧
      (plain 500).sequence ≠ (plain 503).sequence + 1 ∧
      (plain 500).sequence.toNat < (plain 503).sequence.toNat) := by
  obtain ⟨j0, j1, j3, -⟩ := root_bytes_judged
  obtain ⟨l0, l1, l3, -⟩ := root_bytes_length
  have je := erased_judged
  have le : (List.replicate 256 0xFF#8).length = 256 := List.length_replicate
  have key : ∀ x ∈ [500#32, 501#32, 503#32],
      (plain x).bytes.length = 256 ∧ judgeRoot (plain x).bytes = some (plain x) := by
    intro x hx
    simp only [List.mem_cons, List.not_mem_nil, or_false] at hx
    rcases hx with rfl | rfl | rfl
    · exact ⟨l0, j0⟩
    · exact ⟨l1, j1⟩
    · exact ⟨l3, j3⟩
  refine ⟨⟨by decide +kernel, fun a b => ⟨rfl, rfl⟩⟩, fun x hx y hy => ?_, ?_, ?_, ?_, by decide⟩
  · have h := slots_hold _ _ (key x hx).1 (key y hy).1
    rw [h.1, h.2]
    exact ⟨(key x hx).2, (key y hy).2⟩
  · have h := slots_hold _ _ l0 le
    rw [h.1, h.2]
    exact ⟨j0, je⟩
  · have h := slots_hold _ _ le l0
    rw [h.1, h.2]
    exact ⟨je, j0⟩
  · have h := slots_hold _ _ le le
    rw [h.1, h.2]
    exact ⟨je, je⟩

/-- A part that stands at the rebuild of the volume table, slot A selected; the cells of map frame 8 hold
volume 3's image, and no other map slot was programmed. -/
def rebuilding : State :=
  { State.reset with
    device := .recalling .volumeTable
    array := storeFrame arrayFill [] 0 (rootOf 500 recalledVolumes).bytes
    cells := storeFrame cellFill [] 8 imageOf3.bytes
    engine := { Engine.unformatted with selected := some .a } }

theorem stored_frame (fill : Byte) (m : Memory) (f : FrameNo) (bytes : List Byte)
    (h : bytes.length = 256) : frameBytes fill (storeFrame fill m f bytes) f = bytes := by
  rw [frameBytes_storeFrame fill m f f bytes h, if_pos rfl]

theorem witness_RecallRebuildsVolumes :
    (rebuilding.device = .recalling .volumeTable ∧ rebuilding.program = none ∧
      rebuilding.engine.selected = some .a ∧
      judgeRoot (arrayFrame rebuilding RootSlot.a.frame) = some (rootOf 500 recalledVolumes)) ∧
    (rootOf 500 recalledVolumes).volumes[(0 : VolumeNo)] = .absent ∧
    (rootOf 500 recalledVolumes).volumes[(6 : VolumeNo)] =
      .kept .lockedFrozen 1 #v[.write, .read, .noAccess, .noAccess] false false 0 1 ∧
    ((rootOf 500 recalledVolumes).volumes[(3 : VolumeNo)] =
        .kept .opened 4 #v[.write, .read, .noAccess, .noAccess] true true 0 20 ∧
      judgeImage (cellFrame rebuilding (mapFrame 3 0)) 3 20 4 [1999] [] = some imageOf3.entries) ∧
    ((rootOf 500 recalledVolumes).volumes[(5 : VolumeNo)] =
        .kept .frozen 64 #v[.write, .read, .noAccess, .noAccess] false true 1 8 ∧
      judgeImage (cellFrame rebuilding (mapFrame 5 1)) 5 8 64 [1999] [1200] = none) := by
  have ha : arrayFrame rebuilding RootSlot.a.frame = (rootOf 500 recalledVolumes).bytes := by
    simp only [arrayFrame, rebuilding, RootSlot.frame]
    exact stored_frame arrayFill [] 0 _ root_bytes_length.2.2.2
  have hc : cellFrame rebuilding (mapFrame 3 0) = imageOf3.bytes := by
    have e : mapFrame 3 0 = 8 := by decide
    simp [cellFrame, rebuilding, e, frameBytes_storeFrame, length_mapImage_bytes]
  have hd : cellFrame rebuilding (mapFrame 5 1) = List.replicate 256 0xFF#8 := by
    have e : mapFrame 5 1 = 13 := by decide
    rw [e, cellFrame, rebuilding, frameBytes_storeFrame cellFill _ _ _ _ (length_mapImage_bytes _)]
    decide +kernel
  refine ⟨⟨rfl, rfl, rfl, ?_⟩, by decide +kernel, by decide +kernel, ⟨by decide +kernel, ?_⟩,
    by decide +kernel, ?_⟩
  · rw [ha]; exact root_bytes_judged.2.2.2
  · rw [hc]; exact test_recall_volume_good
  · rw [hd]
    simp only [judgeImage, imageCheck_inTurn]
    decide +kernel

/-- At the page checks with a page whose check fits its cells, and with one whose check does not. -/
theorem witness_RecallFindsPoison :
    (∀ c, (checking c).device = .recalling .pageChecks ∧ (checking c).program = none) ∧
    Volume.isPresent (checking 0).volumes[(3 : VolumeNo)] = false ∧
    (checking 0).volumes[(4 : VolumeNo)] =
      .present (volumeOf .opened [(2, ⟨some ⟨412, 0, false⟩, none⟩)]) ∧
    pageCheck (cellFrame (checking 0) 412) ≠ 0 ∧
    (∃ c, pageCheck (cellFrame (checking c) 412) = c ∧
      (entryOf (checking c) 4 2).committed = some ⟨412, c, false⟩) ∧
    (entryOf (checking 0) 4 3).committed = none := by
  have hc : ∀ c, cellFrame (checking c) 412 = List.replicate 256 0xFF#8 := fun c => by
    show frameBytes cellFill [] 412 = _
    decide +kernel
  refine ⟨fun c => ⟨rfl, rfl⟩, by decide +kernel, by decide +kernel, ?_, ?_, by decide +kernel⟩
  · rw [hc, pageCheck, foldl_inTurn]
    decide +kernel
  · refine ⟨pageCheck (List.replicate 256 0xFF#8), by rw [hc], ?_⟩
    rfl

/-- A part at the end of its recall, with a committed page and a retired frame. -/
def ending : State :=
  { checking 0 with
    device := .recalling .finish, engine := { (checking 0).engine with retired := [1999] } }

theorem witness_RecallEndRebuilds :
    (ending.device = .recalling .finish ∧ ending.program = none ∧ isPool 34 = true ∧
      isPool 2047 = true) ∧
    (∃ v g c, (entryOf ending v g).committed = some c ∧ c.frame = 412) ∧
    1999 ∈ ending.engine.retired ∧ (34 : FrameNo) ∉ ending.engine.retired :=
  ⟨⟨rfl, rfl, rfl, rfl⟩, ⟨4, 2, ⟨412, 0, false⟩, rfl, rfl⟩, by decide, by decide⟩

/-! Encodings. -/

theorem witness_FrameBytesReadBack :
    commandOf (.bind 3 255 255 255 255 255) = some (3, .bind, [255, 255, 255, 255, 255]) ∧
    decodeFrame 0 [0x60#8] = some (.getResult 0) ∧ [0#8, 0#8, 0#8].length = Command.begin.argCount := by
  decide

/-- The rows a byte stands for, phase by phase: a command, an unknown byte, a command with arguments, its first
argument and its last, and the bytes of the two bursts (R166 to R168). -/
theorem witness_FrameBytesReadBack_rows :
    (ask base 0 .touch []).ports[0].byteRow 0 0x12#8 = .touch 0 ∧
    (ask base 0 .touch []).ports[0].byteRow 0 0x10#8 = .unknownCommand 0 0x10#8 ∧
    (ask base 0 .touch []).ports[0].byteRow 0 0x11#8 = .commandByteComplete 0 0x11#8 ∧
    (ask base 0 .begin [1#8]).ports[0].byteRow 0 1#8 = .argumentByte 0 1#8 ∧
    (ask base 0 .begin [1#8, 2#8, 1#8]).ports[0].byteRow 0 1#8 = .begin 0 0x0102#16 1#8 ∧
    (inData base 0 .read (some (newBurst .read 0 0))).ports[0].byteRow 0 5#8 = .readDataByte 0 ∧
    (inData base 0 .write (some (newBurst .write 0 0))).ports[0].byteRow 0 5#8 = .writeDataByte 0 5#8 ∧
    (inData base 0 .infoDevice none).ports[0].byteRow 0 5#8 = .readDataByte 0 ∧
    (after (.selectFall 0 false) State.reset).ports[0].byteRow 0 5#8 = .argumentByte 0 5#8 := by
  decide +kernel

/-- Edges with select high; a select fall in either mode; a frame at the start of a byte, its command byte's edges,
and the seven bits of a byte that is cut short, with the edge after six of them (R162). -/
theorem witness_FrameBytesReadBack_link :
    base.ports[0].frame.phase = .noFrame ∧ base.device ≠ .off ∧
    (after (.selectFall 0 false) base).ports[0].frame.clockMode = .mode0 ∧
    (after (.selectFall 0 true) base).ports[0].frame.clockMode = .mode3 ∧
    (after (.selectFall 0 true) base).ports[0].frame.phase ≠ .noFrame ∧
    (after (.selectFall 0 true) base).ports[0].frame.bitCount = 0 ∧
    (clocked 0 (msbFirst 0x12#8) (after (.selectFall 0 true) base)).ports[0].frame.phase = .data ∧
    (List.replicate 7 true).length = (7 : Fin 8).val ∧
    (clocked 0 [true] (clocked 0 (List.replicate 6 true) (after (.selectFall 0 true) base))).ports[0].frame.bitCount
      = 7 := by decide +kernel

theorem recalledVolumes_sizes (v : VolumeNo) (st : Settled) (n : Nat) (rights : Vector Right 4)
    (k m : Bool) (slot : MapSlot) (gen : Word)
    (h : recalledVolumes[v] = .kept st n rights k m slot gen) : 1 ≤ n ∧ n ≤ 64 := by
  rw [recalledVolumes, tab_get] at h
  split at h
  · injection h; omega
  · split at h
    · injection h; omega
    · split at h
      · injection h; omega
      · cases h

theorem imageOf3_entry (g : PageNo) (f : FrameNo) (c : Half) (h : imageOf3.entries[g] = some (f, c)) :
    g = 1 ∧ f = 1200 := by
  rw [imageOf3, tab_get] at h
  split at h
  · injection h with h
    injection h with h _
    exact ⟨‹_›, h.symm⟩
  · cases h

theorem witness_ImagesReadBack :
    ((∃ p : Port, (rootOf 500 recalledVolumes).settings.mask[p] = true) ∧
      (rootOf 500 recalledVolumes).settings.budget < 256 ∧
      (∀ p : Port, (rootOf 500 recalledVolumes).settings.quotas[p] ≤ 1024) ∧
      (rootOf 500 recalledVolumes).retired.length ≤ 24 ∧
      (rootOf 500 recalledVolumes).retired.Nodup ∧
      (∀ f ∈ (rootOf 500 recalledVolumes).retired, isPool f = true)) ∧
    (∀ (v : VolumeNo) st n rights k m slot gen,
      (rootOf 500 recalledVolumes).volumes[v] = .kept st n rights k m slot gen → 1 ≤ n ∧ n ≤ 64) ∧
    (∀ (g : PageNo) f c, imageOf3.entries[g] = some (f, c) →
      g.val < 4 ∧ isPool f = true ∧ f ∉ [(1999 : FrameNo)] ∧ f ∉ [(1998 : FrameNo)]) ∧
    ∀ (g h : PageNo) f c d, imageOf3.entries[g] = some (f, c) → imageOf3.entries[h] = some (f, d) →
      g = h := by
  refine ⟨⟨⟨0, rfl⟩, by decide, by decide, by decide, by decide, fun f hf => ?_⟩,
    recalledVolumes_sizes, fun g f c h => ?_, fun g h f c d hg hh => ?_⟩
  · rw [List.mem_singleton.1 hf]
    rfl
  · obtain ⟨rfl, rfl⟩ := imageOf3_entry g f c h
    decide
  · rw [(imageOf3_entry g f c hg).1, (imageOf3_entry h f d hh).1]

/-! Laws. -/

theorem witness_MemoryFormIsKept :
    MemoryForm (writesPages (.bound (span .write)) (writeBurst 767) pages 2) ∧
    step { inStep 0 1600 with pending := [.lockinChange true] } =
      .next { inStep 0 1600 with lockin := true, pending := [] } :=
  ⟨witness_WriteByteInOwnShadow.2.2, by simp only [step, exec, execLockinChange]⟩

/-- A formatted part whose pool frames are all FREE, with volume 4 of holes. -/
def fresh : State := { withVolume base (volumeOf .opened []) with freeList := wholePool }

theorem fresh_entry (v : VolumeNo) (g : PageNo) : entryOf fresh v g = .hole := by
  unfold entryOf fresh withVolume
  simp only [State.setVolume_volumes, upd_get]
  split
  · simp only [Volume.entry, volumeOf, tab_get]
    rfl
  · show Volume.entry (Vector.replicate 16 Volume.absent)[v.val] g = _
    rw [Vector.getElem_replicate]
    rfl

theorem fresh_frames (f : FrameNo) :
    frameState fresh f = if isPool f = true then some .free else none := by
  unfold frameState poolIndex isPool
  by_cases h : Config.firstPoolFrame ≤ f.val
  · simp only [h, decide_true, if_true]
    show some ((Vector.replicate 2014 FrameState.free)[f.val - 34]) = _
    rw [Vector.getElem_replicate]
  · simp [h]

theorem fresh_poolLaw : PoolLaw fresh := by
  have hl : fresh.freeList = wholePool := by simp only [fresh]
  have hm : ∀ f, f ∈ fresh.freeList ↔ isPool f = true := fun f => by
    rw [hl, wholePool, List.mem_filter]
    simp only [mem_ascending, true_and, decide_eq_true_eq, isPool]
  have hn : fresh.freeList.Nodup := by
    rw [hl, wholePool]
    exact (ascending_nodup 2048).filter _
  refine ⟨hn, List.nodup_nil, fun f => ?_, fun f => ?_, fun f => ?_, fun f => ?_,
    fun v g w k c d h => ?_, fun v g w k p q f h => ?_⟩
  · rw [hm, fresh_frames]
    split <;> simp_all
  · rw [fresh_frames]
    show _ ↔ f ∈ ([] : List FrameNo)
    split <;> simp
  · simp only [fresh_frames, fresh_entry, Entry.hole]
    split <;> simp
  · simp only [fresh_frames, fresh_entry, Entry.hole]
    split <;> simp
  · rw [fresh_entry] at h
    cases h
  · rw [fresh_entry] at h
    cases h

/-- The pool after a write to page 2 of volume 4 was committed in frame 34 and another write claimed frame 35. -/
def rewritten : State := shadowPage (completeCommit (shadowPage fresh 0 4 2 []) 0 ⟨[], 0⟩) 0 4 2 []

theorem rewritten_poolLaw : PoolLaw rewritten :=
  poolLaw_shadowPage (poolLaw_completeCommit (poolLaw_shadowPage fresh_poolLaw 0 4 2 [] (by decide +kernel)
    (by decide +kernel) (by decide +kernel)) 0 ⟨[], 0⟩) 0 4 2 [] (by decide +kernel) (by decide +kernel)
    (by decide +kernel)

/-- The commit of that second write in flight. -/
def holding : State :=
  { withTxn rewritten 0 .committing with
    claimCount := #v[1, 0, 0, 0]
    engine := { rewritten.engine with
      state := .frames, inFlight := some ⟨0, .commit⟩
      plan := some ⟨[.page 4 2 35 0 none, .map 4 1 6 false, .root .b 91 false], 0⟩ } }

theorem holding_poolLaw : PoolLaw holding := by
  have h := rewritten_poolLaw
  unfold holding
  generalize rewritten = s at h ⊢
  exact poolLaw_congr h rfl rfl rfl (fun _ => rfl) fun _ => rfl

theorem holding_entries : (entryOf holding 4 2).committed.map (fun c => c.frame) = some 34 ∧
    ∀ (v : VolumeNo) (g : PageNo),
      (entryOf holding v g).claim = if v = 4 ∧ g = 2 then some ⟨0, .data 35⟩ else none := by decide +kernel

theorem holding_engine : holding.device = .running ∧ holding.engine.queue = [] ∧
    holding.engine.state ≠ .stopped ∧ holding.engine.inFlight = some ⟨0, .commit⟩ ∧
    holding.engine.settings = some ⟨#v[true, true, true, true], #v[256, 256, 256, 256], 3⟩ ∧
    holding.ports[(0 : Port)].txn.state = .committing ∧ (requestPorts holding).Nodup := by decide +kernel

theorem holding_claimLaw : ClaimLaw holding := by
  intro v g c h
  rw [holding_entries.2] at h
  split at h
  · cases h
    decide +kernel
  · cases h

theorem holding_holderLaw : HolderLaw holding := by
  intro v
  have h : requests holding = [⟨0, .commit⟩] := by decide +kernel
  rw [h]
  refine ⟨by simp [RequestKind.changes, RequestKind.creates], fun r hr => ?_⟩
  rw [List.mem_singleton.1 hr]
  exact ⟨fun hc => (by cases hc), fun hc => (by cases hc), fun hc => (by cases hc)⟩

theorem holding_planLaw : PlanLaw holding := by
  intro req plan hr hp
  cases hr
  cases hp
  refine ⟨by decide, fun i v g f n c _ h => ?_⟩
  match i with
  | 0 =>
    cases h
    exact ⟨rfl, holding_entries.2 4 2⟩
  | 1 | 2 => cases h
  | i + 3 => simp at h

theorem witness_SettingsAndWearAreKept :
    MaskLaw onlyP3 ∧ RetiredLaw base ∧ MaskLaw holding ∧ QueueLaw holding ∧ FrameLaw holding := by
  obtain ⟨hd, hq, he, hi, hs, ht, hn⟩ := holding_engine
  have hw : holding.device.works = true := by rw [hd]; rfl
  refine ⟨⟨fun st h => ?_, fun req h => (by cases h), fun h => rfl⟩, ⟨by decide, fun _ => by decide⟩,
    ⟨fun st h => ?_, fun req h => ⟨hw, fun p q k hk => ?_⟩, fun h => absurd h he⟩,
    ⟨by rw [hq]; decide, hn, fun r h => ?_, fun r h _ => ?_, fun h => ?_, fun h => ?_⟩,
    fun _ => ⟨holding_poolLaw, holding_claimLaw, holding_holderLaw, holding_planLaw⟩, fun x h => ?_⟩
  · cases h
    decide
  · rw [hs] at h
    cases h
    decide
  · rw [hi] at h
    cases h
    cases hk
  · rw [hq] at h
    cases h
  · rw [hi] at h
    cases h
    dsimp only
    convert ht using 1
  · unfold inPowerFail at h
    rw [hd] at h
    cases h
  · unfold ready at h
    rw [hd] at h
    cases h
  · rw [hd] at h
    cases h

theorem witness_QueueLawIsKept : QueueLaw committing := by
  refine ⟨by decide +kernel, by decide +kernel, by decide +kernel, fun r h => (by cases h),
    fun h => ?_, fun h => ?_⟩
  · exact absurd h (by decide +kernel)
  · exact absurd h (by decide +kernel)

/-- Volume 4 LOCKED_FROZEN, a SET_RIGHTS of it queued. -/
def locked : State := queues .lockedFrozen [⟨0, .setRights 4 3 .read⟩]

theorem witness_LockedVolumeIsKept :
    LockedLaw 4 (volumeOf .lockedFrozen [(2, ⟨kept 412, none⟩)]) locked ∧
    ∀ i, ({ locked with pending := [.requestRemoval] }).pending.head? = some i →
      rebuildsVolumes i = false := by
  refine ⟨⟨by decide +kernel, rfl, by decide +kernel, by decide +kernel, ?_, fun plan h => (by cases h)⟩,
    fun i h => ?_⟩
  · intro q hq _
    have : q = ⟨0, .setRights 4 3 .read⟩ := by
      simpa [locked, queues, quiet, withVolume, State.setVolume, base, Engine.unformatted] using hq
    rw [this]
    rfl
  · cases h
    rfl

end Sys2Proof.Machine.Tests
end

section
/-! The transaction that ABORT and RELEASE abandon (R39, R41), and the settling of ABORT. -/

namespace Sys2Proof.Machine

/-! ### Answers on a changed port -/

/-- A taken command is answered on a state whose other records, and whose port context but for the frame,
it has changed (R167, R168). -/
theorem reply_setPort_taken (s : State) (p : Port) (x : PortContext) (f : FrameRecord) (c : Command)
    (args : List Byte) (r : Result) (response : List Byte)
    (hx : x.frame = { f with phase := .data, command := some c.code, arguments := args }) :
    reply (s.setPort p x) p r response =
      s.setPort p { x with frame := f.answered c args r response } := by
  rw [reply_setPort, hx, ← shift_answered]

/-- An answer leaves the transaction record of its port. -/
@[simp] theorem PortContext.answered_txn (x : PortContext) (c : Command) (args : List Byte) (r : Result)
    (response : List Byte) : (x.answered c args r response).txn = x.txn := rfl

/-! ### The parts of an abandonment (R39) -/

/-- The transaction record that an abandonment leaves: NONE with its timer stopped, but for a transaction
that is not there or that is COMMITTING (R39, R41). -/
def Txn.abandoned (t : Txn) : Txn :=
  match t.state with
  | .opened | .queued | .expired => { t with state := .noTxn, running := false }
  | .noTxn | .committing => t

/-- What an abandonment of a transaction in state `t` does outside the port context: OPEN loses the claims,
QUEUED its COMMIT as well (R39). -/
def dropWork (s : State) (p : Port) (t : TxnState) : State :=
  match t with
  | .opened => releaseClaims s p
  | .queued => releaseClaims (withdrawCommit s p) p
  | .noTxn | .committing | .expired => s

/-- The withdrawal of a COMMIT changes the update queue alone, and keeps the order of the others. -/
theorem withdrawCommit_eq (s : State) (p : Port) :
    withdrawCommit s p = { s with engine := { s.engine with
      queue := s.engine.queue.filter fun r => decide (¬(r.port = p ∧ r.kind = .commit)) } } := by
  simp [withdrawCommit, State.modEngine]

/-- The end of a transaction on a port context that is given. -/
theorem endTxn_setPort (s : State) (p : Port) (x : PortContext) :
    endTxn (s.setPort p x) p =
      s.setPort p { x with txn := { x.txn with state := .noTxn, running := false } } := by
  simp [endTxn, State.modTxn, State.modPort, Txn.stopTimer]

/-- An abandonment acts on the transaction record and outside the port context apart: the release of the
claims and the withdrawal read no port context. -/
theorem abandonTxn_setPort (s : State) (p : Port) (x : PortContext) :
    abandonTxn (s.setPort p x) p =
      (dropWork s p x.txn.state).setPort p { x with txn := x.txn.abandoned } := by
  unfold abandonTxn dropWork Txn.abandoned
  rw [setPort_ports_self]
  cases hx : x.txn.state with
  | noTxn | committing => rfl
  | expired => exact endTxn_setPort s p x
  | opened =>
    change endTxn (releaseClaims (s.setPort p x) p) p = _
    rw [releaseClaims_setPort, endTxn_setPort]
  | queued =>
    change endTxn (releaseClaims ((withdrawCommit s p).setPort p x) p) p = _
    rw [releaseClaims_setPort, endTxn_setPort]

/-! ### ABORT (R39) -/

theorem exec_abort (p : Port) (s : State) : exec (.abort p) s = execAbort p s := rfl

/-- The format check passes on a formatted part (R27). -/
theorem formatCheck_of_formatted (s : State) (h : s.device ≠ .unformatted) : formatCheck s = none :=
  if_neg h

section Abort

variable (p : Port) (s : State) (ha : awaits s p .abort [] = true) (hd : s.device ≠ .unformatted)
include ha hd

/-- A COMMITTING transaction is not aborted (R39). -/
theorem exec_abort_of_committing (ht : s.ports[p].txn.state = .committing) :
    exec (.abort p) s = .next (refused s p .abort [] .txnBusy) := by
  have ht' : (enterData s p .abort []).ports[p].txn.state = .committing := by
    rw [enterData_eq, setPort_ports_self]; exact ht
  rw [exec_abort, execAbort, taking_of_awaits s p .abort [] _ ha,
    formatCheck_of_formatted (enterData s p .abort []) hd, if_pos ht', Option.none_or,
    unlessRefused_enterData]
  rfl

/-- Every other transaction is abandoned with result OK, and a pending LEASE cause is cleared (R39). -/
theorem exec_abort_of_not_committing (ht : s.ports[p].txn.state ≠ .committing) :
    exec (.abort p) s = .next ((dropWork s p s.ports[p].txn.state).setPort p {
      s.ports[p].answered .abort [] .ok [] with
      txn := s.ports[p].txn.abandoned
      pending := { s.ports[p].pending with lease := false } }) := by
  have ht' : (enterData s p .abort []).ports[p].txn.state ≠ .committing := by
    rw [enterData_eq, setPort_ports_self]; exact ht
  rw [exec_abort, execAbort, taking_of_awaits s p .abort [] _ ha,
    formatCheck_of_formatted (enterData s p .abort []) hd, if_neg ht', Option.none_or,
    unlessRefused_none, enterData_eq, abandonTxn_setPort, State.modPort, setPort_setPort,
    setPort_ports_self, reply_setPort_taken (f := s.ports[p].frame) (hx := rfl)]
  rfl

end Abort

/-- Settles O12: COMMITTING is refused; in each other state the abandonment of that state is read off
`dropWork` and `Txn.abandoned`. -/
theorem abortAbandonsTransaction : Obligations.AbortAbandonsTransaction := by
  intro p s ha hd
  have abandons := exec_abort_of_not_committing p s ha hd
  refine ⟨exec_abort_of_committing p s ha hd, fun ht => ?noTxn, fun ht => ?expired, fun ht => ?opened,
    fun ht => ?queued⟩ <;>
    have abandoned := abandons (by rw [ht]; decide)
  case noTxn => simpa only [ht, Txn.abandoned, dropWork, PortContext.answered_txn] using abandoned
  case expired | opened => simpa only [ht, Txn.abandoned, dropWork] using abandoned
  case queued => simpa only [ht, Txn.abandoned, dropWork, withdrawCommit_eq] using abandoned

end Sys2Proof.Machine
end

section
/-! The windows of a port: a taken command that changes one window (R57, R58), and the settling of UNBIND. -/

namespace Sys2Proof.Machine

/-! ### A command that changes a window -/

/-- The format check fails on an unformatted part (R27, R111). -/
theorem formatCheck_of_unformatted (s : State) (h : s.device = .unformatted) :
    formatCheck s = some (refusal .notFormatted) :=
  if_pos h

/-- A taken command that sets one window and is answered changes that window and its frame alone. -/
theorem reply_setWindow_enterData (s : State) (p : Port) (c : Command) (args : List Byte) (w : WindowNo)
    (x : Window) (r : Result) (response : List Byte) :
    reply ((enterData s p c args).modPort p fun y => { y with windows := upd y.windows w x }) p r response =
      s.setPort p { s.ports[p].answered c args r response with
        windows := upd s.ports[p].windows w x } := by
  rw [enterData_eq, State.modPort, setPort_setPort, setPort_ports_self,
    reply_setPort_taken (f := s.ports[p].frame) (hx := rfl)]
  rfl

/-! ### UNBIND (R58) -/

theorem exec_unbind (p : Port) (window : Byte) (s : State) :
    exec (.unbind p window) s = execUnbind p window s := rfl

section Unbind

variable (p : Port) (window : Byte) (s : State) (ha : awaits s p .unbind [window] = true)
include ha

/-- The format check comes before the window is looked at (R58). -/
theorem exec_unbind_of_unformatted (hd : s.device = .unformatted) :
    exec (.unbind p window) s = .next (refused s p .unbind [window] .notFormatted) := by
  rw [exec_unbind, execUnbind, taking_of_awaits s p .unbind [window] _ ha,
    formatCheck_of_unformatted (enterData s p .unbind [window]) hd, unlessRefused_enterData]
  rfl

/-- A window above 3 is refused on a formatted part (R58). -/
theorem exec_unbind_of_window_above (hd : s.device ≠ .unformatted) (hw : 4 ≤ window.toNat) :
    exec (.unbind p window) s = .next (refused s p .unbind [window] .badArgument) := by
  rw [exec_unbind, execUnbind, taking_of_awaits s p .unbind [window] _ ha,
    formatCheck_of_formatted (enterData s p .unbind [window]) hd, unlessRefused_none,
    windowArg_none window hw]
  exact congrArg Host.Outcome.next (reply_enterData ..)

/-- A window of the port becomes UNBOUND from any state of it (R58). -/
theorem exec_unbind_of_window (w : WindowNo) (hd : s.device ≠ .unformatted)
    (hw : window.toNat = w.val) :
    exec (.unbind p window) s = .next (s.setPort p {
      s.ports[p].answered .unbind [window] .ok [] with
      windows := upd s.ports[p].windows w .unbound }) := by
  rw [exec_unbind, execUnbind, taking_of_awaits s p .unbind [window] _ ha,
    formatCheck_of_formatted (enterData s p .unbind [window]) hd, unlessRefused_none,
    windowArg_of_toNat w window hw]
  exact congrArg Host.Outcome.next (reply_setWindow_enterData ..)

end Unbind

/-- Settles O19: the format check, then the window argument, decide which of the three answers is given. -/
theorem unbindUnbindsWindow : Obligations.UnbindUnbindsWindow := fun p window s ha =>
  ⟨exec_unbind_of_unformatted p window s ha, exec_unbind_of_window_above p window s ha,
    exec_unbind_of_window p window s ha⟩

end Sys2Proof.Machine
end

section
/-! The beginning of a frame at select fall (R163), and the settling of it. -/

namespace Sys2Proof.Machine

/-! ### The phase of a frame that has begun (R163) -/

/-- Commands are taken in RUNNING and in UNFORMATTED, and in no other device state (R147). -/
theorem ready_iff (s : State) : ready s = true ↔ s.device = .running ∨ s.device = .unformatted :=
  decide_eq_true_iff

theorem FrameRecord.fallen_phase_of_ready (high : Bool) (status : Byte) (s : State)
    (h : ready s = true) : (FrameRecord.fallen high status (ready s)).phase = .command :=
  if_pos h

theorem FrameRecord.fallen_phase_of_not_ready (high : Bool) (status : Byte) (s : State)
    (h : ¬ready s = true) : (FrameRecord.fallen high status (ready s)).phase = .notReady :=
  if_neg h

/-! ### Select fall (R163) -/

theorem exec_selectFall (p : Port) (high : Bool) (s : State) :
    exec (.selectFall p high) s = execSelectFall p high s := rfl

/-- Select fall at a port without a frame, on a part with supply, replaces the frame record and nothing
else; its status byte is fixed from the state as it stands before (R163). -/
theorem exec_selectFall_of_noFrame (p : Port) (high : Bool) (s : State)
    (hf : s.ports[p].frame.phase = .noFrame) (hd : s.device ≠ .off) :
    exec (.selectFall p high) s = .next (s.setPort p { s.ports[p] with
      frame := .fallen high (statusByte s p) (ready s) }) := by
  rw [exec_selectFall, execSelectFall, if_pos ⟨hf, hd⟩]
  rfl

/-- Settles O2: the record is `FrameRecord.fallen`, whose phase alone depends on the device state. -/
theorem selectFallBeginsFrame : Obligations.SelectFallBeginsFrame := by
  intro p high s hf hd
  refine ⟨.fallen high (statusByte s p) (ready s), exec_selectFall_of_noFrame p high s hf hd,
    rfl, rfl, rfl, rfl, rfl, rfl, rfl, fun h => ?commandPhase, fun hr hu => ?notReadyPhase⟩
  case commandPhase => exact FrameRecord.fallen_phase_of_ready high _ s ((ready_iff s).2 h)
  case notReadyPhase =>
    have notReady : ¬ready s = true := fun h => ((ready_iff s).1 h).elim hr hu
    exact FrameRecord.fallen_phase_of_not_ready high _ s notReady

end Sys2Proof.Machine
end


section
/-! What a happening can do, said once: the relation `Quiet` of two states that no law tells apart, the few
effects on the transactions, the claims and the queue that a byte of a port can have, and the inversion of
`exec` into them. -/

namespace Sys2Proof.Machine

/-! ### States that no law tells apart -/

/-- Whether a frame is in a phase that takes bytes of a command (R161). -/
def Phase.takes : Phase → Bool
  | .command | .arguments | .data => true
  | .noFrame | .ignoring | .notReady => false

/-- `t` differs from `s` in nothing that a law reads: in lines, in the program in progress, and in port contexts
whose transactions keep their states and which take bytes only where they did or where commands are taken. -/
structure Quiet (s t : State) : Prop where
  device : t.device = s.device
  claimCount : t.claimCount = s.claimCount
  volumes : t.volumes = s.volumes
  frameStates : t.frameStates = s.frameStates
  freeList : t.freeList = s.freeList
  engine : t.engine = s.engine
  array : t.array = s.array
  cells : t.cells = s.cells
  txn : ∀ p : Port, t.ports[p].txn.state = s.ports[p].txn.state
  phase : ∀ p : Port, t.ports[p].frame.phase.takes = true →
    s.ports[p].frame.phase.takes = true ∨ ready s = true

theorem Quiet.refl (s : State) : Quiet s s :=
  ⟨rfl, rfl, rfl, rfl, rfl, rfl, rfl, rfl, fun _ => rfl, fun _ => Or.inl⟩

theorem ready_congr {s t : State} (h : t.device = s.device) : ready t = ready s := by
  unfold ready
  rw [h]

theorem Quiet.trans {s t u : State} (h : Quiet s t) (k : Quiet t u) : Quiet s u where
  device := k.device.trans h.device
  claimCount := k.claimCount.trans h.claimCount
  volumes := k.volumes.trans h.volumes
  frameStates := k.frameStates.trans h.frameStates
  freeList := k.freeList.trans h.freeList
  engine := k.engine.trans h.engine
  array := k.array.trans h.array
  cells := k.cells.trans h.cells
  txn p := (k.txn p).trans (h.txn p)
  phase p hp := (k.phase p hp).elim (h.phase p) fun hr => .inr (ready_congr h.device ▸ hr)

/-- A port context may change in all but its transaction's state and a phase that takes bytes. -/
theorem Quiet.setPort (s : State) (p : Port) (x : PortContext)
    (ht : x.txn.state = s.ports[p].txn.state)
    (hf : x.frame.phase.takes = true → s.ports[p].frame.phase.takes = true ∨ ready s = true) :
    Quiet s (s.setPort p x) where
  device := rfl
  claimCount := rfl
  volumes := rfl
  frameStates := rfl
  freeList := rfl
  engine := rfl
  array := rfl
  cells := rfl
  txn q := by
    by_cases hq : p = q
    · rw [← hq, setPort_ports_self, ht]
    · rw [setPort_ports_ne s p q x hq]
  phase q := by
    by_cases hq : p = q
    · rw [← hq, setPort_ports_self]; exact hf
    · rw [setPort_ports_ne s p q x hq]; exact .inl

/-- All port contexts may change so. -/
theorem Quiet.modPorts (s : State) (f : Port → PortContext → PortContext)
    (ht : ∀ p x, (f p x).txn.state = x.txn.state)
    (hf : ∀ p x, (f p x).frame.phase.takes = true → x.frame.phase.takes = true) :
    Quiet s (s.modPorts f) where
  device := rfl
  claimCount := rfl
  volumes := rfl
  frameStates := rfl
  freeList := rfl
  engine := rfl
  array := rfl
  cells := rfl
  txn q := by rw [State.modPorts_ports, tab_get, ht]
  phase q := by rw [State.modPorts_ports, tab_get]; exact fun h => .inl (hf _ _ h)

/-- Every operation on one port that leaves the transaction's state and the phase of the frame is quiet. -/
theorem Quiet.modPort (s : State) (p : Port) (f : PortContext → PortContext)
    (ht : (f s.ports[p]).txn.state = s.ports[p].txn.state)
    (hf : (f s.ports[p]).frame.phase = s.ports[p].frame.phase) : Quiet s (s.modPort p f) :=
  .setPort s p _ ht fun h => .inl (hf ▸ h)

@[simp] theorem FrameRecord.shift_phase (f : FrameRecord) : f.shift.phase = f.phase := by
  unfold FrameRecord.shift
  split <;> rfl

/-- Every operation on one frame that leaves its phase is quiet. -/
theorem Quiet.modFrame (s : State) (p : Port) (f : FrameRecord → FrameRecord)
    (hf : (f s.ports[p].frame).phase = s.ports[p].frame.phase) : Quiet s (s.modFrame p f) :=
  .modPort s p (fun c => { c with frame := f c.frame }) rfl hf

theorem Quiet.reply (s : State) (p : Port) (r : Result) (response : List Byte) :
    Quiet s (reply s p r response) :=
  .modFrame s p (fun f => FrameRecord.shift { f with result := some r, response := response })
    (FrameRecord.shift_phase _)

theorem Quiet.setOutput (s : State) (p : Port) (b : Byte) : Quiet s (setOutput s p b) :=
  .modFrame s p (fun f => { f with output := b }) rfl

theorem Quiet.setResult (s : State) (p : Port) (r : Result) : Quiet s (setResult s p r) :=
  .modFrame s p (fun f => { f with result := some r }) rfl

theorem Quiet.ignoreByte (s : State) (p : Port) : Quiet s (ignoreByte s p) := by
  unfold Machine.ignoreByte
  split
  · exact .setOutput s p _
  · exact .refl s

/-- A link that awaits a byte takes bytes. -/
theorem takes_of_awaits {s : State} {p : Port} {c : Command} {args : List Byte}
    (h : awaits s p c args = true) : s.ports[p].frame.phase.takes = true := by
  rcases phase_of_awaits s p c args h with h | h <;> rw [h] <;> rfl

theorem Quiet.enterData {s : State} {p : Port} {c : Command} {args : List Byte}
    (h : awaits s p c args = true) : Quiet s (enterData s p c args) :=
  .setPort s p _ rfl fun _ => .inl (takes_of_awaits h)

/-- The queue of waiting happenings is read by no law. -/
theorem Quiet.pending (s : State) (l : List Instr) : Quiet s { s with pending := l } :=
  ⟨rfl, rfl, rfl, rfl, rfl, rfl, rfl, rfl, fun _ => rfl, fun _ => .inl⟩

/-! ### Faults of a burst leave the transaction and the phase -/

@[simp] theorem meetFault_txn (x : PortContext) (f : FaultRecord) : (x.meetFault f).txn = x.txn := by
  unfold PortContext.meetFault
  cases x.fault <;> cases x.burst <;> simp only <;> split <;> rfl

@[simp] theorem meetFault_phase (x : PortContext) (f : FaultRecord) :
    (x.meetFault f).frame.phase = x.frame.phase := by
  unfold PortContext.meetFault
  cases x.fault <;> cases x.burst <;> simp only <;> split <;> rfl

theorem Quiet.meetStale (s : State) (p : Port) (b : Burst) (w : Binding) :
    Quiet s (s.modPort p fun c => meetStale c b w) :=
  .modPort s p _ (congrArg Txn.state (meetFault_txn _ _)) (meetFault_phase _ _)

theorem Quiet.meetEnd (s : State) (p : Port) (b : Burst) (w : Binding) :
    Quiet s (s.modPort p fun c => meetEnd c b w) := by
  refine .modPort s p _ ?_ ?_ <;> unfold Machine.meetEnd <;> split
  · rfl
  · exact congrArg Txn.state (meetFault_txn _ _)
  · rfl
  · exact meetFault_phase _ _

theorem Quiet.meetPage (s : State) (p : Port) (b : Burst) (w : Binding) (poisoned : Bool) :
    Quiet s (s.modPort p fun c => meetPage c b w poisoned) := by
  refine .modPort s p _ ?_ ?_ <;> unfold Machine.meetPage <;> split
  · exact congrArg Txn.state (meetFault_txn _ _)
  · rfl
  · exact meetFault_phase _ _
  · rfl

/-- A byte taken from a page changes the port alone (R63). -/
theorem Quiet.takeReadByte (s : State) (p : Port) (b : Burst) : Quiet s (takeReadByte s p b) := by
  unfold Machine.takeReadByte
  split
  · exact .setOutput s p _
  · split
    · exact (Quiet.meetStale s p b _).trans (.setOutput ..)
    · exact .setOutput s p _
    · split
      · exact (Quiet.meetEnd s p b _).trans (.setOutput ..)
      · exact (Quiet.meetPage s p b _ _).trans (.setOutput ..)

/-! ### The effects a byte of a port can have -/

/-- The transaction of port `p` in another state. -/
def setTxnState (s : State) (p : Port) (x : TxnState) : State :=
  s.modTxn p fun t => { t with state := x }

theorem setTxnState_txn (s : State) (p q : Port) (x : TxnState) :
    (setTxnState s p x).ports[q].txn.state = if p = q then x else s.ports[q].txn.state := by
  unfold setTxnState
  rw [State.modTxn_ports, upd_get]
  split <;> rfl

theorem setTxnState_phase (s : State) (p q : Port) (x : TxnState) :
    (setTxnState s p x).ports[q].frame.phase = s.ports[q].frame.phase := by
  unfold setTxnState
  rw [State.modTxn_ports, upd_get]
  split
  · next h => rw [h]
  · rfl

/-- The operations that set a transaction's state do no more than `setTxnState`, as far as a law can tell. -/
theorem quiet_setTxnState (s : State) (p : Port) (f : PortContext → PortContext) (x : TxnState)
    (ht : (f s.ports[p]).txn.state = x) (hf : (f s.ports[p]).frame.phase = s.ports[p].frame.phase) :
    Quiet (setTxnState s p x) (s.modPort p f) := by
  have e : s.modPort p f = (setTxnState s p x).setPort p (f s.ports[p]) := by
    unfold setTxnState State.modTxn State.modPort
    rw [setPort_setPort]
  rw [e]
  refine .setPort _ p _ ?_ fun h => .inl ?_
  · rw [setTxnState_txn, if_pos rfl, ht]
  · rw [setTxnState_phase, ← hf]; exact h

/-- What a byte of port `p`, or its lease expiry, can do beside what no law reads. -/
inductive Effect (p : Port) : State → State → Prop
  /-- BEGIN opens a transaction (R28). -/
  | opens (s : State) (h : s.ports[p].txn.state = .noTxn ∨ s.ports[p].txn.state = .expired) :
      Effect p s (setTxnState s p .opened)
  /-- A COMMIT without claims ends the transaction (R34). -/
  | ends (s : State) (ht : s.ports[p].txn.state = .opened) (hc : s.claimCount[p] = 0) :
      Effect p s (setTxnState s p .noTxn)
  /-- A COMMIT joins the queue (R34). -/
  | queues (s : State) (ht : s.ports[p].txn.state = .opened) (ha : adminPending s p = false) :
      Effect p s (appendRequest (setTxnState s p .queued) ⟨p, .commit⟩)
  /-- ABORT and RELEASE abandon the transaction (R39, R41). -/
  | drops (s : State) : Effect p s (abandonTxn s p)
  /-- The lease expires (R31). -/
  | expires (s : State) (ht : s.ports[p].txn.state = .opened) :
      Effect p s (setTxnState (releaseClaims s p) p .expired)
  /-- A request that holds no volume joins the queue (R75); on a LOCKED_FROZEN volume it is one that R141 allows. -/
  | accepts (s : State) (kind : RequestKind) (hp : requestPending s p = false) (hc : kind ≠ .commit)
      (hv : ∀ v, kind.changes v = false ∧ kind.creates v = false)
      (hl : ∀ v r, kind.volume = some v → s.volumes[v] = .present r → r.status = .lockedFrozen →
        kind.allowedOnLocked = true) :
      Effect p s (appendRequest s ⟨p, kind⟩)
  /-- CREATE is accepted (R127, R133). -/
  | creates (s : State) (v : VolumeNo) (n : Nat) (rights : Vector Right 4) (k : Bool)
      (hp : requestPending s p = false) (hv : s.volumes[v] = .absent) :
      Effect p s (appendRequest (s.setVolume v (.creating n rights k)) ⟨p, .create v n rights k⟩)
  /-- DELETE, RESIZE, FREEZE or LOCK is accepted (R128). -/
  | changes (s : State) (v : VolumeNo) (r : VolumeRecord) (op : Operation) (ret : ReturnState)
      (kind : RequestKind) (hp : requestPending s p = false) (hv : s.volumes[v] = .present r)
      (hs : r.status.isChanging = false) (hl : r.status ≠ .lockedFrozen) (hk : kind.changes v = true)
      (hd : kind = .delete v → ∀ g : PageNo, r.entries[g].claim = none) :
      Effect p s (appendRequest (s.setVolume v (.present { r with status := .changing op ret })) ⟨p, kind⟩)
  /-- The map unit takes a write request (R47). -/
  | writes (s t : State) (v : VolumeNo) (g : PageNo) (off : Fin 256) (b : Byte)
      (ht : s.ports[p].txn.state = .opened) (h : requestWrite s p v g off b = .done t) : Effect p s t
  /-- The map unit takes a punch request (R48). -/
  | punches (s t : State) (v : VolumeNo) (g : PageNo) (ht : s.ports[p].txn.state = .opened)
      (h : requestPunch s p v g = .done t) : Effect p s t

/-- `t` is `s` after at most one effect of port `p`, as far as a law can tell. -/
def Local (p : Port) (s t : State) : Prop := Quiet s t ∨ ∃ u, Effect p s u ∧ Quiet u t

theorem Local.andThen {p : Port} {s t u : State} (h : Local p s t) (k : Quiet t u) : Local p s u :=
  h.imp (·.trans k) fun ⟨v, he, hq⟩ => ⟨v, he, hq.trans k⟩

theorem Local.of_effect {p : Port} {s t : State} (h : Effect p s t) : Local p s t := .inr ⟨t, h, .refl t⟩

theorem Local.unlessRefused {p : Port} (s : State) (check : Option Result) (act : State → State)
    (h : check = none → Local p s (act s)) : Local p s (unlessRefused s p check act) := by
  cases check with
  | none => exact h rfl
  | some r => exact .inl (.reply s p r [])

/-- `t` is `s` after a happening of port `p`: nothing that a law reads, or one effect, where the port takes bytes
or the device takes commands. -/
def PortStep (p : Port) (s t : State) : Prop :=
  Quiet s t ∨ ∃ u v, (u.ports[p].frame.phase.takes = true ∨ ready u = true) ∧ Quiet s u ∧ Effect p u v ∧
    Quiet v t

theorem PortStep.of_local {p : Port} {s u t : State} (hq : Quiet s u) (h : Local p u t)
    (hp : u.ports[p].frame.phase.takes = true ∨ ready u = true) : PortStep p s t :=
  h.elim (fun h => .inl (hq.trans h)) fun ⟨v, he, hv⟩ => .inr ⟨u, v, hp, hq, he, hv⟩

/-- The taking of a command is a step of its port. -/
theorem PortStep.taking {p : Port} (s : State) (c : Command) (args : List Byte) (act : State → State)
    (h : ∀ u, u = enterData s p c args → Local p u (act u)) : PortStep p s (taking s p c args act) := by
  cases ha : awaits s p c args with
  | false => rw [taking_of_not_awaits _ _ _ _ _ ha]; exact .inl (.ignoreByte s p)
  | true =>
    rw [taking_of_awaits _ _ _ _ _ ha]
    exact .of_local (.enterData ha) (h _ rfl) (.inl (by rw [enterData_eq, setPort_ports_self]; rfl))

end Sys2Proof.Machine
end


section
/-! Every byte of a port, its select edges and its lease expiry is a step of the port (`PortStep`). -/

namespace Sys2Proof.Machine

/-! ### Checks that pass -/

theorem openCheck_eq_none (t : TxnState) : openCheck t = none ↔ t = .opened := by
  cases t <;> simp [openCheck]

theorem opened_of_or_openCheck {a : Option Result} {t : TxnState} (h : a.or (openCheck t) = none) :
    t = .opened :=
  (openCheck_eq_none t).1 (Option.or_eq_none_iff.1 h).2

/-- BEGIN's checks pass in NONE and EXPIRED (R28). -/
theorem state_of_beginCheck {s : State} {p : Port} {flag : Byte} (h : beginCheck s p flag = none) :
    s.ports[p].txn.state = .noTxn ∨ s.ports[p].txn.state = .expired := by
  obtain ⟨-, h⟩ := Option.or_eq_none_iff.1 h
  obtain ⟨-, h⟩ := Option.or_eq_none_iff.1 h
  by_contra hc
  rw [if_neg hc] at h
  cases h

/-- The common checks pass only where the port has no request waiting (R123). -/
theorem requestPending_of_adminCheck {s : State} {p : Port} (h : adminCheck s p = none) :
    requestPending s p = false := by
  unfold adminCheck at h
  by_contra hc
  rw [Bool.not_eq_false] at hc
  simp only [hc, if_true] at h
  split at h
  · cases h
  · split at h <;> cases h

theorem requestPending_of_formatAccept {s : State} {p : Port} (h : formatAccept s p = none) :
    requestPending s p = false := by
  unfold formatAccept at h
  by_contra hc
  rw [Bool.not_eq_false] at hc
  simp only [hc, if_true] at h
  split at h <;> cases h

theorem refuseUnless_eq_none (ok : Bool) (r : Result) : refuseUnless ok r = none ↔ ok = true := by
  unfold refuseUnless
  cases ok <;> simp

/-- A volume in use by no claim from page `n` on (R135, R137). -/
theorem claims_of_inUseCheck {s : State} {v : VolumeNo} {n : Nat} (h : inUseCheck s v n = none)
    (g : PageNo) (hg : n ≤ g.val) : (entryOf s v g).claim = none := by
  unfold inUseCheck lowestClaim at h
  rw [Option.map_eq_none_iff, List.findSome?_eq_none_iff] at h
  have := h g (mem_ascending g)
  rwa [if_pos hg, Option.map_eq_none_iff] at this

theorem present_of_isPresent {x : Volume} (h : x.isPresent = true) : ∃ r, x = .present r := by
  cases x with
  | present r => exact ⟨r, rfl⟩
  | absent => cases h
  | creating _ _ _ => cases h

/-- What the checks of a guarded volume command leave when they pass. -/
theorem volumeChecks_eq_none {s : State} {v : VolumeNo} {f : Option Status → Option Result}
    {claims : Option Nat} (h : volumeChecks s v f claims = none) :
    ∃ r, s.volumes[v] = .present r ∧ f (some r.status) = none ∧
      ∀ n, claims = some n → inUseCheck s v n = none := by
  obtain ⟨hp, h⟩ := Option.or_eq_none_iff.1 h
  obtain ⟨-, h⟩ := Option.or_eq_none_iff.1 h
  obtain ⟨hs, hc⟩ := Option.or_eq_none_iff.1 h
  obtain ⟨r, hr⟩ := present_of_isPresent ((refuseUnless_eq_none _ _).1 hp)
  rw [hr] at hs
  exact ⟨r, hr, hs, fun n hn => by rw [hn] at hc; exact hc⟩

/-! ### Local effects of the parts of a command -/

variable {p : Port}

theorem Local.reply (s : State) (r : Result) (response : List Byte) : Local p s (reply s p r response) :=
  .inl (.reply s p r response)

theorem Local.withArgs {α : Type} (s : State) (args : Option α) (act : State → α → State)
    (h : ∀ x, args = some x → requestPending s p = false → Local p s (act s x)) :
    Local p s (withArgs s p args act) := by
  refine .unlessRefused s _ _ fun hc => ?_
  cases args with
  | none => exact .reply s _ _
  | some x => exact h x rfl (requestPending_of_adminCheck hc)

/-- A transaction that takes a new state and is answered. -/
theorem Local.setTxn {s u : State} {x : TxnState} (f : PortContext → PortContext)
    (he : Effect p s (setTxnState u p x)) (ht : (f u.ports[p]).txn.state = x)
    (hf : (f u.ports[p]).frame.phase = u.ports[p].frame.phase) : Local p s (u.modPort p f) :=
  .inr ⟨_, he, quiet_setTxnState u p f x ht hf⟩

/-- An accepted request that holds no volume. -/
theorem Local.accept (s : State) (kind : RequestKind) (hp : requestPending s p = false)
    (hc : kind ≠ .commit) (hv : ∀ v, kind.changes v = false ∧ kind.creates v = false)
    (hl : ∀ v r, kind.volume = some v → s.volumes[v] = .present r → r.status = .lockedFrozen →
      kind.allowedOnLocked = true) : Local p s (accept s p kind) :=
  (Local.of_effect (.accepts s kind hp hc hv hl)).andThen (.reply ..)

/-- An accepted request that puts its volume in CHANGING. -/
theorem Local.acceptChanging (s : State) (v : VolumeNo) (op : Operation) (kind : RequestKind)
    {r : VolumeRecord} (hp : requestPending s p = false) (hr : s.volumes[v] = .present r)
    (hs : r.status.isChanging = false) (hl : r.status ≠ .lockedFrozen) (hk : kind.changes v = true)
    (hd : kind = .delete v → ∀ g : PageNo, r.entries[g].claim = none) :
    Local p s (acceptChanging s p v op kind) := by
  have e : s.modVolume v (fun r => { r with status := .changing op r.status.returnState }) =
      s.setVolume v (.present { r with status := .changing op r.status.returnState }) := by
    unfold State.modVolume
    rw [hr]
  unfold Machine.acceptChanging
  rw [e]
  exact (Local.of_effect (.changes s v r op _ kind hp hr hs hl hk hd)).andThen (.reply ..)

/-! ### Transactions -/

theorem portStep_begin (lease : Half) (flag : Byte) (s : State) :
    ∃ t, exec (.begin p lease flag) s = .next t ∧ PortStep p s t := by
  refine ⟨_, rfl, .taking s _ _ _ fun u _ => .unlessRefused u _ _ fun hc => ?_⟩
  refine (Local.setTxn (x := .opened) _ (.opens u (state_of_beginCheck hc)) ?_ rfl).andThen (.reply ..)
  simp only [Txn.begin, Txn.startTimer]
  split <;> rfl

theorem portStep_touch (s : State) : ∃ t, exec (.touch p) s = .next t ∧ PortStep p s t := by
  refine ⟨_, rfl, .taking s _ _ _ fun u _ => .unlessRefused u _ _ fun _ => .inl ?_⟩
  refine Quiet.trans (.modPort u p (fun c => { c with txn := c.txn.startTimer }) ?_ rfl) (.reply ..)
  simp only [Txn.startTimer]
  split <;> rfl

theorem Local.commitOpen (u : State) (ht : u.ports[p].txn.state = .opened) : Local p u (commitOpen u p) := by
  unfold Machine.commitOpen
  split
  · next hc =>
    exact (Local.setTxn (x := .noTxn) (fun c => { c with txn := { c.txn.stopTimer with state := .noTxn } })
      (.ends u ht hc) rfl rfl).andThen (.reply ..)
  · split
    · exact .inl (.trans (.modPort u p (fun c => { c with txn := c.txn.stopTimer }) rfl rfl) (.reply ..))
    · next hc =>
      have ha : adminPending u p = false := by
        unfold commitCheck at hc
        by_contra h
        rw [Bool.not_eq_false] at h
        rw [if_pos h] at hc
        cases hc
      have q := quiet_setTxnState u p (fun c => { c with txn := { c.txn.stopTimer with state := .queued } })
        .queued rfl rfl
      have q' : Quiet (appendRequest (setTxnState u p .queued) ⟨p, .commit⟩)
          (appendRequest (u.modTxn p fun t => { t.stopTimer with state := .queued }) ⟨p, .commit⟩) :=
        ⟨rfl, rfl, rfl, rfl, rfl, rfl, rfl, rfl, q.txn, q.phase⟩
      exact Local.andThen (.inr ⟨_, .queues u ht ha, q'⟩) (.reply ..)

theorem portStep_commit (s : State) : ∃ t, exec (.commit p) s = .next t ∧ PortStep p s t :=
  ⟨_, rfl, .taking s _ _ _ fun u _ => .unlessRefused u _ _ fun hc =>
    .commitOpen u (opened_of_or_openCheck hc)⟩

/-- An abandonment is followed by a change of the port that no law reads (R39, R41). -/
theorem Local.abandon (u : State) (f : PortContext → PortContext) (r : Result)
    (ht : ∀ x, (f x).txn = x.txn) (hf : ∀ x, (f x).frame = x.frame) :
    Local p u (Machine.reply ((abandonTxn u p).modPort p f) p r []) :=
  ((Local.of_effect (.drops u)).andThen
    (.modPort _ p f (by rw [ht]) (by rw [hf]))).andThen (.reply ..)

theorem portStep_abort (s : State) : ∃ t, exec (.abort p) s = .next t ∧ PortStep p s t :=
  ⟨_, rfl, .taking s _ _ _ fun u _ => .unlessRefused u _ _ fun _ =>
    .abandon u _ _ (fun _ => rfl) fun _ => rfl⟩

theorem portStep_release (s : State) : ∃ t, exec (.release p) s = .next t ∧ PortStep p s t :=
  ⟨_, rfl, .taking s _ _ _ fun u _ => .unlessRefused u _ _ fun _ =>
    .abandon u _ _ (fun _ => rfl) fun _ => rfl⟩

theorem portStep_leaseExpiry (s : State) : ∃ t, exec (.leaseExpiry p) s = .next t ∧ PortStep p s t := by
  refine ⟨_, rfl, ?_⟩
  split
  · next h =>
    simp only [expiryDue, Bool.decide_and, Bool.and_eq_true, decide_eq_true_eq] at h
    obtain ⟨hd, ht, -⟩ := h
    have e := Local.setTxn (x := .expired) (fun c => { c with txn := { c.txn.stopTimer with state := .expired } })
      (.expires s ht) rfl rfl
    refine .of_local (.refl s) (e.andThen (.modPort _ p _ rfl rfl)) (.inr ?_)
    simp [ready, hd]
  · exact .inl (.refl s)

/-! ### Windows and data -/

theorem portStep_bind (window volume first count mode : Byte) (s : State) :
    ∃ t, exec (.bind p window volume first count mode) s = .next t ∧ PortStep p s t := by
  refine ⟨_, rfl, .taking s _ _ _ fun u _ => .unlessRefused u _ _ fun _ => ?_⟩
  split
  · exact .reply u _ _
  · split
    · exact .unlessRefused u _ _ fun _ => .inl (.trans (.modPort u p _ rfl rfl) (.reply ..))
    · exact .reply u _ _
    · exact .reply u _ _

theorem portStep_unbind (window : Byte) (s : State) :
    ∃ t, exec (.unbind p window) s = .next t ∧ PortStep p s t := by
  refine ⟨_, rfl, .taking s _ _ _ fun u _ => .unlessRefused u _ _ fun _ => ?_⟩
  split
  · exact .reply u _ _
  · exact .inl (.trans (.modPort u p _ rfl rfl) (.reply ..))

theorem portStep_read (window : Byte) (offset : Half) (s : State) :
    ∃ t, exec (.read p window offset) s = .next t ∧ PortStep p s t := by
  refine ⟨_, rfl, .taking s _ _ _ fun u _ => .unlessRefused u _ _ fun _ => ?_⟩
  split
  · exact .reply u _ _
  · exact .unlessRefused u _ _ fun _ =>
      .inl (.trans (.trans (.modPort u p _ rfl rfl) (.reply ..)) (.takeReadByte ..))

theorem portStep_write (window : Byte) (offset : Half) (s : State) :
    ∃ t, exec (.write p window offset) s = .next t ∧ PortStep p s t := by
  refine ⟨_, rfl, .taking s _ _ _ fun u _ => .unlessRefused u _ _ fun _ => ?_⟩
  split
  · exact .reply u _ _
  · exact .unlessRefused u _ _ fun _ => .inl (.trans (.modPort u p _ rfl rfl) (.reply ..))

theorem Local.punchPage (u : State) (b : Binding) (index : Byte) (ht : u.ports[p].txn.state = .opened) :
    Local p u (punchPage u p b index) := by
  unfold Machine.punchPage
  split
  · next t h => exact (Local.of_effect (.punches u t _ _ ht h)).andThen (.reply ..)
  · exact .reply u _ _

theorem portStep_punch (window index : Byte) (s : State) :
    ∃ t, exec (.punch p window index) s = .next t ∧ PortStep p s t := by
  refine ⟨_, rfl, .taking s _ _ _ fun u _ => .unlessRefused u _ _ fun _ => ?_⟩
  split
  · exact .reply u _ _
  · refine .unlessRefused u _ _ fun hc => ?_
    have ht := opened_of_or_openCheck (Option.or_eq_none_iff.1 hc).2
    split
    · split
      · exact .inl (.trans (.modPort u p _ (congrArg Txn.state (meetFault_txn _ _)) (meetFault_phase _ _))
          (.reply ..))
      · exact .punchPage u _ _ ht
    · exact .inl (.refl u)
    · exact .inl (.refl u)

/-- A byte in a data phase without a burst shifts the response on (R168). -/
theorem Quiet.shift (s : State) (p : Port) : Quiet s (s.modFrame p FrameRecord.shift) :=
  .modFrame s p _ (FrameRecord.shift_phase _)

theorem portStep_readDataByte (s : State) :
    ∃ t, exec (.readDataByte p) s = .next t ∧ PortStep p s t := by
  refine ⟨_, rfl, .inl ?_⟩
  split
  · split
    · split
      · exact .takeReadByte ..
      · exact .refl s
    · exact .shift s p
  · exact .ignoreByte s p

theorem Quiet.refuseBurst (s : State) (p : Port) (b : Burst) (r : Result) :
    Quiet s (refuseBurst s p b r) :=
  .trans (.modPort s p (fun c => c.setBurst { b with stopped := true }) rfl rfl) (.setResult ..)

theorem Local.takeWriteByte (s : State) (b : Burst) (value : Byte) :
    Local p s (takeWriteByte s p b value) := by
  unfold Machine.takeWriteByte
  split
  · exact .inl (.refl s)
  · split
    · exact .inl (.refuseBurst ..)
    · next ht =>
      split
      · exact .inl (.meetStale s p b _)
      · exact .inl (.refl s)
      · split
        · exact .inl (.meetEnd s p b _)
        · split
          · next t h =>
            exact (Local.of_effect (.writes s t _ _ _ _ (not_not.1 ht) h)).andThen (.modPort t p _ rfl rfl)
          · exact .inl (.refuseBurst ..)

theorem portStep_writeDataByte (value : Byte) (s : State) :
    ∃ t, exec (.writeDataByte p value) s = .next t ∧ PortStep p s t := by
  refine ⟨_, rfl, ?_⟩
  split
  · next hp =>
    split
    · split
      · exact .of_local (.refl s) (.takeWriteByte ..) (.inl (by rw [hp]; rfl))
      · exact .inl (.refl s)
    · exact .inl (.shift s p)
  · exact .inl (.ignoreByte s p)

/-! ### Administration -/

theorem portStep_format (s : State) : ∃ t, exec (.format p) s = .next t ∧ PortStep p s t :=
  ⟨_, rfl, .taking s _ _ _ fun u _ => .unlessRefused u _ _ fun hc =>
    .accept u .format (requestPending_of_formatAccept hc) (by decide) (fun _ => ⟨rfl, rfl⟩)
      fun _ _ h => by cases h⟩

theorem portStep_create (volume size rights pinned : Byte) (s : State) :
    ∃ t, exec (.create p volume size rights pinned) s = .next t ∧ PortStep p s t := by
  refine ⟨_, rfl, .taking s _ _ _ fun u _ => .withArgs u _ _ fun x _ hp => ?_⟩
  refine .unlessRefused u _ _ fun hc => ?_
  have hv : u.volumes[x.1.1] = .absent := of_decide_eq_true ((refuseUnless_eq_none _ _).1 hc)
  exact (Local.of_effect (.creates u x.1.1 x.1.2 x.2.1 x.2.2 hp hv)).andThen (.reply ..)

theorem changes_self (v : VolumeNo) (n : Nat) : (RequestKind.delete v).changes v = true ∧
    (RequestKind.resize v n).changes v = true ∧ (RequestKind.freeze v).changes v = true ∧
    (RequestKind.lock v).changes v = true := by
  simp [RequestKind.changes]

theorem portStep_delete (volume : Byte) (s : State) :
    ∃ t, exec (.delete p volume) s = .next t ∧ PortStep p s t := by
  refine ⟨_, rfl, .taking s _ _ _ fun u _ => .withArgs u _ _ fun v _ hp =>
    .unlessRefused u _ _ fun hc => ?_⟩
  obtain ⟨r, hr, hs, hn⟩ := volumeChecks_eq_none hc
  refine .acceptChanging u v _ _ hp hr ?_ ?_ (changes_self v 0).1 fun _ g => ?_
  · cases h : r.status <;> simp_all [deleteStateCheck, Status.isChanging]
  · intro h; simp [h, deleteStateCheck] at hs
  · have := claims_of_inUseCheck (hn 0 rfl) g (Nat.zero_le _)
    unfold entryOf at this
    rwa [hr] at this

theorem openStateCheck_opened {st : Status} (h : openStateCheck (some st) = none) : st = .opened := by
  cases st <;> simp_all [openStateCheck]

theorem portStep_resize (volume size : Byte) (s : State) :
    ∃ t, exec (.resize p volume size) s = .next t ∧ PortStep p s t := by
  refine ⟨_, rfl, .taking s _ _ _ fun u _ => .withArgs u _ _ fun x _ hp =>
    .unlessRefused u _ _ fun hc => ?_⟩
  obtain ⟨r, hr, hs, -⟩ := volumeChecks_eq_none hc
  have ho := openStateCheck_opened hs
  exact .acceptChanging u x.1 _ _ hp hr (by rw [ho]; rfl) (by rw [ho]; decide) (changes_self x.1 x.2).2.1
    fun h => by cases h

theorem portStep_freeze (volume : Byte) (s : State) :
    ∃ t, exec (.freeze p volume) s = .next t ∧ PortStep p s t := by
  refine ⟨_, rfl, .taking s _ _ _ fun u _ => .withArgs u _ _ fun v _ hp =>
    .unlessRefused u _ _ fun hc => ?_⟩
  obtain ⟨r, hr, hs, -⟩ := volumeChecks_eq_none hc
  have ho := openStateCheck_opened hs
  exact .acceptChanging u v _ _ hp hr (by rw [ho]; rfl) (by rw [ho]; decide) (changes_self v 0).2.2.1
    fun h => by cases h

theorem portStep_lock (volume : Byte) (s : State) :
    ∃ t, exec (.lock p volume) s = .next t ∧ PortStep p s t := by
  refine ⟨_, rfl, .taking s _ _ _ fun u _ => .withArgs u _ _ fun v _ hp =>
    .unlessRefused u _ _ fun hc => ?_⟩
  obtain ⟨r, hr, hs, -⟩ := volumeChecks_eq_none hc
  refine .acceptChanging u v _ _ hp hr ?_ ?_ (changes_self v 0).2.2.2 fun h => by cases h
  · cases h : r.status <;> simp_all [lockStateCheck, Status.isChanging]
  · intro h; simp [h, lockStateCheck] at hs

theorem portStep_thaw (volume : Byte) (s : State) :
    ∃ t, exec (.thaw p volume) s = .next t ∧ PortStep p s t := by
  refine ⟨_, rfl, .taking s _ _ _ fun u _ => .withArgs u _ _ fun v _ hp =>
    .unlessRefused u _ _ fun hc => ?_⟩
  obtain ⟨r, hr, hs, -⟩ := volumeChecks_eq_none hc
  refine .accept u (.thaw v) hp (by simp) (fun _ => ⟨rfl, rfl⟩) fun w q hw hq hl => ?_
  cases hw
  rw [hr] at hq
  cases hq
  rw [hl] at hs
  cases hs

theorem portStep_setRights (volume portRight : Byte) (s : State) :
    ∃ t, exec (.setRights p volume portRight) s = .next t ∧ PortStep p s t :=
  ⟨_, rfl, .taking s _ _ _ fun u _ => .withArgs u _ _ fun _ _ hp => .unlessRefused u _ _ fun _ =>
    .accept u _ hp (by simp) (fun _ => ⟨rfl, rfl⟩) fun _ _ _ _ _ => rfl⟩

theorem portStep_pin (volume : Byte) (s : State) :
    ∃ t, exec (.pin p volume) s = .next t ∧ PortStep p s t :=
  ⟨_, rfl, .taking s _ _ _ fun u _ => .withArgs u _ _ fun _ _ hp => .unlessRefused u _ _ fun _ =>
    .accept u _ hp (by simp) (fun _ => ⟨rfl, rfl⟩) fun _ _ _ _ _ => rfl⟩

theorem portStep_unpin (volume : Byte) (s : State) :
    ∃ t, exec (.unpin p volume) s = .next t ∧ PortStep p s t :=
  ⟨_, rfl, .taking s _ _ _ fun u _ => .withArgs u _ _ fun _ _ hp => .unlessRefused u _ _ fun _ =>
    .accept u _ hp (by simp) (fun _ => ⟨rfl, rfl⟩) fun _ _ _ _ _ => rfl⟩

theorem portStep_configPort (target : Byte) (quota : Half) (bit : Byte) (s : State) :
    ∃ t, exec (.configPort p target quota bit) s = .next t ∧ PortStep p s t :=
  ⟨_, rfl, .taking s _ _ _ fun u _ => .withArgs u _ _ fun _ _ hp => .unlessRefused u _ _ fun _ =>
    .accept u _ hp (by simp) (fun _ => ⟨rfl, rfl⟩) fun _ _ h => by cases h⟩

theorem portStep_configDevice (budget : Byte) (s : State) :
    ∃ t, exec (.configDevice p budget) s = .next t ∧ PortStep p s t :=
  ⟨_, rfl, .taking s _ _ _ fun u _ => .unlessRefused u _ _ fun hc =>
    .accept u _ (requestPending_of_adminCheck hc) (by simp) (fun _ => ⟨rfl, rfl⟩) fun _ _ h => by cases h⟩

/-! ### Results and queries -/

theorem portStep_getResult (s : State) : ∃ t, exec (.getResult p) s = .next t ∧ PortStep p s t :=
  ⟨_, rfl, .taking s _ _ _ fun u _ => .inl (.trans (.modPort u p _ rfl rfl) (.reply ..))⟩

theorem portStep_setAttn (mask : Byte) (s : State) :
    ∃ t, exec (.setAttn p mask) s = .next t ∧ PortStep p s t := by
  refine ⟨_, rfl, .taking s _ _ _ fun u _ => ?_⟩
  split
  · exact .reply u _ _
  · exact .inl (.trans (.modPort u p _ rfl rfl) (.reply ..))

theorem portStep_infoVolume (volume : Byte) (s : State) :
    ∃ t, exec (.infoVolume p volume) s = .next t ∧ PortStep p s t := by
  refine ⟨_, rfl, .taking s _ _ _ fun u _ => .unlessRefused u _ _ fun _ => ?_⟩
  split <;> exact .reply u _ _

theorem portStep_infoPage (volume page : Byte) (s : State) :
    ∃ t, exec (.infoPage p volume page) s = .next t ∧ PortStep p s t := by
  refine ⟨_, rfl, .taking s _ _ _ fun u _ => .unlessRefused u _ _ fun _ => ?_⟩
  split
  · exact .unlessRefused u _ _ fun _ => .reply u _ _
  · exact .reply u _ _

theorem portStep_infoDevice (s : State) : ∃ t, exec (.infoDevice p) s = .next t ∧ PortStep p s t :=
  ⟨_, rfl, .taking s _ _ _ fun u _ => .reply u _ _⟩

/-! ### Frames -/

theorem portStep_unknownCommand (value : Byte) (s : State) :
    ∃ t, exec (.unknownCommand p value) s = .next t ∧ PortStep p s t := by
  refine ⟨_, rfl, .inl ?_⟩
  split
  · exact .setPort s p _ rfl fun h => by cases h
  · exact .ignoreByte s p

theorem portStep_commandByteComplete (value : Byte) (s : State) :
    ∃ t, exec (.commandByteComplete p value) s = .next t ∧ PortStep p s t := by
  refine ⟨_, rfl, .inl ?_⟩
  split
  · next h => exact .setPort s p _ rfl fun _ => .inl (by rw [h.1]; rfl)
  · exact .ignoreByte s p

theorem portStep_argumentByte (value : Byte) (s : State) :
    ∃ t, exec (.argumentByte p value) s = .next t ∧ PortStep p s t := by
  refine ⟨_, rfl, .inl ?_⟩
  split
  · exact .modPort s p _ rfl rfl
  · exact .ignoreByte s p

theorem portStep_selectFall (high : Bool) (s : State) :
    ∃ t, exec (.selectFall p high) s = .next t ∧ PortStep p s t := by
  refine ⟨_, rfl, .inl ?_⟩
  split
  · refine .setPort s p _ rfl fun h => .inr ?_
    by_contra hr
    rw [Bool.not_eq_true] at hr
    rw [hr] at h
    cases h
  · exact .refl s

theorem portStep_selectRise (s : State) : ∃ t, exec (.selectRise p) s = .next t ∧ PortStep p s t := by
  refine ⟨_, rfl, .inl ?_⟩
  split
  · exact .refl s
  · exact .setPort s p _ rfl fun h => by cases h

/-! ### The happenings that are no port's bytes -/

/-- The happenings of the update engine, the supply monitor and the recall. -/
def isInternal : Instr → Bool
  | .requestRemoval | .pageStepPass | .pageStepFail | .mapStepPass | .systemAreaProgramFail | .rootStepPass
  | .durableOnLossCandidate | .pfailAsserted | .pfailDeasserted | .resetNAsserted | .resetNReleased | .powerUp
  | .lossOfSupply | .recallRootSlots | .recallVolumeTable | .recallPageChecks | .recallEnd => true
  | _ => false

theorem quiet_leaseTick (s : State) : ∃ t, exec .leaseTick s = .next t ∧ Quiet s t := by
  refine ⟨_, rfl, ?_⟩
  split
  · refine .modPorts s _ (fun _ x => ?_) fun _ _ h => h
    simp only [Txn.tick]
    split <;> rfl
  · exact .refl s

/-- Every happening but the internal ones is a step of a port. -/
theorem exec_portStep (i : Instr) (s t : State) (hi : isInternal i = false) (h : exec i s = .next t) :
    ∃ p, PortStep p s t := by
  have done : ∀ {p : Port}, (∃ u, exec i s = .next u ∧ PortStep p s u) → ∃ p, PortStep p s t := by
    rintro p ⟨u, hu, hs⟩
    rw [h] at hu
    cases hu
    exact ⟨p, hs⟩
  cases i with
  | begin p l f => exact done (portStep_begin l f s)
  | touch p => exact done (portStep_touch s)
  | commit p => exact done (portStep_commit s)
  | abort p => exact done (portStep_abort s)
  | release p => exact done (portStep_release s)
  | bind p w v f n m => exact done (portStep_bind w v f n m s)
  | unbind p w => exact done (portStep_unbind w s)
  | read p w o => exact done (portStep_read w o s)
  | write p w o => exact done (portStep_write w o s)
  | punch p w x => exact done (portStep_punch w x s)
  | format p => exact done (portStep_format s)
  | create p v n r k => exact done (portStep_create v n r k s)
  | delete p v => exact done (portStep_delete v s)
  | resize p v n => exact done (portStep_resize v n s)
  | freeze p v => exact done (portStep_freeze v s)
  | lock p v => exact done (portStep_lock v s)
  | thaw p v => exact done (portStep_thaw v s)
  | setRights p v r => exact done (portStep_setRights v r s)
  | pin p v => exact done (portStep_pin v s)
  | unpin p v => exact done (portStep_unpin v s)
  | configPort p x q k => exact done (portStep_configPort x q k s)
  | configDevice p n => exact done (portStep_configDevice n s)
  | getResult p => exact done (portStep_getResult s)
  | setAttn p m => exact done (portStep_setAttn m s)
  | infoVolume p v => exact done (portStep_infoVolume v s)
  | infoPage p v g => exact done (portStep_infoPage v g s)
  | infoDevice p => exact done (portStep_infoDevice s)
  | unknownCommand p b => exact done (portStep_unknownCommand b s)
  | argumentByte p b => exact done (portStep_argumentByte b s)
  | commandByteComplete p b => exact done (portStep_commandByteComplete b s)
  | selectFall p k => exact done (portStep_selectFall k s)
  | selectRise p => exact done (portStep_selectRise s)
  | readDataByte p => exact done (portStep_readDataByte s)
  | writeDataByte p b => exact done (portStep_writeDataByte b s)
  | leaseExpiry p => exact done (portStep_leaseExpiry s)
  | leaseTick => exact done (p := 0) ((quiet_leaseTick s).imp fun _ hq => ⟨hq.1, .inl hq.2⟩)
  | lockinChange k =>
    exact done (p := 0) ⟨_, rfl, .inl ⟨rfl, rfl, rfl, rfl, rfl, rfl, rfl, rfl, fun _ => rfl, fun _ => .inl⟩⟩
  | _ => cases hi

end Sys2Proof.Machine
end


section
/-! What the update engine does when a program ends, said once: the failure of requests, the entry into
STOPPED, the completion, and the inversion of the five outcome rows into the acts of the engine. -/

namespace Sys2Proof.Machine

/-! ### The failure of a request (R90, R98) -/

/-- The port context of a failed request (R37, R98, R99). -/
def PortContext.failed (x : PortContext) (inSequence : Bool) (kind : RequestKind) (code : Code)
    (step : Option FailedStep) : PortContext :=
  { x with
    txn := if kind = .commit then x.txn.afterFailure inSequence else x.txn
    report := some ⟨kind.command, code, kind.volume, none, none, step⟩
    pending := { x.pending with update := true } }

/-- The record of a request that returns: its volume, or its transaction. -/
theorem returnRecord_eq (s : State) (req : Request) : returnRecord s req = { s with
    volumes := (returnVolume s req.kind).volumes
    ports := upd s.ports req.port { s.ports[req.port] with
      txn := if req.kind = .commit then s.ports[req.port].txn.afterFailure (inPowerFail s)
        else s.ports[req.port].txn } } := by
  have self : upd s.ports req.port s.ports[req.port] = s.ports :=
    congrArg State.ports (setPort_self s req.port)
  by_cases hk : req.kind = .commit
  · simp only [returnRecord, hk, if_true, reopen_afterFailure]
    rfl
  · have hr : returnRecord s req = returnVolume s req.kind := by
      unfold returnRecord
      split
      · next h => exact absurd h hk
      · rfl
    rw [hr, returnVolume_eq]
    simp only [hk, if_false, self]

/-- All that the failure of a request does (R98, R99). -/
theorem failRequest_eq (s : State) (req : Request) (code : Code) (step : Option FailedStep) :
    failRequest s req code step = { s with
      volumes := (returnVolume s req.kind).volumes
      ports := upd s.ports req.port (s.ports[req.port].failed (inPowerFail s) req.kind code step) } := by
  rw [failRequest, returnRecord_eq]
  simp only [writeReport, raise, State.modPort, State.setPort, upd_upd_self, upd_get_self, PortContext.failed,
    failReport, Causes.add]

/-- The failure of a request returns the transaction of a COMMIT to OPEN, and leaves every other (R37). -/
theorem failed_txn_state (x : PortContext) (b : Bool) (kind : RequestKind) (code : Code)
    (step : Option FailedStep) : (x.failed b kind code step).txn.state =
      if kind = .commit then .opened else x.txn.state := by
  unfold PortContext.failed Txn.afterFailure Txn.reopened
  split
  · split <;> rfl
  · rfl

/-- All that the failure of the update in flight does (R98). -/
theorem failUpdate_eq (s : State) (req : Request) (code : Code) (step : Option FailedStep)
    (h : s.engine.inFlight = some req) : failUpdate s code step = { s with
      volumes := (returnVolume s req.kind).volumes
      ports := upd s.ports req.port (s.ports[req.port].failed (inPowerFail s) req.kind code step)
      engine := s.engine.ended } := by
  simp only [failUpdate, h]
  rw [failRequest_eq]
  rfl

/-- The failure of several requests changes the ports and the volume table alone. -/
theorem failRequests_eq (l : List Request) (code : Code) (step : Option FailedStep) (s : State) :
    l.foldl (fun t r => failRequest t r code step) s = { s with
      volumes := (l.foldl (fun t r => returnVolume t r.kind) s).volumes
      ports := (l.foldl (fun t r => failRequest t r code step) s).ports } := by
  induction l generalizing s with
  | nil => rfl
  | cons r l ih =>
    have hv : (l.foldl (fun t r => returnVolume t r.kind) (failRequest s r code step)).volumes =
        (l.foldl (fun t r => returnVolume t r.kind) (returnVolume s r.kind)).volumes := by
      refine table_ext fun v => ?_
      rw [returnVolumes_at, returnVolumes_at, failRequest_eq]
    simp only [List.foldl_cons]
    rw [ih, hv, failRequest_eq]

/-- All that the entry into STOPPED does (R90). -/
theorem enterStopped_eq (s : State) (req : Request) (step : FailedStep) (h : s.engine.inFlight = some req) :
    enterStopped s step = { s with
      volumes := (s.engine.queue.foldl (fun t r => returnVolume t r.kind)
        (returnVolume s req.kind)).volumes
      ports := (enterStopped s step).ports
      engine := { s.engine.ended with state := .stopped, queue := [], sysareaFault := true } } := by
  have hv : (s.engine.queue.foldl (fun t r => returnVolume t r.kind)
        (failUpdate s .systemAreaFault (some step))).volumes =
      (s.engine.queue.foldl (fun t r => returnVolume t r.kind) (returnVolume s req.kind)).volumes := by
    refine table_ext fun v => ?_
    rw [returnVolumes_at, returnVolumes_at, failUpdate_eq s req _ _ h]
  have hq : (failUpdate s .systemAreaFault (some step)).engine.queue = s.engine.queue := by
    rw [failUpdate_eq s req _ _ h]
    rfl
  simp only [enterStopped, failQueue, hq]
  rw [failRequests_eq, hv, failUpdate_eq s req _ _ h]
  rfl

/-! ### The budget -/

/-- A unit of the budget spent changes the device state alone, and keeps a power-fail sequence one (R154). -/
theorem spendOne_eq {s t : State} (h : spendOne s = some t) :
    t = { s with device := t.device } ∧ inPowerFail t = inPowerFail s ∧ t.device.works = s.device.works ∧
      (inPowerFail s = false → t.device = s.device) := by
  unfold spendOne at h
  split at h
  · next hd =>
    split at h
    · cases h
    · cases h
      exact ⟨rfl, by simp [inPowerFail, hd], by simp [hd, Device.works], by simp [inPowerFail, hd]⟩
  · cases h
    exact ⟨rfl, rfl, rfl, fun _ => rfl⟩

/-! ### The acts of the engine -/

/-- What the engine can do once the program of step `step` of `plan` for `req` has ended. -/
inductive Act (req : Request) (plan : Plan) (step : PlanStep) : State → State → Prop
  /-- The program was of another frame than the step's: it does not act. -/
  | stays (s : State) : Act req plan step s s
  /-- The next step begins (R82). -/
  | advances (s : State) : Act req plan step s (nextStep s)
  /-- The update fails (R86, R98). -/
  | fails (s : State) (code : Code) (f : Option FailedStep) : Act req plan step s (failUpdate s code f)
  /-- The update is abandoned (R153, R155). -/
  | abandons (s : State) : Act req plan step s (abandonUpdate s)
  /-- The shadow is relocated (R87). -/
  | relocates (s t : State) (v : VolumeNo) (g : PageNo) (f : FrameNo) (n : Nat) (c : Option Half)
      (hs : step = .page v g f n c) (hr : s.engine.retired.length < Config.retiredCapacity)
      (hf : s.freeList ≠ []) (ht : spendOne s = some t) : Act req plan step s (relocate t req plan v g f n)
  /-- The program of the step is tried once more (R89). -/
  | retries (s t : State) (f : FrameNo) (ht : spendOne s = some t) :
      Act req plan step s (retryStep t plan step f)
  /-- The engine stops (R90). -/
  | stops (s : State) (f : FailedStep) : Act req plan step s (enterStopped s f)
  /-- The update completes (R92). -/
  | completes (s : State) (slot : RootSlot) (seq : Word) : Act req plan step s (complete s req plan slot seq)

/-- A program of `s` has ended, with nothing else done. -/
def ProgramEnded (s t : State) : Prop := ∃ f, t = programPasses s f ∨ t = programFails s f

/-- What follows the outcome of a program: nothing, or an act of the engine and the end of the sequence. -/
def Outcome (s t : State) : Prop :=
  t = s ∨ ∃ u, ProgramEnded s u ∧ (t = u ∨ ∃ req plan step w, u.engine.inFlight = some req ∧
    u.engine.plan = some plan ∧ plan.step = some step ∧ Act req plan step u w ∧ t = settleSequence w)

theorem Outcome.of_afterOutcome {s u : State} (hu : ProgramEnded s u)
    (act : Request → Plan → PlanStep → State)
    (h : ∀ req plan step, Act req plan step u (act req plan step)) : Outcome s (afterOutcome u act) := by
  refine .inr ⟨u, hu, ?_⟩
  unfold afterOutcome
  split
  · next req plan hr hp =>
    split
    · next step hs =>
      refine .inr ⟨req, plan, step, _, hr, hp, hs, ?_, rfl⟩
      split
      · exact .abandons u
      · exact h req plan step
    · exact .inl rfl
  · exact .inl rfl

theorem act_failPage (s : State) (req : Request) (plan : Plan) (v : VolumeNo) (g : PageNo) (f : FrameNo)
    (n : Nat) (c : Option Half) : Act req plan (.page v g f n c) s (failPage s req plan v g f n) := by
  unfold failPage
  split
  · exact .fails s _ _
  · split
    · exact .fails s _ _
    · next hr =>
      split
      · exact .fails s _ _
      · next hf =>
        split
        · next t ht => exact .relocates s t v g f n c rfl (Nat.lt_of_not_le hr) hf ht
        · exact .abandons s

theorem act_failSystem (s : State) (req : Request) (plan : Plan) (step : PlanStep) (f : FrameNo) (used : Bool)
    (failed : FailedStep) : Act req plan step s (failSystem s plan step f used failed) := by
  unfold failSystem
  split
  · exact .stops s failed
  · split
    · next t ht => exact .retries s t f ht
    · exact .abandons s

/-- Whether a happening is the outcome of a program. -/
def isOutcome : Instr → Bool
  | .pageStepPass | .pageStepFail | .mapStepPass | .systemAreaProgramFail | .rootStepPass => true
  | _ => false

/-- The five rows of a program's end, inverted. -/
theorem exec_outcome (i : Instr) (s t : State) (hi : isOutcome i = true) (h : exec i s = .next t) :
    Outcome s t := by
  have passes : ∀ f, ProgramEnded s (programPasses s f) := fun f => ⟨f, .inl rfl⟩
  have fails : ∀ f, ProgramEnded s (programFails s f) := fun f => ⟨f, .inr rfl⟩
  cases i with
  | pageStepPass | mapStepPass =>
    cases h
    split
    · split
      · exact .of_afterOutcome (passes _) _ fun _ _ _ => .advances _
      · exact .inl rfl
    · exact .inl rfl
  | pageStepFail =>
    cases h
    split
    · split
      · refine .of_afterOutcome (fails _) _ fun req plan step => ?_
        cases step with
        | page v g f n c => exact act_failPage _ req plan v g f n c
        | map _ _ _ _ | root _ _ _ => exact .stays _
      · exact .inl rfl
    · exact .inl rfl
  | systemAreaProgramFail =>
    cases h
    split
    · split
      · exact .inl rfl
      · refine .of_afterOutcome (fails _) _ fun req plan step => ?_
        cases step with
        | page _ _ _ _ _ => exact .stays _
        | map _ _ _ _ | root _ _ _ => exact act_failSystem _ req plan _ _ _ _
    · exact .inl rfl
  | rootStepPass =>
    cases h
    split
    · split
      · refine .of_afterOutcome (passes _) _ fun req plan step => ?_
        cases step with
        | root slot seq _ => exact .completes _ slot seq
        | page _ _ _ _ _ | map _ _ _ _ => exact .stays _
      · exact .inl rfl
    · exact .inl rfl
  | _ => cases hi

/-! ### The step -/

/-- A step is the happening at the front of the queue, or nothing (log entry 7). -/
theorem step_cases {s t : State} (h : step s = .next t) :
    t = s ∨ ∃ i rest, s.pending = i :: rest ∧ exec i { s with pending := rest } = .next t := by
  unfold step at h
  split at h
  · cases h; exact .inl rfl
  · next i rest hp => exact .inr ⟨i, rest, hp, h⟩

/-- A law that no quiet change breaks, that every effect of a port, every outcome of a program and every other
internal happening keeps, is kept by every step. -/
theorem step_keeps (P : State → Prop) {s t : State} (hs : P s) (h : step s = .next t)
    (quiet : ∀ {s t}, Quiet s t → P s → P t)
    (effect : ∀ {s p t}, s.ports[p].frame.phase.takes = true ∨ ready s = true → Effect p s t → P s → P t)
    (outcome : ∀ {s t}, Outcome s t → P s → P t)
    (others : ∀ {i u}, s.pending.head? = some i → isInternal i = true → isOutcome i = false →
      exec i u = .next t → P u → P t) : P t := by
  rcases step_cases h with rfl | ⟨i, rest, hi, he⟩
  · exact hs
  · have h0 := quiet (.pending s rest) hs
    cases hin : isInternal i with
    | false =>
      obtain ⟨p, hp⟩ := exec_portStep i _ t hin he
      rcases hp with hq | ⟨u, v, hp, hu, hv, hq⟩
      · exact quiet hq h0
      · exact quiet hq (effect hp hv (quiet hu h0))
    | true =>
      cases ho : isOutcome i with
      | true => exact outcome (exec_outcome i _ t ho he) h0
      | false => exact others (by rw [hi]; rfl) hin ho he h0

end Sys2Proof.Machine
end


section
/-! Both memories stay in canonical form (O56). -/

namespace Sys2Proof.Machine

/-! ### What the map unit answers -/

/-- Placing a byte changes the working array alone. -/
theorem placeByte_eq (s : State) (p : Port) (v : VolumeNo) (g : PageNo) (off : Fin 256) (b : Byte) :
    placeByte s p v g off b = { s with array := (placeByte s p v g off b).array } := by
  unfold placeByte
  split <;> rfl

/-- The write requests that the map unit takes (R47): on an own DATA claim, on an own HOLE claim, and on a page
without a claim of the port. -/
theorem requestWrite_done {s t : State} {p : Port} {v : VolumeNo} {g : PageNo} {off : Fin 256} {b : Byte}
    (h : requestWrite s p v g off b = .done t) :
    (∃ f, (entryOf s v g).claimOf p = some (.data f) ∧ t = placeByte s p v g off b) ∨
    ((entryOf s v g).claimOf p = some .hole ∧ mayAllocate s = true ∧
      t = placeByte (shadowPage s p v g zeroFrame) p v g off b) ∨
    ((entryOf s v g).claimOf p = none ∧ claimChecks s p v g = none ∧ mayAllocate s = true ∧
      t = placeByte (countClaim (shadowPage s p v g (fillFor s (entryOf s v g))) p) p v g off b) := by
  have free : claimFrameCheck s v g = none → mayAllocate s = true := fun h => by
    unfold claimFrameCheck at h
    split at h
    · assumption
    · cases h
  unfold requestWrite at h
  split at h
  · next f hc => cases h; exact .inl ⟨f, hc, rfl⟩
  · next hc =>
    split at h
    · cases h
    · next hf => cases h; exact .inr (.inl ⟨hc, free hf, rfl⟩)
  · next hc =>
    split at h
    · cases h
    · next hf =>
      obtain ⟨hk, hf⟩ := Option.or_eq_none_iff.1 hf
      cases h
      exact .inr (.inr ⟨hc, hk, free hf, rfl⟩)

/-- The punch requests that the map unit takes (R48). -/
theorem requestPunch_done {s t : State} {p : Port} {v : VolumeNo} {g : PageNo}
    (h : requestPunch s p v g = .done t) :
    t = s ∨ (∃ f, (entryOf s v g).claimOf p = some (.data f) ∧ t = freeFrames (holePage s p v g) [f]) ∨
    ((entryOf s v g).claimOf p = none ∧ claimChecks s p v g = none ∧ t = countClaim (holePage s p v g) p) := by
  unfold requestPunch at h
  split at h
  · cases h; exact .inl rfl
  · next f hc => cases h; exact .inr (.inl ⟨f, hc, rfl⟩)
  · next hc =>
    split at h
    · cases h
    · next hk => cases h; exact .inr (.inr ⟨hc, (Option.or_eq_none_iff.1 hk).2, rfl⟩)

/-! ### The operations on the memories -/

theorem MemoryForm.congr {s t : State} (h : MemoryForm s) (ha : t.array = s.array) (hc : t.cells = s.cells) :
    MemoryForm t := by
  unfold MemoryForm
  rw [ha, hc]
  exact h

theorem MemoryForm.writeFrame {s : State} (h : MemoryForm s) (f : FrameNo) (bytes : List Byte) :
    MemoryForm (writeFrame s f bytes) :=
  ⟨storeFrame_wf _ _ _ _ h.1, h.2⟩

theorem MemoryForm.storeCells {s : State} (h : MemoryForm s) (f : FrameNo) (bytes : List Byte)
    (t : State) (ha : t.array = s.array) (hc : t.cells = storeFrame cellFill s.cells f bytes) :
    MemoryForm t := by
  unfold MemoryForm
  rw [ha, hc]
  exact ⟨h.1, storeFrame_wf _ _ _ _ h.2⟩

theorem MemoryForm.placeByte {s : State} (h : MemoryForm s) (p : Port) (v : VolumeNo) (g : PageNo)
    (off : Fin 256) (b : Byte) : MemoryForm (placeByte s p v g off b) := by
  unfold Machine.placeByte
  split
  · exact ⟨store_wf _ _ _ _ h.1 (frame_in_array _ off), h.2⟩
  · exact h

theorem MemoryForm.shadowPage {s : State} (h : MemoryForm s) (p : Port) (v : VolumeNo) (g : PageNo)
    (fill : List Byte) : MemoryForm (shadowPage s p v g fill) := by
  cases hf : s.freeList with
  | nil => unfold Machine.shadowPage takeFree; rw [hf]; exact h
  | cons f rest =>
    rw [shadowPage_eq s p v g fill f rest hf, setEntry_eq, setFrameState_eq]
    exact (MemoryForm.congr h rfl rfl : MemoryForm { s with
      freeList := rest
      frameStates := (State.setFrameState { s with freeList := rest } f .shadow).frameStates }).writeFrame
        f fill

theorem MemoryForm.startStep {s : State} (h : MemoryForm s) : MemoryForm (startStep s) := by
  unfold Machine.startStep
  split
  · split
    · exact h.congr rfl rfl
    · unfold startMap
      split
      · exact (h.writeFrame _ _).congr rfl rfl
      · exact h.congr rfl rfl
    · exact (h.writeFrame _ _).congr rfl rfl
    · exact h
  · exact h

/-- A renamed shadow changes the volume table alone (R87). -/
theorem renameShadow_frame (s : State) (p : Port) (v : VolumeNo) (g : PageNo) (f : FrameNo) :
    renameShadow s p v g f = { s with volumes := (renameShadow s p v g f).volumes } := by
  unfold renameShadow
  split
  · exact setEntry_eq ..
  · rfl

theorem MemoryForm.setVolumes {s : State} (h : MemoryForm s) (x : Vector Volume 16) (d : Device) :
    MemoryForm { s with volumes := x, device := d } :=
  h.congr rfl rfl

theorem MemoryForm.setVolume {s : State} (h : MemoryForm s) (v : VolumeNo) (x : Volume) :
    MemoryForm (s.setVolume v x) :=
  h.congr rfl rfl

theorem MemoryForm.startPage {s : State} (h : MemoryForm s) (plan : Plan) (v : VolumeNo) (g : PageNo)
    (f : FrameNo) (n : Nat) : MemoryForm (startPage s plan v g f n) :=
  h.congr rfl rfl

theorem MemoryForm.setFrameState {s : State} (h : MemoryForm s) (l : List FrameNo) (f : FrameNo)
    (x : FrameState) : MemoryForm (State.setFrameState { s with freeList := l } f x) := by
  rw [setFrameState_eq]
  exact h.congr rfl rfl

theorem MemoryForm.relocate {s : State} (h : MemoryForm s) (req : Request) (plan : Plan) (v : VolumeNo)
    (g : PageNo) (f : FrameNo) (n : Nat) : MemoryForm (relocate s req plan v g f n) := by
  have hr : MemoryForm (retire s f) := by rw [retire_eq]; exact h.congr rfl rfl
  unfold Machine.relocate takeFree
  split
  · exact h
  · next new t ht =>
    split at ht
    · cases ht
    · cases ht
      rw [renameShadow_frame]
      exact (((hr.setFrameState _ _ _).writeFrame new (arrayFrame s f)).setVolumes _ _).startPage ..

/-- A completed request leaves both memories (R92 to R97). -/
theorem applyEffects_memories (s : State) (req : Request) (plan : Plan) :
    (applyEffects s req plan).array = s.array ∧ (applyEffects s req plan).cells = s.cells := by
  unfold applyEffects
  split
  · simp only [completeCommit, freeFrames]
    rw [setFrames_eq, setFrames_eq s]
    exact ⟨rfl, rfl⟩
  · exact ⟨rfl, rfl⟩
  · simp only [completeDelete, freeFrames]
    rw [setFrames_eq]
    exact ⟨rfl, rfl⟩
  · simp only [completeResize, freeFrames, State.modVolume_array, State.modVolume_cells]
    rw [setFrames_eq]
    exact ⟨rfl, rfl⟩
  all_goals first | exact ⟨rfl, rfl⟩ | exact ⟨State.modVolume_array .., State.modVolume_cells ..⟩

theorem MemoryForm.complete {s : State} (h : MemoryForm s) (req : Request) (plan : Plan) (slot : RootSlot)
    (seq : Word) : MemoryForm (complete s req plan slot seq) := by
  obtain ⟨ha, hc⟩ := applyEffects_memories
    (s.modEngine fun e => { e with selected := some slot, sequence := some seq }) req plan
  exact h.congr ha hc

theorem MemoryForm.settleSequence {s : State} (h : MemoryForm s) : MemoryForm (settleSequence s) := by
  rcases settleSequence_cases s with e | ⟨-, -, -, e⟩ <;> rw [e]
  · exact h
  · exact h.congr rfl rfl

theorem MemoryForm.abandonUpdate {s : State} (h : MemoryForm s) : MemoryForm (abandonUpdate s) := by
  cases hr : s.engine.inFlight with
  | none => unfold Machine.abandonUpdate; rw [hr]; exact h
  | some req => rw [abandonUpdate_eq s req hr]; exact h.congr rfl rfl

theorem MemoryForm.cutProgram {s : State} (h : MemoryForm s) : MemoryForm (cutProgram s) := by
  unfold Machine.cutProgram
  split
  · exact h
  · exact h.storeCells _ _ _ rfl rfl

/-! ### Every happening keeps the form -/

theorem MemoryForm.quiet {s t : State} (q : Quiet s t) (h : MemoryForm s) : MemoryForm t :=
  h.congr q.array q.cells

theorem MemoryForm.effect {s t : State} {p : Port} (e : Effect p s t) (h : MemoryForm s) : MemoryForm t := by
  cases e with
  | opens | ends | queues | accepts | creates | changes => exact h.congr rfl rfl
  | expires =>
    obtain ⟨ha, hc⟩ := releaseClaims_memories s p
    exact h.congr ha hc
  | drops =>
    unfold abandonTxn
    split
    · obtain ⟨ha, hc⟩ := releaseClaims_memories s p
      exact h.congr ha hc
    · obtain ⟨ha, hc⟩ := releaseClaims_memories (withdrawCommit s p) p
      exact h.congr ha hc
    all_goals exact h.congr rfl rfl
  | writes t v g off b ht hw =>
    rcases requestWrite_done hw with ⟨f, -, rfl⟩ | ⟨-, -, rfl⟩ | ⟨-, -, -, rfl⟩
    · exact h.placeByte ..
    · exact (h.shadowPage ..).placeByte ..
    · exact ((h.shadowPage ..).congr rfl rfl : MemoryForm (countClaim _ p)).placeByte ..
  | punches t v g ht hp =>
    have hole : MemoryForm (holePage s p v g) := by
      unfold holePage
      rw [setEntry_eq]
      exact h.congr rfl rfl
    rcases requestPunch_done hp with rfl | ⟨f, -, rfl⟩ | ⟨-, -, rfl⟩
    · exact h
    · unfold freeFrames
      rw [setFrames_eq]
      exact hole.congr rfl rfl
    · exact hole.congr rfl rfl

theorem MemoryForm.act {s t : State} {req : Request} {plan : Plan} {step : PlanStep}
    (hr : s.engine.inFlight = some req) (a : Act req plan step s t) (h : MemoryForm s) : MemoryForm t := by
  cases a with
  | stays => exact h
  | advances => exact (h.congr rfl rfl : MemoryForm (s.modEngine _)).startStep
  | fails code f => rw [failUpdate_eq s req _ _ hr]; exact h.congr rfl rfl
  | abandons => exact h.abandonUpdate
  | relocates t v g f n c hs hn hf ht =>
    obtain ⟨e, -⟩ := spendOne_eq ht
    rw [e]
    exact (h.setVolumes s.volumes t.device).relocate ..
  | retries t f ht =>
    obtain ⟨e, -⟩ := spendOne_eq ht
    rw [e]
    exact h.congr rfl rfl
  | stops f => rw [enterStopped_eq s req f hr]; exact h.congr rfl rfl
  | completes slot seq => exact h.complete ..

theorem MemoryForm.outcome {s t : State} (o : Outcome s t) (h : MemoryForm s) : MemoryForm t := by
  rcases o with rfl | ⟨u, ⟨f, hu⟩, ht⟩
  · exact h
  · have hm : MemoryForm u := by rcases hu with rfl | rfl <;> exact h.storeCells f _ _ rfl rfl
    rcases ht with rfl | ⟨req, plan, step, w, hr, -, -, ha, rfl⟩
    · exact hm
    · exact (MemoryForm.act hr ha hm).settleSequence

theorem MemoryForm.removeRequest {s : State} (h : MemoryForm s) (req : Request) :
    MemoryForm (removeRequest s req) := by
  have h1 : MemoryForm (if req.kind = .commit then startCommitting (dropHead s) req.port else dropHead s) := by
    split <;> exact h.congr rfl rfl
  unfold Machine.removeRequest
  simp only
  split
  · rw [failRequest_eq]
    exact h1.congr rfl rfl
  · exact (h1.congr rfl rfl : MemoryForm (State.modEngine _ _)).startStep

theorem MemoryForm.considerCandidate {s : State} (h : MemoryForm s) (c : Candidate) :
    MemoryForm (considerCandidate s c) := by
  unfold Machine.considerCandidate
  split
  · simp only
    split
    · cases c <;> exact MemoryForm.startStep (h.congr rfl rfl)
    · exact h.congr rfl rfl
  · exact h

theorem MemoryForm.enterPowerFail {s : State} (h : MemoryForm s) : MemoryForm (enterPowerFail s) := by
  have hd : MemoryForm (discardAdmin (closeLinks s)) := by
    unfold discardAdmin
    simp only
    rw [returnVolumes_eq]
    exact h.congr rfl rfl
  have hj : ∀ b, MemoryForm (judgeInFlight (discardAdmin (closeLinks s)) b) := by
    intro b
    unfold judgeInFlight
    split
    · simp only
      split <;> exact hd.congr rfl rfl
    · exact hd.congr rfl rfl
  exact (hj _).settleSequence

theorem memoryForm_recallFrame {s : State} (h : MemoryForm s) (f : FrameNo) : MemoryForm (recallFrame s f) :=
  h.writeFrame f _

/-- All that the rebuild of one volume does: its record is set, after its map slot was recalled or without.
The judge of the image stands here as a variable, so that nothing computes an image's check. -/
theorem recallVolume_state (retired : List FrameNo) (x : Rebuild) (v : VolumeNo) (d : Durable)
    {judge : List Byte → VolumeNo → Word → Nat → List FrameNo → List FrameNo →
      Option (Vector ImageEntry 64)} (hj : judgeImage = judge) :
    ∃ y, (recallVolume retired x v d).state = x.state.setVolume v y ∨
      ∃ slot, (recallVolume retired x v d).state = (recallFrame x.state (mapFrame v slot)).setVolume v y := by
  unfold Machine.recallVolume
  rw [hj]
  cases d with
  | absent => exact ⟨_, .inl rfl⟩
  | kept st n rights k m slot gen =>
    cases m with
    | false => exact ⟨_, .inl rfl⟩
    | true =>
      dsimp only
      generalize judge _ _ _ _ _ _ = o
      cases o <;> exact ⟨_, .inr ⟨slot, rfl⟩⟩

theorem MemoryForm.recallVolume {x : Rebuild} (h : MemoryForm x.state) (retired : List FrameNo)
    (v : VolumeNo) (d : Durable) : MemoryForm (recallVolume retired x v d).state := by
  obtain ⟨y, e | ⟨slot, e⟩⟩ := recallVolume_state retired x v d rfl <;> rw [e]
  · exact h.setVolume ..
  · exact (memoryForm_recallFrame h _).setVolume ..

theorem MemoryForm.recallVolumes {s : State} (h : MemoryForm s) (r : Root) :
    MemoryForm (recallVolumes s r) := by
  unfold Machine.recallVolumes
  generalize hx : (⟨s, []⟩ : Rebuild) = x
  have hm : MemoryForm x.state := by rw [← hx]; exact h
  clear hx
  induction ascending 16 generalizing x with
  | nil => exact hm
  | cons v l ih => exact ih _ (hm.recallVolume _ v _)

theorem MemoryForm.recallFrames {s : State} (h : MemoryForm s) (l : List FrameNo) :
    MemoryForm (l.foldl recallFrame s) := by
  induction l generalizing s with
  | nil => exact h
  | cons f l ih => exact ih (memoryForm_recallFrame h f)

theorem MemoryForm.checkPages {s : State} (h : MemoryForm s) : MemoryForm (checkPages s) := by
  unfold Machine.checkPages
  exact (h.recallFrames (committedFrames s)).congr rfl rfl

theorem MemoryForm.recallRoots {s : State} (h : MemoryForm s) : MemoryForm (recallRoots s) := by
  have ht : MemoryForm (recallFrame (recallFrame s RootSlot.a.frame) RootSlot.b.frame) :=
    memoryForm_recallFrame (memoryForm_recallFrame h _) _
  unfold Machine.recallRoots
  simp only
  split <;> exact ht.congr rfl rfl

@[simp] theorem rebuildFrames_memories (s : State) :
    (rebuildFrames s).array = s.array ∧ (rebuildFrames s).cells = s.cells := by
  unfold rebuildFrames
  exact ⟨rfl, rfl⟩

theorem MemoryForm.endOfRecall {s : State} (h : MemoryForm s) :
    MemoryForm (endRecall (resetEngine (resetPorts (rebuildFrames s)))) := by
  have hr : MemoryForm (rebuildFrames s) := h.congr (rebuildFrames_memories s).1 (rebuildFrames_memories s).2
  generalize rebuildFrames s = u at hr
  exact hr.congr rfl rfl

/-- The internal happenings other than a program's end keep the form of the memories. -/
theorem MemoryForm.others {i : Instr} {s t : State} (hi : isInternal i = true) (ho : isOutcome i = false)
    (he : exec i s = .next t) (h : MemoryForm s) : MemoryForm t := by
  cases i with
  | requestRemoval =>
    cases he
    split
    · exact h.removeRequest _
    · exact h
  | durableOnLossCandidate =>
    cases he
    split
    · exact (h.considerCandidate _).settleSequence
    · exact h
  | pfailAsserted =>
    cases he
    split
    all_goals first
      | exact (h.congr rfl rfl : MemoryForm { s with pfail := true }).enterPowerFail
      | exact h.congr rfl rfl
  | pfailDeasserted =>
    cases he
    have ht : MemoryForm { s with pfail := false } := h.congr rfl rfl
    split
    · exact ht.abandonUpdate.congr rfl rfl
    · split <;> exact h.congr rfl rfl
    all_goals exact h.congr rfl rfl
  | resetNAsserted =>
    cases he
    split
    · exact h
    · exact h.cutProgram.congr rfl rfl
  | resetNReleased =>
    cases he
    split
    · split <;> exact h.congr rfl rfl
    all_goals exact h.congr rfl rfl
  | powerUp =>
    cases he
    split
    · exact ⟨⟨.nil, by simp [volatileLost, State.reset]⟩, h.2⟩
    · exact h
  | lossOfSupply =>
    cases he
    split
    · exact h
    · exact ⟨⟨.nil, by simp [volatileLost, State.reset]⟩, h.cutProgram.2⟩
  | recallRootSlots =>
    cases he
    split
    · exact h.recallRoots
    · exact h
  | recallVolumeTable =>
    cases he
    split
    · split
      · exact (h.recallVolumes _).congr rfl rfl
      · exact h
    · exact h
  | recallPageChecks =>
    cases he
    split
    · exact h.checkPages.congr rfl rfl
    · exact h
  | recallEnd =>
    cases he
    split
    · exact h.endOfRecall
    · exact h
  | pageStepPass | pageStepFail | mapStepPass | systemAreaProgramFail | rootStepPass => cases ho
  | _ => cases hi

/-- Settles O56: only stores into frames and bytes of frames change a memory, and each keeps the form. -/
theorem memoryFormIsKept : Obligations.MemoryFormIsKept := fun _ _ hs h =>
  step_keeps MemoryForm hs h .quiet (fun _ => .effect) .outcome fun _ => .others

end Sys2Proof.Machine
end


section
/-! What each operation of the engine leaves of the queue, the ports and the device, and the law of the queue (O58). -/

namespace Sys2Proof.Machine

/-! ### What the operations of the engine change -/

/-- The start of a step changes the working array, the program in progress, the engine's state and its plan (R82). -/
theorem startStep_eq (s : State) : startStep s = { s with
    array := (startStep s).array, program := (startStep s).program
    engine := { s.engine with state := (startStep s).engine.state, plan := (startStep s).engine.plan } } := by
  unfold startStep
  split
  · split
    · rfl
    · unfold startMap
      split <;> rfl
    · rfl
    · rfl
  · rfl

/-- The engine's record once a step began, where the engine stood with `plan` (R82). -/
theorem startStep_state (s : State) : (startStep s).engine.state = s.engine.state ∨
    (startStep s).engine.state = .frames ∨ (startStep s).engine.state = .maps ∨
      (startStep s).engine.state = .root := by
  unfold startStep
  split
  · split
    · exact .inr (.inl rfl)
    · exact .inr (.inr (.inl rfl))
    · exact .inr (.inr (.inr rfl))
    · exact .inl rfl
  · exact .inl rfl

/-- The device state after a completed request: a FORMAT moves UNFORMATTED to RUNNING (R97). -/
theorem applyEffects_device (s : State) (req : Request) (plan : Plan) :
    (applyEffects s req plan).device =
      if req.kind = .format ∧ s.device = .unformatted then .running else s.device := by
  unfold applyEffects completeCommit completeDelete completeResize freeFrames
  cases req.kind <;> simp <;> rw [setFrames_eq]
  rw [setFrames_eq]

/-- The port contexts after a completed request: a COMMIT's transaction is NONE (R36). -/
theorem applyEffects_ports (s : State) (req : Request) (plan : Plan) :
    (applyEffects s req plan).ports =
      if req.kind = .commit then upd s.ports req.port { s.ports[req.port] with
        txn := { s.ports[req.port].txn with state := .noTxn } }
      else s.ports := by
  unfold applyEffects completeCommit completeDelete completeResize freeFrames
  cases req.kind <;> simp <;> rw [setFrames_eq]
  rw [setFrames_eq]

/-- The engine record after a completed request: the settings may change (R97). -/
theorem applyEffects_engine (s : State) (req : Request) (plan : Plan) :
    (applyEffects s req plan).engine =
      { s.engine with settings := settingsAfter s.engine.settings req.kind } := by
  unfold applyEffects completeCommit completeDelete completeResize freeFrames
  cases req.kind <;> simp [settingsAfter] <;> rw [setFrames_eq]
  rw [setFrames_eq]

/-- The state in which a completion applies the effects of its request: the root's slot and sequence are the
engine's (R92). -/
def rooted (s : State) (slot : RootSlot) (seq : Word) : State :=
  s.modEngine fun e => { e with selected := some slot, sequence := some seq }

/-- The tables after a completion are those of the request's effects (R92). -/
theorem complete_tables (s : State) (req : Request) (plan : Plan) (slot : RootSlot) (seq : Word) :
    (complete s req plan slot seq).volumes = (applyEffects (rooted s slot seq) req plan).volumes ∧
    (complete s req plan slot seq).frameStates = (applyEffects (rooted s slot seq) req plan).frameStates ∧
    (complete s req plan slot seq).freeList = (applyEffects (rooted s slot seq) req plan).freeList ∧
    (complete s req plan slot seq).claimCount = (applyEffects (rooted s slot seq) req plan).claimCount :=
  ⟨rfl, rfl, rfl, rfl⟩

/-- The engine record after a completion (R92, R97). -/
theorem complete_engine (s : State) (req : Request) (plan : Plan) (slot : RootSlot) (seq : Word) :
    (complete s req plan slot seq).engine = { s.engine.ended with
      selected := some slot, sequence := some seq
      settings := settingsAfter s.engine.settings req.kind } := by
  change (applyEffects (rooted s slot seq) req plan).engine.rest = _
  rw [applyEffects_engine]
  rfl

/-- The device state after a completion (R97). -/
theorem complete_device (s : State) (req : Request) (plan : Plan) (slot : RootSlot) (seq : Word) :
    (complete s req plan slot seq).device =
      if req.kind = .format ∧ s.device = .unformatted then .running else s.device := by
  change (applyEffects (rooted s slot seq) req plan).device = _
  rw [applyEffects_device]
  rfl

/-- A completion leaves every transaction's state but that of its COMMIT, which is NONE (R36). -/
theorem complete_txn (s : State) (req : Request) (plan : Plan) (slot : RootSlot) (seq : Word) (p : Port) :
    (complete s req plan slot seq).ports[p].txn.state =
      if req.kind = .commit ∧ req.port = p then .noTxn else s.ports[p].txn.state := by
  have test : (makeStale (applyEffects (rooted s slot seq) req plan) req.kind).ports[p].txn.state =
      (applyEffects (rooted s slot seq) req plan).ports[p].txn.state := by
    rw [makeStale, State.modPorts_ports, tab_get]
    rfl
  have report : (complete s req plan slot seq).ports[p].txn.state =
      (makeStale (applyEffects (rooted s slot seq) req plan) req.kind).ports[p].txn.state := by
    simp only [complete, writeReport, raise, State.modEngine_ports, State.modPort_ports, upd_get_self,
      upd_get, rooted]
    split
    · next h => rw [h]
    · rfl
  rw [report, test, applyEffects_ports]
  by_cases hk : req.kind = .commit
  · simp only [hk, if_true, true_and, upd_get]
    split <;> rfl
  · simp only [hk, if_false, false_and]
    rfl

/-- A completion leaves the phase of every frame. -/
theorem complete_phase (s : State) (req : Request) (plan : Plan) (slot : RootSlot) (seq : Word) (p : Port) :
    (complete s req plan slot seq).ports[p].frame.phase = s.ports[p].frame.phase := by
  have test : (makeStale (applyEffects (rooted s slot seq) req plan) req.kind).ports[p].frame.phase =
      (applyEffects (rooted s slot seq) req plan).ports[p].frame.phase := by
    rw [makeStale, State.modPorts_ports, tab_get]
    rfl
  have report : (complete s req plan slot seq).ports[p].frame.phase =
      (makeStale (applyEffects (rooted s slot seq) req plan) req.kind).ports[p].frame.phase := by
    simp only [complete, writeReport, raise, State.modEngine_ports, State.modPort_ports, upd_get_self,
      upd_get, rooted]
    split
    · next h => rw [h]
    · rfl
  rw [report, test, applyEffects_ports]
  by_cases hk : req.kind = .commit
  · simp only [hk, if_true, upd_get]
    split
    · next h => rw [← h]; rfl
    · rfl
  · simp only [hk, if_false]
    rfl

/-- The failure of a request leaves the phase of every frame, and every transaction's state but that of its
COMMIT, which is OPEN again (R98). -/
theorem failed_ports (s : State) (req : Request) (b : Bool) (code : Code) (step : Option FailedStep) (p : Port) :
    (upd s.ports req.port (s.ports[req.port].failed b req.kind code step))[p].frame.phase =
      s.ports[p].frame.phase ∧
    (upd s.ports req.port (s.ports[req.port].failed b req.kind code step))[p].txn.state =
      if req.kind = .commit ∧ req.port = p then .opened else s.ports[p].txn.state := by
  rw [upd_get]
  by_cases hp : req.port = p
  · subst hp
    rw [if_pos rfl, failed_txn_state]
    simp only [and_true]
    rfl
  · rw [if_neg hp, if_neg (fun h => hp h.2)]
    exact ⟨rfl, rfl⟩

/-- The failure of several requests leaves the phase of every frame. -/
theorem failRequests_phase (l : List Request) (code : Code) (step : Option FailedStep) (s : State) (p : Port) :
    (l.foldl (fun t r => failRequest t r code step) s).ports[p].frame.phase = s.ports[p].frame.phase := by
  induction l generalizing s with
  | nil => rfl
  | cons r l ih =>
    rw [List.foldl_cons, ih, failRequest_eq]
    exact (failed_ports s r _ code step p).1

/-- A raised cause leaves the transaction and the frame of every port. -/
theorem raiseAll_port (s : State) (c : Cause) (p : Port) :
    (raiseAll s c).ports[p].frame = s.ports[p].frame ∧ (raiseAll s c).ports[p].txn = s.ports[p].txn := by
  unfold raiseAll
  rw [State.modPorts_ports, tab_get]
  exact ⟨rfl, rfl⟩

/-- The entry into STOPPED leaves the phase of every frame. -/
theorem enterStopped_phase (s : State) (req : Request) (step : FailedStep) (p : Port)
    (h : s.engine.inFlight = some req) :
    (enterStopped s step).ports[p].frame.phase = s.ports[p].frame.phase := by
  have queued := failRequests_phase (failUpdate s .systemAreaFault (some step)).engine.queue .updateStopped
    none (failUpdate s .systemAreaFault (some step)) p
  unfold enterStopped failQueue
  rw [(raiseAll_port _ _ p).1]
  refine queued.trans ?_
  rw [failUpdate_eq s req _ _ h]
  exact (failed_ports s req _ _ _ p).1

/-- The transaction and the frame of every port after a shadow was relocated. -/
theorem retire_ports (s : State) (f : FrameNo) (p : Port) :
    (retire s f).ports[p].frame = s.ports[p].frame ∧ (retire s f).ports[p].txn = s.ports[p].txn := by
  rw [retire_eq]
  split
  · rw [tab_get]; exact ⟨rfl, rfl⟩
  · exact ⟨rfl, rfl⟩

/-- A relocation leaves the device, the claim counts and the engine's queue and request, and the transaction and
the frame of every port (R87). -/
theorem relocate_leaves (s : State) (req : Request) (plan : Plan) (v : VolumeNo) (g : PageNo) (f : FrameNo)
    (n : Nat) : (relocate s req plan v g f n).device = s.device ∧
      (relocate s req plan v g f n).claimCount = s.claimCount ∧
      (relocate s req plan v g f n).engine.queue = s.engine.queue ∧
      (relocate s req plan v g f n).engine.inFlight = s.engine.inFlight ∧
      (relocate s req plan v g f n).engine.settings = s.engine.settings ∧
      ∀ p : Port, (relocate s req plan v g f n).ports[p].frame = s.ports[p].frame ∧
        (relocate s req plan v g f n).ports[p].txn = s.ports[p].txn := by
  have hr : ∀ p : Port, _ := retire_ports s f
  rw [retire_eq] at hr
  unfold relocate takeFree
  rw [retire_eq]
  split
  · exact ⟨rfl, rfl, rfl, rfl, rfl, fun _ => ⟨rfl, rfl⟩⟩
  · next new t ht =>
    split at ht
    · cases ht
    · cases ht
      rw [setFrameState_eq, renameShadow_frame]
      exact ⟨rfl, rfl, rfl, rfl, rfl, hr⟩

end Sys2Proof.Machine
end


section
/-! The law of the update queue is kept (O58). -/

namespace Sys2Proof.Machine

/-! ### The law in the words of its proof -/

/-- Ports that are different from one another are at most 4, so the first clause of the law follows from the
second. -/
theorem QueueLaw.of {t : State} (ports : (requestPorts t).Nodup)
    (queued : ∀ r ∈ t.engine.queue, r.kind = .commit → t.ports[r.port].txn.state = .queued)
    (inFlight : ∀ r, t.engine.inFlight = some r → r.kind = .commit →
      t.ports[r.port].txn.state = .committing)
    (sequence : inPowerFail t = true → ∀ r ∈ t.engine.queue, r.kind = .commit)
    (phase : ∀ p : Port, t.ports[p].frame.phase.takes = true → ready t = true) : QueueLaw t := by
  refine ⟨?_, ports, queued, inFlight, sequence, fun hr p => ?_⟩
  · have h4 : (requestPorts t).length ≤ 4 := by simpa using ports.length_le_card
    have hq : t.engine.queue.length ≤ (requestPorts t).length := by simp [requestPorts]
    exact hq.trans h4
  · have := phase p
    rw [hr] at this
    refine ⟨fun h => ?_, fun h => ?_, fun h => ?_⟩ <;> rw [h] at this <;> cases this rfl

theorem QueueLaw.ready_of_takes {s : State} (h : QueueLaw s) (p : Port)
    (hp : s.ports[p].frame.phase.takes = true) : ready s = true := by
  obtain ⟨-, -, -, -, -, phase⟩ := h
  by_contra hr
  rw [Bool.not_eq_true] at hr
  obtain ⟨h1, h2, h3⟩ := phase hr p
  cases hx : s.ports[p].frame.phase with
  | command => exact h1 hx
  | arguments => exact h2 hx
  | data => exact h3 hx
  | noFrame | ignoring | notReady => rw [hx] at hp; cases hp

theorem inPowerFail_of_ready {s : State} (h : ready s = true) : inPowerFail s = false := by
  rcases (ready_iff s).1 h with h | h <;> unfold inPowerFail <;> rw [h]

/-- Fewer requests with their transactions as they were, in a device that takes commands where it did and is in a
power-fail sequence where it was, keep the law. -/
theorem QueueLaw.mono {s t : State} (h : QueueLaw s) (queue : t.engine.queue.Sublist s.engine.queue)
    (inFlight : t.engine.inFlight = s.engine.inFlight ∨ t.engine.inFlight = none)
    (txn : ∀ r ∈ requests t, r.kind = .commit → t.ports[r.port].txn.state = s.ports[r.port].txn.state)
    (sequence : inPowerFail t = true → inPowerFail s = true ∨ ∀ r ∈ t.engine.queue, r.kind = .commit)
    (phase : ∀ p : Port, t.ports[p].frame.phase.takes = true → ready t = true) : QueueLaw t := by
  obtain ⟨-, ports, queued, flying, commits, -⟩ := h
  refine .of (ports.sublist ?_) (fun r hr hk => ?_) (fun r hr hk => ?_) (fun ht r hr => ?_) phase
  · refine (queue.append ?_).map _
    rcases inFlight with e | e <;> rw [e]
    exact List.nil_sublist _
  · rw [txn r (List.mem_append_left _ hr) hk]
    exact queued r (queue.subset hr) hk
  · rw [txn r (List.mem_append_right _ (by rw [hr]; simp)) hk]
    rcases inFlight with e | e
    · exact flying r (e ▸ hr) hk
    · rw [hr] at e; cases e
  · exact (sequence ht).elim (fun hs => commits hs r (queue.subset hr)) fun hc => hc r hr

/-- The law reads the device through `ready` and `inPowerFail` alone. -/
theorem QueueLaw.congr {s t : State} (h : QueueLaw s) (hd : t.device = s.device)
    (hq : t.engine.queue = s.engine.queue) (hf : t.engine.inFlight = s.engine.inFlight)
    (ht : ∀ p : Port, t.ports[p].txn.state = s.ports[p].txn.state)
    (hp : ∀ p : Port, t.ports[p].frame.phase = s.ports[p].frame.phase) : QueueLaw t :=
  h.mono (by rw [hq]) (.inl hf) (fun r _ _ => ht r.port) (fun hs => .inl (by unfold inPowerFail at *; rwa [hd] at hs))
    fun p hx => by rw [ready_congr hd]; exact h.ready_of_takes p (hp p ▸ hx)

/-- A port whose transaction is neither QUEUED nor COMMITTING has no COMMIT waiting. -/
theorem QueueLaw.no_commit {s : State} (h : QueueLaw s) (p : Port) (hq : s.ports[p].txn.state ≠ .queued)
    (hc : s.ports[p].txn.state ≠ .committing) (r : Request) (hr : r ∈ requests s) (hk : r.kind = .commit) :
    r.port ≠ p := by
  obtain ⟨-, -, queued, flying, -, -⟩ := h
  rintro rfl
  rcases List.mem_append.1 hr with hr | hr
  · exact hq (queued r hr hk)
  · exact hc (flying r (by simpa using hr) hk)

/-- A transaction that is neither QUEUED nor COMMITTING may take any state. -/
theorem QueueLaw.setTxnState {s : State} (h : QueueLaw s) (p : Port) (x : TxnState)
    (hq : s.ports[p].txn.state ≠ .queued) (hc : s.ports[p].txn.state ≠ .committing) :
    QueueLaw (setTxnState s p x) := by
  refine h.mono (.refl _) (.inl rfl) (fun r hr hk => ?_) .inl fun q hx => ?_
  · rw [setTxnState_txn, if_neg (h.no_commit p hq hc r hr hk).symm]
  · rw [setTxnState_phase] at hx
    exact h.ready_of_takes q hx

/-- No request of a port waits where none is pending. -/
theorem port_ne_of_requestPending {s : State} {p : Port} (h : requestPending s p = false) (r : Request)
    (hr : r ∈ requests s) : r.port ≠ p := by
  rintro rfl
  have : requestPending s r.port = true := by
    unfold requestPending
    rcases List.mem_append.1 hr with hr | hr
    · simp only [Bool.or_eq_true, List.any_eq_true]
      exact .inl ⟨r, hr, by simp⟩
    · simp only [Bool.or_eq_true, Option.mem_toList] at hr ⊢
      exact .inr (by rw [hr]; simp)
  rw [h] at this
  cases this

/-- A request of a port without one may join the queue outside a power-fail sequence; the transaction of a COMMIT
is QUEUED. -/
theorem QueueLaw.append {s t : State} (h : QueueLaw s) (req : Request)
    (hd : t.device = s.device) (hq : t.engine.queue = s.engine.queue ++ [req])
    (hf : t.engine.inFlight = s.engine.inFlight)
    (hp : ∀ r ∈ requests s, r.port ≠ req.port) (hr : ready s = true)
    (ht : ∀ p : Port, p ≠ req.port → t.ports[p].txn.state = s.ports[p].txn.state)
    (hk : req.kind = .commit → t.ports[req.port].txn.state = .queued) : QueueLaw t := by
  obtain ⟨-, ports, queued, flying, -, -⟩ := h
  refine .of ?_ (fun r hm hc => ?_) (fun r hm hc => ?_) (fun hs => ?_) fun _ _ => ?_
  · have perm : (requestPorts t).Perm (req.port :: requestPorts s) := by
      unfold requestPorts
      rw [hq, hf, List.append_assoc, List.map_append, List.map_append, List.map_append, List.map_singleton]
      exact List.perm_middle
    refine perm.nodup_iff.2 (List.nodup_cons.2 ⟨fun hm => ?_, ports⟩)
    obtain ⟨r, hm, e⟩ := List.mem_map.1 hm
    exact hp r hm e
  · rw [hq] at hm
    rcases List.mem_append.1 hm with hm | hm
    · rw [ht r.port (hp r (List.mem_append_left _ hm))]
      exact queued r hm hc
    · rw [List.mem_singleton] at hm
      subst hm
      exact hk hc
  · rw [hf] at hm
    rw [ht r.port (hp r (List.mem_append_right _ (by rw [hm]; simp)))]
    exact flying r hm hc
  · have := inPowerFail_of_ready (ready_congr hd ▸ hr : ready t = true)
    rw [this] at hs
    cases hs
  · rw [ready_congr hd]
    exact hr

/-! ### The happenings of the ports -/

theorem QueueLaw.quiet {s t : State} (q : Quiet s t) (h : QueueLaw s) : QueueLaw t := by
  refine h.mono (by rw [q.engine]) (.inl (by rw [q.engine])) (fun r _ _ => q.txn r.port) (fun hs => .inl ?_)
    fun p hp => ?_
  · unfold inPowerFail at *
    rwa [q.device] at hs
  · rw [ready_congr q.device]
    exact (q.phase p hp).elim (h.ready_of_takes p) id

theorem QueueLaw.releaseClaims {s : State} (h : QueueLaw s) (p : Port) : QueueLaw (releaseClaims s p) := by
  refine h.congr (releaseClaims_device s p) ?_ ?_ (fun q => ?_) fun q => ?_ <;>
    first | rw [releaseClaims_engine] | rw [releaseClaims_ports]

theorem QueueLaw.endTxn {s : State} (h : QueueLaw s) (p : Port)
    (hn : ∀ r ∈ requests s, r.kind = .commit → r.port ≠ p) : QueueLaw (endTxn s p) := by
  have hq : Quiet (Machine.setTxnState s p .noTxn) (Machine.endTxn s p) := 
    quiet_setTxnState s p (fun c => { c with txn := { c.txn.stopTimer with state := .noTxn } }) .noTxn rfl rfl
  refine QueueLaw.quiet hq (h.mono (.refl _) (.inl rfl) (fun r hr hk => ?_) .inl fun q hx => ?_)
  · rw [setTxnState_txn, if_neg (hn r hr hk).symm]
  · rw [setTxnState_phase] at hx
    exact h.ready_of_takes q hx

/-- A withdrawn COMMIT leaves the queue, and with it the port has no COMMIT waiting. -/
theorem QueueLaw.withdrawCommit {s : State} (h : QueueLaw s) (p : Port) (ht : s.ports[p].txn.state = .queued) :
    QueueLaw (withdrawCommit s p) ∧
      ∀ r ∈ requests (Machine.withdrawCommit s p), r.kind = .commit → r.port ≠ p := by
  obtain ⟨-, -, -, flying, -, -⟩ := id h
  refine ⟨h.mono List.filter_sublist (.inl rfl) (fun _ _ _ => rfl) .inl h.ready_of_takes, ?_⟩
  rintro r hr hk rfl
  rw [withdrawCommit_eq] at hr
  rcases List.mem_append.1 hr with hr | hr
  · have := (List.mem_filter.1 hr).2
    simp [hk] at this
  · have := flying r (by simpa using hr) hk
    rw [ht] at this
    cases this

/-- The map unit leaves the queue, the transactions and the frames of the ports. -/
theorem requestWrite_leaves {s t : State} {p : Port} {v : VolumeNo} {g : PageNo} {off : Fin 256} {b : Byte}
    (h : requestWrite s p v g off b = .done t) :
    t.device = s.device ∧ t.engine = s.engine ∧ t.ports = s.ports := by
  have shadow : ∀ fill, (shadowPage s p v g fill).device = s.device ∧
      (shadowPage s p v g fill).engine = s.engine ∧ (shadowPage s p v g fill).ports = s.ports := by
    intro fill
    cases hf : s.freeList with
    | nil => unfold shadowPage takeFree; rw [hf]; exact ⟨rfl, rfl, rfl⟩
    | cons f rest =>
      rw [shadowPage_eq s p v g fill f rest hf, setEntry_eq, setFrameState_eq]
      exact ⟨rfl, rfl, rfl⟩
  rcases requestWrite_done h with ⟨f, -, rfl⟩ | ⟨-, -, rfl⟩ | ⟨-, -, -, rfl⟩ <;> rw [placeByte_eq]
  · exact ⟨rfl, rfl, rfl⟩
  · exact shadow _
  · exact shadow _

theorem requestPunch_leaves {s t : State} {p : Port} {v : VolumeNo} {g : PageNo}
    (h : requestPunch s p v g = .done t) :
    t.device = s.device ∧ t.engine = s.engine ∧ t.ports = s.ports := by
  have hole : holePage s p v g = { s with volumes := (holePage s p v g).volumes } := setEntry_eq s v g _
  rcases requestPunch_done h with rfl | ⟨f, -, rfl⟩ | ⟨-, -, rfl⟩
  · exact ⟨rfl, rfl, rfl⟩
  · unfold freeFrames
    rw [setFrames_eq, hole]
    exact ⟨rfl, rfl, rfl⟩
  · rw [hole]
    exact ⟨rfl, rfl, rfl⟩

theorem QueueLaw.effect {s t : State} {p : Port}
    (hp : s.ports[p].frame.phase.takes = true ∨ ready s = true) (e : Effect p s t) (h : QueueLaw s) :
    QueueLaw t := by
  have hr : ready s = true := hp.elim (h.ready_of_takes p) id
  cases e with
  | opens ht =>
    refine h.setTxnState p _ ?_ ?_ <;> rcases ht with e | e <;> rw [e] <;> decide
  | ends ht hc => exact h.setTxnState p _ (by rw [ht]; decide) (by rw [ht]; decide)
  | queues ht ha =>
    refine h.append ⟨p, .commit⟩ rfl rfl rfl (fun r hm => ?_) hr (fun q hq => ?_) fun _ => ?_
    · by_cases hk : r.kind = .commit
      · exact h.no_commit p (by rw [ht]; decide) (by rw [ht]; decide) r hm hk
      · rintro rfl
        have : adminPending s r.port = true := by
          unfold adminPending
          rcases List.mem_append.1 hm with hm | hm
          · simp only [Bool.or_eq_true, List.any_eq_true]
            exact .inl ⟨r, hm, by simp [Request.isAdmin, hk]⟩
          · simp only [Bool.or_eq_true, Option.mem_toList] at hm ⊢
            exact .inr (by rw [hm]; simp [Request.isAdmin, hk])
        rw [ha] at this
        cases this
    · exact (setTxnState_txn s p q _).trans (if_neg (Ne.symm hq))
    · exact (setTxnState_txn s p p _).trans (if_pos rfl)
  | drops =>
    unfold abandonTxn
    split
    · next ht =>
      refine (h.releaseClaims p).endTxn p fun r hr' hk => h.no_commit p ?_ ?_ r ?_ hk
      · rw [ht]; decide
      · rw [ht]; decide
      · unfold requests at *; rwa [releaseClaims_engine] at hr'
    · next ht =>
      obtain ⟨hw, hn⟩ := h.withdrawCommit p ht
      refine (hw.releaseClaims p).endTxn p fun r hr' hk => hn r ?_ hk
      unfold requests at *
      rwa [releaseClaims_engine] at hr'
    · next ht => exact h.endTxn p fun r hr' hk => h.no_commit p (by rw [ht]; decide) (by rw [ht]; decide) r hr' hk
    · exact h
    · exact h
  | expires ht =>
    refine (h.releaseClaims p).setTxnState p _ ?_ ?_ <;> rw [releaseClaims_ports, ht] <;> decide
  | accepts kind hn hc hv hl =>
    exact h.append ⟨p, kind⟩ rfl rfl rfl (port_ne_of_requestPending hn) hr (fun _ _ => rfl)
      fun hk => absurd hk hc
  | creates v n rights k hn hv =>
    exact h.append ⟨p, .create v n rights k⟩ rfl rfl rfl (port_ne_of_requestPending hn) hr (fun _ _ => rfl)
      fun hk => by cases hk
  | changes v r op ret kind hn hv hs hl hk hd =>
    refine h.append ⟨p, kind⟩ rfl rfl rfl (port_ne_of_requestPending hn) hr (fun _ _ => rfl)
      fun hc => ?_
    have hc : kind = .commit := hc
    rw [hc] at hk
    cases hk
  | writes t v g off b ht hw =>
    obtain ⟨hd, he, hpt⟩ := requestWrite_leaves hw
    exact h.congr hd (by rw [he]) (by rw [he]) (fun q => by rw [hpt]) fun q => by rw [hpt]
  | punches t v g ht hw =>
    obtain ⟨hd, he, hpt⟩ := requestPunch_leaves hw
    exact h.congr hd (by rw [he]) (by rw [he]) (fun q => by rw [hpt]) fun q => by rw [hpt]

/-! ### The outcomes of a program -/

/-- No request of the port of the request in flight is queued. -/
theorem QueueLaw.queued_ne {s : State} (h : QueueLaw s) {req r : Request} (hf : s.engine.inFlight = some req)
    (hr : r ∈ s.engine.queue) : r.port ≠ req.port := by
  obtain ⟨-, ports, -⟩ := h
  unfold requestPorts at ports
  rw [hf, List.map_append] at ports
  have hd := (List.nodup_append.1 ports).2.2 r.port (List.mem_map_of_mem hr) req.port (by simp)
  exact hd

theorem ready_eq (s : State) : ready s = (s.device.works && !inPowerFail s) := by
  unfold ready inPowerFail Device.works
  cases s.device <;> rfl

/-- The end of the update in flight keeps the law, where the transactions of the other ports stay. -/
theorem QueueLaw.ends {s t : State} (h : QueueLaw s) {req : Request} (hr : s.engine.inFlight = some req)
    (hd : ready t = ready s ∧ inPowerFail t = inPowerFail s) (hq : t.engine.queue = s.engine.queue)
    (hf : t.engine.inFlight = none)
    (ht : ∀ p : Port, p ≠ req.port → t.ports[p].txn.state = s.ports[p].txn.state)
    (hp : ∀ p : Port, t.ports[p].frame.phase = s.ports[p].frame.phase) : QueueLaw t := by
  refine h.mono (by rw [hq]) (.inr hf) (fun r hm _ => ht _ ?_) (fun hs => .inl (hd.2 ▸ hs)) fun p hx => ?_
  · unfold requests at hm
    rw [hf, hq] at hm
    exact h.queued_ne hr (by simpa using hm)
  · rw [hd.1]
    exact h.ready_of_takes p (hp p ▸ hx)

theorem QueueLaw.abandonUpdate {s : State} (h : QueueLaw s) : QueueLaw (abandonUpdate s) := by
  cases hr : s.engine.inFlight with
  | none => unfold Machine.abandonUpdate; rw [hr]; exact h
  | some req =>
    rw [abandonUpdate_eq s req hr]
    exact h.ends hr ⟨rfl, rfl⟩ rfl rfl (fun _ _ => rfl) fun _ => rfl

theorem QueueLaw.failUpdate {s : State} (h : QueueLaw s) {req : Request} (hr : s.engine.inFlight = some req)
    (code : Code) (step : Option FailedStep) : QueueLaw (failUpdate s code step) := by
  rw [failUpdate_eq s req _ _ hr]
  refine h.ends hr ⟨rfl, rfl⟩ rfl rfl (fun p hp => ?_) fun p => (failed_ports s req _ _ _ p).1
  exact (failed_ports s req _ _ _ p).2.trans (if_neg fun hc => hp hc.2.symm)

theorem QueueLaw.startStep {s : State} (h : QueueLaw s) : QueueLaw (startStep s) := by
  rw [startStep_eq]
  exact h.congr rfl rfl rfl (fun _ => rfl) fun _ => rfl

theorem QueueLaw.setDevice {s : State} (h : QueueLaw s) (d : Device)
    (hd : ready { s with device := d } = ready s ∧ inPowerFail { s with device := d } = inPowerFail s) :
    QueueLaw { s with device := d } :=
  h.mono (.refl _) (.inl rfl) (fun _ _ _ => rfl) (fun hs => .inl (hd.2 ▸ hs)) fun p hp => by
    rw [hd.1]; exact h.ready_of_takes p hp

theorem QueueLaw.spendOne {s t : State} (h : QueueLaw s) (hs : spendOne s = some t) : QueueLaw t := by
  obtain ⟨e, hi, hw, -⟩ := spendOne_eq hs
  rw [e]
  rw [e] at hi
  exact h.setDevice _ ⟨by rw [ready_eq, ready_eq, hi, ← hw], hi⟩

theorem QueueLaw.complete {s : State} (h : QueueLaw s) {req : Request} (hr : s.engine.inFlight = some req)
    (plan : Plan) (slot : RootSlot) (seq : Word) : QueueLaw (complete s req plan slot seq) := by
  have he := complete_engine s req plan slot seq
  refine h.ends hr ?_ (by rw [he]; rfl) (by rw [he]; rfl) (fun p hp => ?_)
    fun p => complete_phase s req plan slot seq p
  · unfold ready inPowerFail
    rw [complete_device]
    split
    · next hd => rw [hd.2]; exact ⟨rfl, rfl⟩
    · exact ⟨rfl, rfl⟩
  · rw [complete_txn, if_neg fun hc => hp hc.2.symm]

theorem QueueLaw.act {s t : State} {req : Request} {plan : Plan} {step : PlanStep}
    (hr : s.engine.inFlight = some req) (a : Act req plan step s t) (h : QueueLaw s) : QueueLaw t := by
  cases a with
  | stays => exact h
  | advances => exact QueueLaw.startStep (h.congr rfl rfl rfl (fun _ => rfl) fun _ => rfl)
  | fails code f => exact h.failUpdate hr code f
  | abandons => exact h.abandonUpdate
  | relocates t v g f n c hs hn hf ht =>
    obtain ⟨hd, -, hq, hi, -, hp⟩ := relocate_leaves t req plan v g f n
    exact (h.spendOne ht).congr hd hq hi (fun p => by rw [(hp p).2]) fun p => by rw [(hp p).1]
  | retries t f ht => exact (h.spendOne ht).congr rfl rfl rfl (fun _ => rfl) fun _ => rfl
  | stops f =>
    have hx := enterStopped_phase s req f
    rw [enterStopped_eq s req f hr] at hx ⊢
    refine .of .nil (fun r hm => by cases hm) (fun r hm => by cases hm) (fun _ r hm => by cases hm)
      fun p hp => ?_
    exact h.ready_of_takes p (hx p hr ▸ hp)
  | completes slot seq => exact h.complete hr plan slot seq

theorem QueueLaw.settleSequence {s : State} (h : QueueLaw s) : QueueLaw (settleSequence s) := by
  rcases settleSequence_cases s with e | ⟨hi, -, -, e⟩ <;> rw [e]
  · exact h
  · refine h.mono (.refl _) (.inl rfl) (fun _ _ _ => rfl) (fun hs => by cases hs) fun p hp => ?_
    have := inPowerFail_of_ready (h.ready_of_takes p hp)
    rw [hi] at this
    cases this

theorem QueueLaw.outcome {s t : State} (o : Outcome s t) (h : QueueLaw s) : QueueLaw t := by
  rcases o with rfl | ⟨u, ⟨f, hu⟩, ht⟩
  · exact h
  · have hm : QueueLaw u := by
      rcases hu with rfl | rfl <;> exact h.congr rfl rfl rfl (fun _ => rfl) fun _ => rfl
    rcases ht with rfl | ⟨req, plan, step, w, hr, -, -, ha, rfl⟩
    · exact hm
    · exact (QueueLaw.act hr ha hm).settleSequence

/-! ### Removal and candidates -/

/-- A request begins: it is the one in flight, of a port without a queued request, and a COMMIT's transaction is
COMMITTING. -/
theorem QueueLaw.begins {s t : State} (h : QueueLaw s) (req : Request)
    (hd : ready t = ready s ∧ inPowerFail t = inPowerFail s)
    (hq : t.engine.queue.Sublist s.engine.queue) (hf : t.engine.inFlight = some req)
    (hn : ∀ r ∈ t.engine.queue, r.port ≠ req.port)
    (ht : ∀ p : Port, p ≠ req.port → t.ports[p].txn.state = s.ports[p].txn.state)
    (hk : req.kind = .commit → t.ports[req.port].txn.state = .committing)
    (hp : ∀ p : Port, t.ports[p].frame.phase = s.ports[p].frame.phase) : QueueLaw t := by
  obtain ⟨-, ports, queued, -, commits, -⟩ := id h
  refine .of ?_ (fun r hm hc => ?_) (fun r hm hc => ?_) (fun hs r hm => ?_) fun p hx => ?_
  · unfold requestPorts at ports ⊢
    rw [hf, List.map_append]
    rw [List.map_append] at ports
    refine List.nodup_append.2 ⟨(List.nodup_append.1 ports).1.sublist (hq.map _), by simp, ?_⟩
    intro a ha b hb
    obtain ⟨r, hm, rfl⟩ := List.mem_map.1 ha
    simp only [Option.toList_some, List.map_cons, List.map_nil, List.mem_singleton] at hb
    rw [hb]
    exact hn r hm
  · rw [ht _ (hn r hm)]
    exact queued r (hq.subset hm) hc
  · rw [hf] at hm
    cases hm
    exact hk hc
  · exact commits (hd.2 ▸ hs) r (hq.subset hm)
  · rw [hd.1]
    exact h.ready_of_takes p (hp p ▸ hx)

/-- The transaction of a COMMIT that begins is COMMITTING, and no other changes (R35, R38). -/
theorem startCommitting_ports (s : State) (p q : Port) :
    (startCommitting s p).ports[q].txn.state = (if p = q then .committing else s.ports[q].txn.state) ∧
    (startCommitting s p).ports[q].frame.phase = s.ports[q].frame.phase := by
  unfold startCommitting
  rw [State.modTxn_ports, upd_get]
  split
  · next h => subst h; exact ⟨rfl, rfl⟩
  · exact ⟨rfl, rfl⟩

/-- What `removable` answers (R78). -/
theorem removable_eq_some {s : State} {req : Request} (h : removable s = some req) :
    s.engine.state = .idle ∧ s.engine.inFlight = none ∧ ready s = true ∧
      ∃ rest, s.engine.queue = req :: rest := by
  unfold removable at h
  split at h
  · next hc =>
    obtain ⟨rest, e⟩ := List.head?_eq_some_iff.1 h
    exact ⟨hc.1, hc.2.1, hc.2.2, rest, e⟩
  · cases h

/-- A COMMIT passes its removal check (R78). -/
theorem removalCheck_commit (s : State) : removalCheck s .commit = none := rfl

/-- The state in which the engine begins a removed request (R78). -/
def removed (s : State) (req : Request) : State :=
  if req.kind = .commit then startCommitting (dropHead s) req.port else dropHead s

theorem removed_leaves (s : State) (req : Request) :
    (removed s req).device = s.device ∧ (removed s req).engine = (dropHead s).engine ∧
    (removed s req).volumes = s.volumes ∧ (removed s req).claimCount = s.claimCount ∧
    (removed s req).frameStates = s.frameStates ∧ (removed s req).freeList = s.freeList ∧
    ∀ p : Port, (removed s req).ports[p].frame.phase = s.ports[p].frame.phase ∧
      (removed s req).ports[p].txn.state =
        if req.kind = .commit ∧ req.port = p then .committing else s.ports[p].txn.state := by
  unfold removed
  split
  · next hk =>
    refine ⟨rfl, rfl, rfl, rfl, rfl, rfl, fun p => ?_⟩
    obtain ⟨ht, hf⟩ := startCommitting_ports (dropHead s) req.port p
    exact ⟨hf, by rw [ht]; simp only [hk, true_and]; rfl⟩
  · next hk => exact ⟨rfl, rfl, rfl, rfl, rfl, rfl, fun p => ⟨rfl, (if_neg fun hc => hk hc.1).symm⟩⟩

/-- What the removal of a request does, by its removal check (R78). -/
theorem removeRequest_cases (s : State) (req : Request) :
    (∃ code, removalCheck (removed s req) req.kind = some code ∧
      removeRequest s req = (failRequest (removed s req) req code none).modEngine Engine.rest) ∨
    (removalCheck (removed s req) req.kind = none ∧ removeRequest s req = beginUpdate (removed s req) req) := by
  have e : removeRequest s req = match removalCheck (removed s req) req.kind with
      | some code => (failRequest (removed s req) req code none).modEngine Engine.rest
      | none => beginUpdate (removed s req) req := rfl
  cases hc : removalCheck (removed s req) req.kind with
  | none => exact .inr ⟨rfl, by rw [e, hc]⟩
  | some code => exact .inl ⟨code, rfl, by rw [e, hc]⟩

theorem QueueLaw.removeRequest {s : State} (h : QueueLaw s) {req : Request} (hr : removable s = some req) :
    QueueLaw (removeRequest s req) := by
  obtain ⟨-, hf, hready, rest, hq⟩ := removable_eq_some hr
  obtain ⟨hd, he, -, -, -, -, hp⟩ := removed_leaves s req
  have hrest : (removed s req).engine.queue = rest := by rw [he]; simp [dropHead, hq]
  have hn : ∀ r ∈ rest, r.port ≠ req.port := by
    obtain ⟨-, ports, -⟩ := h
    unfold requestPorts at ports
    rw [hq, List.cons_append, List.map_cons, List.nodup_cons, List.mem_map] at ports
    exact fun r hr e => ports.1 ⟨r, List.mem_append_left _ hr, e⟩
  have hsub : (removed s req).engine.queue.Sublist s.engine.queue := by
    rw [hrest, hq]; exact List.sublist_cons_self _ _
  have hdev : ready (removed s req) = ready s ∧ inPowerFail (removed s req) = inPowerFail s := by
    unfold ready inPowerFail; rw [hd]; exact ⟨rfl, rfl⟩
  rcases removeRequest_cases s req with ⟨code, hc, e⟩ | ⟨-, e⟩ <;> rw [e]
  · have hk : req.kind ≠ .commit := fun hk => by rw [hk, removalCheck_commit] at hc; cases hc
    rw [failRequest_eq]
    refine h.mono hsub (.inr rfl) (fun r hm hrk => ?_) (fun hs => .inl (hdev.2 ▸ hs)) fun p hx => ?_
    · refine (failed_ports (removed s req) req _ code none r.port).2.trans ?_
      rw [if_neg fun hc => hk hc.1, (hp r.port).2, if_neg fun hc => hk hc.1]
    · exact (ready_congr hd).trans hready
  · refine QueueLaw.startStep (h.begins req hdev hsub rfl (fun r hm => hn r (hrest ▸ hm)) (fun p hne => ?_)
      (fun hk => ?_) fun p => (hp p).1)
    · exact (hp p).2.trans (if_neg fun hc => hne hc.2.symm)
    · exact (hp req.port).2.trans (if_pos ⟨hk, rfl⟩)

/-- What a candidate stands for (R157). -/
theorem nextCandidate_eq_some {s : State} {c : Candidate} (h : nextCandidate s = some c) :
    inPowerFail s = true ∧ s.engine.inFlight = none ∧ s.engine.state ≠ .stopped ∧
      ((∃ r ∈ s.engine.queue, r.kind = .commit ∧ c = .queued r.port) ∨
        ∃ p : Port, s.ports[p].txn.state = .opened ∧ c = .opened p) := by
  unfold nextCandidate at h
  split at h
  · next b taken skipped hd hf =>
    split at h
    · cases h
    · next hs =>
      refine ⟨by unfold inPowerFail; rw [hd], hf, fun e => hs (by unfold engineStopped; simp [e]), ?_⟩
      rcases Option.or_eq_some_iff.1 h with h | ⟨-, h⟩
      · unfold nextQueued at h
        obtain ⟨r, hr, rfl⟩ := Option.map_eq_some_iff.1 h
        have hk := List.find?_some hr
        simp only [Bool.decide_and, Bool.and_eq_true, decide_eq_true_eq] at hk
        exact .inl ⟨r, List.mem_of_find?_eq_some hr, hk.1, rfl⟩
      · unfold nextOpen at h
        obtain ⟨p, hp, rfl⟩ := Option.map_eq_some_iff.1 h
        have hk := List.find?_some hp
        exact .inr ⟨p, (of_decide_eq_true hk).1, rfl⟩
  · cases h

/-- The state in which the engine begins the COMMIT of a candidate that it takes (R157). -/
def candidateTaken (s : State) (d : Device) : Candidate → State
  | .queued p => startCommitting (withdrawCommit { s with device := d } p) p
  | .opened p => startCommitting { s with device := d } p

/-- A candidate is taken or skipped (R157). -/
theorem considerCandidate_cases {s : State} (hi : inPowerFail s = true) (c : Candidate) :
    ∃ b taken skipped, considerCandidate s c = { s with device := .powerFail b taken skipped } ∨
      considerCandidate s c = beginUpdate (candidateTaken s (.powerFail b taken skipped) c) ⟨c.port, .commit⟩ := by
  unfold inPowerFail at hi
  split at hi
  · next b taken skipped hd =>
    unfold considerCandidate
    rw [hd]
    simp only
    split
    · refine ⟨b - (buildPlan s c.port .commit).programCount, upd taken c.port true, skipped, .inr ?_⟩
      cases c <;> rfl
    · exact ⟨_, _, _, .inl rfl⟩
  · cases hi

theorem QueueLaw.considerCandidate {s : State} (h : QueueLaw s) {c : Candidate}
    (hc : nextCandidate s = some c) : QueueLaw (considerCandidate s c) := by
  obtain ⟨hi, hf, -, hw⟩ := nextCandidate_eq_some hc
  have hr : ready s = false := by rw [ready_eq, hi]; simp
  obtain ⟨b, taken, skipped, e | e⟩ := considerCandidate_cases hi c <;> rw [e]
  · exact h.setDevice _ ⟨by rw [hr]; rfl, by rw [hi]; rfl⟩
  · refine QueueLaw.startStep (h.begins ⟨c.port, .commit⟩ ⟨?_, ?_⟩ ?_ rfl (fun r hm => ?_) (fun p hp => ?_)
      (fun _ => ?_) fun p => ?_)
    · rw [hr]; cases c <;> rfl
    · rw [hi]; cases c <;> rfl
    · cases c with
      | queued p => exact List.filter_sublist
      | opened p => exact .refl _
    · have hqc := fun h1 h2 => h.no_commit c.port h1 h2 r
      obtain ⟨-, -, -, -, commits, -⟩ := id h
      rcases hw with ⟨q, hq, hk, rfl⟩ | ⟨p, ht, rfl⟩
      · intro hp
        obtain ⟨hm, hx⟩ := List.mem_filter.1 hm
        have hp : r.port = q.port := hp
        simp [hp, commits hi r hm] at hx
      · have hm : r ∈ s.engine.queue := hm
        exact hqc (by rw [show (Candidate.opened p).port = p from rfl, ht]; decide)
          (by rw [show (Candidate.opened p).port = p from rfl, ht]; decide) (List.mem_append_left _ hm)
          (commits hi r hm)
    · cases c <;> exact (startCommitting_ports _ _ p).1.trans (if_neg (Ne.symm hp))
    · cases c <;> exact (startCommitting_ports _ _ _).1.trans (if_pos rfl)
    · cases c <;> exact (startCommitting_ports _ _ p).2

/-! ### The lines, the supply and the recall -/

/-- Where the device takes no commands, no frame is in a phase that takes bytes. -/
theorem QueueLaw.no_takes {s : State} (h : QueueLaw s) (hr : ready s = false) (p : Port) :
    s.ports[p].frame.phase.takes = false := by
  by_contra hp
  rw [Bool.not_eq_false] at hp
  have := h.ready_of_takes p hp
  rw [hr] at this
  cases this

/-- Fewer requests of a device that takes no commands keep the law. -/
theorem QueueLaw.unready {s t : State} (h : QueueLaw s) (queue : t.engine.queue.Sublist s.engine.queue)
    (inFlight : t.engine.inFlight = s.engine.inFlight ∨ t.engine.inFlight = none)
    (txn : ∀ p : Port, t.ports[p].txn.state = s.ports[p].txn.state)
    (sequence : inPowerFail t = true → inPowerFail s = true ∨ ∀ r ∈ t.engine.queue, r.kind = .commit)
    (phase : ∀ p : Port, t.ports[p].frame.phase.takes = false) : QueueLaw t :=
  h.mono queue inFlight (fun r _ _ => txn r.port) sequence fun p hp => by rw [phase p] at hp; cases hp

theorem close_takes (f : FrameRecord) : f.close.phase.takes = false := by
  obtain ⟨h1, h2, h3⟩ := close_phase f
  cases h : f.close.phase <;> first | rfl | exact absurd h (by assumption)

theorem closeLinks_leaves (s : State) (p : Port) : (closeLinks s).ports[p].frame.phase.takes = false ∧
    (closeLinks s).ports[p].txn.state = s.ports[p].txn.state := by
  rw [closeLinks_port]
  exact ⟨close_takes _, rfl⟩

/-- Discarding the administration requests leaves the COMMITs and changes the volume table alone (R151). -/
theorem discardAdmin_eq (s : State) : discardAdmin s = { s with
    volumes := (discardAdmin s).volumes
    engine := { s.engine with queue := s.engine.queue.filter fun r => !r.isAdmin } } := by
  unfold discardAdmin
  simp only
  rw [returnVolumes_eq]
  rfl

/-- Judging the update in flight changes the device and the mark alone (R153). -/
theorem judgeInFlight_eq (s : State) (b : Nat) : judgeInFlight s b = { s with
    device := (judgeInFlight s b).device
    engine := { s.engine with abandon := (judgeInFlight s b).engine.abandon } } := by
  unfold judgeInFlight
  split
  · simp only
    split <;> rfl
  · rfl

theorem judgeInFlight_inPowerFail (s : State) (b : Nat) : inPowerFail (judgeInFlight s b) = true := by
  unfold judgeInFlight
  split
  · simp only
    split <;> rfl
  · rfl

theorem QueueLaw.enterPowerFail {s : State} (h : QueueLaw s) : QueueLaw (enterPowerFail s) := by
  refine QueueLaw.settleSequence ?_
  rw [judgeInFlight_eq, discardAdmin_eq]
  have queue : ∀ r ∈ s.engine.queue.filter (fun r => !r.isAdmin), r.kind = .commit := fun r hr => by
    simpa [Request.isAdmin] using (List.mem_filter.1 hr).2
  exact h.unready List.filter_sublist (.inl rfl) (fun p => (closeLinks_leaves s p).2) (fun _ => .inr queue)
    fun p => (closeLinks_leaves s p).1

/-- Where the recall stands at a step, the device is RECALLING at it. -/
theorem device_of_recallAt {s : State} {x : RecallStep} (h : recallAt s x = true) : s.device = .recalling x :=
  (of_decide_eq_true h).1

theorem ready_of_recallAt {s : State} {x : RecallStep} (h : recallAt s x = true) : ready s = false := by
  simp [ready, device_of_recallAt h]

/-- An abandonment leaves the device state. -/
theorem abandonUpdate_device (s : State) : (abandonUpdate s).device = s.device := by
  cases hr : s.engine.inFlight with
  | none => unfold abandonUpdate; rw [hr]
  | some req => rw [abandonUpdate_eq s req hr]

theorem QueueLaw.volatileLost (s : State) (d : Device) : QueueLaw (volatileLost s d) := by
  refine .of .nil (fun r hm => by cases hm) (fun r hm => by cases hm) (fun _ r hm => by cases hm) fun p hp => ?_
  have e : (Machine.volatileLost s d).ports[p].frame.phase = .noFrame := by
    show (Vector.replicate 4 (PortContext.recalled .idle))[p.val].frame.phase = _
    rw [Vector.getElem_replicate]
    rfl
  rw [e] at hp
  cases hp

/-- The rebuild of one volume changes the volume table and the working array alone (R112). -/
theorem recallVolume_eq (retired : List FrameNo) (x : Rebuild) (v : VolumeNo) (d : Durable) :
    (recallVolume retired x v d).state = { x.state with
      volumes := (recallVolume retired x v d).state.volumes
      array := (recallVolume retired x v d).state.array } := by
  obtain ⟨y, e | ⟨slot, e⟩⟩ := recallVolume_state retired x v d rfl <;> rw [e] <;> rfl

/-- The rebuild of the volume table changes the table and the working array alone (R112). -/
theorem recallVolumes_eq (s : State) (r : Root) : recallVolumes s r = { s with
    volumes := (recallVolumes s r).volumes, array := (recallVolumes s r).array } := by
  unfold recallVolumes
  have gen : ∀ x : Rebuild, ((ascending 16).foldl
      (fun x v => recallVolume r.retired x v r.volumes[v]) x).state = { x.state with
        volumes := ((ascending 16).foldl (fun x v => recallVolume r.retired x v r.volumes[v]) x).state.volumes
        array := ((ascending 16).foldl (fun x v => recallVolume r.retired x v r.volumes[v]) x).state.array } := by
    induction ascending 16 with
    | nil => exact fun _ => rfl
    | cons v l ih =>
      intro x
      simp only [List.foldl_cons]
      rw [ih, recallVolume_eq]
  exact gen ⟨s, []⟩

/-- Recalling frames changes the working array alone (R2). -/
theorem recallFrames_eq (l : List FrameNo) (s : State) :
    l.foldl recallFrame s = { s with array := (l.foldl recallFrame s).array } := by
  induction l generalizing s with
  | nil => rfl
  | cons f l ih =>
    rw [List.foldl_cons, ih]
    rfl

theorem checkPages_eq (s : State) : checkPages s = { s with
    volumes := (checkPages s).volumes, array := (checkPages s).array } := by
  unfold checkPages
  rw [recallFrames_eq]

/-- The two ways the first recall step ends (R110, R111). -/
theorem recallRoots_cases (s : State) : ∃ t, t = { s with array := t.array } ∧
    ((∃ slot r, selectedRoot t = some (slot, r) ∧ recallRoots s = takeRoot t slot r) ∨
      recallRoots s = rebuildUnformatted t) := by
  refine ⟨recallFrame (recallFrame s RootSlot.a.frame) RootSlot.b.frame, rfl, ?_⟩
  unfold recallRoots
  simp only
  split
  · next slot r h => exact .inl ⟨slot, r, h, rfl⟩
  · exact .inr rfl

/-- The end of a recall leaves the frame of every port (R115). -/
theorem endOfRecall_frame (s : State) (p : Port) :
    (endRecall (resetEngine (resetPorts s))).ports[p].frame = s.ports[p].frame := by
  change (tab fun p => PortContext.recalled s.ports[p].frame)[p].frame = _
  rw [tab_get]
  rfl

theorem QueueLaw.others {i : Instr} {s t : State} (hi : isInternal i = true) (ho : isOutcome i = false)
    (he : exec i s = .next t) (h : QueueLaw s) : QueueLaw t := by
  cases i with
  | requestRemoval =>
    cases he
    split
    · next req hr => exact h.removeRequest hr
    · exact h
  | durableOnLossCandidate =>
    cases he
    split
    · next c hc => exact (h.considerCandidate hc).settleSequence
    · exact h
  | pfailAsserted =>
    have ht : QueueLaw { s with pfail := true } := h.congr rfl rfl rfl (fun _ => rfl) fun _ => rfl
    cases he
    split
    · exact ht.enterPowerFail
    · exact ht.enterPowerFail
    · next x hd =>
      exact h.unready (.refl _) (.inl rfl) (fun _ => rfl) (fun hs => by cases hs)
        (h.no_takes (by simp [ready, hd]))
    · exact ht
    · exact ht
    · exact h
  | pfailDeasserted =>
    have ht : QueueLaw { s with pfail := false } := h.congr rfl rfl rfl (fun _ => rfl) fun _ => rfl
    have recalls : ∀ {u : State}, QueueLaw u → ready u = false → QueueLaw (beginRecall u) := fun hu hr =>
      hu.unready (.refl _) (.inl rfl) (fun _ => rfl) (fun hs => by cases hs) (hu.no_takes hr)
    cases he
    split
    · next b x y hd =>
      refine recalls ht.abandonUpdate ?_
      rw [ready_congr (abandonUpdate_device _)]
      simp [ready, hd]
    · next hd =>
      split
      · exact ht
      · exact recalls ht (by simp [ready, hd])
    all_goals exact ht
  | resetNAsserted =>
    cases he
    split
    · exact h
    · have hc : QueueLaw (cutProgram s) := by
        unfold cutProgram
        split
        · exact h
        · exact h.congr rfl rfl rfl (fun _ => rfl) fun _ => rfl
      generalize cutProgram s = u at hc
      refine hc.unready ?_ ?_ (fun p => (closeLinks_leaves u p).2) (fun hs => by cases hs)
        fun p => (closeLinks_leaves u p).1
      · show (dropUpdate (closeLinks u)).engine.queue.Sublist u.engine.queue
        unfold dropUpdate
        rw [State.modEngine_engine]
        split <;> exact .refl _
      · show (dropUpdate (closeLinks u)).engine.inFlight = u.engine.inFlight ∨ _
        unfold dropUpdate
        rw [State.modEngine_engine]
        split
        · exact .inl rfl
        · exact .inr rfl
  | resetNReleased =>
    have ht : QueueLaw { s with resetN := false } := h.congr rfl rfl rfl (fun _ => rfl) fun _ => rfl
    cases he
    split
    · next hd =>
      split
      · exact ht
      · exact ht.unready (.refl _) (.inl rfl) (fun _ => rfl) (fun hs => by cases hs)
          (ht.no_takes (by simp [ready, hd]))
    all_goals exact ht
  | powerUp =>
    cases he
    split
    · exact .volatileLost s _
    · exact h
  | lossOfSupply =>
    cases he
    split
    · exact h
    · exact .volatileLost _ _
  | recallRootSlots =>
    cases he
    split
    · next hd =>
      have hr := ready_of_recallAt hd
      obtain ⟨u, hu, ⟨slot, r, -, e⟩ | e⟩ := recallRoots_cases s <;> rw [e, hu] <;>
        exact h.unready (.refl _) (.inl rfl) (fun _ => rfl) (fun hs => by cases hs) (h.no_takes hr)
    · exact h
  | recallVolumeTable =>
    cases he
    split
    · next hd =>
      have hr := ready_of_recallAt hd
      split
      · rw [recallVolumes_eq]
        exact h.unready (.refl _) (.inl rfl) (fun _ => rfl) (fun hs => by cases hs) (h.no_takes hr)
      · exact h
    · exact h
  | recallPageChecks =>
    cases he
    split
    · next hd =>
      have hr := ready_of_recallAt hd
      rw [checkPages_eq]
      exact h.unready (.refl _) (.inl rfl) (fun _ => rfl) (fun hs => by cases hs) (h.no_takes hr)
    · exact h
  | recallEnd =>
    cases he
    split
    · next hd =>
      have hr := ready_of_recallAt hd
      refine .of .nil (fun r hm => by cases hm) (fun r hm => by cases hm) (fun _ r hm => by cases hm)
        fun p hp => ?_
      rw [endOfRecall_frame] at hp
      have := h.no_takes hr p
      have e : (rebuildFrames s).ports = s.ports := by unfold rebuildFrames; rfl
      rw [e, this] at hp
      cases hp
    · exact h
  | pageStepPass | pageStepFail | mapStepPass | systemAreaProgramFail | rootStepPass => cases ho
  | _ => cases hi

/-- Settles O58: two requests of one port never meet in the queue, since a request is appended only where the port
has none and leaves the queue as it begins. -/
theorem queueLawIsKept : Obligations.QueueLawIsKept := fun _ _ hs h =>
  step_keeps QueueLaw hs h .quiet .effect .outcome fun _ => .others

end Sys2Proof.Machine
end


section
/-! The law of the administration mask and the law of the retired table are kept (the first parts of O57). -/

namespace Sys2Proof.Machine

/-! ### What a judged root holds (R105) -/

/-- A mask byte in range has a member. -/
theorem maskOf_not_empty {b : Byte} {m : Vector Bool 4} (h : maskOf b = some m) : maskEmpty m = false := by
  unfold maskOf at h
  split at h
  · next hb =>
    cases h
    rw [maskEmpty, List.all_eq_false]
    by_contra hn
    have bits : ∀ p : Fin 4, b.toNat.testBit p.val = false := fun p => by
      by_contra hp
      refine hn ⟨p, mem_ascending p, ?_⟩
      rw [tab_get, BitVec.getLsbD]
      simpa using hp
    have : b.toNat = 0 := Nat.eq_of_testBit_eq fun i => by
      rw [Nat.zero_testBit]
      by_cases hi : i < 4
      · exact bits ⟨i, hi⟩
      · exact Nat.testBit_lt_two_pow (hb.2.trans_le (Nat.pow_le_pow_right (n := 2) (by omega) (by omega : 4 ≤ i)))
    omega
  · cases h

theorem judgeRoot_fields {l : List Byte} {r : Root} (h : judgeRoot l = some r) :
    maskOf (byteAt l 8) = some r.settings.mask ∧ retiredOf l = some r.retired := by
  unfold judgeRoot at h
  split at h
  · split at h
    · next hm hq hr hv => cases h; exact ⟨hm, hr⟩
    · cases h
  · cases h

theorem allSome_mem {α : Type} {l : List (Option α)} {m : List α} (h : allSome l = some m) :
    l = m.map some := by
  induction l generalizing m with
  | nil => cases h; rfl
  | cons x l ih =>
    cases x with
    | none => cases h
    | some a =>
      unfold allSome at h
      obtain ⟨n, hn, rfl⟩ := Option.map_eq_some_iff.1 h
      rw [ih hn]
      rfl

/-- A retired table in range holds at most 24 pool frames, each once (R105). -/
theorem retiredOf_fields {l : List Byte} {m : List FrameNo} (h : retiredOf l = some m) :
    m.length ≤ Config.retiredCapacity ∧ m.Nodup ∧ ∀ f ∈ m, isPool f = true := by
  unfold retiredOf at h
  simp only at h
  split at h
  · next hn =>
    split at h
    · next fs hf =>
      split at h
      · next hd =>
        cases h
        have e := allSome_mem hf
        refine ⟨?_, hd, fun f hm => ?_⟩
        · have := congrArg List.length e
          rw [List.length_map, List.length_map, List.length_range] at this
          omega
        · have hm : some f ∈ m.map some := List.mem_map_of_mem hm
          rw [← e] at hm
          obtain ⟨i, -, hi⟩ := List.mem_map.1 hm
          unfold poolFrameOf at hi
          split at hi
          · next hp => cases hi; simp [isPool, hp.1]
          · cases hi
      · cases h
    · cases h
  · cases h

/-- The selected root is the one judged good in its slot (R106). -/
theorem selectRoot_eq_some {a b : Option Root} {slot : RootSlot} {r : Root} (h : selectRoot a b = some (slot, r)) :
    (slot = .a ∧ a = some r) ∨ (slot = .b ∧ b = some r) := by
  unfold selectRoot at h
  split at h
  · cases h
  · cases h; exact .inl ⟨rfl, rfl⟩
  · cases h; exact .inr ⟨rfl, rfl⟩
  · split at h
    · cases h; exact .inr ⟨rfl, rfl⟩
    · split at h
      · cases h; exact .inl ⟨rfl, rfl⟩
      · split at h
        · cases h; exact .inr ⟨rfl, rfl⟩
        · cases h; exact .inl ⟨rfl, rfl⟩

theorem selectedRoot_judged {s : State} {slot : RootSlot} {r : Root} (h : selectedRoot s = some (slot, r)) :
    judgeRoot (arrayFrame s slot.frame) = some r := by
  rcases selectRoot_eq_some h with ⟨rfl, hj⟩ | ⟨rfl, hj⟩ <;> exact hj

/-! ### The effects of the ports leave the device and all of the engine but the queue -/

theorem Effect.leaves {p : Port} {s t : State} (e : Effect p s t) :
    t.device = s.device ∧ t.engine = { s.engine with queue := t.engine.queue } := by
  cases e with
  | opens | ends | queues | accepts | creates | changes => exact ⟨rfl, rfl⟩
  | expires =>
    exact ⟨releaseClaims_device s p, by
      rw [show (setTxnState (releaseClaims s p) p .expired).engine = (releaseClaims s p).engine from rfl,
        releaseClaims_engine]⟩
  | drops =>
    have release : ∀ u : State, (endTxn (releaseClaims u p) p).device = u.device ∧
        (endTxn (releaseClaims u p) p).engine = u.engine := fun u =>
      ⟨releaseClaims_device u p, releaseClaims_engine u p⟩
    unfold abandonTxn
    split
    · obtain ⟨hd, he⟩ := release s; exact ⟨hd, by rw [he]⟩
    · obtain ⟨hd, he⟩ := release (withdrawCommit s p); exact ⟨hd, by rw [he]; rfl⟩
    all_goals exact ⟨rfl, rfl⟩
  | writes t v g off b ht hw =>
    obtain ⟨hd, he, -⟩ := requestWrite_leaves hw
    exact ⟨hd, by rw [he]⟩
  | punches t v g ht hw =>
    obtain ⟨hd, he, -⟩ := requestPunch_leaves hw
    exact ⟨hd, by rw [he]⟩

/-! ### The law of the mask (R122) -/

theorem MaskLaw.congr {s t : State} (h : MaskLaw s) (hs : t.engine.settings = s.engine.settings)
    (hf : t.engine.inFlight = s.engine.inFlight) (hd : t.device.works = s.device.works)
    (he : t.engine.state = .stopped → s.engine.inFlight = none) : MaskLaw t := by
  obtain ⟨mask, flying, -⟩ := h
  refine ⟨fun st h => mask st (hs ▸ h), fun req hr => ?_, fun h => hf ▸ he h⟩
  obtain ⟨hw, hk⟩ := flying req (hf ▸ hr)
  refine ⟨hd ▸ hw, fun p q k e => ?_⟩
  have := hk p q k e
  unfold wouldEmptyMask at *
  rwa [hs]

/-- Without an update in flight the law speaks of the settings alone. -/
theorem MaskLaw.rests {s t : State} (h : MaskLaw s) (hs : t.engine.settings = s.engine.settings)
    (hf : t.engine.inFlight = none) : MaskLaw t := by
  refine ⟨fun st hst => h.1 st (hs ▸ hst), fun req hr => ?_, fun _ => hf⟩
  rw [hf] at hr
  cases hr

/-- The settings after a request that leaves a member in the mask (R97, R144). -/
theorem settingsAfter_mask {s : State} (h : MaskLaw s) (kind : RequestKind)
    (hk : ∀ p q k, kind = .configPort p q k → wouldEmptyMask s p k = false) (st : Settings)
    (hst : settingsAfter s.engine.settings kind = some st) : maskEmpty st.mask = false := by
  unfold settingsAfter at hst
  split at hst
  · cases hst; decide
  · next p q k =>
    obtain ⟨x, hx, rfl⟩ := Option.map_eq_some_iff.1 hst
    have := hk p q k rfl
    unfold wouldEmptyMask at this
    rw [hx] at this
    exact this
  · obtain ⟨x, hx, rfl⟩ := Option.map_eq_some_iff.1 hst
    exact h.1 x hx
  · exact h.1 st hst

theorem MaskLaw.quiet {s t : State} (q : Quiet s t) (h : MaskLaw s) : MaskLaw t :=
  h.congr (by rw [q.engine]) (by rw [q.engine]) (by rw [q.device]) fun e => h.2.2 (q.engine ▸ e)

theorem MaskLaw.effect {s t : State} {p : Port} (e : Effect p s t) (h : MaskLaw s) : MaskLaw t := by
  obtain ⟨hd, he⟩ := e.leaves
  refine h.congr (by rw [he]) (by rw [he]) (by rw [hd]) fun hs => h.2.2 ?_
  rw [he] at hs
  exact hs

theorem MaskLaw.startStep {s : State} (h : MaskLaw s) : MaskLaw (startStep s) := by
  have hst := startStep_state s
  by_cases hs : (Machine.startStep s).engine.state = .stopped
  · rw [hs] at hst
    have hsame : s.engine.state = .stopped := by
      rcases hst with e | e | e | e
      · exact e.symm
      all_goals cases e
    rw [startStep_eq]
    exact h.congr rfl rfl rfl fun _ => h.2.2 hsame
  · have hn : (Machine.startStep s).engine.state ≠ .stopped := hs
    rw [startStep_eq] at hn ⊢
    exact h.congr rfl rfl rfl fun hx => absurd hx hn

theorem MaskLaw.abandonUpdate {s : State} (h : MaskLaw s) : MaskLaw (abandonUpdate s) := by
  cases hr : s.engine.inFlight with
  | none => unfold Machine.abandonUpdate; rw [hr]; exact h
  | some req => rw [abandonUpdate_eq s req hr]; exact h.rests rfl rfl

theorem MaskLaw.spendOne {s t : State} (h : MaskLaw s) (hs : spendOne s = some t) : MaskLaw t := by
  obtain ⟨e, -, hw, -⟩ := spendOne_eq hs
  rw [e]
  exact h.congr rfl rfl hw fun hx => h.2.2 hx

/-- The engine after a relocation programs a frame, or is as it was where the free list was empty (R87). -/
theorem relocate_state (s : State) (req : Request) (plan : Plan) (v : VolumeNo) (g : PageNo) (f : FrameNo)
    (n : Nat) (hf : s.freeList ≠ []) : (relocate s req plan v g f n).engine.state = .frames := by
  obtain ⟨new, rest, hl⟩ := List.exists_cons_of_ne_nil hf
  unfold relocate takeFree
  rw [retire_eq]
  simp only [hl]
  rfl

theorem MaskLaw.act {s t : State} {req : Request} {plan : Plan} {step : PlanStep}
    (hr : s.engine.inFlight = some req) (a : Act req plan step s t) (h : MaskLaw s) : MaskLaw t := by
  cases a with
  | stays => exact h
  | advances => exact MaskLaw.startStep (h.congr rfl rfl rfl fun hx => h.2.2 hx)
  | fails code f => rw [failUpdate_eq s req _ _ hr]; exact h.rests rfl rfl
  | abandons => exact h.abandonUpdate
  | relocates t v g f n c hs hn hf ht =>
    obtain ⟨hd, -, -, hi, hset, -⟩ := relocate_leaves t req plan v g f n
    refine (h.spendOne ht).congr hset hi (by rw [hd]) fun hx => ?_
    have hl : t.freeList = s.freeList := by rw [(spendOne_eq ht).1]
    rw [relocate_state t req plan v g f n (by rwa [hl])] at hx
    cases hx
  | retries t f ht => exact (h.spendOne ht).congr rfl rfl rfl fun hx => (h.spendOne ht).2.2 hx
  | stops f => rw [enterStopped_eq s req f hr]; exact h.rests rfl rfl
  | completes slot seq =>
    have he := complete_engine s req plan slot seq
    refine ⟨fun st hst => ?_, fun r hx => ?_, fun _ => ?_⟩
    · rw [he] at hst
      exact settingsAfter_mask h req.kind (h.2.1 req hr).2 st hst
    · rw [he] at hx
      cases hx
    · rw [he]
      rfl

theorem MaskLaw.settleSequence {s : State} (h : MaskLaw s) : MaskLaw (settleSequence s) := by
  rcases settleSequence_cases s with e | ⟨-, hf, -, e⟩ <;> rw [e]
  · exact h
  · exact h.rests rfl hf

theorem MaskLaw.outcome {s t : State} (o : Outcome s t) (h : MaskLaw s) : MaskLaw t := by
  rcases o with rfl | ⟨u, ⟨f, hu⟩, ht⟩
  · exact h
  · have hm : MaskLaw u := by
      rcases hu with rfl | rfl <;> exact h.congr rfl rfl rfl fun hx => h.2.2 hx
    rcases ht with rfl | ⟨req, plan, step, w, hr, -, -, ha, rfl⟩
    · exact hm
    · exact (MaskLaw.act hr ha hm).settleSequence

/-- Where the device does not work, no update is in flight. -/
theorem MaskLaw.idle {s : State} (h : MaskLaw s) (hd : s.device.works = false) : s.engine.inFlight = none := by
  cases hr : s.engine.inFlight with
  | none => rfl
  | some req => have := (h.2.1 req hr).1; rw [hd] at this; cases this

/-- An update begins in a device that works; a CONFIG_PORT leaves a member. -/
theorem MaskLaw.begins {s t : State} (h : MaskLaw s) (req : Request)
    (hs : t.engine.settings = s.engine.settings) (hf : t.engine.inFlight = some req)
    (hd : t.device.works = true) (he : t.engine.state ≠ .stopped)
    (hk : ∀ p q k, req.kind = .configPort p q k → wouldEmptyMask s p k = false) : MaskLaw t := by
  refine ⟨fun st hst => h.1 st (hs ▸ hst), fun r hr => ?_, fun hx => absurd hx he⟩
  rw [hf] at hr
  cases hr
  refine ⟨hd, fun p q k e => ?_⟩
  have := hk p q k e
  unfold wouldEmptyMask at *
  rwa [hs]

theorem MaskLaw.removeRequest {s : State} (h : MaskLaw s) {req : Request} (hr : removable s = some req) :
    MaskLaw (removeRequest s req) := by
  obtain ⟨hi, hf, hready, -⟩ := removable_eq_some hr
  obtain ⟨hd, he, -⟩ := removed_leaves s req
  rcases removeRequest_cases s req with ⟨code, -, e⟩ | ⟨hc, e⟩ <;> rw [e]
  · rw [failRequest_eq]
    have hset : (removed s req).engine.settings = s.engine.settings := by rw [he]; rfl
    exact h.rests hset rfl
  · refine MaskLaw.startStep (h.begins req ?_ rfl ?_ ?_ fun p q k hk => ?_)
    · rw [State.modEngine_engine, he]
      rfl
    · have hw : (removed s req).device.works = true := by
        rw [hd]
        rcases (ready_iff s).1 hready with e | e <;> rw [e] <;> rfl
      exact hw
    · rw [State.modEngine_engine, he]
      intro hx
      have hx : s.engine.state = .stopped := hx
      rw [hi] at hx
      cases hx
    · rw [hk] at hc
      unfold removalCheck at hc
      simp only at hc
      split at hc
      · cases hc
      · next hw =>
        rw [Bool.not_eq_true] at hw
        unfold wouldEmptyMask at *
        rwa [he] at hw

/-- The engine record in which a candidate's COMMIT begins: a queued one left the queue (R157). -/
theorem candidateTaken_leaves (s : State) (d : Device) (c : Candidate) :
    (candidateTaken s d c).device = d ∧
    (candidateTaken s d c).engine = { s.engine with queue := (candidateTaken s d c).engine.queue } ∧
    (candidateTaken s d c).volumes = s.volumes ∧ (candidateTaken s d c).claimCount = s.claimCount ∧
    (candidateTaken s d c).frameStates = s.frameStates ∧ (candidateTaken s d c).freeList = s.freeList := by
  cases c <;> exact ⟨rfl, rfl, rfl, rfl, rfl, rfl⟩

theorem MaskLaw.considerCandidate {s : State} (h : MaskLaw s) {c : Candidate}
    (hc : nextCandidate s = some c) : MaskLaw (considerCandidate s c) := by
  obtain ⟨hi, hf, hs, -⟩ := nextCandidate_eq_some hc
  obtain ⟨b, taken, skipped, e | e⟩ := considerCandidate_cases hi c <;> rw [e]
  · exact h.rests rfl hf
  · obtain ⟨hd, he, -⟩ := candidateTaken_leaves s (.powerFail b taken skipped) c
    refine MaskLaw.startStep (h.begins ⟨c.port, .commit⟩ ?_ rfl ?_ ?_ fun p q k hk => by cases hk)
    · rw [State.modEngine_engine, he]
    · rw [State.modEngine_device, hd]; rfl
    · rw [State.modEngine_engine, he]; exact hs

theorem MaskLaw.enterPowerFail {s : State} (h : MaskLaw s) (hw : s.device.works = true) :
    MaskLaw (enterPowerFail s) := by
  have hp := judgeInFlight_inPowerFail (discardAdmin (closeLinks s)) (budgetAtEntry s)
  have hd : (judgeInFlight (discardAdmin (closeLinks s)) (budgetAtEntry s)).device.works = true := by
    unfold inPowerFail at hp
    split at hp
    · next e => rw [e]; rfl
    · cases hp
  refine MaskLaw.settleSequence ?_
  rw [judgeInFlight_eq, discardAdmin_eq] at hd ⊢
  exact h.congr rfl rfl (hd.trans hw.symm) fun hx => h.2.2 hx

/-- The engine record at the first step after the root slots were recalled (R110, R111). -/
theorem takeRoot_engine (s : State) (slot : RootSlot) (r : Root) : (takeRoot s slot r).engine = { s.engine with
    sequence := some r.sequence, selected := some slot, settings := some r.settings, retired := r.retired } := rfl

theorem rebuildUnformatted_engine (s : State) : (rebuildUnformatted s).engine = { s.engine with
    sequence := none, selected := none, settings := none, retired := [] } := rfl

/-- The engine record after the recall (R116). -/
theorem endOfRecall_engine (s : State) : (endRecall (resetEngine (resetPorts (rebuildFrames s)))).engine =
    { s.engine.ended with
      queue := [], sysareaFault := false
      mediaWorn := decide (s.engine.retired.length = Config.retiredCapacity) } := by
  have e : (rebuildFrames s).engine = s.engine := by unfold rebuildFrames; rfl
  generalize rebuildFrames s = u at e
  rw [← e]
  rfl

/-- A program cut short changes the cells, the program and the count of free values alone (R2). -/
theorem cutProgram_eq (s : State) : cutProgram s = { s with
    cells := (cutProgram s).cells, program := (cutProgram s).program, draws := (cutProgram s).draws } := by
  unfold cutProgram
  split <;> rfl

theorem MaskLaw.others {i : Instr} {s t : State} (hi : isInternal i = true) (ho : isOutcome i = false)
    (he : exec i s = .next t) (h : MaskLaw s) : MaskLaw t := by
  cases i with
  | requestRemoval =>
    cases he
    split
    · next req hr => exact h.removeRequest hr
    · exact h
  | durableOnLossCandidate =>
    cases he
    split
    · next c hc => exact (h.considerCandidate hc).settleSequence
    · exact h
  | pfailAsserted =>
    have ht : MaskLaw { s with pfail := true } := h.congr rfl rfl rfl fun hx => h.2.2 hx
    cases he
    split
    · next hd => exact ht.enterPowerFail (by simp [hd, Device.works])
    · next hd => exact ht.enterPowerFail (by simp [hd, Device.works])
    · next hd => exact h.rests rfl (h.idle (by rw [hd]; rfl))
    · exact ht
    · exact ht
    · exact h
  | pfailDeasserted =>
    have ht : MaskLaw { s with pfail := false } := h.congr rfl rfl rfl fun hx => h.2.2 hx
    cases he
    split
    · have hn : (Machine.abandonUpdate { s with pfail := false }).engine.inFlight = none := by
        cases hr : s.engine.inFlight with
        | none => unfold Machine.abandonUpdate; rw [hr]; exact hr
        | some req => rw [abandonUpdate_eq { s with pfail := false } req hr]; rfl
      exact ht.abandonUpdate.rests rfl hn
    · next hd =>
      split
      · exact ht
      · exact h.rests rfl (h.idle (by rw [hd]; rfl))
    all_goals exact ht
  | resetNAsserted =>
    cases he
    split
    · exact h
    · have hc : MaskLaw (cutProgram s) := by
        rw [cutProgram_eq]
        exact h.congr rfl rfl rfl fun hx => h.2.2 hx
      generalize cutProgram s = u at hc
      by_cases hs : u.engine.state = .stopped
      · have e : (dropUpdate (closeLinks u)).engine = u.engine := by
          unfold dropUpdate
          rw [State.modEngine_engine, if_pos (show (closeLinks u).engine.state = .stopped from hs)]
          rfl
        exact MaskLaw.rests hc (congrArg (·.settings) e) ((congrArg (·.inFlight) e).trans (hc.2.2 hs))
      · have e : (dropUpdate (closeLinks u)).engine = u.engine.ended := by
          unfold dropUpdate
          rw [State.modEngine_engine, if_neg (show ¬ (closeLinks u).engine.state = .stopped from hs)]
          rfl
        exact MaskLaw.rests hc (congrArg (·.settings) e) (congrArg (·.inFlight) e)
  | resetNReleased =>
    have ht : MaskLaw { s with resetN := false } := h.congr rfl rfl rfl fun hx => h.2.2 hx
    cases he
    split
    · next hd =>
      split
      · exact ht
      · exact h.rests rfl (h.idle (by rw [hd]; rfl))
    all_goals exact ht
  | powerUp =>
    cases he
    split
    · exact ⟨fun _ hx => (by cases hx), fun _ hx => (by cases hx), fun _ => rfl⟩
    · exact h
  | lossOfSupply =>
    cases he
    split
    · exact h
    · exact ⟨fun _ hx => (by cases hx), fun _ hx => (by cases hx), fun _ => rfl⟩
  | recallRootSlots =>
    cases he
    split
    · next hd =>
      have hf := h.idle (by rw [device_of_recallAt hd]; rfl)
      obtain ⟨u, hu, ⟨slot, r, hsel, e⟩ | e⟩ := recallRoots_cases s <;> rw [e]
      · refine ⟨fun st hst => ?_, fun req hr => ?_, fun _ => ?_⟩
        · cases hst
          exact maskOf_not_empty (judgeRoot_fields (selectedRoot_judged hsel)).1
        · rw [takeRoot_engine, hu] at hr
          have hr : s.engine.inFlight = some req := hr
          rw [hf] at hr
          cases hr
        · rw [takeRoot_engine, hu]
          exact hf
      · refine ⟨fun st hst => (by cases hst), fun req hr => ?_, fun _ => ?_⟩
        · rw [rebuildUnformatted_engine, hu] at hr
          have hr : s.engine.inFlight = some req := hr
          rw [hf] at hr
          cases hr
        · rw [rebuildUnformatted_engine, hu]
          exact hf
    · exact h
  | recallVolumeTable =>
    cases he
    split
    · next hd =>
      split
      · rw [recallVolumes_eq]
        exact h.rests rfl (h.idle (by rw [device_of_recallAt hd]; rfl))
      · exact h
    · exact h
  | recallPageChecks =>
    cases he
    split
    · next hd =>
      rw [checkPages_eq]
      exact h.rests rfl (h.idle (by rw [device_of_recallAt hd]; rfl))
    · exact h
  | recallEnd =>
    cases he
    split
    · exact h.rests (by rw [endOfRecall_engine]; rfl) (by rw [endOfRecall_engine]; rfl)
    · exact h
  | pageStepPass | pageStepFail | mapStepPass | systemAreaProgramFail | rootStepPass => cases ho
  | _ => cases hi

/-! ### The law of the retired table (R8, R88) -/

theorem RetiredLaw.congr {s t : State} (h : RetiredLaw s) (hr : t.engine.retired = s.engine.retired)
    (hm : t.engine.mediaWorn = s.engine.mediaWorn) (hd : t.device.works = true → s.device.works = true) :
    RetiredLaw t := by
  unfold RetiredLaw at *
  rw [hr, hm]
  exact ⟨h.1, fun hw => h.2 (hd hw)⟩

/-- What most of the engine's operations leave of the engine record. -/
def sameWear (e f : Engine) : Prop := f.retired = e.retired ∧ f.mediaWorn = e.mediaWorn

theorem RetiredLaw.quiet {s t : State} (q : Quiet s t) (h : RetiredLaw s) : RetiredLaw t :=
  h.congr (by rw [q.engine]) (by rw [q.engine]) (by rw [q.device]; exact id)

theorem RetiredLaw.effect {s t : State} {p : Port} (e : Effect p s t) (h : RetiredLaw s) : RetiredLaw t := by
  obtain ⟨hd, he⟩ := e.leaves
  exact h.congr (by rw [he]) (by rw [he]) (by rw [hd]; exact id)

theorem RetiredLaw.startStep {s : State} (h : RetiredLaw s) : RetiredLaw (startStep s) := by
  rw [startStep_eq]
  exact h.congr rfl rfl id

theorem RetiredLaw.abandonUpdate {s : State} (h : RetiredLaw s) : RetiredLaw (abandonUpdate s) := by
  cases hr : s.engine.inFlight with
  | none => unfold Machine.abandonUpdate; rw [hr]; exact h
  | some req => rw [abandonUpdate_eq s req hr]; exact h.congr rfl rfl id

theorem RetiredLaw.spendOne {s t : State} (h : RetiredLaw s) (hs : spendOne s = some t) : RetiredLaw t := by
  obtain ⟨e, -, hw, -⟩ := spendOne_eq hs
  rw [e]
  exact h.congr rfl rfl fun hx => hw ▸ hx

/-- The engine's wear after a relocation (R88). -/
theorem relocate_wear (s : State) (req : Request) (plan : Plan) (v : VolumeNo) (g : PageNo) (f : FrameNo)
    (n : Nat) (hf : s.freeList ≠ []) :
    (relocate s req plan v g f n).engine.retired = s.engine.retired ++ [f] ∧
    (relocate s req plan v g f n).engine.mediaWorn =
      (s.engine.mediaWorn || decide (s.engine.retired.length + 1 = 24)) := by
  obtain ⟨new, rest, hl⟩ := List.exists_cons_of_ne_nil hf
  unfold relocate takeFree
  rw [retire_eq]
  simp only [hl]
  rw [setFrameState_eq, renameShadow_frame]
  exact ⟨rfl, rfl⟩

theorem RetiredLaw.relocate {s : State} (h : RetiredLaw s) (req : Request) (plan : Plan) (v : VolumeNo)
    (g : PageNo) (f : FrameNo) (n : Nat) (hf : s.freeList ≠ [])
    (hn : s.engine.retired.length < Config.retiredCapacity) : RetiredLaw (relocate s req plan v g f n) := by
  obtain ⟨hr, hm⟩ := relocate_wear s req plan v g f n hf
  obtain ⟨hd, -⟩ := relocate_leaves s req plan v g f n
  unfold RetiredLaw
  rw [hr, hm, hd, List.length_append]
  refine ⟨hn, fun hw => ?_⟩
  rw [h.2 hw, decide_eq_false hn.ne, Bool.false_or]
  rfl

theorem RetiredLaw.act {s t : State} {req : Request} {plan : Plan} {step : PlanStep}
    (hr : s.engine.inFlight = some req) (a : Act req plan step s t) (h : RetiredLaw s) : RetiredLaw t := by
  cases a with
  | stays => exact h
  | advances => exact RetiredLaw.startStep (h.congr rfl rfl id)
  | fails code f => rw [failUpdate_eq s req _ _ hr]; exact h.congr rfl rfl id
  | abandons => exact h.abandonUpdate
  | relocates t v g f n c hs hn hf ht =>
    have e := (spendOne_eq ht).1
    exact (h.spendOne ht).relocate req plan v g f n (by rw [e]; exact hf) (by rw [e]; exact hn)
  | retries t f ht => exact (h.spendOne ht).congr rfl rfl id
  | stops f => rw [enterStopped_eq s req f hr]; exact h.congr rfl rfl id
  | completes slot seq =>
    have he := complete_engine s req plan slot seq
    refine h.congr (by rw [he]; rfl) (by rw [he]; rfl) fun hw => ?_
    rw [complete_device] at hw
    split at hw
    · next hd => rw [hd.2]; rfl
    · exact hw

theorem RetiredLaw.settleSequence {s : State} (h : RetiredLaw s) : RetiredLaw (settleSequence s) := by
  rcases settleSequence_cases s with e | ⟨-, hf, -, e⟩ <;> rw [e]
  · exact h
  · exact h.congr rfl rfl fun hw => by cases hw

theorem RetiredLaw.outcome {s t : State} (o : Outcome s t) (h : RetiredLaw s) : RetiredLaw t := by
  rcases o with rfl | ⟨u, ⟨f, hu⟩, ht⟩
  · exact h
  · have hm : RetiredLaw u := by rcases hu with rfl | rfl <;> exact h.congr rfl rfl id
    rcases ht with rfl | ⟨req, plan, step, w, hr, -, -, ha, rfl⟩
    · exact hm
    · exact (RetiredLaw.act hr ha hm).settleSequence

theorem RetiredLaw.removeRequest {s : State} (h : RetiredLaw s) (req : Request) :
    RetiredLaw (removeRequest s req) := by
  obtain ⟨hd, he, -⟩ := removed_leaves s req
  have hm : RetiredLaw (removed s req) := h.congr (by rw [he]; rfl) (by rw [he]; rfl) (by rw [hd]; exact id)
  rcases removeRequest_cases s req with ⟨code, -, e⟩ | ⟨-, e⟩ <;> rw [e]
  · rw [failRequest_eq]
    exact RetiredLaw.congr hm rfl rfl id
  · exact RetiredLaw.startStep (hm.congr rfl rfl id)

theorem inPowerFail_works {s : State} (h : inPowerFail s = true) : s.device.works = true := by
  unfold inPowerFail at h
  split at h
  · next e => rw [e]; rfl
  · cases h

theorem RetiredLaw.considerCandidate {s : State} (h : RetiredLaw s) {c : Candidate}
    (hc : nextCandidate s = some c) : RetiredLaw (considerCandidate s c) := by
  obtain ⟨hi, -⟩ := nextCandidate_eq_some hc
  have hw := inPowerFail_works hi
  obtain ⟨b, taken, skipped, e | e⟩ := considerCandidate_cases hi c <;> rw [e]
  · exact h.congr rfl rfl fun _ => hw
  · obtain ⟨-, he, -⟩ := candidateTaken_leaves s (.powerFail b taken skipped) c
    refine RetiredLaw.startStep (h.congr ?_ ?_ fun _ => hw) <;> rw [State.modEngine_engine, he]

theorem RetiredLaw.others {i : Instr} {s t : State} (hi : isInternal i = true) (ho : isOutcome i = false)
    (he : exec i s = .next t) (h : RetiredLaw s) : RetiredLaw t := by
  cases i with
  | requestRemoval =>
    cases he
    split
    · exact h.removeRequest _
    · exact h
  | durableOnLossCandidate =>
    cases he
    split
    · next c hc => exact (h.considerCandidate hc).settleSequence
    · exact h
  | pfailAsserted =>
    have enters : s.device.works = true → RetiredLaw (enterPowerFail { s with pfail := true }) := fun hw => by
      refine RetiredLaw.settleSequence ?_
      rw [judgeInFlight_eq, discardAdmin_eq]
      exact h.congr rfl rfl fun _ => hw
    cases he
    split
    · next hd => exact enters (by rw [hd]; rfl)
    · next hd => exact enters (by rw [hd]; rfl)
    · exact h.congr rfl rfl fun hw => by cases hw
    · exact h.congr rfl rfl id
    · exact h.congr rfl rfl id
    · exact h
  | pfailDeasserted =>
    have ht : RetiredLaw { s with pfail := false } := h.congr rfl rfl id
    cases he
    split
    · exact ht.abandonUpdate.congr rfl rfl fun hw => by cases hw
    · split
      · exact ht
      · exact h.congr rfl rfl fun hw => by cases hw
    all_goals exact ht
  | resetNAsserted =>
    cases he
    split
    · exact h
    · have hc : sameWear s.engine (dropUpdate (closeLinks (cutProgram s))).engine := by
        rw [cutProgram_eq]
        unfold dropUpdate
        rw [State.modEngine_engine]
        split <;> exact ⟨rfl, rfl⟩
      exact h.congr hc.1 hc.2 fun hw => by cases hw
  | resetNReleased =>
    have ht : RetiredLaw { s with resetN := false } := h.congr rfl rfl id
    cases he
    split
    · split
      · exact ht
      · exact h.congr rfl rfl fun hw => by cases hw
    all_goals exact ht
  | powerUp =>
    cases he
    split
    · exact ⟨Nat.zero_le _, fun hw => by cases hw⟩
    · exact h
  | lossOfSupply =>
    cases he
    split
    · exact h
    · exact ⟨Nat.zero_le _, fun hw => by cases hw⟩
  | recallRootSlots =>
    cases he
    split
    · obtain ⟨u, hu, ⟨slot, r, hsel, e⟩ | e⟩ := recallRoots_cases s <;> rw [e]
      · exact ⟨(retiredOf_fields (judgeRoot_fields (selectedRoot_judged hsel)).2).1, fun hw => by cases hw⟩
      · exact ⟨Nat.zero_le _, fun hw => by cases hw⟩
    · exact h
  | recallVolumeTable =>
    cases he
    split
    · split
      · rw [recallVolumes_eq]
        exact h.congr rfl rfl fun hw => by cases hw
      · exact h
    · exact h
  | recallPageChecks =>
    cases he
    split
    · rw [checkPages_eq]
      exact h.congr rfl rfl fun hw => by cases hw
    · exact h
  | recallEnd =>
    cases he
    split
    · unfold RetiredLaw
      rw [endOfRecall_engine]
      exact ⟨h.1, fun _ => rfl⟩
    · exact h
  | pageStepPass | pageStepFail | mapStepPass | systemAreaProgramFail | rootStepPass => cases ho
  | _ => cases hi

/-- The first part of O57: every step keeps the law of the mask. -/
theorem maskLaw_step {s t : State} (hs : MaskLaw s) (h : step s = .next t) : MaskLaw t :=
  step_keeps MaskLaw hs h .quiet (fun _ => .effect) .outcome fun _ => .others

/-- The second part of O57: every step keeps the law of the retired table. -/
theorem retiredLaw_step {s t : State} (hs : RetiredLaw s) (h : step s = .next t) : RetiredLaw t :=
  step_keeps RetiredLaw hs h .quiet (fun _ => .effect) .outcome fun _ => .others

end Sys2Proof.Machine
end


section
/-! The laws of the pool frames, of the claims, of the volumes that requests hold and of the plan in flight, while the
device works: what the happenings of the ports and of the engine do to them (for the third part of O57). -/

namespace Sys2Proof.Machine

/-! ### The law in the words of its proof -/

/-- The law of the pool frames while the device works, with what keeps it so. -/
structure WorkLaw (s : State) : Prop where
  pool : PoolLaw s
  claims : ClaimLaw s
  holders : HolderLaw s
  plan : PlanLaw s

/-- Whether a request holds a volume in CHANGING or CREATING (R13, R19). -/
def RequestKind.holds (k : RequestKind) (v : VolumeNo) : Bool := k.changes v || k.creates v

/-- How a volume is held: in CREATING (`true`), in CHANGING (`false`), or not. -/
def Volume.held : Volume → Option Bool
  | .creating _ _ _ => some true
  | .present r => if r.status.isChanging = true then some false else none
  | .absent => none

theorem held_true_iff (x : Volume) : x.held = some true ↔ ∃ n rights k, x = .creating n rights k := by
  cases x with
  | absent => simp [Volume.held]
  | creating n rights k => simp [Volume.held]
  | present r =>
    simp only [Volume.held]
    split <;> simp

theorem held_false_iff (x : Volume) : x.held = some false ↔ ∃ r, x = .present r ∧ r.status.isChanging = true := by
  cases x with
  | absent => simp [Volume.held]
  | creating n rights k => simp [Volume.held]
  | present r =>
    simp only [Volume.held]
    split <;> simp_all

theorem holderLaw_iff (s : State) : HolderLaw s ↔ ∀ v : VolumeNo,
    (requests s).countP (fun r => r.kind.holds v) ≤ 1 ∧ ∀ r ∈ requests s,
      (r.kind.creates v = true → Volume.held s.volumes[v] = some true) ∧
      (r.kind.changes v = true → Volume.held s.volumes[v] = some false) ∧
      (r.kind = .delete v → ∀ g, (entryOf s v g).claim = none) := by
  simp only [held_true_iff, held_false_iff]
  rfl

theorem clauses_of_not_holds {k : RequestKind} {v : VolumeNo} (h : k.holds v = false) :
    k.creates v ≠ true ∧ k.changes v ≠ true ∧ k ≠ .delete v := by
  rw [RequestKind.holds, Bool.or_eq_false_iff] at h
  refine ⟨by rw [h.2]; decide, by rw [h.1]; decide, ?_⟩
  rintro rfl
  simp [RequestKind.changes] at h

theorem changes_delete (v : VolumeNo) : (RequestKind.delete v).changes v = true := by
  simp [RequestKind.changes]

/-- The law of the holders reads the requests that hold a volume, how the volume is held, and its claims. -/
theorem HolderLaw.mono {s t : State} (h : HolderLaw s)
    (count : ∀ v : VolumeNo, (requests t).countP (fun r => r.kind.holds v) ≤
      (requests s).countP fun r => r.kind.holds v)
    (mem : ∀ r ∈ requests t, ∀ v, r.kind.holds v = true → r ∈ requests s)
    (held : ∀ r ∈ requests t, ∀ v : VolumeNo, r.kind.holds v = true →
      Volume.held t.volumes[v] = Volume.held s.volumes[v])
    (claims : ∀ r ∈ requests t, ∀ v, r.kind = .delete v → (∀ g, (entryOf s v g).claim = none) →
      ∀ g, (entryOf t v g).claim = none) : HolderLaw t := by
  rw [holderLaw_iff] at h ⊢
  refine fun v => ⟨(count v).trans (h v).1, fun r hr => ⟨fun hc => ?_, fun hc => ?_, fun hd => ?_⟩⟩
  · have hh : r.kind.holds v = true := by unfold RequestKind.holds; rw [hc, Bool.or_true]
    rw [held r hr v hh]
    exact ((h v).2 r (mem r hr v hh)).1 hc
  · have hh : r.kind.holds v = true := by unfold RequestKind.holds; rw [hc, Bool.true_or]
    rw [held r hr v hh]
    exact ((h v).2 r (mem r hr v hh)).2.1 hc
  · have hh : r.kind.holds v = true := by unfold RequestKind.holds; rw [hd, changes_delete, Bool.true_or]
    exact claims r hr v hd (((h v).2 r (mem r hr v hh)).2.2 hd)

/-- A sublist of the requests keeps the law, with the volumes held as they were. -/
theorem HolderLaw.sublist {s t : State} (h : HolderLaw s) (hr : (requests t).Sublist (requests s))
    (held : ∀ r ∈ requests t, ∀ v : VolumeNo, r.kind.holds v = true →
      Volume.held t.volumes[v] = Volume.held s.volumes[v])
    (claims : ∀ r ∈ requests t, ∀ v, r.kind = .delete v → (∀ g, (entryOf s v g).claim = none) →
      ∀ g, (entryOf t v g).claim = none) : HolderLaw t :=
  h.mono (fun _ => hr.countP_le) (fun _ hm _ _ => hr.subset hm) held claims

/-- Where nothing holds a volume, no request does. -/
theorem HolderLaw.not_holds {s : State} (h : HolderLaw s) {v : VolumeNo} (hv : Volume.held s.volumes[v] = none)
    {r : Request} (hr : r ∈ requests s) : r.kind.holds v = false := by
  by_contra hc
  rw [Bool.not_eq_false, RequestKind.holds, Bool.or_eq_true] at hc
  obtain ⟨-, hh⟩ := (holderLaw_iff s).1 h v
  obtain ⟨h1, h2, -⟩ := hh r hr
  rcases hc with hc | hc
  · rw [hv] at h2; cases h2 hc
  · rw [hv] at h1; cases h1 hc

/-- A request joins the queue: it holds no volume, or one that nothing held and that it holds now. -/
theorem HolderLaw.append {s t : State} (h : HolderLaw s) (req : Request)
    (hq : t.engine.queue = s.engine.queue ++ [req]) (hf : t.engine.inFlight = s.engine.inFlight)
    (hv : ∀ v : VolumeNo, req.kind.holds v = true → Volume.held s.volumes[v] = none ∧
      Volume.held t.volumes[v] = some (req.kind.creates v))
    (ho : ∀ v : VolumeNo, req.kind.holds v = false → Volume.held t.volumes[v] = Volume.held s.volumes[v])
    (hc : ∀ v g, (entryOf t v g).claim = (entryOf s v g).claim)
    (hd : ∀ v, req.kind = .delete v → ∀ g, (entryOf s v g).claim = none) : HolderLaw t := by
  have perm : (requests t).Perm (req :: requests s) := by
    unfold requests
    rw [hq, hf, List.append_assoc]
    exact List.perm_middle
  have hs := (holderLaw_iff s).1 h
  rw [holderLaw_iff]
  intro v
  rw [perm.countP_eq, List.countP_cons]
  cases hh : req.kind.holds v with
  | true =>
    obtain ⟨hn, hy⟩ := hv v hh
    have others : ∀ r ∈ requests s, r.kind.holds v = false := fun r hr => h.not_holds hn hr
    refine ⟨?_, fun r hr => ?_⟩
    · rw [List.countP_eq_zero.2 fun r hr => by simp [others r hr]]
      simp
    · rcases List.mem_cons.1 (perm.subset hr) with rfl | hr
      · rw [hy]
        refine ⟨fun hx => by rw [hx], fun hx => ?_, fun hx g => by rw [hc]; exact hd v hx g⟩
        cases hk : r.kind <;> rw [hk] at hx <;> simp_all [RequestKind.changes, RequestKind.creates]
      · obtain ⟨h1, h2, h3⟩ := clauses_of_not_holds (others r hr)
        exact ⟨fun hx => absurd hx h1, fun hx => absurd hx h2, fun hx => absurd hx h3⟩
  | false =>
    simp only [Bool.false_eq_true, if_false, Nat.add_zero]
    refine ⟨(hs v).1, fun r hr => ?_⟩
    rcases List.mem_cons.1 (perm.subset hr) with rfl | hr
    · obtain ⟨h1, h2, h3⟩ := clauses_of_not_holds hh
      exact ⟨fun hx => absurd hx h1, fun hx => absurd hx h2, fun hx => absurd hx h3⟩
    · rw [ho v hh]
      obtain ⟨h1, h2, h3⟩ := (hs v).2 r hr
      exact ⟨h1, h2, fun hx g => by rw [hc]; exact h3 hx g⟩

/-- The law of the plan reads the request in flight, its plan, and the claims of its pages. -/
theorem PlanLaw.mono {s t : State} (h : PlanLaw s)
    (hf : t.engine.inFlight = s.engine.inFlight) (hp : t.engine.plan = s.engine.plan)
    (hc : ∀ req, s.engine.inFlight = some req → req.kind = .commit → ∀ v g f,
      (entryOf s v g).claim = some ⟨req.port, .data f⟩ → (entryOf t v g).claim = some ⟨req.port, .data f⟩) :
    PlanLaw t := by
  intro req plan hr hpl
  rw [hf] at hr
  rw [hp] at hpl
  obtain ⟨hn, hs⟩ := h req plan hr hpl
  refine ⟨hn, fun i v g f n c hi hx => ?_⟩
  obtain ⟨hk, hcl⟩ := hs i v g f n c hi hx
  exact ⟨hk, hc req hr hk v g f hcl⟩

theorem PlanLaw.rests {t : State} (hf : t.engine.inFlight = none) : PlanLaw t := by
  intro req plan hr
  rw [hf] at hr
  cases hr

/-- The four laws read nothing else of a state. -/
theorem WorkLaw.congr {s t : State} (h : WorkLaw s) (he : t.engine.queue = s.engine.queue)
    (hf : t.engine.inFlight = s.engine.inFlight) (hp : t.engine.plan = s.engine.plan)
    (hr : t.engine.retired = s.engine.retired) (hv : t.volumes = s.volumes)
    (hs : t.frameStates = s.frameStates) (hl : t.freeList = s.freeList) (hc : t.claimCount = s.claimCount)
    (ht : ∀ p : Port, s.ports[p].txn.state.mayClaim = true → t.ports[p].txn.state.mayClaim = true) : WorkLaw t := by
  have ent : ∀ v g, entryOf t v g = entryOf s v g := fun v g => by unfold entryOf; rw [hv]
  have hreq : requests t = requests s := by unfold requests; rw [he, hf]
  refine ⟨poolLaw_congr h.pool hs hl hr (fun x => ?_) (fun x => ?_), fun v g c hx => ?_, ?_, ?_⟩
  · unfold committedAt; rw [ent]
  · unfold shadowAt; rw [ent]
  · rw [ent] at hx
    obtain ⟨hm, hn⟩ := h.claims v g c hx
    exact ⟨ht _ hm, by rw [hc]; exact hn⟩
  · exact h.holders.sublist (by rw [hreq]) (fun _ _ v _ => by rw [hv]) fun _ _ v _ hx g => by rw [ent]; exact hx g
  · exact h.plan.mono hf hp fun _ _ _ v g f hx => by rw [ent]; exact hx

theorem WorkLaw.quiet {s t : State} (q : Quiet s t) (h : WorkLaw s) : WorkLaw t :=
  h.congr (by rw [q.engine]) (by rw [q.engine]) (by rw [q.engine]) (by rw [q.engine]) q.volumes q.frameStates
    q.freeList q.claimCount fun p hp => by rw [q.txn]; exact hp

/-! ### The effects of the ports -/

/-- A transaction may take a state that may hold claims, and any state where its port has none. -/
theorem WorkLaw.setTxnState {s : State} (h : WorkLaw s) (p : Port) (x : TxnState)
    (hx : x.mayClaim = true ∨ ∀ v g c, (entryOf s v g).claim = some c → c.port ≠ p) :
    WorkLaw (setTxnState s p x) := by
  refine ⟨poolLaw_congr h.pool rfl rfl rfl (fun _ => rfl) fun _ => rfl, fun v g c hc => ?_,
    h.holders.sublist (.refl _) (fun _ _ _ _ => rfl) fun _ _ _ _ hn => hn,
    h.plan.mono rfl rfl fun _ _ _ _ _ _ hc => hc⟩
  have hc : (entryOf s v g).claim = some c := hc
  obtain ⟨hm, hn⟩ := h.claims v g c hc
  refine ⟨?_, hn⟩
  rw [setTxnState_txn]
  split
  · next hp => exact hx.resolve_right fun ho => ho v g c hc hp.symm
  · exact hm

/-- A claim of a page after all claims of a port were released (R53). -/
theorem claim_release (e : Entry) (p : Port) (c : Claim) :
    (e.release p).claim = some c ↔ e.claim = some c ∧ c.port ≠ p := by
  unfold Entry.release Entry.claimedBy Entry.claimOf
  rcases he : e.claim with _ | d
  · simp [he]
  · by_cases hd : d.port = p
    · simp only [hd, if_true, Option.isSome_some]
      refine ⟨fun hh => (by cases hh), fun ⟨hh, hn⟩ => ?_⟩
      rw [Option.some.inj hh] at hd
      exact absurd hd hn
    · simp only [hd, if_false, Option.isSome_none, Bool.false_eq_true, he]
      refine ⟨fun hh => ⟨hh, ?_⟩, fun hh => hh.1⟩
      rw [← Option.some.inj hh]
      exact hd

theorem held_release (x : Volume) (p : Port) : (x.release p).held = x.held := by
  cases x <;> rfl

/-- The volumes after a release of all claims (R53). -/
theorem releaseClaims_volume (s : State) (p : Port) (v : VolumeNo) :
    (releaseClaims s p).volumes[v] = Volume.release s.volumes[v] p := by
  unfold releaseClaims
  rw [tab_get]

/-- A port whose COMMIT is not in flight may lose its claims (R53). -/
theorem WorkLaw.releaseClaims {s : State} (h : WorkLaw s) (p : Port)
    (hp : ∀ req, s.engine.inFlight = some req → req.kind = .commit → req.port ≠ p) :
    WorkLaw (releaseClaims s p) := by
  have he := releaseClaims_engine s p
  refine ⟨poolLaw_releaseClaims h.pool p, fun v g c hc => ?_, ?_, ?_⟩
  · rw [entryOf_releaseClaims, claim_release] at hc
    obtain ⟨hm, hn⟩ := h.claims v g c hc.1
    refine ⟨by rw [releaseClaims_ports]; exact hm, ?_⟩
    change 0 < (upd s.claimCount p 0)[c.port]
    rw [upd_get_ne _ _ _ _ hc.2.symm]
    exact hn
  · refine h.holders.sublist (by unfold requests; rw [he]) (fun _ _ v _ => ?_) fun _ _ v _ hn g => ?_
    · rw [releaseClaims_volume, held_release]
    · rw [entryOf_releaseClaims]
      cases hx : ((entryOf s v g).release p).claim with
      | none => rfl
      | some c =>
        rw [claim_release, hn g] at hx
        cases hx.1
  · refine h.plan.mono (by rw [he]) (by rw [he]) fun req hr hk v g f hx => ?_
    rw [entryOf_releaseClaims, claim_release]
    exact ⟨hx, hp req hr hk⟩

theorem no_claim_releaseClaims (s : State) (p : Port) (v : VolumeNo) (g : PageNo) (c : Claim)
    (h : (entryOf (releaseClaims s p) v g).claim = some c) : c.port ≠ p := by
  rw [entryOf_releaseClaims, claim_release] at h
  exact h.2

/-- A page's claim by a port whose COMMIT is not in flight changes: the port had a claim there, or there was none and
the volume is not about to change. -/
theorem WorkLaw.reclaim {s t : State} (h : WorkLaw s) (p : Port) (v : VolumeNo) (g : PageNo) (kind : ClaimKind)
    (pool : PoolLaw t) (he : t.engine = s.engine) (hp : t.ports = s.ports)
    (hv : ∀ w : VolumeNo, Volume.held t.volumes[w] = Volume.held s.volumes[w])
    (hc : ∀ w k, (entryOf t w k).claim = if v = w ∧ g = k then some ⟨p, kind⟩ else (entryOf s w k).claim)
    (hn : ∀ q : Port, 0 < s.claimCount[q] → 0 < t.claimCount[q]) (hpos : 0 < t.claimCount[p])
    (ht : s.ports[p].txn.state = .opened)
    (hold : (∃ x, (entryOf s v g).claim = some ⟨p, x⟩) ∨
      ((entryOf s v g).claim = none ∧ Volume.held s.volumes[v] = none))
    (hcom : ∀ req, s.engine.inFlight = some req → req.kind = .commit → req.port ≠ p) : WorkLaw t := by
  refine ⟨pool, fun w k c hx => ?_, ?_, ?_⟩
  · rw [hc] at hx
    split at hx
    · cases hx
      exact ⟨by rw [hp, ht]; rfl, hpos⟩
    · obtain ⟨hm, h0⟩ := h.claims w k c hx
      exact ⟨by rw [hp]; exact hm, hn _ h0⟩
  · have hreq : requests t = requests s := by unfold requests; rw [he]
    refine h.holders.sublist (by rw [hreq]) (fun _ _ w _ => hv w) fun r hr w hd hx k => ?_
    rw [hc]
    split
    · next hw =>
      obtain ⟨rfl, rfl⟩ := hw
      rcases hold with ⟨x, hy⟩ | ⟨-, hy⟩
      · rw [hx] at hy; cases hy
      · have := h.holders.not_holds hy (hreq ▸ hr)
        rw [hd, RequestKind.holds, changes_delete] at this
        cases this
    · exact hx k
  · refine h.plan.mono (by rw [he]) (by rw [he]) fun req hr hk w k f hx => ?_
    rw [hc, if_neg, hx]
    rintro ⟨rfl, rfl⟩
    rcases hold with ⟨x, hy⟩ | ⟨hy, -⟩ <;> rw [hy] at hx
    · exact hcom req hr hk (congrArg Claim.port (Option.some.inj hx)).symm
    · cases hx

/-- A replaced entry leaves how each volume is held. -/
theorem held_setEntry (s : State) (v w : VolumeNo) (g : PageNo) (e : Entry) :
    Volume.held (s.setEntry v g e).volumes[w] = Volume.held s.volumes[w] := by
  unfold State.setEntry State.modVolume
  split
  · next r hr =>
    rw [State.setVolume_volumes, upd_get]
    split
    · next hw => rw [← hw, hr]; rfl
    · rfl
  · rfl

/-- The entries and the rest after a DATA claim was made on a page (R46, R47). -/
theorem shadowPage_leaves (s : State) (p : Port) (v : VolumeNo) (g : PageNo) (fill : List Byte) (f : FrameNo)
    (rest : List FrameNo) (hf : s.freeList = f :: rest) (hv : Volume.isPresent s.volumes[v] = true) :
    (shadowPage s p v g fill).engine = s.engine ∧ (shadowPage s p v g fill).ports = s.ports ∧
    (shadowPage s p v g fill).claimCount = s.claimCount ∧
    (∀ w : VolumeNo, Volume.held (shadowPage s p v g fill).volumes[w] = Volume.held s.volumes[w]) ∧
    ∀ w k, entryOf (shadowPage s p v g fill) w k =
      if v = w ∧ g = k then { entryOf s v g with claim := some ⟨p, .data f⟩ } else entryOf s w k := by
  have replaced : ∀ (u : State) (e : Entry), u.volumes = s.volumes → u.engine = s.engine → u.ports = s.ports →
      u.claimCount = s.claimCount → (u.setEntry v g e).engine = s.engine ∧ (u.setEntry v g e).ports = s.ports ∧
      (u.setEntry v g e).claimCount = s.claimCount ∧
      (∀ w : VolumeNo, Volume.held (u.setEntry v g e).volumes[w] = Volume.held s.volumes[w]) ∧
      ∀ w k, entryOf (u.setEntry v g e) w k = if v = w ∧ g = k then e else entryOf s w k := by
    intro u e hu he hp hc
    have hent : ∀ w k, entryOf u w k = entryOf s w k := fun w k => by unfold entryOf; rw [hu]
    refine ⟨by rw [setEntry_eq]; exact he, by rw [setEntry_eq]; exact hp, by rw [setEntry_eq]; exact hc,
      fun w => by rw [held_setEntry, hu], fun w k => ?_⟩
    rw [entryOf_setEntry _ _ _ _ _ _ (by rw [hu]; exact hv), hent]
  rw [shadowPage_eq s p v g fill f rest hf, setFrameState_eq]
  exact replaced _ _ rfl rfl rfl rfl

theorem isPresent_of_status {x : Volume} {st : Status} (h : x.status = some st) : x.isPresent = true := by
  cases x with
  | present r => rfl
  | absent => cases h
  | creating _ _ _ => cases h

/-- What the checks of a claim creation pass on: an OPEN volume and a page without a claim of another port (R46). -/
theorem claimChecks_eq_none {s : State} {p : Port} {v : VolumeNo} {g : PageNo} (h : claimChecks s p v g = none)
    (hn : (entryOf s v g).claimOf p = none) :
    Volume.status s.volumes[v] = some .opened ∧ (entryOf s v g).claim = none := by
  obtain ⟨h1, h2⟩ := Option.or_eq_none_iff.1 h
  obtain ⟨h2, -⟩ := Option.or_eq_none_iff.1 h2
  refine ⟨?_, ?_⟩
  · unfold claimVolumeCheck at h1
    split at h1 <;> first | assumption | cases h1
  · unfold claimOtherCheck at h2
    unfold Entry.claimOf at hn
    rcases hc : (entryOf s v g).claim with _ | c
    · rfl
    · rw [hc] at h2 hn
      simp only at h2 hn
      split at h2
      · next hp => rw [if_pos hp] at hn; cases hn
      · cases h2

theorem held_of_opened {x : Volume} (h : x.status = some .opened) : x.held = none := by
  cases x with
  | present r =>
    have hs : r.status = .opened := Option.some.inj h
    change (if r.status.isChanging = true then some false else none) = none
    rw [hs]
    rfl
  | absent => cases h
  | creating _ _ _ => cases h

/-- The claim of a port on a page. -/
theorem claim_of_claimOf {e : Entry} {p : Port} {k : ClaimKind} (h : e.claimOf p = some k) :
    e.claim = some ⟨p, k⟩ := by
  unfold Entry.claimOf at h
  split at h
  · next c hc =>
    split at h
    · next hp => cases h; rw [hc, ← hp]
    · cases h
  · cases h

/-- A placed byte changes the working array alone, which no law of the frames reads. -/
theorem WorkLaw.placeByte {s : State} (h : WorkLaw s) (p : Port) (v : VolumeNo) (g : PageNo) (off : Fin 256)
    (b : Byte) : WorkLaw (placeByte s p v g off b) := by
  rw [placeByte_eq]
  exact h.congr rfl rfl rfl rfl rfl rfl rfl rfl fun _ hp => hp

theorem shadow_of_claim_none {e : Entry} (h : e.claim = none) : e.shadow = none := by
  unfold Entry.shadow
  rw [h]

theorem shadow_of_claim_hole {e : Entry} {p : Port} (h : e.claim = some ⟨p, .hole⟩) : e.shadow = none := by
  unfold Entry.shadow
  rw [h]

theorem countClaim_get (s : State) (p q : Port) :
    (countClaim s p).claimCount[q] = if p = q then s.claimCount[p] + 1 else s.claimCount[q] := by
  unfold countClaim
  rw [State.setClaims_claimCount, upd_get]

theorem countClaim_pos {s : State} (p q : Port) (h : p = q ∨ 0 < s.claimCount[q]) :
    0 < (countClaim s p).claimCount[q] := by
  rw [countClaim_get]
  split
  · exact Nat.succ_pos _
  · next hq => exact h.resolve_left hq

theorem WorkLaw.writes {s t : State} (h : WorkLaw s) {p : Port} {v : VolumeNo} {g : PageNo} {off : Fin 256}
    {b : Byte} (hw : requestWrite s p v g off b = .done t) (ht : s.ports[p].txn.state = .opened)
    (hcom : ∀ req, s.engine.inFlight = some req → req.kind = .commit → req.port ≠ p) : WorkLaw t := by
  have free : mayAllocate s = true → ∃ f rest, s.freeList = f :: rest := fun hm => by
    unfold mayAllocate at hm
    cases hl : s.freeList with
    | nil => rw [hl] at hm; simp at hm
    | cons f rest => exact ⟨f, rest, rfl⟩
  rcases requestWrite_done hw with ⟨f, -, rfl⟩ | ⟨hc, hm, rfl⟩ | ⟨hn, hk, hm, rfl⟩
  · exact h.placeByte ..
  · obtain ⟨f, rest, hl⟩ := free hm
    have hc := claim_of_claimOf hc
    have hpres := isPresent_of_claim s v g _ hc
    obtain ⟨he, hp, hcount, hheld, hent⟩ := shadowPage_leaves s p v g zeroFrame f rest hl hpres
    refine WorkLaw.placeByte ?_ p v g off b
    refine h.reclaim p v g (.data f) (poolLaw_shadowPage h.pool p v g _ hpres (shadow_of_claim_hole hc) (by simp [hl]))
      he hp hheld (fun w k => ?_) (fun q hq => by rw [hcount]; exact hq) ?_ ht (.inl ⟨_, hc⟩) hcom
    · rw [hent]
      split <;> rfl
    · rw [hcount]
      exact (h.claims v g _ hc).2
  · obtain ⟨f, rest, hl⟩ := free hm
    obtain ⟨ho, hc⟩ := claimChecks_eq_none hk hn
    have hpres := isPresent_of_status ho
    obtain ⟨he, hp, hcount, hheld, hent⟩ :=
      shadowPage_leaves s p v g (fillFor s (entryOf s v g)) f rest hl hpres
    refine WorkLaw.placeByte ?_ p v g off b
    refine h.reclaim p v g (.data f) (poolLaw_congr (poolLaw_shadowPage h.pool p v g (fillFor s (entryOf s v g)) hpres
      (shadow_of_claim_none hc) (by simp [hl])) rfl rfl rfl (fun _ => rfl) fun _ => rfl) he hp hheld
      (fun w k => ?_) (fun q hq => ?_) ?_ ht (.inr ⟨hc, held_of_opened ho⟩) hcom
    · refine (congrArg Entry.claim (hent w k)).trans ?_
      split <;> rfl
    · exact countClaim_pos p q (.inr (by rw [hcount]; exact hq))
    · exact countClaim_pos p p (.inl rfl)

theorem holePage_leaves (s : State) (p : Port) (v : VolumeNo) (g : PageNo) :
    (holePage s p v g).engine = s.engine ∧ (holePage s p v g).ports = s.ports ∧
    (holePage s p v g).claimCount = s.claimCount ∧
    ∀ w : VolumeNo, Volume.held (holePage s p v g).volumes[w] = Volume.held s.volumes[w] := by
  refine ⟨?_, ?_, ?_, fun w => held_setEntry s v w g _⟩ <;> unfold holePage <;> rw [setEntry_eq]

theorem WorkLaw.punches {s t : State} (h : WorkLaw s) {p : Port} {v : VolumeNo} {g : PageNo}
    (hw : requestPunch s p v g = .done t) (ht : s.ports[p].txn.state = .opened)
    (hcom : ∀ req, s.engine.inFlight = some req → req.kind = .commit → req.port ≠ p) : WorkLaw t := by
  obtain ⟨he, hp, hcount, hheld⟩ := holePage_leaves s p v g
  rcases requestPunch_done hw with rfl | ⟨f, hc, rfl⟩ | ⟨hn, hk, rfl⟩
  · exact h
  · have hc := claim_of_claimOf hc
    have hpres := isPresent_of_claim s v g _ hc
    have pool := poolLaw_punchShadow h.pool p v g f hc
    have e : freeFrames (holePage s p v g) [f] = { holePage s p v g with
        frameStates := (freeFrames (holePage s p v g) [f]).frameStates
        freeList := (freeFrames (holePage s p v g) [f]).freeList } := by
      unfold freeFrames
      rw [setFrames_eq]
    rw [e] at pool ⊢
    refine h.reclaim p v g .hole pool he hp hheld (fun w k => ?_) (fun q hq => ?_) ?_ ht (.inl ⟨_, hc⟩) hcom
    · refine (congrArg Entry.claim (entryOf_holePage s p v w g k hpres)).trans ?_
      split <;> rfl
    · exact (congrArg (fun x : Vector Nat 4 => 0 < x[q]) hcount).mpr hq
    · exact (congrArg (fun x : Vector Nat 4 => 0 < x[p]) hcount).mpr (h.claims v g _ hc).2
  · obtain ⟨ho, hc⟩ := claimChecks_eq_none hk hn
    have hpres := isPresent_of_status ho
    refine h.reclaim p v g .hole (poolLaw_congr (poolLaw_holePage h.pool p v g hpres (shadow_of_claim_none hc)) rfl rfl
      rfl (fun _ => rfl) fun _ => rfl) he hp hheld (fun w k => ?_) (fun q hq => ?_) ?_ ht
      (.inr ⟨hc, held_of_opened ho⟩) hcom
    · refine (congrArg Entry.claim (entryOf_holePage s p v w g k hpres)).trans ?_
      split <;> rfl
    · exact countClaim_pos p q (.inr (by rw [hcount]; exact hq))
    · exact countClaim_pos p p (.inl rfl)

/-- A request joins the queue (R75); its acceptance leaves every entry. -/
theorem WorkLaw.append {s t : State} (h : WorkLaw s) (req : Request)
    (he : t.engine = { s.engine with queue := s.engine.queue ++ [req] })
    (hs : t.frameStates = s.frameStates) (hl : t.freeList = s.freeList) (hn : t.claimCount = s.claimCount)
    (hc : ∀ v g, entryOf t v g = entryOf s v g)
    (hv : ∀ v : VolumeNo, req.kind.holds v = true → Volume.held s.volumes[v] = none ∧
      Volume.held t.volumes[v] = some (req.kind.creates v))
    (ho : ∀ v : VolumeNo, req.kind.holds v = false → Volume.held t.volumes[v] = Volume.held s.volumes[v])
    (hd : ∀ v, req.kind = .delete v → ∀ g, (entryOf s v g).claim = none)
    (ht : ∀ p : Port, s.ports[p].txn.state.mayClaim = true → t.ports[p].txn.state.mayClaim = true) : WorkLaw t := by
  refine ⟨poolLaw_congr h.pool hs hl (by rw [he]) (fun x => ?_) (fun x => ?_), fun v g c hx => ?_,
    h.holders.append req (by rw [he]) (by rw [he]) hv ho (fun v g => by rw [hc]) hd,
    h.plan.mono (by rw [he]) (by rw [he]) fun _ _ _ v g f hx => by rw [hc]; exact hx⟩
  · unfold committedAt; rw [hc]
  · unfold shadowAt; rw [hc]
  · rw [hc] at hx
    obtain ⟨hm, h0⟩ := h.claims v g c hx
    exact ⟨ht _ hm, by rw [hn]; exact h0⟩

/-- A volume set to a record with the same entries leaves every entry. -/
theorem entryOf_setVolume (s : State) (v : VolumeNo) (x : Volume)
    (h : ∀ g, x.entry g = Volume.entry s.volumes[v] g) (w : VolumeNo) (g : PageNo) :
    entryOf (s.setVolume v x) w g = entryOf s w g := by
  unfold entryOf
  rw [State.setVolume_volumes, upd_get]
  split
  · next hw => rw [h, hw]
  · rfl

theorem held_setVolume (s : State) (v w : VolumeNo) (x : Volume) :
    Volume.held (s.setVolume v x).volumes[w] = if v = w then x.held else Volume.held s.volumes[w] := by
  rw [State.setVolume_volumes, upd_get]
  split <;> rfl

/-- The end of a transaction whose port holds no claim. -/
theorem WorkLaw.endTxn {s : State} (h : WorkLaw s) (p : Port)
    (hn : ∀ v g c, (entryOf s v g).claim = some c → c.port ≠ p) : WorkLaw (endTxn s p) :=
  (h.setTxnState p .noTxn (.inr hn)).quiet
    (quiet_setTxnState s p (fun c => { c with txn := { c.txn.stopTimer with state := .noTxn } }) .noTxn rfl rfl)

/-- Requests leave the queue. -/
theorem WorkLaw.queue {s t : State} (h : WorkLaw s) (q : List Request) (hq : q.Sublist s.engine.queue)
    (ht : t = { s with engine := { s.engine with queue := q } }) : WorkLaw t := by
  subst ht
  exact ⟨poolLaw_congr h.pool rfl rfl rfl (fun _ => rfl) fun _ => rfl, h.claims,
    h.holders.sublist (hq.append (.refl _)) (fun _ _ _ _ => rfl) fun _ _ _ _ hn => hn,
    h.plan.mono rfl rfl fun _ _ _ _ _ _ hc => hc⟩

theorem WorkLaw.drops {s : State} (h : WorkLaw s) (hq : QueueLaw s) (p : Port) : WorkLaw (abandonTxn s p) := by
  have flying : s.ports[p].txn.state ≠ .committing →
      ∀ req, s.engine.inFlight = some req → req.kind = .commit → req.port ≠ p := by
    rintro ht req hr hk rfl
    obtain ⟨-, -, -, hf, -⟩ := hq
    exact ht (hf req hr hk)
  have none : s.ports[p].txn.state.mayClaim = false →
      ∀ v g c, (entryOf s v g).claim = some c → c.port ≠ p := by
    rintro ht v g c hc rfl
    have := (h.claims v g c hc).1
    rw [ht] at this
    cases this
  unfold abandonTxn
  split
  · next ht =>
    exact (h.releaseClaims p (flying (by rw [ht]; decide))).endTxn p (no_claim_releaseClaims s p)
  · next ht =>
    have hw : WorkLaw (withdrawCommit s p) := h.queue _ List.filter_sublist rfl
    exact (hw.releaseClaims p (flying (by rw [ht]; decide))).endTxn p (no_claim_releaseClaims _ p)
  · next ht => exact h.endTxn p (none (by rw [ht]; rfl))
  · exact h
  · exact h

theorem holds_false_of {k : RequestKind} {v : VolumeNo} (h : k.changes v = false ∧ k.creates v = false) :
    k.holds v = false := by
  rw [RequestKind.holds, h.1, h.2]
  rfl

/-- Every effect of a port keeps the laws of the frames. -/
theorem WorkLaw.effect {s t : State} {p : Port} (e : Effect p s t) (hq : QueueLaw s) (h : WorkLaw s) :
    WorkLaw t := by
  have flying : s.ports[p].txn.state = .opened →
      ∀ req, s.engine.inFlight = some req → req.kind = .commit → req.port ≠ p := by
    rintro ht req hr hk rfl
    obtain ⟨-, -, -, hf, -⟩ := hq
    rw [hf req hr hk] at ht
    cases ht
  cases e with
  | opens => exact h.setTxnState p _ (.inl rfl)
  | ends ht hc =>
    refine h.setTxnState p _ (.inr ?_)
    rintro v g c hx rfl
    have := (h.claims v g c hx).2
    rw [hc] at this
    exact Nat.lt_irrefl 0 this
  | queues ht ha =>
    refine h.append ⟨p, .commit⟩ rfl rfl rfl rfl (fun _ _ => rfl) (fun v hv => by cases hv) (fun _ _ => rfl)
      (fun v hv => by cases hv) fun q hm => ?_
    have e := setTxnState_txn s p q .queued
    change (Machine.setTxnState s p .queued).ports[q].txn.state.mayClaim = true
    rw [e]
    split
    · rfl
    · exact hm
  | drops => exact h.drops hq p
  | expires ht =>
    exact (h.releaseClaims p (flying ht)).setTxnState p _ (.inr (no_claim_releaseClaims s p))
  | accepts kind hn hc hv hl =>
    have none : ∀ v, kind.holds v = false := fun v => holds_false_of (hv v)
    refine h.append ⟨p, kind⟩ rfl rfl rfl rfl (fun _ _ => rfl)
      (fun v hx => absurd ((none v).symm.trans hx) Bool.false_ne_true) (fun _ _ => rfl) (fun v hx => ?_) fun _ hm => hm
    have hx : kind = .delete v := hx
    have := (hv v).1
    rw [hx, changes_delete] at this
    cases this
  | creates v n rights k hn hv =>
    refine h.append ⟨p, .create v n rights k⟩ rfl rfl rfl rfl
      (entryOf_setVolume s v _ fun g => by rw [hv]; rfl) (fun w hw => ?_) (fun w hw => ?_) (fun w hw => by cases hw)
      fun _ hm => hm
    · have hvw : v = w := by simpa [RequestKind.holds, RequestKind.changes, RequestKind.creates] using hw
      subst hvw
      refine ⟨by rw [hv]; rfl, (held_setVolume s v v _).trans ?_⟩
      simp [Volume.held, RequestKind.creates]
    · have hvw : v ≠ w := by simpa [RequestKind.holds, RequestKind.changes, RequestKind.creates] using hw
      exact (held_setVolume s v w _).trans (if_neg hvw)
  | changes v r op ret kind hn hv hs hl hk hd =>
    have only : ∀ w, kind.holds w = true → v = w ∧ kind.creates w = false := by
      intro w hw
      cases kind <;> simp_all [RequestKind.holds, RequestKind.changes, RequestKind.creates]
    refine h.append ⟨p, kind⟩ rfl rfl rfl rfl
      (entryOf_setVolume s v _ fun g => by rw [hv]; rfl) (fun w hw => ?_) (fun w hw => ?_) (fun w hw g => ?_)
      fun _ hm => hm
    · obtain ⟨rfl, hcr⟩ := only w hw
      refine ⟨?_, (held_setVolume s v v _).trans ?_⟩
      · rw [hv]
        change (if r.status.isChanging = true then some false else none) = none
        rw [hs]
        rfl
      · rw [if_pos rfl]
        have hcr : kind.creates v = false := hcr
        exact congrArg some hcr.symm
    · refine (held_setVolume s v w _).trans (if_neg ?_)
      rintro rfl
      have hw : kind.holds v = false := hw
      rw [RequestKind.holds, hk] at hw
      cases hw
    · have hw : kind = .delete w := hw
      have hvw : v = w := (only w (by rw [hw, RequestKind.holds, changes_delete]; rfl)).1
      subst hvw
      unfold entryOf
      rw [hv]
      exact hd hw g
  | writes t v g off b ht hw => exact h.writes hw ht (flying ht)
  | punches t v g ht hw => exact h.punches hw ht (flying ht)

end Sys2Proof.Machine
end


section
/-! The laws of the frames are kept by the acts of the engine, its removals and its candidates (for the third part of
O57). -/

namespace Sys2Proof.Machine

/-! ### Volumes that return keep their entries (R19, R98) -/

theorem entry_returned (x : Volume) (g : PageNo) : x.returned.entry g = x.entry g := by
  cases x with
  | present r =>
    simp only [Volume.returned]
    split <;> rfl
  | absent => rfl
  | creating _ _ _ => rfl

theorem entry_uncreated (x : Volume) (g : PageNo) : x.uncreated.entry g = x.entry g := by
  cases x <;> rfl

theorem entry_returnedBy (v : VolumeNo) (x : Volume) (k : RequestKind) (g : PageNo) :
    (returnedBy v x k).entry g = x.entry g := by
  unfold returnedBy
  split
  all_goals first
    | rfl
    | (split
       · exact entry_returned x g
       · rfl)
    | (split
       · exact entry_uncreated x g
       · rfl)

theorem entry_returnVolume (s : State) (k : RequestKind) (v : VolumeNo) (g : PageNo) :
    Volume.entry (returnVolume s k).volumes[v] g = entryOf s v g := by
  rw [returnVolume_at, entry_returnedBy]
  rfl

theorem entry_returnVolumes (l : List Request) (s : State) (v : VolumeNo) (g : PageNo) :
    Volume.entry (l.foldl (fun t r => returnVolume t r.kind) s).volumes[v] g = entryOf s v g := by
  induction l generalizing s with
  | nil => rfl
  | cons r l ih =>
    rw [List.foldl_cons, ih]
    exact entry_returnVolume s r.kind v g

/-- A volume that the request does not hold stays. -/
theorem returnVolume_not_held (s : State) (k : RequestKind) (v : VolumeNo) (h : k.holds v = false) :
    (returnVolume s k).volumes[v] = s.volumes[v] := by
  obtain ⟨h1, h2, -⟩ := clauses_of_not_holds h
  exact (volumesReturned_returnVolume s k v).1 (by simpa using h2) (by simpa using h1)

/-! ### The end of the update in flight -/

/-- The volume that the request in flight holds is held by no queued request. -/
theorem HolderLaw.queued_not_holds {s : State} (h : HolderLaw s) {req r : Request}
    (hf : s.engine.inFlight = some req) (hr : r ∈ s.engine.queue) (v : VolumeNo) (hv : r.kind.holds v = true) :
    req.kind.holds v = false := by
  by_contra hc
  rw [Bool.not_eq_false] at hc
  have h1 := ((holderLaw_iff s).1 h v).1
  have h2 : 0 < s.engine.queue.countP fun r => r.kind.holds v := List.countP_pos_iff.2 ⟨r, hr, hv⟩
  unfold requests at h1
  rw [hf, List.countP_append, Option.toList_some, List.countP_cons, hc] at h1
  simp only [List.countP_nil, if_true] at h1
  omega

/-- An update ends: what its request held is held no more, and no claim is new. -/
theorem WorkLaw.ends {s t : State} (h : WorkLaw s) {req : Request} (hr : s.engine.inFlight = some req)
    (pool : PoolLaw t) (hq : t.engine.queue = s.engine.queue) (hf : t.engine.inFlight = none)
    (held : ∀ v : VolumeNo, req.kind.holds v = false → Volume.held t.volumes[v] = Volume.held s.volumes[v])
    (claims : ∀ v g c, (entryOf t v g).claim = some c → (entryOf s v g).claim = some c ∧
      (s.ports[c.port].txn.state.mayClaim = true → t.ports[c.port].txn.state.mayClaim = true) ∧
      t.claimCount[c.port] = s.claimCount[c.port]) : WorkLaw t := by
  have hreq : requests t = s.engine.queue := by unfold requests; rw [hq, hf]; simp
  refine ⟨pool, fun v g c hx => ?_, h.holders.sublist ?_ (fun r hm v hv => ?_) (fun r _ v _ hn g => ?_), .rests hf⟩
  · obtain ⟨hs, ht, hn⟩ := claims v g c hx
    obtain ⟨hm, h0⟩ := h.claims v g c hs
    exact ⟨ht hm, by rw [hn]; exact h0⟩
  · rw [hreq]
    exact List.sublist_append_left _ _
  · exact held v (h.holders.queued_not_holds hr (hreq ▸ hm) v hv)
  · cases hx : (entryOf t v g).claim with
    | none => rfl
    | some c => exact absurd (claims v g c hx).1 (by rw [hn g]; simp)

/-- The tables of the frames read the entries of a volume table. -/
theorem poolLaw_entries {s t : State} (h : PoolLaw s) (hs : t.frameStates = s.frameStates)
    (hl : t.freeList = s.freeList) (hr : t.engine.retired = s.engine.retired)
    (he : ∀ v g, entryOf t v g = entryOf s v g) : PoolLaw t :=
  poolLaw_congr h hs hl hr (fun x => by unfold committedAt; rw [he]) fun x => by unfold shadowAt; rw [he]

theorem WorkLaw.abandonUpdate {s : State} (h : WorkLaw s) : WorkLaw (abandonUpdate s) := by
  cases hr : s.engine.inFlight with
  | none => unfold Machine.abandonUpdate; rw [hr]; exact h
  | some req =>
    rw [abandonUpdate_eq s req hr]
    have ent := entry_returnVolume s req.kind
    refine h.ends hr (poolLaw_entries h.pool rfl rfl rfl ent) rfl rfl (fun v hv => ?_) fun v g c hx => ?_
    · exact congrArg Volume.held (returnVolume_not_held s req.kind v hv)
    · exact ⟨(congrArg Entry.claim (ent v g)).symm.trans hx, id, rfl⟩

theorem WorkLaw.failUpdate {s : State} (h : WorkLaw s) {req : Request} (hr : s.engine.inFlight = some req)
    (code : Code) (step : Option FailedStep) : WorkLaw (failUpdate s code step) := by
  have ports := failed_ports s req (inPowerFail s) code step
  rw [failUpdate_eq s req _ _ hr]
  have ent := entry_returnVolume s req.kind
  refine h.ends hr (poolLaw_entries h.pool rfl rfl rfl ent) rfl rfl (fun v hv => ?_) fun v g c hx => ?_
  · exact congrArg Volume.held (returnVolume_not_held s req.kind v hv)
  · refine ⟨(congrArg Entry.claim (ent v g)).symm.trans hx, fun hm => ?_, rfl⟩
    have e := (ports c.port).2
    refine (congrArg TxnState.mayClaim e).trans ?_
    split
    · rfl
    · exact hm

theorem failRequests_mayClaim (l : List Request) (code : Code) (step : Option FailedStep) (s : State) (p : Port)
    (h : s.ports[p].txn.state.mayClaim = true) :
    (l.foldl (fun t r => failRequest t r code step) s).ports[p].txn.state.mayClaim = true := by
  induction l generalizing s with
  | nil => exact h
  | cons r l ih =>
    rw [List.foldl_cons]
    refine ih _ ?_
    rw [failRequest_eq]
    refine (congrArg TxnState.mayClaim (failed_ports s r _ code step p).2).trans ?_
    split
    · rfl
    · exact h

theorem WorkLaw.enterStopped {s : State} (h : WorkLaw s) {req : Request} (hr : s.engine.inFlight = some req)
    (step : FailedStep) : WorkLaw (enterStopped s step) := by
  have ports : ∀ p : Port, s.ports[p].txn.state.mayClaim = true →
      (Machine.enterStopped s step).ports[p].txn.state.mayClaim = true := by
    intro p hp
    unfold Machine.enterStopped failQueue
    rw [(raiseAll_port _ _ p).2]
    refine failRequests_mayClaim _ _ _ _ p ?_
    rw [failUpdate_eq s req _ _ hr]
    refine (congrArg TxnState.mayClaim (failed_ports s req _ _ _ p).2).trans ?_
    split
    · rfl
    · exact hp
  rw [enterStopped_eq s req step hr] at ports ⊢
  have ent : ∀ v g, Volume.entry (s.engine.queue.foldl (fun t r => returnVolume t r.kind)
      (returnVolume s req.kind)).volumes[v] g = entryOf s v g := fun v g =>
    (entry_returnVolumes _ _ v g).trans (entry_returnVolume s req.kind v g)
  have empty : ∀ t : State, t.engine.queue = [] → t.engine.inFlight = none → HolderLaw t ∧ PlanLaw t := by
    intro t hq hf
    refine ⟨(holderLaw_iff t).2 fun v => ?_, .rests hf⟩
    have : requests t = [] := by unfold requests; rw [hq, hf]; rfl
    rw [this]
    exact ⟨Nat.zero_le _, fun r hm => by cases hm⟩
  obtain ⟨hh, hp⟩ := empty { s with
      volumes := (s.engine.queue.foldl (fun t r => returnVolume t r.kind) (returnVolume s req.kind)).volumes
      ports := (Machine.enterStopped s step).ports
      engine := { s.engine.ended with state := .stopped, queue := [], sysareaFault := true } } rfl rfl
  refine ⟨poolLaw_entries h.pool rfl rfl rfl ent, fun v g c hx => ?_, hh, hp⟩
  obtain ⟨hm, h0⟩ := h.claims v g c ((congrArg Entry.claim (ent v g)).symm.trans hx)
  exact ⟨ports _ hm, h0⟩

/-! ### The effects of a completed request (R92 to R97) -/

theorem entryOf_modVolume (s : State) (v w : VolumeNo) (g : PageNo) (f : VolumeRecord → VolumeRecord)
    (hf : ∀ r, (f r).entries = r.entries) : entryOf (s.modVolume v f) w g = entryOf s w g := by
  unfold State.modVolume
  split
  · next r hr =>
    refine entryOf_setVolume s v _ (fun k => ?_) w g
    rw [hr]
    change (f r).entries[k] = r.entries[k]
    rw [hf]
  · rfl

theorem held_modVolume (s : State) (v w : VolumeNo) (f : VolumeRecord → VolumeRecord)
    (hf : v = w → ∀ r, (f r).status.isChanging = r.status.isChanging) :
    Volume.held (s.modVolume v f).volumes[w] = Volume.held s.volumes[w] := by
  unfold State.modVolume
  split
  · next r hr =>
    rw [held_setVolume]
    split
    · next hw =>
      rw [← hw, hr]
      change (if (f r).status.isChanging = true then some false else none) =
        if r.status.isChanging = true then some false else none
      rw [hf hw]
    · rfl
  · rfl

/-- What the effects of a completed request do to the accounts of the frames, the claims and the volumes held. -/
structure Completed (s t : State) (req : Request) : Prop where
  pool : PoolLaw t
  held : ∀ v : VolumeNo, req.kind.holds v = false → Volume.held t.volumes[v] = Volume.held s.volumes[v]
  claims : ∀ v g c, (entryOf t v g).claim = some c →
    (entryOf s v g).claim = some c ∧ (req.kind = .commit → c.port ≠ req.port)
  count : t.claimCount = if req.kind = .commit then upd s.claimCount req.port 0 else s.claimCount

/-- A request that changes no entry. -/
theorem Completed.of_entries {s t : State} {req : Request} (h : PoolLaw s) (hk : req.kind ≠ .commit)
    (hs : t.frameStates = s.frameStates) (hl : t.freeList = s.freeList)
    (hr : t.engine.retired = s.engine.retired) (hn : t.claimCount = s.claimCount)
    (he : ∀ v g, entryOf t v g = entryOf s v g)
    (held : ∀ v : VolumeNo, req.kind.holds v = false → Volume.held t.volumes[v] = Volume.held s.volumes[v]) :
    Completed s t req :=
  ⟨poolLaw_entries h hs hl hr he, held, fun v g c hx => ⟨by rw [← he]; exact hx, fun hc => absurd hc hk⟩,
    by rw [hn, if_neg hk]⟩

theorem withMap_entries (r : VolumeRecord) (m : Option (MapSlot × Word)) :
    (r.withMap m).entries = r.entries ∧ (r.withMap m).status = r.status := by
  cases m <;> exact ⟨rfl, rfl⟩

theorem claim_commit (e : Entry) (p : Port) (check : Half) (c : Claim) (h : (e.commit p check).claim = some c) :
    e.claim = some c ∧ c.port ≠ p := by
  unfold Entry.commit Entry.claimOf at h
  rcases he : e.claim with _ | d
  · rw [he] at h; simp [he] at h
  · by_cases hd : d.port = p
    · rw [he] at h
      simp only [hd, if_true] at h
      split at h
      · cases h
      · cases h
      · next hx => cases hx
    · rw [he] at h
      simp only [hd, if_false] at h
      rw [he] at h
      refine ⟨h, ?_⟩
      rw [← Option.some.inj h]
      exact hd

theorem completed_commit {s : State} (h : PoolLaw s) (req : Request) (plan : Plan) (hk : req.kind = .commit) :
    Completed s (completeCommit s req.port plan) req := by
  refine ⟨poolLaw_completeCommit h req.port plan, fun v _ => ?_, fun v g c hx => ?_, ?_⟩
  · have e : (completeCommit s req.port plan).volumes[v] = Volume.commit s.volumes[v] req.port plan v := by
      unfold completeCommit
      rw [State.modTxn_volumes, tab_get]
    rw [e]
    cases hv : s.volumes[v] with
    | absent => rfl
    | creating _ _ _ => rfl
    | present r =>
      change (if (VolumeRecord.withMap _ _).status.isChanging = true then some false else none) = _
      rw [(withMap_entries _ _).2]
      rfl
  · rw [entryOf_completeCommit] at hx
    obtain ⟨h1, h2⟩ := claim_commit _ _ _ _ hx
    exact ⟨h1, fun _ => h2⟩
  · rw [if_pos hk]
    unfold completeCommit
    rw [State.modTxn_claimCount]

theorem freeFrames_leaves (s : State) (l : List FrameNo) : (freeFrames s l).volumes = s.volumes ∧
    (freeFrames s l).claimCount = s.claimCount ∧ (freeFrames s l).engine = s.engine := by
  unfold freeFrames
  rw [setFrames_eq]
  exact ⟨rfl, rfl, rfl⟩

theorem completed_delete {s : State} (h : PoolLaw s) (req : Request) (v : VolumeNo) (hk : req.kind = .delete v)
    (hc : ∀ g, (entryOf s v g).claim = none) : Completed s (completeDelete s v) req := by
  obtain ⟨hv, hn, he⟩ := freeFrames_leaves s (framesFrom s v 0)
  have ent : ∀ w g, entryOf (completeDelete s v) w g = if v = w then .hole else entryOf s w g := by
    intro w g
    unfold entryOf completeDelete
    rw [State.setVolume_volumes, upd_get, hv]
    split <;> rfl
  refine ⟨poolLaw_cut h v 0 rfl rfl (congrArg Engine.retired he) (fun x => ?_) (fun x => ?_), fun w hw => ?_,
    fun w g c hx => ?_, ?_⟩
  · unfold committedAt
    rw [ent]
    by_cases hx : v = x.1
    · rw [if_pos hx, if_pos ⟨hx.symm, Nat.zero_le _⟩]; rfl
    · rw [if_neg hx, if_neg fun hh => hx hh.1.symm]
  · unfold shadowAt
    rw [ent]
    split
    · next hx => rw [← hx, shadow_of_claim_none (hc x.2)]; rfl
    · rfl
  · have hvw : v ≠ w := by
      rintro rfl
      rw [hk, RequestKind.holds, changes_delete] at hw
      cases hw
    unfold completeDelete
    rw [held_setVolume, if_neg hvw, hv]
  · rw [ent] at hx
    split at hx
    · cases hx
    · exact ⟨hx, fun hh => by rw [hk] at hh; cases hh⟩
  · rw [if_neg (by rw [hk]; simp)]
    exact hn

theorem completed_resize {s : State} (h : PoolLaw s) (req : Request) (plan : Plan) (v : VolumeNo) (n : Nat)
    (hk : req.kind = .resize v n) : Completed s (completeResize s v n plan) req := by
  obtain ⟨hv, hn, he⟩ := freeFrames_leaves s (framesFrom s v n)
  have tables : (completeResize s v n plan).frameStates = (setFrames s (framesFrom s v n) .free).frameStates ∧
      (completeResize s v n plan).freeList = s.freeList ++ framesFrom s v n ∧
      (completeResize s v n plan).engine = s.engine ∧ (completeResize s v n plan).claimCount = s.claimCount := by
    unfold completeResize
    rw [State.modVolume_frameStates, State.modVolume_freeList, State.modVolume_engine, State.modVolume_claimCount,
      he, hn]
    exact ⟨rfl, rfl, rfl, rfl⟩
  obtain ⟨t1, t2, t3, t4⟩ := tables
  have ent : ∀ w g, entryOf (completeResize s v n plan) w g =
      if v = w ∧ n ≤ g.val then (entryOf s w g).cut else entryOf s w g := by
    intro w g
    unfold entryOf completeResize State.modVolume
    rw [hv]
    cases hx : s.volumes[v] with
    | absent =>
      rw [hv]
      split
      · next hh => rw [← hh.1, hx]; rfl
      · rfl
    | creating _ _ _ =>
      rw [hv]
      split
      · next hh => rw [← hh.1, hx]; rfl
      · rfl
    | present r =>
      simp only [State.setVolume_volumes, upd_get, hv]
      by_cases hvw : v = w
      · subst hvw
        simp only [if_true, true_and, hx, Volume.entry, (withMap_entries _ _).1, VolumeRecord.withEntries, tab_get]
      · simp only [hvw, if_false, false_and]
  refine ⟨poolLaw_cut h v n t1 t2 (congrArg Engine.retired t3) (fun x => ?_) (fun x => ?_), fun w hw => ?_,
    fun w g c hx => ?_, ?_⟩
  · unfold committedAt
    rw [ent]
    by_cases hx : v = x.1 ∧ n ≤ x.2.val
    · rw [if_pos hx, if_pos ⟨hx.1.symm, hx.2⟩]; rfl
    · rw [if_neg hx, if_neg fun hh => hx ⟨hh.1.symm, hh.2⟩]
  · unfold shadowAt
    rw [ent]
    split <;> rfl
  · have hvw : v ≠ w := by
      rintro rfl
      rw [hk] at hw
      simp [RequestKind.holds, RequestKind.changes] at hw
    unfold completeResize
    rw [held_modVolume _ _ _ _ fun hh => absurd hh hvw, hv]
  · rw [ent] at hx
    split at hx <;> exact ⟨hx, fun hh => by rw [hk] at hh; cases hh⟩
  · rw [if_neg (by rw [hk]; simp)]
    exact t4

/-- The effects of the request in flight, where the laws of the frames hold (R93 to R97). -/
theorem completed_applyEffects {s : State} (h : PoolLaw s) (req : Request) (plan : Plan)
    (creating : ∀ v, req.kind.creates v = true → ∃ n rights k, s.volumes[v] = .creating n rights k)
    (empty : ∀ v, req.kind = .delete v → ∀ g, (entryOf s v g).claim = none) :
    Completed s (applyEffects s req plan) req := by
  have same : ∀ (v : VolumeNo) (f : VolumeRecord → VolumeRecord), req.kind ≠ .commit →
      (∀ r, (f r).entries = r.entries) →
      (∀ w, req.kind.holds w = false → v = w → ∀ r, (f r).status.isChanging = r.status.isChanging) →
      Completed s (s.modVolume v f) req := fun v f hk hf hst =>
    .of_entries h hk (State.modVolume_frameStates ..) (State.modVolume_freeList ..)
      (by rw [State.modVolume_engine]) (State.modVolume_claimCount ..) (fun w g => entryOf_modVolume s v w g f hf)
      fun w hw => held_modVolume s v w f (hst w hw)
  unfold applyEffects
  cases hk : req.kind with
  | commit => exact completed_commit h req plan hk
  | delete v => exact completed_delete h req v hk (empty v hk)
  | resize v n => exact completed_resize h req plan v n hk
  | create v n rights k =>
    obtain ⟨m, rs, b, hv⟩ := creating v (by rw [hk]; simp [RequestKind.creates])
    refine .of_entries h (by rw [hk]; simp) rfl rfl rfl rfl (entryOf_setVolume s v _ fun g => ?_) fun w hw => ?_
    · rw [hv]
      change (Vector.replicate 64 Entry.hole)[g.val] = _
      rw [Vector.getElem_replicate]
      rfl
    · have hvw : v ≠ w := by
        rintro rfl
        rw [hk] at hw
        simp [RequestKind.holds, RequestKind.creates] at hw
      rw [held_setVolume, if_neg hvw]
  | freeze v | lock v =>
    refine same v _ (by rw [hk]; simp) (fun _ => rfl) fun w hw hvw => ?_
    rw [hk, hvw] at hw
    simp [RequestKind.holds, RequestKind.changes] at hw
  | thaw v =>
    refine same v _ (by rw [hk]; simp) (fun _ => rfl) fun w hw hvw r => ?_
    change r.status.thawed.isChanging = _
    cases r.status <;> rfl
  | setRights v p x | pin v | unpin v => exact same v _ (by rw [hk]; simp) (fun _ => rfl) fun _ _ _ _ => rfl
  | format | configPort p q k | configDevice n =>
    exact .of_entries h (by rw [hk]; simp) rfl rfl rfl rfl (fun _ _ => rfl) fun _ _ => rfl

theorem WorkLaw.complete {s : State} (h : WorkLaw s) {req : Request} (hr : s.engine.inFlight = some req)
    (plan : Plan) (slot : RootSlot) (seq : Word) : WorkLaw (complete s req plan slot seq) := by
  have hroot : PoolLaw (rooted s slot seq) := poolLaw_entries h.pool rfl rfl rfl fun _ _ => rfl
  have hm : req ∈ requests s := by unfold requests; rw [hr]; simp
  have hold := fun v => ((holderLaw_iff s).1 h.holders v).2 req hm
  have hc := completed_applyEffects hroot req plan (fun v hv => (held_true_iff _).1 ((hold v).1 hv))
    fun v hv => (hold v).2.2 hv
  obtain ⟨tv, ts, tl, tc⟩ := complete_tables s req plan slot seq
  have he := complete_engine s req plan slot seq
  have ent : ∀ v g, entryOf (Machine.complete s req plan slot seq) v g =
      entryOf (applyEffects (rooted s slot seq) req plan) v g := fun v g => by unfold entryOf; rw [tv]
  refine h.ends hr (poolLaw_entries hc.pool ts tl ?_ ent) (by rw [he]; rfl) (by rw [he]; rfl) (fun v hv => ?_)
    fun v g c hx => ?_
  · rw [he, applyEffects_engine]
    rfl
  · rw [tv]
    exact hc.held v hv
  · rw [ent] at hx
    obtain ⟨h1, h2⟩ := hc.claims v g c hx
    refine ⟨h1, fun hm => ?_, ?_⟩
    · rw [complete_txn, if_neg fun hh => h2 hh.1 hh.2.symm]
      exact hm
    · rw [tc, hc.count]
      split
      · next hk => rw [upd_get_ne _ _ _ _ (h2 hk).symm]; rfl
      · rfl

/-! ### Plans (R79, R87) -/

/-- A plan names each page once, and each page step that is not over programs the port's shadow there. -/
def Plan.sound (plan : Plan) (req : Request) (s : State) : Prop :=
  (plan.steps.filterMap PlanStep.page?).Nodup ∧
    ∀ i v g f n c, plan.current ≤ i → plan.steps[i]? = some (.page v g f n c) →
      req.kind = .commit ∧ (entryOf s v g).claim = some ⟨req.port, .data f⟩

theorem planLaw_iff (s : State) : PlanLaw s ↔ ∀ req plan, s.engine.inFlight = some req →
    s.engine.plan = some plan → plan.sound req s := Iff.rfl

theorem PlanLaw.of_sound {t : State} {req : Request} {plan : Plan} (hf : t.engine.inFlight = some req)
    (hp : t.engine.plan = some plan) (h : plan.sound req t) : PlanLaw t := by
  intro r p hr hq
  rw [hf] at hr
  rw [hp] at hq
  cases hr
  cases hq
  exact h

/-- Two places of a list whose kept values are all different keep different values. -/
theorem filterMap_index_unique {α β : Type} {f : α → Option β} {l : List α} (h : (l.filterMap f).Nodup)
    {i j : Nat} {x y : α} {b : β} (hi : l[i]? = some x) (hj : l[j]? = some y) (hx : f x = some b)
    (hy : f y = some b) : i = j := by
  induction l generalizing i j with
  | nil => cases hi
  | cons a l ih =>
    have tail : ∀ {k : Nat} {z : α}, l[k]? = some z → f z = some b → b ∈ l.filterMap f := fun hk hz =>
      List.mem_filterMap.2 ⟨_, List.mem_of_getElem? hk, hz⟩
    cases i with
    | zero =>
      cases j with
      | zero => rfl
      | succ j =>
        cases hi
        rw [List.filterMap_cons_some hx, List.nodup_cons] at h
        exact absurd (tail hj hy) h.1
    | succ i =>
      have ht : (l.filterMap f).Nodup := h.sublist ((List.sublist_cons_self a l).filterMap f)
      cases j with
      | zero =>
        cases hj
        rw [List.filterMap_cons_some hy, List.nodup_cons] at h
        exact absurd (tail hi hx) h.1
      | succ j => rw [ih ht hi hj]

/-- The current step of a plan replaced by one for the same page. -/
theorem Plan.sound.setStep {plan : Plan} {req : Request} {s t : State} (h : plan.sound req s) {old new : PlanStep}
    (ho : plan.step = some old) (hpage : new.page? = old.page?)
    (hn : ∀ v g f n c, new = .page v g f n c →
      req.kind = .commit ∧ (entryOf t v g).claim = some ⟨req.port, .data f⟩)
    (hc : ∀ v g f, new.page? ≠ some (v, g) → (entryOf s v g).claim = some ⟨req.port, .data f⟩ →
      (entryOf t v g).claim = some ⟨req.port, .data f⟩) : (plan.setStep new).sound req t := by
  obtain ⟨hd, hs⟩ := h
  have ho : plan.steps[plan.current]? = some old := ho
  obtain ⟨hlt, hget⟩ := List.getElem?_eq_some_iff.1 ho
  have pages : (plan.setStep new).steps.filterMap PlanStep.page? = plan.steps.filterMap PlanStep.page? := by
    have hmap : (plan.steps.set plan.current new).map PlanStep.page? = plan.steps.map PlanStep.page? := by
      rw [List.map_set, hpage, ← hget, ← List.getElem_map PlanStep.page? (h := by simpa using hlt),
        List.set_getElem_self]
    have := congrArg (List.filterMap id) hmap
    rwa [List.filterMap_map, List.filterMap_map] at this
  refine ⟨by rw [pages]; exact hd, fun i v g f n c hi hx => ?_⟩
  have hi : plan.current ≤ i := hi
  change (plan.steps.set plan.current new)[i]? = _ at hx
  rw [List.getElem?_set] at hx
  by_cases hci : plan.current = i
  · rw [if_pos hci, if_pos hlt] at hx
    exact hn v g f n c (Option.some.inj hx)
  · rw [if_neg hci] at hx
    obtain ⟨hk, hcl⟩ := hs i v g f n c hi hx
    refine ⟨hk, hc v g f (fun hp => hci ?_) hcl⟩
    exact filterMap_index_unique hd ho hx (hpage ▸ hp) rfl

/-- A page step that is not over, in a plan that is sound. -/
theorem Plan.sound.current {plan : Plan} {req : Request} {s : State} (h : plan.sound req s) {v : VolumeNo}
    {g : PageNo} {f : FrameNo} {n : Nat} {c : Option Half} (hs : plan.step = some (.page v g f n c)) :
    req.kind = .commit ∧ (entryOf s v g).claim = some ⟨req.port, .data f⟩ :=
  h.2 plan.current v g f n c (Nat.le_refl _) hs

/-- What the start of a step does to the plan: it records the page check of a page step (R83). -/
theorem startStep_plan {s : State} {req : Request} {plan : Plan} (hr : s.engine.inFlight = some req)
    (hp : s.engine.plan = some plan) : (startStep s).engine.plan = some plan ∨
      ∃ v g f n c d, plan.step = some (.page v g f n c) ∧
        (startStep s).engine.plan = some (plan.setStep (.page v g f n d)) := by
  unfold startStep
  rw [hp, hr]
  simp only
  split
  · next v g f n c hs => exact .inr ⟨v, g, f, n, c, _, hs, rfl⟩
  · left
    unfold startMap
    exact hp
  · exact .inl hp
  · exact .inl hp

theorem PlanLaw.startStep {s : State} (h : PlanLaw s) : PlanLaw (startStep s) := by
  have hf : (Machine.startStep s).engine.inFlight = s.engine.inFlight := by rw [startStep_eq]
  have ent : ∀ v g, entryOf (Machine.startStep s) v g = entryOf s v g := fun v g => by
    rw [startStep_eq]
    rfl
  cases hr : s.engine.inFlight with
  | none => exact .rests (hf.trans hr)
  | some req =>
    cases hp : s.engine.plan with
    | none =>
      have e : Machine.startStep s = s := by unfold Machine.startStep; rw [hp]
      rw [e]
      exact h
    | some plan =>
      have hs := (planLaw_iff s).1 h req plan hr hp
      rcases startStep_plan hr hp with e | ⟨v, g, f, n, c, d, hstep, e⟩
      · exact .of_sound (hf.trans hr) e ⟨hs.1, fun i v g f n c hi hx => by rw [ent]; exact hs.2 i v g f n c hi hx⟩
      · refine .of_sound (hf.trans hr) e (hs.setStep hstep rfl (fun v' g' f' n' c' hx => ?_) fun v' g' f' _ hx => ?_)
        · cases hx
          rw [ent]
          exact hs.current hstep
        · rw [ent]
          exact hx

theorem WorkLaw.startStep {s : State} (h : WorkLaw s) : WorkLaw (startStep s) := by
  have hp := h.plan.startStep
  rw [startStep_eq] at hp ⊢
  exact ⟨poolLaw_entries h.pool rfl rfl rfl fun _ _ => rfl, h.claims,
    h.holders.sublist (.refl _) (fun _ _ _ _ => rfl) fun _ _ _ _ hn => hn, hp⟩

/-- The budget in use is read by no law of the frames. -/
theorem WorkLaw.setDevice {s : State} (h : WorkLaw s) (d : Device) : WorkLaw { s with device := d } :=
  h.congr rfl rfl rfl rfl rfl rfl rfl rfl fun _ hp => hp

theorem WorkLaw.spendOne {s t : State} (h : WorkLaw s) (hs : spendOne s = some t) : WorkLaw t := by
  rw [(spendOne_eq hs).1]
  exact h.setDevice _

theorem WorkLaw.nextStep {s : State} (h : WorkLaw s) : WorkLaw (nextStep s) := by
  refine WorkLaw.startStep ⟨poolLaw_entries h.pool rfl rfl rfl fun _ _ => rfl, h.claims,
    h.holders.sublist (.refl _) (fun _ _ _ _ => rfl) fun _ _ _ _ hn => hn, fun req plan hr hp => ?_⟩
  obtain ⟨old, ho, rfl⟩ := Option.map_eq_some_iff.1 hp
  obtain ⟨hd, hs⟩ := h.plan req old hr ho
  exact ⟨hd, fun i v g f n c hi hx => hs i v g f n c (Nat.le_of_succ_le hi) hx⟩

/-- The failed shadow of a page step in flight is relocated (R87). -/
theorem WorkLaw.relocate {s : State} (h : WorkLaw s) {req : Request} {plan : Plan}
    (hr : s.engine.inFlight = some req) (hp : s.engine.plan = some plan) {v : VolumeNo} {g : PageNo} {f : FrameNo}
    {n : Nat} {c : Option Half} (hs : plan.step = some (.page v g f n c)) (hf : s.freeList ≠ []) :
    WorkLaw (relocate s req plan v g f n) := by
  have sound := (planLaw_iff s).1 h.plan req plan hr hp
  obtain ⟨hk, hc⟩ := sound.current hs
  obtain ⟨new, rest, hl⟩ := List.exists_cons_of_ne_nil hf
  obtain ⟨-, hcount, hq, hi, -, hports⟩ := relocate_leaves s req plan v g f n
  have e := relocate_eq s req plan v g f new rest n hl hc
  have ev : (Machine.relocate s req plan v g f n).volumes =
      (s.setEntry v g { entryOf s v g with claim := some ⟨req.port, .data new⟩ }).volumes := by rw [e]
  have ent : ∀ w k, (entryOf (Machine.relocate s req plan v g f n) w k).claim =
      if v = w ∧ g = k then some ⟨req.port, .data new⟩ else (entryOf s w k).claim := by
    intro w k
    have : entryOf (Machine.relocate s req plan v g f n) w k =
        entryOf (s.setEntry v g { entryOf s v g with claim := some ⟨req.port, .data new⟩ }) w k :=
      congrArg (fun x : Vector Volume 16 => Volume.entry x[w] k) ev
    rw [this, entryOf_setEntry _ _ _ _ _ _ (isPresent_of_claim s v g _ hc)]
    split <;> rfl
  have hreq : requests (Machine.relocate s req plan v g f n) = requests s := by unfold requests; rw [hq, hi]
  obtain ⟨d, hplan⟩ : ∃ d, (Machine.relocate s req plan v g f n).engine.plan =
      some (plan.setStep (.page v g new (n + 1) d)) := ⟨_, by rw [e]⟩
  refine ⟨poolLaw_relocate h.pool req plan v g f n hf hc, fun w k d hx => ?_, ?_, ?_⟩
  · rw [(hports d.port).2, hcount]
    rw [ent] at hx
    split at hx
    · cases hx
      exact h.claims v g ⟨req.port, .data f⟩ hc
    · exact h.claims w k d hx
  · refine h.holders.sublist (by rw [hreq]) (fun _ _ w _ => ?_) fun _ _ w _ hn k => ?_
    · rw [ev, held_setEntry]
    · rw [ent]
      split
      · next hw =>
        obtain ⟨rfl, rfl⟩ := hw
        rw [hn] at hc
        cases hc
      · exact hn k
  · refine .of_sound (hi.trans hr) hplan
      (sound.setStep hs rfl (fun v' g' f' n' c' hx => ?_) fun v' g' f' hne hx => ?_)
    · cases hx
      exact ⟨hk, by rw [ent, if_pos ⟨rfl, rfl⟩]⟩
    · rw [ent, if_neg, hx]
      rintro ⟨rfl, rfl⟩
      exact hne rfl

theorem WorkLaw.act {s t : State} {req : Request} {plan : Plan} {step : PlanStep}
    (hr : s.engine.inFlight = some req) (hp : s.engine.plan = some plan) (hs : plan.step = some step)
    (a : Act req plan step s t) (h : WorkLaw s) : WorkLaw t := by
  cases a with
  | stays => exact h
  | advances => exact h.nextStep
  | fails code f => exact h.failUpdate hr code f
  | abandons => exact h.abandonUpdate
  | relocates t v g f n c hstep hn hf ht =>
    subst hstep
    have e := (spendOne_eq ht).1
    exact (h.spendOne ht).relocate (by rw [e]; exact hr) (by rw [e]; exact hp) hs (by rw [e]; exact hf)
  | retries t f ht =>
    have ht' := h.spendOne ht
    have e := (spendOne_eq ht).1
    have sound := (planLaw_iff t).1 ht'.plan req plan (by rw [e]; exact hr) (by rw [e]; exact hp)
    refine ⟨poolLaw_entries ht'.pool rfl rfl rfl fun _ _ => rfl, ht'.claims,
      ht'.holders.sublist (.refl _) (fun _ _ _ _ => rfl) fun _ _ _ _ hn => hn,
      .of_sound (by rw [e]; exact hr) rfl (sound.setStep hs ?_ (fun v g f n c hx => ?_) fun _ _ _ _ hx => hx)⟩
    · cases step <;> rfl
    · cases step with
      | page v' g' f' n' c' =>
        cases hx
        exact sound.current hs
      | map _ _ _ _ => cases hx
      | root _ _ _ => cases hx
  | stops f => exact h.enterStopped hr f
  | completes slot seq => exact h.complete hr plan slot seq

theorem WorkLaw.outcome {s t : State} (o : Outcome s t) (h : WorkLaw s) : WorkLaw t := by
  rcases o with rfl | ⟨u, ⟨f, hu⟩, ht⟩
  · exact h
  · have hm : WorkLaw u := by
      rcases hu with rfl | rfl <;> exact h.congr rfl rfl rfl rfl rfl rfl rfl rfl fun _ hp => hp
    rcases ht with rfl | ⟨req, plan, step, w, hr, hp, hs, ha, rfl⟩
    · exact hm
    · have hw := WorkLaw.act hr hp hs ha hm
      rcases settleSequence_cases w with e | ⟨-, -, -, e⟩ <;> rw [e]
      · exact hw
      · exact hw.setDevice _

/-! ### Plans that begin (R78, R80) -/

/-- The plan of a request is sound: a COMMIT has a page step for each of the port's shadows, and no other request has
one. -/
theorem buildPlan_sound (s : State) (req : Request) : (buildPlan s req.port req.kind).sound req s := by
  have other : ∀ l : List PlanStep, (∀ x ∈ l, x.page? = none) → Plan.sound ⟨l, 0⟩ req s := by
    intro l hl
    have : l.filterMap PlanStep.page? = [] := List.filterMap_eq_nil_iff.2 hl
    refine ⟨by rw [this]; exact .nil, fun i v g f n c _ hx => ?_⟩
    have := hl _ (List.mem_of_getElem? hx)
    cases this
  have root : ∀ x ∈ [rootStep s], x.page? = none := fun x hx => by
    rw [List.mem_singleton.1 hx]
    rfl
  have maps : ∀ x ∈ mapSteps s req.port, x.page? = none := fun x hx => by
    obtain ⟨v, -, hv⟩ := List.mem_filterMap.1 hx
    split at hv
    · split at hv
      · cases hv; rfl
      · cases hv
    · cases hv
  unfold buildPlan
  cases hk : req.kind with
  | commit =>
    have nopage : (mapSteps s req.port ++ [rootStep s]).filterMap PlanStep.page? = [] :=
      List.filterMap_eq_nil_iff.2 fun x hx => (List.mem_append.1 hx).elim (maps x) (root x)
    have pages : (planSteps s req.port .commit).filterMap PlanStep.page? =
        allPages.filterMap fun x => ((entryOf s x.1 x.2).shadowOf req.port).map fun _ => x := by
      unfold planSteps
      simp only
      rw [List.append_assoc, List.filterMap_append, nopage, List.append_nil, pageSteps, List.filterMap_filterMap]
      congr 1
      funext x
      cases (entryOf s x.1 x.2).shadowOf req.port <;> rfl
    refine ⟨?_, fun i v g f n c _ hx => ⟨hk, ?_⟩⟩
    · rw [pages]
      refine List.Nodup.filterMap (fun x y z hx hy => ?_) allPages_nodup
      simp only [Option.mem_def, Option.map_eq_some_iff] at hx hy
      obtain ⟨-, -, rfl⟩ := hx
      obtain ⟨-, -, rfl⟩ := hy
      rfl
    · have hm : PlanStep.page v g f n c ∈ pageSteps s req.port ++ (mapSteps s req.port ++ [rootStep s]) := by
        rw [← List.append_assoc]
        exact List.mem_of_getElem? hx
      rcases List.mem_append.1 hm with hm | hm
      · obtain ⟨x, -, hx⟩ := List.mem_filterMap.1 hm
        obtain ⟨f', hf, e⟩ := Option.map_eq_some_iff.1 hx
        cases e
        unfold Entry.shadowOf at hf
        split at hf
        · next f'' hc => cases hf; exact claim_of_claimOf hc
        · cases hf
      · have := (List.mem_append.1 hm).elim (maps _) (root _)
        cases this
  | format =>
    exact other _ fun x hx => by rw [List.mem_singleton.1 hx]; rfl
  | resize v n =>
    refine other _ fun x hx => ?_
    rcases List.mem_append.1 hx with hx | hx
    · unfold resizeSteps at hx
      split at hx
      · split at hx
        · rw [List.mem_singleton.1 hx]; rfl
        · cases hx
      · cases hx
    · exact root x hx
  | _ => exact other _ root

/-- A request begins: it was queued, or it is a COMMIT, which holds no volume. -/
theorem WorkLaw.begins {s u : State} (h : WorkLaw s) (req : Request) (rest : List Request)
    (he : u.engine = { s.engine with queue := rest }) (hq : rest.Sublist s.engine.queue)
    (hr : req.kind = .commit ∨ (req :: rest).Perm s.engine.queue)
    (hv : u.volumes = s.volumes) (hs : u.frameStates = s.frameStates) (hl : u.freeList = s.freeList)
    (hn : u.claimCount = s.claimCount)
    (ht : ∀ p : Port, s.ports[p].txn.state.mayClaim = true → u.ports[p].txn.state.mayClaim = true) :
    WorkLaw (beginUpdate u req) := by
  have ent : ∀ v g, entryOf u v g = entryOf s v g := fun v g => by unfold entryOf; rw [hv]
  refine WorkLaw.startStep ⟨poolLaw_entries h.pool hs hl (by rw [State.modEngine_engine, he]) ent, fun v g c hx => ?_, ?_,
    .of_sound rfl rfl ?_⟩
  · have hx : (entryOf u v g).claim = some c := hx
    rw [ent] at hx
    obtain ⟨hm, h0⟩ := h.claims v g c hx
    refine ⟨ht _ hm, ?_⟩
    change 0 < u.claimCount[c.port]
    rw [hn]
    exact h0
  · have hreq : requests (u.modEngine fun e => { e with
        inFlight := some req, plan := some (buildPlan u req.port req.kind), abandon := false }) = rest ++ [req] := by
      unfold requests
      rw [State.modEngine_engine, he]
      rfl
    have plain : ∀ v, req.kind = .commit → req.kind.holds v = false := fun v hk => by rw [hk]; rfl
    refine h.holders.mono (fun v => ?_) (fun r hm v hh => ?_) (fun r _ v _ => congrArg (fun x : Vector Volume 16 =>
      Volume.held x[v]) hv) fun r _ v _ hx g => (congrArg Entry.claim (ent v g)).trans (hx g)
    · rw [hreq]
      have hle : s.engine.queue.countP (fun r => r.kind.holds v) ≤ (requests s).countP fun r => r.kind.holds v :=
        (List.sublist_append_left _ _).countP_le
      rcases hr with hk | hp
      · rw [List.countP_append, List.countP_singleton, plain v hk]
        exact hq.countP_le.trans hle
      · have e := ((List.perm_append_singleton req rest).trans hp).countP_eq fun r => r.kind.holds v
        rw [e]
        exact hle
    · rw [hreq] at hm
      refine List.mem_append_left _ ?_
      rcases List.mem_append.1 hm with hm | hm
      · exact hq.subset hm
      · rw [List.mem_singleton] at hm
        subst hm
        rcases hr with hk | hp
        · rw [plain v hk] at hh; cases hh
        · exact hp.subset List.mem_cons_self
  · have := buildPlan_sound u req
    exact ⟨this.1, this.2⟩

/-- The state in which a removed request fails, as if it were in flight without a plan. -/
def flown (s : State) (req : Request) : State :=
  { s with engine := { s.engine with inFlight := some req, plan := none } }

/-- A request that fails at its removal fails as the update in flight does (R78, R98). -/
theorem failRequest_removed (s : State) (req : Request) (code : Code) :
    (failRequest s req code none).modEngine Engine.rest = failUpdate (flown s req) code none := by
  have hv : (returnVolume (flown s req) req.kind).volumes = (returnVolume s req.kind).volumes := by
    cases req.kind <;> rfl
  rw [failRequest_eq, failUpdate_eq (flown s req) req code none rfl, hv]
  rfl

theorem WorkLaw.removeRequest {s : State} (h : WorkLaw s) {req : Request} (hr : removable s = some req) :
    WorkLaw (removeRequest s req) := by
  obtain ⟨-, hf, -, rest, hq⟩ := removable_eq_some hr
  obtain ⟨-, he, hv, hn, hs, hl, hp⟩ := removed_leaves s req
  have he' : (removed s req).engine = { s.engine with queue := rest } := by
    rw [he]
    simp [dropHead, hq]
  have mayClaim : ∀ p : Port, s.ports[p].txn.state.mayClaim = true →
      (removed s req).ports[p].txn.state.mayClaim = true := fun p hm => by
    rw [(hp p).2]
    split
    · rfl
    · exact hm
  have hsub : rest.Sublist s.engine.queue := by rw [hq]; exact List.sublist_cons_self _ _
  rcases removeRequest_cases s req with ⟨code, -, e⟩ | ⟨-, e⟩ <;> rw [e]
  · have hret : (removed s req).engine.retired = s.engine.retired := by rw [he']
    rw [failRequest_removed]
    refine WorkLaw.failUpdate (s := flown (removed s req) req) (req := req)
      ⟨poolLaw_entries h.pool hs hl hret fun v g => ?_,
      fun v g c hx => ?_, ?_, fun r plan _ h2 => by cases h2⟩ rfl code none
    · exact congrArg (fun x : Vector Volume 16 => Volume.entry x[v] g) hv
    · obtain ⟨hm, h0⟩ := h.claims v g c
        ((congrArg (fun x : Vector Volume 16 => (Volume.entry x[v] g).claim) hv).symm.trans hx)
      exact ⟨mayClaim _ hm, (congrArg (fun x : Vector Nat 4 => 0 < x[c.port]) hn).mpr h0⟩
    · have hreq : (requests (flown (removed s req) req)).Perm (requests s) := by
        unfold requests flown
        rw [he', hf, hq, Option.toList_none, List.append_nil]
        exact List.perm_append_singleton _ _
      refine h.holders.mono (fun v => (hreq.countP_eq _).le) (fun r hm _ _ => hreq.subset hm)
        (fun _ _ v _ => congrArg (fun x : Vector Volume 16 => Volume.held x[v]) hv) fun _ _ v _ hx g => ?_
      exact (congrArg (fun x : Vector Volume 16 => (Volume.entry x[v] g).claim) hv).trans (hx g)
  · exact h.begins req rest he' hsub (.inr (by rw [hq])) hv hs hl hn mayClaim

theorem WorkLaw.considerCandidate {s : State} (h : WorkLaw s) {c : Candidate}
    (hc : nextCandidate s = some c) : WorkLaw (considerCandidate s c) := by
  obtain ⟨hi, -⟩ := nextCandidate_eq_some hc
  obtain ⟨b, taken, skipped, e | e⟩ := considerCandidate_cases hi c <;> rw [e]
  · exact h.setDevice _
  · obtain ⟨-, he, hv, hn, hs, hl⟩ := candidateTaken_leaves s (.powerFail b taken skipped) c
    refine h.begins ⟨c.port, .commit⟩ _ he ?_ (.inl rfl) hv hs hl hn fun p hm => ?_
    · cases c with
      | queued p => exact List.filter_sublist
      | opened p => exact .refl _
    · cases c <;>
      · refine (congrArg TxnState.mayClaim (startCommitting_ports _ _ p).1).trans ?_
        split
        · rfl
        · exact hm

/-! ### The entry into the power-fail sequence (R150, R151) -/

/-- The requests that are discarded hold nothing that a request that stays holds. -/
theorem WorkLaw.discardAdmin {s : State} (h : WorkLaw s) : WorkLaw (discardAdmin s) := by
  have ent : ∀ v g, entryOf (Machine.discardAdmin s) v g = entryOf s v g := fun v g =>
    entry_returnVolumes (s.engine.queue.filter Request.isAdmin) s v g
  have stay : ∀ r ∈ requests (Machine.discardAdmin s), ∀ v, r.kind.holds v = true →
      (Machine.discardAdmin s).volumes[v] = s.volumes[v] := by
    intro r hm v hv
    rw [discardAdmin_eq] at hm
    rcases List.mem_append.1 hm with hm | hm
    · have hk : r.kind = .commit := by simpa [Request.isAdmin] using (List.mem_filter.1 hm).2
      rw [hk] at hv
      cases hv
    · have hf : s.engine.inFlight = some r := by simpa using hm
      have e : (Machine.discardAdmin s).volumes[v] =
          (s.engine.queue.filter Request.isAdmin).foldl (fun x r => returnedBy v x r.kind) s.volumes[v] :=
        returnVolumes_at (s.engine.queue.filter Request.isAdmin) s v
      rw [e]
      have others : ∀ q ∈ s.engine.queue.filter Request.isAdmin, q.kind.holds v = false := fun q hq => by
        by_contra hc
        rw [Bool.not_eq_false] at hc
        rw [h.holders.queued_not_holds hf (List.mem_filter.1 hq).1 v hc] at hv
        cases hv
      generalize s.engine.queue.filter Request.isAdmin = l at others
      induction l with
      | nil => rfl
      | cons q l ih =>
        have hq := returnVolume_not_held s q.kind v (others q List.mem_cons_self)
        rw [returnVolume_at] at hq
        rw [List.foldl_cons, hq]
        exact ih fun q hq => others q (List.mem_cons_of_mem _ hq)
  refine ⟨poolLaw_entries h.pool ?_ ?_ ?_ ent, fun v g c hx => ?_, h.holders.sublist ?_ (fun r hm v hv => ?_)
    fun _ _ v _ hn g => ?_, h.plan.mono ?_ ?_ fun _ _ _ v g f hx => ?_⟩
  · rw [discardAdmin_eq]
  · rw [discardAdmin_eq]
  · rw [discardAdmin_eq]
  · rw [ent] at hx
    rw [discardAdmin_eq]
    exact h.claims v g c hx
  · rw [discardAdmin_eq]
    exact List.filter_sublist.append (.refl _)
  · rw [stay r hm v hv]
  · rw [ent]; exact hn g
  · rw [discardAdmin_eq]
  · rw [discardAdmin_eq]
  · rw [ent]; exact hx

theorem WorkLaw.enterPowerFail {s : State} (h : WorkLaw s) : WorkLaw (enterPowerFail s) := by
  have hl : WorkLaw (closeLinks s) := h.congr rfl rfl rfl rfl rfl rfl rfl rfl fun p hp => by
    rw [(closeLinks_leaves s p).2]; exact hp
  have hj : WorkLaw (judgeInFlight (Machine.discardAdmin (closeLinks s)) (budgetAtEntry s)) := by
    rw [judgeInFlight_eq]
    exact hl.discardAdmin.congr rfl rfl rfl rfl rfl rfl rfl rfl fun _ hp => hp
  unfold Machine.enterPowerFail
  rcases settleSequence_cases (judgeInFlight (Machine.discardAdmin (closeLinks s)) (budgetAtEntry s)) with
    e | ⟨-, -, -, e⟩ <;> rw [e]
  · exact hj
  · exact hj.setDevice _

end Sys2Proof.Machine
end


section
/-! The law of the pool frames is kept through the recall (the third part of O57), and the settling of O57. -/

namespace Sys2Proof.Machine

/-! ### The judgement of a map image (R108) -/

/-- The frames of a good map image are pool frames, not retired, not accepted before, each held once (R108). -/
theorem judgeImage_frames {l : List Byte} {v : VolumeNo} {gen : Word} {size : Nat} {retired accepted : List FrameNo}
    {es : Vector ImageEntry 64} (h : judgeImage l v gen size retired accepted = some es) :
    (∀ (g : PageNo) f c, es[g] = some (f, c) → isPool f = true ∧ f ∉ retired ∧ f ∉ accepted) ∧
    ∀ (g k : PageNo) f c d, es[g] = some (f, c) → es[k] = some (f, d) → g = k := by
  unfold judgeImage at h
  split at h
  · next hj =>
    obtain ⟨-, -, -, -, hpool, hret, hnodup, hacc⟩ := hj
    cases h
    have held : ∀ (g : PageNo) f c, (tab fun g => imageEntryAt l g)[g] = some (f, c) →
        (if numberAt l g = 0#12 then none else some (numberAt l g).toNat) = some f.val := by
      intro g f c hg
      rw [tab_get] at hg
      unfold imageEntryAt at hg
      split at hg
      · cases hg
      · next hn =>
        rw [if_neg hn]
        have hf := (Prod.mk.inj (Option.some.inj hg)).1
        rw [← hf, Fin.val_ofNat]
        have hm : (numberAt l g).toNat ∈ heldNumbers l :=
          List.mem_filterMap.2 ⟨g, mem_ascending g, if_neg hn⟩
        have := of_decide_eq_true (List.all_eq_true.1 hpool _ hm)
        rw [Nat.mod_eq_of_lt this.2]
    have mem : ∀ (g : PageNo) f c, (tab fun g => imageEntryAt l g)[g] = some (f, c) → f.val ∈ heldNumbers l :=
      fun g f c hg => List.mem_filterMap.2 ⟨g, mem_ascending g, held g f c hg⟩
    refine ⟨fun g f c hg => ⟨?_, fun hm => ?_, fun hm => ?_⟩, fun g k f c d hg hk => ?_⟩
    · have := of_decide_eq_true (List.all_eq_true.1 hpool _ (mem g f c hg))
      simp [isPool, this.1]
    · have := List.all_eq_true.1 (List.all_eq_true.1 hret _ (mem g f c hg)) f hm
      simp at this
    · have := List.all_eq_true.1 (List.all_eq_true.1 hacc _ (mem g f c hg)) f hm
      simp at this
    · have index : ∀ i : PageNo, (ascending 64)[i.val]? = some i := fun i => by
        unfold ascending
        rw [List.getElem?_ofFn, dif_pos i.isLt]
        rfl
      exact Fin.ext (filterMap_index_unique hnodup (index g) (index k) (held g f c hg) (held k f d hk))
  · cases h

/-! ### The rebuild of the volume table (R112) -/

/-- What the rebuild of one volume does to the volume table and the frames accepted: no map, or the entries of a good
image. The judge of the image is a variable, so that nothing computes an image's check. -/
theorem recallVolume_entries (retired : List FrameNo) (x : Rebuild) (v : VolumeNo) (d : Durable)
    {judge : List Byte → VolumeNo → Word → Nat → List FrameNo → List FrameNo →
      Option (Vector ImageEntry 64)} (hj : judgeImage = judge) :
    ∃ y, (recallVolume retired x v d).state.volumes = upd x.state.volumes v y ∧
      (((recallVolume retired x v d).accepted = x.accepted ∧ ∀ g, y.entry g = .hole) ∨
        ∃ l gen n es, judge l v gen n retired x.accepted = some es ∧
          (recallVolume retired x v d).accepted = x.accepted ++ imageFrames es ∧
          ∀ g : PageNo, y.entry g = recalledEntry es[g]) := by
  have holes : ∀ st n rights k m slot gen (g : PageNo), Volume.entry (.present (recalledRecord st n rights k m slot gen
      (Vector.replicate 64 .hole))) g = .hole := fun _ _ _ _ _ _ _ g => by
    change (Vector.replicate 64 Entry.hole)[g.val] = _
    rw [Vector.getElem_replicate]
  unfold recallVolume
  rw [hj]
  cases d with
  | absent => exact ⟨_, rfl, .inl ⟨rfl, fun _ => rfl⟩⟩
  | kept st n rights k m slot gen =>
    cases m with
    | false => exact ⟨_, rfl, .inl ⟨rfl, holes _ _ _ _ _ _ _⟩⟩
    | true =>
      dsimp only
      generalize hl : arrayFrame (recallFrame x.state (mapFrame v slot)) (mapFrame v slot) = l
      cases ho : judge l v gen n retired x.accepted with
      | none => exact ⟨_, rfl, .inl ⟨rfl, holes _ _ _ _ _ _ _⟩⟩
      | some es =>
        refine ⟨_, rfl, .inr ⟨l, gen, n, es, ho, rfl, fun g => ?_⟩⟩
        change (tab fun g : PageNo => recalledEntry es[g])[g] = _
        rw [tab_get]

/-- The volumes of `done` are rebuilt: no claims, and committed frames that were accepted, pool frames, not retired,
each held once. -/
structure Rebuilt (retired : List FrameNo) (x : Rebuild) (done : List VolumeNo) : Prop where
  claims : ∀ v ∈ done, ∀ g, (entryOf x.state v g).claim = none
  frames : ∀ v ∈ done, ∀ g c, (entryOf x.state v g).committed = some c →
    isPool c.frame = true ∧ c.frame ∉ retired ∧ c.frame ∈ x.accepted
  once : ∀ v ∈ done, ∀ w ∈ done, ∀ g h c d, (entryOf x.state v g).committed = some c →
    (entryOf x.state w h).committed = some d → c.frame = d.frame → v = w ∧ g = h

theorem mem_imageFrames (es : Vector ImageEntry 64) (g : PageNo) (f : FrameNo) (c : Half) (h : es[g] = some (f, c)) :
    f ∈ imageFrames es :=
  List.mem_filterMap.2 ⟨g, mem_ascending g, by rw [h]; rfl⟩

theorem recalledEntry_committed {e : ImageEntry} {c : Committed} (h : (recalledEntry e).committed = some c) :
    e = some (c.frame, c.check) := by
  obtain ⟨x, rfl, rfl⟩ := Option.map_eq_some_iff.1 h
  rfl

theorem Rebuilt.volume {retired : List FrameNo} {x : Rebuild} {done : List VolumeNo} (h : Rebuilt retired x done)
    (v : VolumeNo) (d : Durable) (hv : v ∉ done) : Rebuilt retired (recallVolume retired x v d) (v :: done) := by
  obtain ⟨y, hy, hcase⟩ := recallVolume_entries retired x v d rfl
  have self : ∀ g, entryOf (recallVolume retired x v d).state v g = y.entry g := fun g => by
    unfold entryOf
    rw [hy, upd_get_self]
  have other : ∀ w ∈ done, ∀ g, entryOf (recallVolume retired x v d).state w g = entryOf x.state w g :=
    fun w hw g => by
      unfold entryOf
      rw [hy, upd_get_ne _ _ _ _ (by rintro rfl; exact hv hw)]
  have grows : ∀ f ∈ x.accepted, f ∈ (recallVolume retired x v d).accepted := fun f hf => by
    rcases hcase with ⟨e, -⟩ | ⟨_, _, _, _, -, e, -⟩ <;> rw [e]
    · exact hf
    · exact List.mem_append_left _ hf
  have claim : ∀ g, (y.entry g).claim = none := fun g => by
    rcases hcase with ⟨-, e⟩ | ⟨_, _, _, _, -, -, e⟩ <;> rw [e] <;> rfl
  have fresh : ∀ g c, (y.entry g).committed = some c → isPool c.frame = true ∧ c.frame ∉ retired ∧
      c.frame ∉ x.accepted ∧ c.frame ∈ (recallVolume retired x v d).accepted := fun g c hc => by
    rcases hcase with ⟨-, e⟩ | ⟨l, gen, n, es, hj, ha, e⟩ <;> rw [e] at hc
    · cases hc
    · have hg := recalledEntry_committed hc
      obtain ⟨h1, h2, h3⟩ := (judgeImage_frames hj).1 g _ _ hg
      exact ⟨h1, h2, h3, by rw [ha]; exact List.mem_append_right _ (mem_imageFrames es g _ _ hg)⟩
  have unique : ∀ g k c d, (y.entry g).committed = some c → (y.entry k).committed = some d →
      c.frame = d.frame → g = k := fun g k c d hc hd hf => by
    rcases hcase with ⟨-, e⟩ | ⟨l, gen, n, es, hj, -, e⟩ <;> rw [e] at hc hd
    · cases hc
    · have hg := recalledEntry_committed hc
      have hk := recalledEntry_committed hd
      rw [← hf] at hk
      exact (judgeImage_frames hj).2 g k _ _ _ hg hk
  refine ⟨fun w hw g => ?_, fun w hw g c hc => ?_, fun w hw u hu g k c e hc he hf => ?_⟩
  · rcases List.mem_cons.1 hw with rfl | hw'
    · rw [self]; exact claim g
    · rw [other w hw']; exact h.claims w hw' g
  · rcases List.mem_cons.1 hw with rfl | hw'
    · rw [self] at hc
      obtain ⟨h1, h2, -, h4⟩ := fresh g c hc
      exact ⟨h1, h2, h4⟩
    · rw [other w hw'] at hc
      obtain ⟨h1, h2, h3⟩ := h.frames w hw' g c hc
      exact ⟨h1, h2, grows _ h3⟩
  · rcases List.mem_cons.1 hw with rfl | hw' <;> rcases List.mem_cons.1 hu with rfl | hu'
    · rw [self] at hc he
      exact ⟨rfl, unique g k c e hc he hf⟩
    · rw [self] at hc
      rw [other u hu'] at he
      exact absurd (hf ▸ (h.frames u hu' k e he).2.2) (fresh g c hc).2.2.1
    · rw [other w hw'] at hc
      rw [self] at he
      exact absurd (hf ▸ (h.frames w hw' g c hc).2.2) (fresh k e he).2.2.1
    · rw [other w hw'] at hc
      rw [other u hu'] at he
      exact h.once w hw' u hu' g k c e hc he hf

/-- The rebuild of the volume table meets the law that the frame states are rebuilt from (R112). -/
theorem recalledLaw_recallVolumes {s : State} {r : Root} (hr : r.retired = s.engine.retired) :
    RecalledLaw (recallVolumes s r) := by
  have gen : ∀ (l done : List VolumeNo) (x : Rebuild), (l ++ done).Nodup → Rebuilt r.retired x done →
      ∃ y : Rebuild, l.foldl (fun x v => recallVolume r.retired x v r.volumes[v]) x = y ∧
        Rebuilt r.retired y (l.reverse ++ done) := by
    intro l
    induction l with
    | nil => exact fun done x _ hx => ⟨x, rfl, hx⟩
    | cons v l ih =>
      intro done x hn hx
      rw [List.cons_append, List.nodup_cons, List.mem_append, not_or] at hn
      have hstep := hx.volume v r.volumes[v] hn.1.2
      have hn' : (l ++ v :: done).Nodup :=
        (List.perm_middle.nodup_iff).2 (List.nodup_cons.2 ⟨by rw [List.mem_append, not_or]; exact hn.1, hn.2⟩)
      obtain ⟨y, hy, hb⟩ := ih (v :: done) _ hn' hstep
      exact ⟨y, hy, by rw [List.reverse_cons, List.append_assoc]; exact hb⟩
  obtain ⟨y, hy, hb⟩ := gen (ascending 16) [] ⟨s, []⟩ (by rw [List.append_nil]; exact ascending_nodup 16)
    ⟨fun _ h => (by cases h), fun _ h => (by cases h), fun _ h => (by cases h)⟩
  have all : ∀ v : VolumeNo, v ∈ (ascending 16).reverse ++ [] := fun v => by simp [mem_ascending]
  have hret : (recallVolumes s r).engine.retired = r.retired := by rw [recallVolumes_eq, hr]
  have hs : recallVolumes s r = y.state := congrArg Rebuild.state hy
  refine ⟨fun v g => ?_, fun v g c hc => ?_, fun v g w k c d hc hd hf => ?_⟩
  · rw [hs]; exact hb.claims v (all v) g
  · rw [hret]
    rw [hs] at hc
    obtain ⟨h1, h2, -⟩ := hb.frames v (all v) g c hc
    exact ⟨h1, h2⟩
  · rw [hs] at hc hd
    exact hb.once v (all v) w (all w) g k c d hc hd hf

/-! ### The page checks (R113) -/

theorem entryOf_checkPages (s : State) (v : VolumeNo) (g : PageNo) :
    entryOf (checkPages s) v g = (entryOf s v g).checked s := by
  unfold entryOf checkPages
  rw [tab_get]
  cases s.volumes[v] with
  | present r => simp only [Volume.checked, Volume.entry, tab_get]
  | absent => rfl
  | creating _ _ _ => rfl

/-- A check leaves the frame of each committed page, and every claim. -/
theorem checked_committed {e : Entry} {s : State} {c : Committed} (h : (e.checked s).committed = some c) :
    ∃ d, e.committed = some d ∧ d.frame = c.frame := by
  obtain ⟨d, hd, he⟩ := Option.map_eq_some_iff.1 h
  refine ⟨d, hd, ?_⟩
  rw [← he]
  split <;> rfl

theorem RecalledLaw.checkPages {s : State} (h : RecalledLaw s) : RecalledLaw (checkPages s) := by
  have hret : (Machine.checkPages s).engine.retired = s.engine.retired := by rw [checkPages_eq]
  refine ⟨fun v g => ?_, fun v g c hc => ?_, fun v g w k c d hc hd hf => ?_⟩
  · rw [entryOf_checkPages]
    exact h.1 v g
  · rw [entryOf_checkPages] at hc
    obtain ⟨d, hd, e⟩ := checked_committed hc
    rw [← e, hret]
    exact h.2.1 v g d hd
  · rw [entryOf_checkPages] at hc hd
    obtain ⟨c', hc', ec⟩ := checked_committed hc
    obtain ⟨d', hd', ed⟩ := checked_committed hd
    exact h.2.2 v g w k c' d' hc' hd' (by rw [ec, ed, hf])

/-! ### The end of the recall (R114, R116) -/

theorem mem_committedFrames (s : State) (f : FrameNo) :
    f ∈ committedFrames s ↔ ∃ v g c, (entryOf s v g).committed = some c ∧ c.frame = f := by
  unfold committedFrames
  rw [List.mem_filterMap]
  constructor
  · rintro ⟨x, -, hx⟩
    obtain ⟨c, hc, hf⟩ := (frame_eq_some _ f).1 hx
    exact ⟨x.1, x.2, c, hc, hf⟩
  · rintro ⟨v, g, c, hc, hf⟩
    exact ⟨(v, g), mem_allPages _, (frame_eq_some _ f).2 ⟨c, hc, hf⟩⟩

theorem mem_wholePool (f : FrameNo) : f ∈ wholePool ↔ isPool f = true := by
  unfold wholePool
  rw [List.mem_filter]
  exact ⟨fun h => h.2, fun h => ⟨mem_ascending f, h⟩⟩

theorem wholePool_nodup : wholePool.Nodup := by
  unfold wholePool
  exact (ascending_nodup 2048).filter _

/-- The state of each frame after the fifth recall step (R114). -/
theorem frameState_rebuildFrames (s : State) (f : FrameNo) :
    frameState (rebuildFrames s) f = if isPool f = true then some (recalledFrameState s f) else none := by
  unfold frameState poolIndex
  by_cases hf : Config.firstPoolFrame ≤ f.val
  · have hp : isPool f = true := by simpa [isPool] using hf
    rw [dif_pos hf, if_pos hp, Option.map_some]
    unfold rebuildFrames
    rw [tab_get]
    congr 2
    refine Fin.ext ?_
    have hf : 34 ≤ f.val := hf
    change f.val - 34 + 34 = f.val
    omega
  · have hp : ¬ isPool f = true := by simpa [isPool] using hf
    rw [dif_neg hf, if_neg hp]
    rfl

/-- The frames that recall rebuilds meet the law of the pool frames (R114). -/
theorem RecalledLaw.poolLaw {s t : State} (h : RecalledLaw s) (hn : s.engine.retired.Nodup)
    (hp : ∀ f ∈ s.engine.retired, isPool f = true) (hs : t.frameStates = (rebuildFrames s).frameStates)
    (hl : t.freeList = (rebuildFrames s).freeList) (hr : t.engine.retired = s.engine.retired)
    (hv : t.volumes = s.volumes) : PoolLaw t := by
  have ent : ∀ v g, entryOf t v g = entryOf s v g := fun v g => by unfold entryOf; rw [hv]
  have st : ∀ f x, frameState t f = some x ↔ isPool f = true ∧ recalledFrameState s f = x := fun f x => by
    rw [frameState_congr t _ hs, frameState_rebuildFrames]
    split <;> simp_all
  have free : ∀ f, f ∈ t.freeList ↔ isPool f = true ∧ recalledFrameState s f = .free := fun f => by
    rw [hl]
    unfold rebuildFrames
    rw [List.mem_filter, mem_wholePool, decide_eq_true_iff]
  obtain ⟨none, frames, once⟩ := h
  have committed : ∀ f, f ∈ committedFrames s → isPool f = true ∧ f ∉ s.engine.retired := fun f hf => by
    obtain ⟨v, g, c, hc, rfl⟩ := (mem_committedFrames s f).1 hf
    exact frames v g c hc
  refine ⟨?_, by rw [hr]; exact hn, fun f => by rw [st, free], fun f => ?_, fun f => ?_, fun f => ?_, ?_, ?_⟩
  · rw [hl]
    simp only [rebuildFrames]
    exact wholePool_nodup.filter _
  · rw [st, hr]
    unfold recalledFrameState
    constructor
    · rintro ⟨-, hx⟩
      split at hx
      · cases hx
      · split at hx
        · assumption
        · cases hx
    · intro hm
      refine ⟨hp f hm, ?_⟩
      rw [if_neg fun hc => (committed f hc).2 hm, if_pos hm]
  · rw [st]
    simp only [ent]
    rw [← mem_committedFrames]
    unfold recalledFrameState
    constructor
    · rintro ⟨-, hx⟩
      split at hx
      · assumption
      · split at hx <;> cases hx
    · intro hm
      exact ⟨(committed f hm).1, by rw [if_pos hm]⟩
  · rw [st]
    refine ⟨fun hx => ?_, fun ⟨v, g, p, hc⟩ => ?_⟩
    · have := hx.2
      unfold recalledFrameState at this
      split at this
      · cases this
      · split at this <;> cases this
    · rw [ent, none] at hc
      cases hc
  · intro v g w k c d hc hd hf
    rw [ent] at hc hd
    exact once v g w k c d hc hd hf
  · intro v g w k p q f hc
    rw [ent, none] at hc
    cases hc

/-- A state without claims and requests whose frames meet the law. -/
theorem WorkLaw.of_idle {t : State} (pool : PoolLaw t) (hc : ∀ v g, (entryOf t v g).claim = none)
    (hq : t.engine.queue = []) (hf : t.engine.inFlight = none) : WorkLaw t := by
  refine ⟨pool, fun v g c hx => ?_, (holderLaw_iff t).2 fun v => ?_, .rests hf⟩
  · rw [hc] at hx
    cases hx
  · have : requests t = [] := by unfold requests; rw [hq, hf]; rfl
    rw [this]
    exact ⟨Nat.zero_le _, fun r hm => by cases hm⟩

/-! ### The law of the pool frames, happening by happening -/

theorem frameLaw_work {s : State} (h : FrameLaw s) (hw : s.device.works = true) : WorkLaw s := by
  obtain ⟨h1, h2, h3, h4⟩ := h.1 hw
  exact ⟨h1, h2, h3, h4⟩

/-- Outside a recall the law is the one of a device that works. -/
theorem FrameLaw.of_work {t : State} (h : WorkLaw t) (hd : ∀ x, t.device ≠ .recalling x) : FrameLaw t :=
  ⟨fun _ => ⟨h.pool, h.claims, h.holders, h.plan⟩, fun x hx => absurd hx (hd x)⟩

/-- A device that neither works nor is past its first recall step meets the law. -/
theorem FrameLaw.of_off {t : State} (hw : t.device.works = false) (hd : ∀ x, t.device = .recalling x → x = .rootSlots) :
    FrameLaw t :=
  ⟨fun h => (by rw [hw] at h; cases h), fun x hx hn => absurd (hd x hx) hn⟩

theorem works_not_recalling {d : Device} (h : d.works = true) (x : RecallStep) : d ≠ .recalling x := by
  rintro rfl
  cases h

/-- What the recall has rebuilt reads the volume table, the retired table, the selected slot and the working array. -/
theorem FrameLaw.congr {s t : State} (h : FrameLaw s) (hd : t.device = s.device)
    (hw : WorkLaw s → WorkLaw t) (hr : t.engine.retired = s.engine.retired)
    (hs : t.engine.selected = s.engine.selected) (ha : t.array = s.array) (hv : t.volumes = s.volumes) :
    FrameLaw t := by
  refine ⟨fun hx => ?_, fun x hx hn => ?_⟩
  · have := hw (frameLaw_work h (hd ▸ hx))
    exact ⟨this.pool, this.claims, this.holders, this.plan⟩
  · have ent : ∀ v g, entryOf t v g = entryOf s v g := fun v g => by unfold entryOf; rw [hv]
    have root : recalledRoot t = recalledRoot s := by unfold recalledRoot arrayFrame; rw [hs, ha]
    obtain ⟨h1, h2, h3, h4⟩ := h.2 x (hd ▸ hx) hn
    refine ⟨by rw [hr]; exact h1, by rw [hr]; exact h2, fun hx => by rw [hr, root]; exact h3 hx, fun hx => ?_⟩
    unfold RecalledLaw
    simp only [ent, hr]
    exact h4 hx

theorem Act.works {req : Request} {plan : Plan} {step : PlanStep} {s t : State}
    (hr : s.engine.inFlight = some req) (a : Act req plan step s t) : t.device.works = s.device.works := by
  cases a with
  | stays => rfl
  | advances => unfold nextStep; rw [startStep_eq]; rfl
  | fails code f => rw [failUpdate_eq s req _ _ hr]
  | abandons => rw [abandonUpdate_device]
  | relocates t v g f n c hs hn hf ht =>
    rw [(relocate_leaves t req plan v g f n).1]
    exact (spendOne_eq ht).2.2.1
  | retries t f ht => exact (spendOne_eq ht).2.2.1
  | stops f => rw [enterStopped_eq s req f hr]
  | completes slot seq =>
    rw [complete_device]
    split
    · next h => rw [h.2]; rfl
    · rfl

theorem FrameLaw.outcome {s t : State} (o : Outcome s t) (hm : MaskLaw s) (h : FrameLaw s) : FrameLaw t := by
  have ho := o
  rcases o with rfl | ⟨u, ⟨f, hu⟩, ht⟩
  · exact h
  · have he : u.engine = s.engine ∧ u.device = s.device := by rcases hu with rfl | rfl <;> exact ⟨rfl, rfl⟩
    rcases ht with rfl | ⟨req, plan, step, w, hr, hp, hs, ha, rfl⟩
    · rcases hu with rfl | rfl <;>
        exact h.congr rfl (fun hw => hw.congr rfl rfl rfl rfl rfl rfl rfl rfl fun _ hp => hp) rfl rfl rfl rfl
    · have hws := (hm.2.1 req (he.1 ▸ hr)).1
      have hw := (frameLaw_work h hws).outcome ho
      refine .of_work hw fun x => ?_
      have hww : w.device.works = true := by rw [ha.works hr, he.2]; exact hws
      rcases settleSequence_cases w with e | ⟨-, -, -, e⟩ <;> rw [e]
      · exact works_not_recalling hww x
      · simp

theorem works_of_ready {s : State} (h : ready s = true) : s.device.works = true := by
  rcases (ready_iff s).1 h with e | e <;> rw [e] <;> rfl

theorem FrameLaw.effect {s t : State} {p : Port} (hp : s.ports[p].frame.phase.takes = true ∨ ready s = true)
    (e : Effect p s t) (hq : QueueLaw s) (h : FrameLaw s) : FrameLaw t := by
  have hw := works_of_ready (hp.elim (hq.ready_of_takes p) id)
  refine .of_work ((frameLaw_work h hw).effect e hq) ?_
  rw [e.leaves.1]
  exact works_not_recalling hw

theorem removeRequest_device (s : State) (req : Request) : (removeRequest s req).device = s.device := by
  obtain ⟨hd, -⟩ := removed_leaves s req
  rcases removeRequest_cases s req with ⟨code, -, e⟩ | ⟨-, e⟩ <;> rw [e]
  · rw [failRequest_eq]
    exact hd
  · unfold beginUpdate
    rw [startStep_eq]
    exact hd

theorem considerCandidate_works {s : State} (hi : inPowerFail s = true) (c : Candidate) :
    (considerCandidate s c).device.works = true := by
  obtain ⟨b, taken, skipped, e | e⟩ := considerCandidate_cases hi c <;> rw [e]
  · rfl
  · unfold beginUpdate
    rw [startStep_eq, State.modEngine_device, (candidateTaken_leaves s _ c).1]
    rfl

theorem settleSequence_not_recalling {s : State} (h : s.device.works = true) (x : RecallStep) :
    (settleSequence s).device ≠ .recalling x := by
  rcases settleSequence_cases s with e | ⟨-, -, -, e⟩ <;> rw [e]
  · exact works_not_recalling h x
  · simp

theorem WorkLaw.settleSequence {s : State} (h : WorkLaw s) : WorkLaw (settleSequence s) := by
  rcases settleSequence_cases s with e | ⟨-, -, -, e⟩ <;> rw [e]
  · exact h
  · exact h.setDevice _

theorem FrameLaw.recallRoots {s : State} : FrameLaw (recallRoots s) := by
  obtain ⟨u, hu, ⟨slot, r, hsel, e⟩ | e⟩ := recallRoots_cases s <;> rw [e]
  · have hj := selectedRoot_judged hsel
    obtain ⟨-, hnodup, hpool⟩ := retiredOf_fields (judgeRoot_fields hj).2
    refine ⟨fun hw => (by cases hw), fun x hx _ => ⟨hnodup, hpool, fun _ r' hr' => ?_, fun hn => ?_⟩⟩
    · have hr' : judgeRoot (arrayFrame u slot.frame) = some r' := hr'
      rw [hj] at hr'
      cases hr'
      rfl
    · cases hx
      exact absurd rfl hn
  · have ent : ∀ v g, entryOf (rebuildUnformatted u) v g = .hole := fun v g => by
      change Volume.entry (Vector.replicate 16 Volume.absent)[v.val] g = _
      rw [Vector.getElem_replicate]
      rfl
    refine ⟨fun hw => (by cases hw), fun x hx _ => ⟨.nil, fun f hf => (by cases hf), fun hx' => ?_, fun _ => ?_⟩⟩
    · rw [hx'] at hx
      cases hx
    · refine ⟨fun v g => by rw [ent]; rfl, fun v g c hc => ?_, fun v g w k c d hc => ?_⟩
      · rw [ent] at hc; cases hc
      · rw [ent] at hc; cases hc

theorem FrameLaw.endOfRecall {s : State} (h : FrameLaw s) (hd : s.device = .recalling .finish) :
    FrameLaw (endRecall (resetEngine (resetPorts (rebuildFrames s)))) := by
  obtain ⟨hn, hp, -, hl⟩ := h.2 _ hd (by simp)
  have hrec := hl (by simp)
  have he := endOfRecall_engine s
  have hu : (rebuildFrames s).volumes = s.volumes := by unfold rebuildFrames; rfl
  have tables : ∀ u : State, (endRecall (resetEngine (resetPorts u))).frameStates = u.frameStates ∧
      (endRecall (resetEngine (resetPorts u))).freeList = u.freeList ∧
      (endRecall (resetEngine (resetPorts u))).volumes = u.volumes ∧
      ∀ x, (endRecall (resetEngine (resetPorts u))).device ≠ .recalling x := by
    intro u
    refine ⟨rfl, rfl, rfl, fun x => ?_⟩
    unfold endRecall
    simp only
    split <;> simp
  obtain ⟨t1, t2, t3, t4⟩ := tables (rebuildFrames s)
  refine .of_work (.of_idle (hrec.poolLaw hn hp t1 t2 (by rw [he]; rfl) (t3.trans hu)) (fun v g => ?_)
    (by rw [he]) (by rw [he]; rfl)) t4
  unfold entryOf
  rw [t3, hu]
  exact hrec.1 v g

theorem FrameLaw.others {i : Instr} {s t : State} (hi : isInternal i = true) (ho : isOutcome i = false)
    (he : exec i s = .next t) (h : FrameLaw s) : FrameLaw t := by
  have level : ∀ a b : Bool, FrameLaw { s with pfail := a, resetN := b } := fun a b =>
    h.congr rfl (fun hw => hw.congr rfl rfl rfl rfl rfl rfl rfl rfl fun _ hp => hp) rfl rfl rfl rfl
  cases i with
  | requestRemoval =>
    cases he
    split
    · next req hr =>
      have hw := works_of_ready (removable_eq_some hr).2.2.1
      refine .of_work ((frameLaw_work h hw).removeRequest hr) ?_
      rw [removeRequest_device]
      exact works_not_recalling hw
    · exact h
  | durableOnLossCandidate =>
    cases he
    split
    · next c hc =>
      obtain ⟨hi, -⟩ := nextCandidate_eq_some hc
      exact .of_work ((frameLaw_work h (inPowerFail_works hi)).considerCandidate hc).settleSequence
        (settleSequence_not_recalling (considerCandidate_works hi c))
    · exact h
  | pfailAsserted =>
    have enters : s.device.works = true → FrameLaw (enterPowerFail { s with pfail := true }) := fun hw =>
      .of_work ((frameLaw_work (level true s.resetN) hw).enterPowerFail)
        (settleSequence_not_recalling (inPowerFail_works (judgeInFlight_inPowerFail _ _)))
    cases he
    split
    · next hd => exact enters (by rw [hd]; rfl)
    · next hd => exact enters (by rw [hd]; rfl)
    · exact .of_off rfl fun x hx => by cases hx
    · exact level true s.resetN
    · exact level true s.resetN
    · exact h
  | pfailDeasserted =>
    have recalls : ∀ u : State, FrameLaw (beginRecall u) := fun u => .of_off rfl fun x hx => by cases hx; rfl
    cases he
    split
    · exact recalls _
    · split
      · exact level false s.resetN
      · exact recalls _
    all_goals exact level false s.resetN
  | resetNAsserted =>
    cases he
    split
    · exact h
    · exact .of_off rfl fun x hx => by cases hx
  | resetNReleased =>
    cases he
    split
    · split
      · exact level s.pfail false
      · exact .of_off rfl fun x hx => by cases hx; rfl
    all_goals exact level s.pfail false
  | powerUp =>
    cases he
    split
    · exact .of_off rfl fun x hx => by cases hx; rfl
    · exact h
  | lossOfSupply =>
    cases he
    split
    · exact h
    · exact .of_off rfl fun x hx => by cases hx
  | recallRootSlots =>
    cases he
    split
    · exact .recallRoots
    · exact h
  | recallVolumeTable =>
    cases he
    split
    · next hd =>
      split
      · next r hr =>
        obtain ⟨h1, h2, h3, -⟩ := h.2 _ (device_of_recallAt hd) (by simp)
        have hrec := recalledLaw_recallVolumes (h3 rfl r hr)
        have hret : (recallVolumes s r).engine.retired = s.engine.retired := by rw [recallVolumes_eq]
        refine ⟨fun hw => (by cases hw), fun x hx _ => ⟨?_, ?_, fun hx' => ?_, fun _ => hrec⟩⟩
        · exact (congrArg List.Nodup hret).mpr h1
        · exact fun f hf => h2 f (by rw [← hret]; exact hf)
        · rw [hx'] at hx
          cases hx
      · exact h
    · exact h
  | recallPageChecks =>
    cases he
    split
    · next hd =>
      obtain ⟨h1, h2, -, h4⟩ := h.2 _ (device_of_recallAt hd) (by simp)
      have hrec := (h4 (by simp)).checkPages
      have hret : (checkPages s).engine.retired = s.engine.retired := by rw [checkPages_eq]
      refine ⟨fun hw => (by cases hw), fun x hx _ => ⟨?_, ?_, fun hx' => ?_, fun _ => hrec⟩⟩
      · exact (congrArg List.Nodup hret).mpr h1
      · exact fun f hf => h2 f (by rw [← hret]; exact hf)
      · rw [hx'] at hx
        cases hx
    · exact h
  | recallEnd =>
    cases he
    split
    · next hd => exact h.endOfRecall (device_of_recallAt hd)
    · exact h
  | pageStepPass | pageStepFail | mapStepPass | systemAreaProgramFail | rootStepPass => cases ho
  | _ => cases hi

/-- The third part of O57: with the laws of the mask and of the queue, every step keeps the law of the pool frames. -/
theorem frameLaw_step {s t : State} (hm : MaskLaw s) (hq : QueueLaw s) (hf : FrameLaw s) (h : step s = .next t) :
    FrameLaw t :=
  (step_keeps (fun u => MaskLaw u ∧ QueueLaw u ∧ FrameLaw u) ⟨hm, hq, hf⟩ h
    (fun q ⟨hm, hq, hf⟩ => ⟨hm.quiet q, hq.quiet q, hf.congr q.device (·.quiet q) (by rw [q.engine])
      (by rw [q.engine]) q.array q.volumes⟩)
    (fun hp e ⟨hm, hq, hf⟩ => ⟨hm.effect e, hq.effect hp e, hf.effect hp e hq⟩)
    (fun o ⟨hm, hq, hf⟩ => ⟨hm.outcome o, hq.outcome o, hf.outcome o hm⟩)
    fun _ hi ho he ⟨hm, hq, hf⟩ => ⟨hm.others hi ho he, hq.others hi ho he, hf.others hi ho he⟩).2.2

/-- Settles O57: each of the three laws is kept, the one of the pool frames together with the other two. -/
theorem settingsAndWearAreKept : Obligations.SettingsAndWearAreKept :=
  ⟨fun _ _ => maskLaw_step, fun _ _ => retiredLaw_step, fun _ _ => frameLaw_step⟩

end Sys2Proof.Machine
end


section
/-! A LOCKED_FROZEN volume keeps its map (O59). -/

namespace Sys2Proof.Machine

/-! ### The law in the words of its proof -/

/-- Volume `v` is LOCKED_FROZEN with the map that `r` holds, and nothing is about to change it. -/
def StaysLocked (v : VolumeNo) (r : VolumeRecord) (s : State) : Prop := ∃ q, LockedLaw v q s ∧ sameMap r q

theorem sameMap_refl (r : VolumeRecord) : sameMap r r := ⟨rfl, rfl, rfl, rfl, rfl, rfl, rfl⟩

variable {v : VolumeNo} {r : VolumeRecord} {s t : State}

/-- The law reads the volume, the requests and the plan in flight. -/
theorem LockedLaw.mono (h : LockedLaw v r s) (hv : t.volumes[v] = s.volumes[v])
    (hr : ∀ x ∈ requests t, x.kind.volume = some v → x ∈ requests s ∨ x.kind.allowedOnLocked = true)
    (hp : ∀ plan, t.engine.plan = some plan → plan.mapOf v = none) : LockedLaw v r t := by
  obtain ⟨hs, hst, hc, hn, hq, -⟩ := h
  exact ⟨hv.trans hs, hst, hc, hn, fun x hx hxv => (hr x hx hxv).elim (fun hm => hq x hm hxv) id, hp⟩

theorem LockedLaw.no_map (h : LockedLaw v r s) (plan : Plan) (hp : s.engine.plan = some plan) :
    plan.mapOf v = none := by
  obtain ⟨-, -, -, -, -, hm⟩ := h
  exact hm plan hp

theorem LockedLaw.no_claim (h : LockedLaw v r s) (g : PageNo) : (entryOf s v g).claim = none := by
  obtain ⟨hs, -, hc, -⟩ := h
  unfold entryOf
  rw [hs]
  exact hc g

theorem StaysLocked.mono (h : StaysLocked v r s) (hv : t.volumes[v] = s.volumes[v])
    (hr : ∀ x ∈ requests t, x.kind.volume = some v → x ∈ requests s ∨ x.kind.allowedOnLocked = true)
    (hp : ∀ plan, t.engine.plan = some plan → plan.mapOf v = none) : StaysLocked v r t :=
  h.imp fun _ ⟨hl, hm⟩ => ⟨hl.mono hv hr hp, hm⟩

theorem StaysLocked.no_map (h : StaysLocked v r s) (plan : Plan) (hp : s.engine.plan = some plan) :
    plan.mapOf v = none :=
  h.elim fun _ hl => hl.1.no_map plan hp

theorem StaysLocked.no_claim (h : StaysLocked v r s) (g : PageNo) : (entryOf s v g).claim = none :=
  h.elim fun _ hl => hl.1.no_claim g

/-- With the same requests and plan the law reads the volume alone. -/
theorem StaysLocked.congr (h : StaysLocked v r s) (hv : t.volumes[v] = s.volumes[v])
    (hq : t.engine.queue = s.engine.queue) (hf : t.engine.inFlight = s.engine.inFlight)
    (hp : t.engine.plan = s.engine.plan) : StaysLocked v r t :=
  h.mono hv (fun x hx _ => .inl (by unfold requests at hx ⊢; rwa [hq, hf] at hx)) fun plan hx => h.no_map plan (hp ▸ hx)

/-- With fewer requests and no plan it does too. -/
theorem StaysLocked.rests (h : StaysLocked v r s) (hv : t.volumes[v] = s.volumes[v])
    (hq : t.engine.queue.Sublist s.engine.queue) (hf : t.engine.inFlight = none) (hp : t.engine.plan = none) :
    StaysLocked v r t := by
  refine h.mono hv (fun x hx _ => .inl ?_) fun plan hx => by rw [hp] at hx; cases hx
  unfold requests at hx ⊢
  rw [hf] at hx
  exact List.mem_append_left _ (hq.subset (by simpa using hx))

/-- A LOCKED_FROZEN volume is not in CHANGING, so no return changes it. -/
theorem StaysLocked.returns (h : StaysLocked v r s) (l : List Request) :
    (l.foldl (fun t r => returnVolume t r.kind) s).volumes[v] = s.volumes[v] := by
  obtain ⟨q, ⟨hs, hst, -⟩, -⟩ := h
  rw [returnVolumes_at, hs]
  exact returnedBy_settled l v q (by rw [hst]; rfl)

theorem StaysLocked.return (h : StaysLocked v r s) (req : Request) :
    (returnVolume s req.kind).volumes[v] = s.volumes[v] :=
  h.returns [req]

theorem StaysLocked.quiet (q : Quiet s t) (h : StaysLocked v r s) : StaysLocked v r t :=
  h.congr (by rw [q.volumes]) (by rw [q.engine]) (by rw [q.engine]) (by rw [q.engine])

/-! ### The effects of the ports -/

theorem setEntry_other (s : State) (v w : VolumeNo) (g : PageNo) (e : Entry) (h : w ≠ v) :
    (s.setEntry w g e).volumes[v] = s.volumes[v] := by
  unfold State.setEntry State.modVolume
  split
  · rw [State.setVolume_volumes, upd_get_ne _ _ _ _ h]
  · rfl

/-- An entry without a claim is released as it stands. -/
theorem release_unclaimed (e : Entry) (p : Port) (h : e.claim = none) : e.release p = e := by
  unfold Entry.release Entry.claimedBy Entry.claimOf
  rw [h]
  rfl

theorem StaysLocked.releaseClaims (h : StaysLocked v r s) (p : Port) : StaysLocked v r (releaseClaims s p) := by
  have he := releaseClaims_engine s p
  refine h.congr ?_ (by rw [he]) (by rw [he]) (by rw [he])
  obtain ⟨q, ⟨hs, -, hc, -⟩, -⟩ := h
  have ent : (tab fun g => q.entries[g].release p) = q.entries :=
    table_ext fun g => by rw [tab_get, release_unclaimed _ _ (hc g)]
  rw [releaseClaims_volume, hs]
  simp only [Volume.release, ent]

/-- No claim is made on a LOCKED_FROZEN volume (R46). -/
theorem LockedLaw.refuses_claim (h : LockedLaw v r s) (p : Port) (g : PageNo) : claimChecks s p v g ≠ none := by
  intro hk
  obtain ⟨h1, -⟩ := Option.or_eq_none_iff.1 hk
  obtain ⟨hs, hst, -⟩ := h
  unfold claimVolumeCheck Volume.status at h1
  rw [hs] at h1
  simp only [hst] at h1
  cases h1

theorem claimOf_of_claim_none {e : Entry} (h : e.claim = none) (p : Port) : e.claimOf p = none := by
  unfold Entry.claimOf
  rw [h]

/-- The map unit leaves a volume without claims that refuses them. -/
theorem StaysLocked.writes (h : StaysLocked v r s) {p : Port} {w : VolumeNo} {g : PageNo} {off : Fin 256} {b : Byte}
    (hw : requestWrite s p w g off b = .done t) : StaysLocked v r t := by
  obtain ⟨-, he, -⟩ := requestWrite_leaves hw
  have shadow : w ≠ v → ∀ fill, (shadowPage s p w g fill).volumes[v] = s.volumes[v] := fun hne fill => by
    cases hl : s.freeList with
    | nil => unfold shadowPage takeFree; rw [hl]
    | cons f rest =>
      rw [shadowPage_eq s p w g fill f rest hl, setEntry_other _ _ _ _ _ hne, setFrameState_eq]
      rfl
  have none : w = v → (entryOf s w g).claimOf p = none := by
    rintro rfl
    exact claimOf_of_claim_none (h.no_claim g) p
  refine h.congr ?_ (by rw [he]) (by rw [he]) (by rw [he])
  rcases requestWrite_done hw with ⟨f, -, rfl⟩ | ⟨hc, -, rfl⟩ | ⟨-, hk, -, rfl⟩ <;> rw [placeByte_eq]
  · refine shadow (fun hwv => ?_) _
    rw [none hwv] at hc
    cases hc
  · refine shadow (fun hwv => ?_) _
    subst hwv
    obtain ⟨q, hl, -⟩ := h
    exact hl.refuses_claim p g hk

theorem StaysLocked.punches (h : StaysLocked v r s) {p : Port} {w : VolumeNo} {g : PageNo}
    (hw : requestPunch s p w g = .done t) : StaysLocked v r t := by
  obtain ⟨-, he, -⟩ := requestPunch_leaves hw
  have none : w = v → (entryOf s w g).claimOf p = none := by
    rintro rfl
    exact claimOf_of_claim_none (h.no_claim g) p
  have hole : w ≠ v → (holePage s p w g).volumes[v] = s.volumes[v] := setEntry_other s v w g _
  refine h.congr ?_ (by rw [he]) (by rw [he]) (by rw [he])
  rcases requestPunch_done hw with rfl | ⟨f, hc, rfl⟩ | ⟨-, hk, rfl⟩
  · rfl
  · rw [(freeFrames_leaves _ _).1]
    refine hole fun hwv => ?_
    rw [none hwv] at hc
    cases hc
  · refine hole fun hwv => ?_
    subst hwv
    obtain ⟨q, hl, -⟩ := h
    exact hl.refuses_claim p g hk

/-- A request joins the queue: on this volume it is one that R141 allows. -/
theorem StaysLocked.append (h : StaysLocked v r s) (req : Request)
    (he : t.engine = { s.engine with queue := s.engine.queue ++ [req] }) (hv : t.volumes[v] = s.volumes[v])
    (hk : req.kind.volume = some v → req.kind.allowedOnLocked = true) : StaysLocked v r t := by
  refine h.mono hv (fun x hx hxv => ?_) fun plan hp => h.no_map plan (by rw [he] at hp; exact hp)
  have perm : (requests t).Perm (req :: requests s) := by
    unfold requests
    rw [he, List.append_assoc]
    exact List.perm_middle
  rcases List.mem_cons.1 (perm.subset hx) with rfl | hm
  · exact .inr (hk hxv)
  · exact .inl hm

theorem volume_of_changes {k : RequestKind} {w : VolumeNo} (h : k.changes w = true) : k.volume = some w := by
  cases k <;> simp_all [RequestKind.changes, RequestKind.volume]

theorem StaysLocked.effect {p : Port} (e : Effect p s t) (h : StaysLocked v r s) : StaysLocked v r t := by
  obtain ⟨q, hl, -⟩ := id h
  obtain ⟨hs, hst, -⟩ := hl
  cases e with
  | opens | ends => exact h.congr rfl rfl rfl rfl
  | queues ht ha => exact h.append ⟨p, .commit⟩ rfl rfl fun hx => by cases hx
  | drops =>
    have hw : StaysLocked v r (withdrawCommit s p) :=
      h.mono rfl (fun x hx _ => .inl ((List.filter_sublist.append (.refl _)).subset hx)) h.no_map
    unfold abandonTxn
    split
    · exact (h.releaseClaims p).congr rfl rfl rfl rfl
    · exact (hw.releaseClaims p).congr rfl rfl rfl rfl
    · exact h.congr rfl rfl rfl rfl
    · exact h
    · exact h
  | expires ht => exact (h.releaseClaims p).congr rfl rfl rfl rfl
  | accepts kind hn hc hv hl => exact h.append ⟨p, kind⟩ rfl rfl fun hx => hl v q hx hs hst
  | creates w n rights k hn hv =>
    have hne : w ≠ v := by
      rintro rfl
      rw [hv] at hs
      cases hs
    exact h.append ⟨p, .create w n rights k⟩ rfl (upd_get_ne _ _ _ _ hne) fun hx => absurd (Option.some.inj hx) hne
  | changes w x op ret kind hn hv hx hl hk hd =>
    have hne : w ≠ v := by
      rintro rfl
      rw [hv] at hs
      cases hs
      exact hl hst
    refine h.append ⟨p, kind⟩ rfl (upd_get_ne _ _ _ _ hne) fun hy => absurd ?_ hne
    exact Option.some.inj ((volume_of_changes hk).symm.trans hy)
  | writes t w g off b ht hw => exact h.writes hw
  | punches t w g ht hw => exact h.punches hw

/-! ### Plans -/

/-- The map a plan step writes for a volume. -/
def PlanStep.mapFor (v : VolumeNo) : PlanStep → Option (MapSlot × Word)
  | .map w slot gen _ => if w = v then some (slot, gen) else none
  | .page _ _ _ _ _ | .root _ _ _ => none

theorem mapOf_eq (plan : Plan) (v : VolumeNo) : plan.mapOf v = plan.steps.findSome? (PlanStep.mapFor v) := by
  unfold Plan.mapOf
  congr 1
  funext x
  cases x <;> rfl

/-- A step replaced by one that writes the same map leaves the maps of a plan. -/
theorem mapOf_setStep {plan : Plan} {old new : PlanStep} (ho : plan.step = some old)
    (hm : new.mapFor v = old.mapFor v) : (plan.setStep new).mapOf v = plan.mapOf v := by
  have ho : plan.steps[plan.current]? = some old := ho
  obtain ⟨hlt, hget⟩ := List.getElem?_eq_some_iff.1 ho
  have hmap : (plan.steps.set plan.current new).map (PlanStep.mapFor v) = plan.steps.map (PlanStep.mapFor v) := by
    rw [List.map_set, hm, ← hget, ← List.getElem_map (PlanStep.mapFor v) (h := by simpa using hlt),
      List.set_getElem_self]
  have := congrArg (List.findSome? id) hmap
  rw [List.findSome?_map, List.findSome?_map] at this
  rw [mapOf_eq, mapOf_eq]
  exact this

theorem mapOf_none {l : List PlanStep} {i : Nat} (h : ∀ x ∈ l, x.mapFor v = none) : Plan.mapOf ⟨l, i⟩ v = none := by
  rw [mapOf_eq]
  exact List.findSome?_eq_none_iff.2 h

/-- The plan that a request begins programs no map of a volume without claims, but for a RESIZE of it. -/
theorem mapOf_buildPlan (p : Port) (kind : RequestKind) (hc : ∀ g, (entryOf s v g).claim = none)
    (hk : ∀ n, kind ≠ .resize v n) : (buildPlan s p kind).mapOf v = none := by
  have root : ∀ x ∈ [rootStep s], x.mapFor v = none := fun x hx => by
    rw [List.mem_singleton.1 hx]
    rfl
  unfold buildPlan
  refine mapOf_none fun x hx => ?_
  cases kind with
  | commit =>
    rcases List.mem_append.1 hx with hx | hx
    · rcases List.mem_append.1 hx with hx | hx
      · obtain ⟨y, -, hy⟩ := List.mem_filterMap.1 hx
        obtain ⟨f, -, rfl⟩ := Option.map_eq_some_iff.1 hy
        rfl
      · obtain ⟨w, -, hw⟩ := List.mem_filterMap.1 hx
        split at hw
        · split at hw
          · next ht =>
            cases hw
            refine if_neg ?_
            rintro rfl
            unfold touches at ht
            obtain ⟨g, -, hg⟩ := List.any_eq_true.1 ht
            unfold Entry.claimedBy at hg
            rw [claimOf_of_claim_none (hc g)] at hg
            cases hg
          · cases hw
        · cases hw
    · exact root x hx
  | format => rw [List.mem_singleton.1 hx]; rfl
  | resize w n =>
    rcases List.mem_append.1 hx with hx | hx
    · unfold resizeSteps at hx
      split at hx
      · split at hx
        · rw [List.mem_singleton.1 hx]
          refine if_neg ?_
          rintro rfl
          exact hk n rfl
        · cases hx
      · cases hx
    · exact root x hx
  | _ => exact root x hx

theorem StaysLocked.startStep (h : StaysLocked v r s) : StaysLocked v r (startStep s) := by
  have maps : ∀ plan, (Machine.startStep s).engine.plan = some plan → plan.mapOf v = none := by
    intro plan hp
    cases hr : s.engine.inFlight with
    | none =>
      have e : Machine.startStep s = s := by
        unfold Machine.startStep
        rw [hr]
        split
        · next hx => cases hx
        · rfl
      exact h.no_map plan (e ▸ hp)
    | some req =>
      cases hpl : s.engine.plan with
      | none =>
        have e : Machine.startStep s = s := by unfold Machine.startStep; rw [hpl]
        exact h.no_map plan (e ▸ hp)
      | some old =>
        rcases startStep_plan hr hpl with e | ⟨w, g, f, n, c, d, hstep, e⟩ <;> rw [e] at hp <;> cases hp
        · exact h.no_map _ hpl
        · rw [mapOf_setStep hstep (by rfl)]
          exact h.no_map old hpl
  refine h.mono (by rw [startStep_eq]) (fun x hx _ => .inl ?_) maps
  rw [startStep_eq] at hx
  exact hx

/-! ### The acts of the engine -/

theorem StaysLocked.abandonUpdate (h : StaysLocked v r s) : StaysLocked v r (abandonUpdate s) := by
  cases hr : s.engine.inFlight with
  | none => unfold Machine.abandonUpdate; rw [hr]; exact h
  | some req =>
    rw [abandonUpdate_eq s req hr]
    exact h.rests (h.return req) (.refl _) rfl rfl

theorem StaysLocked.failUpdate (h : StaysLocked v r s) {req : Request} (hr : s.engine.inFlight = some req) (code : Code)
    (step : Option FailedStep) : StaysLocked v r (failUpdate s code step) := by
  rw [failUpdate_eq s req _ _ hr]
  exact h.rests (h.return req) (.refl _) rfl rfl

theorem StaysLocked.spendOne (h : StaysLocked v r s) (hs : spendOne s = some t) : StaysLocked v r t := by
  rw [(spendOne_eq hs).1]
  exact h.congr rfl rfl rfl rfl

/-- A relocation renames a shadow, which a volume without claims has not (R87). -/
theorem StaysLocked.relocate (h : StaysLocked v r s) {req : Request} {plan : Plan}
    (hp : s.engine.plan = some plan) {w : VolumeNo} {g : PageNo} {f : FrameNo} {n : Nat} {c : Option Half}
    (hs : plan.step = some (.page w g f n c)) (hf : s.freeList ≠ []) :
    StaysLocked v r (relocate s req plan w g f n) := by
  obtain ⟨-, -, hq, hi, -, -⟩ := relocate_leaves s req plan w g f n
  obtain ⟨new, rest, hl⟩ := List.exists_cons_of_ne_nil hf
  have facts : (∃ d, (Machine.relocate s req plan w g f n).engine.plan =
      some (plan.setStep (.page w g new (n + 1) d))) ∧
      (Machine.relocate s req plan w g f n).volumes[v] = s.volumes[v] := by
    unfold Machine.relocate takeFree
    rw [retire_eq]
    simp only [hl]
    refine ⟨⟨_, rfl⟩, ?_⟩
    change (renameShadow _ _ _ _ _).volumes[v] = _
    rw [setFrameState_eq]
    unfold renameShadow
    split
    · next hx =>
      refine (setEntry_other _ v w g _ ?_).trans rfl
      rintro rfl
      have hx : (entryOf s w g).shadowOf req.port = some _ := hx
      unfold Entry.shadowOf at hx
      rw [claimOf_of_claim_none (h.no_claim g)] at hx
      cases hx
    · rfl
  obtain ⟨⟨d, hplan⟩, hv⟩ := facts
  refine h.mono hv (fun x hx _ => .inl (by unfold requests at hx ⊢; rwa [hq, hi] at hx)) fun pl hx => ?_
  rw [hplan] at hx
  cases hx
  rw [mapOf_setStep hs (by rfl)]
  exact h.no_map plan hp

theorem modVolume_other (s : State) (v w : VolumeNo) (f : VolumeRecord → VolumeRecord) (h : w ≠ v) :
    (s.modVolume w f).volumes[v] = s.volumes[v] := by
  unfold State.modVolume
  split
  · rw [State.setVolume_volumes, upd_get_ne _ _ _ _ h]
  · rfl

/-- The volume after the completion of a request: without claims and maps of its own it keeps its map (R93, R141). -/
theorem LockedLaw.applyEffects (h : LockedLaw v r s) (req : Request) (plan : Plan) (hm : plan.mapOf v = none)
    (hk : req.kind.volume = some v → req.kind.allowedOnLocked = true) :
    ∃ q, (applyEffects s req plan).volumes[v] = .present q ∧ sameMap r q := by
  obtain ⟨hs, hst, hc, hn, -⟩ := h
  have other : ∀ w f, w ≠ v → (s.modVolume w f).volumes[v] = s.volumes[v] := fun w f hne => modVolume_other s v w f hne
  have own : ∀ f, (s.modVolume v f).volumes[v] = .present (f r) := fun f => by
    unfold State.modVolume
    rw [hs]
    exact upd_get_self ..
  have named : ∀ w, req.kind.volume = some w → req.kind.allowedOnLocked = false → w ≠ v := by
    rintro w hw ha rfl
    rw [hk hw] at ha
    cases ha
  unfold Machine.applyEffects
  cases hkind : req.kind with
  | commit =>
    refine ⟨r, ?_, sameMap_refl r⟩
    have ent : (tab fun g => r.entries[g].commit req.port (plan.checkOf v g)) = r.entries :=
      table_ext fun g => by
        rw [tab_get]
        unfold Entry.commit
        rw [claimOf_of_claim_none (hc g)]
    unfold completeCommit
    rw [State.modTxn_volumes, tab_get, hs]
    simp only [Volume.commit, ent, hm, VolumeRecord.withMap, VolumeRecord.withEntries]
    rw [← hn]
  | create w n rights k =>
    exact ⟨r, (upd_get_ne _ _ _ _ (named w (by rw [hkind]; rfl) (by rw [hkind]; rfl))).trans hs, sameMap_refl r⟩
  | delete w =>
    refine ⟨r, ?_, sameMap_refl r⟩
    unfold completeDelete
    rw [State.setVolume_volumes, upd_get_ne _ _ _ _ (named w (by rw [hkind]; rfl) (by rw [hkind]; rfl)),
      (freeFrames_leaves _ _).1, hs]
  | resize w n =>
    refine ⟨r, ?_, sameMap_refl r⟩
    have hne := named w (by rw [hkind]; rfl) (by rw [hkind]; rfl)
    refine (modVolume_other (freeFrames s (framesFrom s w n)) v w _ hne).trans ?_
    rw [(freeFrames_leaves _ _).1, hs]
  | freeze w | lock w | thaw w =>
    exact ⟨r, (other w _ (named w (by rw [hkind]; rfl) (by rw [hkind]; rfl))).trans hs, sameMap_refl r⟩
  | setRights w p x =>
    by_cases hw : w = v
    · subst hw
      exact ⟨_, own _, rfl, rfl, rfl, rfl, rfl, rfl, rfl⟩
    · exact ⟨r, (other w _ hw).trans hs, sameMap_refl r⟩
  | pin w | unpin w =>
    by_cases hw : w = v
    · subst hw
      exact ⟨_, own _, rfl, rfl, rfl, rfl, rfl, rfl, rfl⟩
    · exact ⟨r, (other w _ hw).trans hs, sameMap_refl r⟩
  | format | configPort p q k | configDevice n => exact ⟨r, hs, sameMap_refl r⟩

theorem sameMap.trans {a b c : VolumeRecord} (h : sameMap a b) (k : sameMap b c) : sameMap a c := by
  obtain ⟨h1, h2, h3, h4, h5, h6, h7⟩ := h
  obtain ⟨k1, k2, k3, k4, k5, k6, k7⟩ := k
  exact ⟨k1.trans h1, k2.trans h2, k3.trans h3, k4.trans h4, k5.trans h5, k6.trans h6, k7.trans h7⟩

theorem StaysLocked.complete (h : StaysLocked v r s) {req : Request} {plan : Plan} (hr : s.engine.inFlight = some req)
    (hp : s.engine.plan = some plan) (slot : RootSlot) (seq : Word) :
    StaysLocked v r (complete s req plan slot seq) := by
  obtain ⟨q, hl, hmap⟩ := h
  have he := complete_engine s req plan slot seq
  obtain ⟨hs, hst, hc, hn, hq, hm⟩ := id hl
  have hroot : LockedLaw v q (rooted s slot seq) := hl.mono rfl (fun x hx _ => .inl hx) hm
  obtain ⟨q', hq', hmap'⟩ := hroot.applyEffects req plan (hm plan hp)
    fun hv => hq req (List.mem_append_right _ (by rw [hr]; simp)) hv
  refine ⟨q', ⟨?_, ?_, ?_, ?_, fun x hx hv => ?_, fun pl hpl => ?_⟩, hmap.trans hmap'⟩
  · rw [(complete_tables s req plan slot seq).1]
    exact hq'
  · obtain ⟨h1, -⟩ := hmap'
    rw [h1, hst]
  · obtain ⟨-, -, -, -, -, -, h7⟩ := hmap'
    rw [h7]
    exact hc
  · obtain ⟨-, -, -, -, -, h6, h7⟩ := hmap'
    rw [h6, h7, hn]
  · rw [he] at hx
    exact hq x (List.mem_append_left _ (by simpa [Engine.ended] using hx)) hv
  · rw [he] at hpl
    cases hpl

theorem mapFor_retried (step : PlanStep) : step.retried.mapFor v = step.mapFor v := by
  cases step <;> rfl

theorem StaysLocked.act {req : Request} {plan : Plan} {step : PlanStep}
    (hr : s.engine.inFlight = some req) (hp : s.engine.plan = some plan) (hs : plan.step = some step)
    (a : Act req plan step s t) (h : StaysLocked v r s) : StaysLocked v r t := by
  cases a with
  | stays => exact h
  | advances =>
    refine StaysLocked.startStep (h.mono rfl (fun x hx _ => .inl hx) fun pl hpl => ?_)
    obtain ⟨old, ho, rfl⟩ := Option.map_eq_some_iff.1 hpl
    exact h.no_map old ho
  | fails code f => exact h.failUpdate hr code f
  | abandons => exact h.abandonUpdate
  | relocates t w g f n c hstep hn hf ht =>
    subst hstep
    have e := (spendOne_eq ht).1
    exact (h.spendOne ht).relocate (by rw [e]; exact hp) hs (by rw [e]; exact hf)
  | retries t f ht =>
    have e := (spendOne_eq ht).1
    refine (h.spendOne ht).mono rfl (fun x hx _ => .inl hx) fun pl hpl => ?_
    cases hpl
    rw [mapOf_setStep hs (mapFor_retried step)]
    exact h.no_map plan hp
  | stops f =>
    rw [enterStopped_eq s req f hr]
    exact h.rests (h.returns (req :: s.engine.queue)) (List.nil_sublist _) rfl rfl
  | completes slot seq => exact h.complete hr hp slot seq

theorem StaysLocked.settleSequence (h : StaysLocked v r s) : StaysLocked v r (settleSequence s) := by
  rcases settleSequence_cases s with e | ⟨-, -, -, e⟩ <;> rw [e]
  · exact h
  · exact h.congr rfl rfl rfl rfl

theorem StaysLocked.outcome (o : Outcome s t) (h : StaysLocked v r s) : StaysLocked v r t := by
  rcases o with rfl | ⟨u, ⟨f, hu⟩, ht⟩
  · exact h
  · have hm : StaysLocked v r u := by rcases hu with rfl | rfl <;> exact h.congr rfl rfl rfl rfl
    rcases ht with rfl | ⟨req, plan, step, w, hr, hp, hs, ha, rfl⟩
    · exact hm
    · exact (StaysLocked.act hr hp hs ha hm).settleSequence

/-! ### Removal, candidates, lines -/

/-- A request begins that was waiting, or that is a COMMIT. -/
theorem StaysLocked.begins {u : State} (h : StaysLocked v r s) (req : Request)
    (hv : u.volumes = s.volumes) (hq : u.engine.queue.Sublist s.engine.queue)
    (hr : req ∈ requests s ∨ req.kind = .commit) : StaysLocked v r (beginUpdate u req) := by
  have hc : ∀ g, (entryOf u v g).claim = none := fun g => by
    unfold entryOf
    rw [hv]
    exact h.no_claim g
  have hk : ∀ n, req.kind ≠ .resize v n := fun n hn => by
    rcases hr with hr | hr
    · obtain ⟨q, ⟨-, -, -, -, ha, -⟩, -⟩ := h
      have := ha req hr (by rw [hn]; rfl)
      rw [hn] at this
      cases this
    · rw [hr] at hn
      cases hn
  refine StaysLocked.startStep (h.mono (congrArg (fun x : Vector Volume 16 => x[v]) hv) (fun x hx hxv => ?_)
    fun pl hpl => ?_)
  · rcases List.mem_append.1 hx with hx | hx
    · exact .inl (List.mem_append_left _ (hq.subset hx))
    · have hx : x = req := by
        have : x ∈ (some req).toList := hx
        simpa using this
      subst hx
      rcases hr with hr | hr
      · exact .inl hr
      · rw [hr] at hxv
        cases hxv
  · cases hpl
    exact mapOf_buildPlan req.port req.kind hc hk

theorem StaysLocked.removeRequest (h : StaysLocked v r s) {req : Request} (hr : removable s = some req) :
    StaysLocked v r (removeRequest s req) := by
  obtain ⟨-, hf, -, rest, hq⟩ := removable_eq_some hr
  obtain ⟨-, he, hv, -⟩ := removed_leaves s req
  have hrest : (removed s req).engine.queue.Sublist s.engine.queue := by
    rw [he]
    exact List.drop_sublist 1 _
  rcases removeRequest_cases s req with ⟨code, -, e⟩ | ⟨-, e⟩ <;> rw [e]
  · rw [failRequest_eq]
    refine h.rests ?_ hrest rfl rfl
    have := h.return req
    rw [returnVolume_at] at this
    refine (returnVolume_at (removed s req) req.kind v).trans ?_
    rw [hv]
    exact this
  · exact h.begins req hv hrest (.inl (List.mem_append_left _ (by rw [hq]; exact List.mem_cons_self)))

theorem StaysLocked.considerCandidate (h : StaysLocked v r s) {c : Candidate} (hc : nextCandidate s = some c) :
    StaysLocked v r (considerCandidate s c) := by
  obtain ⟨hi, -⟩ := nextCandidate_eq_some hc
  obtain ⟨b, taken, skipped, e | e⟩ := considerCandidate_cases hi c <;> rw [e]
  · exact h.congr rfl rfl rfl rfl
  · obtain ⟨-, -, hv, -⟩ := candidateTaken_leaves s (.powerFail b taken skipped) c
    refine h.begins ⟨c.port, .commit⟩ hv ?_ (.inr rfl)
    cases c with
    | queued p => exact List.filter_sublist
    | opened p => exact .refl _

theorem StaysLocked.enterPowerFail (h : StaysLocked v r s) : StaysLocked v r (enterPowerFail s) := by
  refine StaysLocked.settleSequence ?_
  rw [judgeInFlight_eq]
  have hl : StaysLocked v r (closeLinks s) := h.congr rfl rfl rfl rfl
  have hv : (discardAdmin (closeLinks s)).volumes[v] = (closeLinks s).volumes[v] :=
    hl.returns ((closeLinks s).engine.queue.filter Request.isAdmin)
  rw [discardAdmin_eq]
  refine hl.mono hv (fun x hx _ => .inl ?_) hl.no_map
  exact (List.filter_sublist.append (.refl _)).subset hx

/-- All that the drop of the update in flight does (R101). -/
theorem dropUpdate_eq (s : State) : dropUpdate s = { s with
    engine := if s.engine.state = .stopped then s.engine else s.engine.ended } := rfl

theorem StaysLocked.others {i : Instr} (hi : isInternal i = true) (ho : isOutcome i = false)
    (hb : rebuildsVolumes i = false) (he : exec i s = .next t) (h : StaysLocked v r s) : StaysLocked v r t := by
  cases i with
  | requestRemoval =>
    cases he
    split
    · next req hr => exact h.removeRequest hr
    · exact h
  | durableOnLossCandidate =>
    cases he
    split
    · next c hc => exact (h.considerCandidate hc).settleSequence
    · exact h
  | pfailAsserted =>
    have ht : StaysLocked v r { s with pfail := true } := h.congr rfl rfl rfl rfl
    cases he
    split
    · exact ht.enterPowerFail
    · exact ht.enterPowerFail
    all_goals exact h.congr rfl rfl rfl rfl
  | pfailDeasserted =>
    have ht : StaysLocked v r { s with pfail := false } := h.congr rfl rfl rfl rfl
    cases he
    split
    · exact ht.abandonUpdate.congr rfl rfl rfl rfl
    · split <;> exact h.congr rfl rfl rfl rfl
    all_goals exact h.congr rfl rfl rfl rfl
  | resetNAsserted =>
    cases he
    split
    · exact h
    · have hc : StaysLocked v r (cutProgram s) := by
        rw [cutProgram_eq]
        exact h.congr rfl rfl rfl rfl
      generalize cutProgram s = u at hc
      have drop : ∀ w : State, StaysLocked v r w → StaysLocked v r (dropUpdate w) := fun w hw => by
        rw [dropUpdate_eq]
        split
        · exact hw
        · exact hw.rests rfl (.refl _) rfl rfl
      exact (drop _ (hc.congr rfl rfl rfl rfl : StaysLocked v r (closeLinks u))).congr rfl rfl rfl rfl
  | resetNReleased =>
    cases he
    split
    · split <;> exact h.congr rfl rfl rfl rfl
    all_goals exact h.congr rfl rfl rfl rfl
  | recallEnd =>
    cases he
    split
    · have e := endOfRecall_engine s
      have hv : (rebuildFrames s).volumes = s.volumes := by unfold rebuildFrames; rfl
      have ends : ∀ u : State, (endRecall (resetEngine (resetPorts u))).volumes = u.volumes := fun _ => rfl
      exact h.rests (by rw [ends, hv]) (by rw [e]; exact List.nil_sublist _) (by rw [e]; rfl) (by rw [e]; rfl)
    · exact h
  | powerUp | lossOfSupply | recallRootSlots | recallVolumeTable | recallPageChecks => cases hb
  | pageStepPass | pageStepFail | mapStepPass | systemAreaProgramFail | rootStepPass => cases ho
  | _ => cases hi

/-- Settles O59: no request may name the volume but those that R141 allows, no plan writes its map, and no claim is made
on it, so every happening leaves its map. -/
theorem lockedVolumeIsKept : Obligations.LockedVolumeIsKept := fun v r _ _ hs hb h =>
  step_keeps (StaysLocked v r) ⟨r, hs, sameMap_refl r⟩ h .quiet (fun _ => .effect) .outcome
    fun hp hi ho => .others hi ho (hb _ hp)

end Sys2Proof.Machine
end


section
/-! The frame of a serial port: the queue of happenings, the status byte, command and argument bytes, bytes that are ignored, a response that shifts out and select rise (O1, O3 to O7). -/

namespace Sys2Proof.Machine

/-! ### The queue of happenings -/

/-- Settles O1: both clauses are the two cases of `step`. -/
theorem stepRunsFrontOfQueue : Obligations.StepRunsFrontOfQueue := by
  refine ⟨fun c rest s => rfl, fun s hs => ?idle⟩
  case idle =>
    unfold step
    rw [hs]

/-! ### Commands and the link -/

/-- The port context whose frame holds a taken command. -/
def PortContext.taken (x : PortContext) (c : Command) (args : List Byte) : PortContext :=
  { x with frame := { x.frame with phase := .data, command := some c.code, arguments := args } }

theorem enterData_setPort (s : State) (p : Port) (c : Command) (args : List Byte) :
    enterData s p c args = s.setPort p (s.ports[p].taken c args) := rfl

@[simp] theorem enterData_port (s : State) (p : Port) (c : Command) (args : List Byte) :
    (enterData s p c args).ports[p] = s.ports[p].taken c args :=
  setPort_ports_self ..

/-- A taken command that changes its port outside the frame and is answered. -/
theorem reply_modPort_enterData (s : State) (p : Port) (c : Command) (args : List Byte) (r : Result)
    (response : List Byte) (g : PortContext → PortContext)
    (hg : (g (s.ports[p].taken c args)).frame = (s.ports[p].taken c args).frame) :
    reply ((enterData s p c args).modPort p g) p r response =
      s.setPort p { g (s.ports[p].taken c args) with
        frame := s.ports[p].frame.answered c args r response } := by
  rw [State.modPort, enterData_port, enterData_setPort, setPort_setPort,
    reply_setPort_taken (f := s.ports[p].frame) (hx := hg)]

/-- The row of a command is the taking of that command, with an effect of its own. -/
theorem exec_commandOf {i : Instr} {p : Port} {c : Command} {args : List Byte}
    (h : commandOf i = some (p, c, args)) :
    ∃ act, ∀ s, exec i s = .next (taking s p c args act) := by
  cases i <;> cases h <;> exact ⟨_, fun _ => rfl⟩

section Taken

variable {i : Instr} {p : Port} {c : Command} {args : List Byte} {s t : State}

/-- A command that its link waits for has its effect. -/
theorem exec_of_awaits {act : State → State} (hi : exec i s = .next (taking s p c args act))
    (ha : awaits s p c args = true) (h : act (enterData s p c args) = t) : exec i s = .next t := by
  rw [hi, taking_of_awaits s p c args act ha, h]

/-- A command whose check fails is answered with the refusal, and nothing else changes (R123). -/
theorem exec_of_check_fails {check : State → Option Result} {act : State → State} {r : Result}
    (hi : exec i s = .next (taking s p c args fun s => unlessRefused s p (check s) act))
    (ha : awaits s p c args = true) (hc : check (enterData s p c args) = some r) :
    exec i s = .next (answered s p c args r []) :=
  exec_of_awaits hi ha (by rw [hc, unlessRefused_enterData])

/-- A command whose check passes goes on with its effect (R123). -/
theorem exec_of_check_passes {check : State → Option Result} {act : State → State}
    (hi : exec i s = .next (taking s p c args fun s => unlessRefused s p (check s) act))
    (ha : awaits s p c args = true) (hc : check (enterData s p c args) = none)
    (h : act (enterData s p c args) = t) : exec i s = .next t :=
  exec_of_awaits hi ha (by rw [hc]; exact h)

/-- A command with the format check first, on a formatted part (R27, R56). -/
theorem exec_of_formatted {act : State → State}
    (hi : exec i s = .next (taking s p c args fun s => unlessRefused s p (formatCheck s) act))
    (ha : awaits s p c args = true) (hd : s.device ≠ .unformatted)
    (h : act (enterData s p c args) = t) : exec i s = .next t :=
  exec_of_check_passes hi ha (formatCheck_of_formatted _ hd) h

end Taken

/-! ### The status byte (R164) -/

/-- The five fields of a status byte, each read back at its place. -/
theorem statusFields : ∀ (attn request : Bool) (txn : Fin 4) (cls : Fin 8),
    let b := BitVec.ofNat 8 (128 + 64 * attn.toNat + 16 * txn.val + 8 * request.toNat + cls.val)
    b.getLsbD 7 = true ∧ b.getLsbD 6 = attn ∧ b.extractLsb' 4 2 = BitVec.ofNat 2 txn.val ∧
      b.getLsbD 3 = request ∧ b.extractLsb' 0 3 = BitVec.ofNat 3 cls.val := by
  decide

/-- The five fields of a status byte of numbers within their fields. -/
theorem statusFields_of_lt (attn request : Bool) {txn cls : Nat} (ht : txn < 4) (hc : cls < 8) :
    let b := BitVec.ofNat 8 (128 + 64 * attn.toNat + 16 * txn + 8 * request.toNat + cls)
    b.getLsbD 7 = true ∧ b.getLsbD 6 = attn ∧ b.extractLsb' 4 2 = BitVec.ofNat 2 txn ∧
      b.getLsbD 3 = request ∧ b.extractLsb' 0 3 = BitVec.ofNat 3 cls :=
  statusFields attn request ⟨txn, ht⟩ ⟨cls, hc⟩

theorem TxnState.field_lt (t : TxnState) : t.field < 4 := by
  cases t <;> decide

theorem ResultRecord.field_lt (r : ResultRecord) : r.field < 8 := by
  unfold ResultRecord.field
  split
  · next x _ => cases x.cls <;> decide
  · decide

/-- Two sets of causes meet exactly where a cause is in both (R178). -/
theorem meets_iff (x y : Causes) : x.meets y = true ↔ ∃ c, x.has c = true ∧ y.has c = true := by
  constructor
  · intro h
    simp only [Causes.meets, Bool.or_eq_true, Bool.and_eq_true] at h
    rcases h with (((h | h) | h) | h) | h
    exacts [⟨.update, h⟩, ⟨.lease, h⟩, ⟨.fault, h⟩, ⟨.window, h⟩, ⟨.device, h⟩]
  · rintro ⟨c, hx, hy⟩
    cases c <;> simp only [Causes.has] at hx hy <;> simp [Causes.meets, hx, hy]

/-- The ATTN line of a ready device is high exactly where an unmasked cause is pending (R173, R178). -/
theorem attnLine_iff (s : State) (p : Port) (h : ready s = true) : attnLine s p = true ↔
    ∃ c : Cause, s.ports[p].pending.has c = true ∧ s.ports[p].mask.has c = true := by
  rw [attnLine, h, Bool.true_and, meets_iff]

/-- Settles O3: the fields of the status byte are read off `statusFields`, and each is the field of its record. -/
theorem statusByteFields : Obligations.StatusByteFields := by
  intro s p
  refine ⟨fun hr hu => ?notReady, fun h => ?ready⟩
  case notReady => exact if_neg fun h => ((ready_iff s).1 h).elim hr hu
  case ready =>
    have isReady : ready s = true := (ready_iff s).2 h
    have fields := statusFields_of_lt (attnLine s p) (requestPending s p) s.ports[p].txn.state.field_lt
      s.ports[p].result.field_lt
    rw [show statusByte s p = _ from if_pos isReady]
    obtain ⟨readyBit, attnBit, txnBits, requestBit, classBits⟩ := fields
    refine ⟨readyBit, ?attn, fun ht => ?noTxn, fun ht => ?opened, fun ht => ?working, fun ht => ?expired,
      ?request, fun hn => ?noResult, fun x hx => ?result⟩
    case attn => rw [attnBit]; exact attnLine_iff s p isReady
    case noTxn | opened | expired => rw [txnBits, ht]; rfl
    case working =>
      rw [txnBits]
      rcases ht with ht | ht <;> rw [ht] <;> rfl
    case request => rw [requestBit]; exact requestPending_iff s p
    case noResult =>
      have isField : s.ports[p].result.field = 7 := by simp only [ResultRecord.field, hn]
      rw [classBits, isField]
    case result =>
      have isField : s.ports[p].result.field = x.cls.field := by simp only [ResultRecord.field, hx]
      rw [classBits, isField]
      refine ⟨fun h => ?_, fun h => ?_, fun h => ?_, fun h => ?_, fun h => ?_⟩ <;> rw [h] <;> rfl

/-! ### Command and argument bytes (R166, R167) -/

theorem takesArguments_code (c : Command) (h : 0 < c.argCount) : takesArguments c.code = true := by
  rw [takesArguments, decodeCommand_code]
  exact decide_eq_true h

theorem argCount_of_command (f : FrameRecord) (c : Command) (h : f.command = some c.code) :
    f.argCount = c.argCount := by
  simp [FrameRecord.argCount, h]

/-- Settles O4: in each clause the guard of the row holds, and the row changes the frame alone. -/
theorem commandAndArgumentBytesKept : Obligations.CommandAndArgumentBytesKept := by
  refine ⟨fun p value s hf hv => ?unknown, fun p c s hf hc => ?command, fun p c value s hf hc hn => ?argument⟩
  case unknown =>
    have result : unknownResult value =
        ⟨.unknownCommand, some ⟨none, none, none, some (value.setWidth 16)⟩, .refused⟩ := by
      simp [unknownResult, Detail.ofValue]
    rw [← result]
    exact congrArg Host.Outcome.next (if_pos ⟨hf, hv⟩)
  case command => exact congrArg Host.Outcome.next (if_pos ⟨hf, takesArguments_code c hc⟩)
  case argument =>
    rw [← argCount_of_command _ c hc] at hn
    exact congrArg Host.Outcome.next (if_pos ⟨hf, hn⟩)

/-! ### Ignored bytes (R161, R165) -/

/-- No command is taken in phase IGNORING or NOT_READY. -/
theorem not_awaits_of_ignoring {s : State} {p : Port}
    (h : s.ports[p].frame.phase = .ignoring ∨ s.ports[p].frame.phase = .notReady) (c : Command)
    (args : List Byte) : awaits s p c args = false := by
  rw [← Bool.not_eq_true]
  intro ha
  rcases phase_of_awaits s p c args ha with hp | hp <;> rw [hp] at h <;> simp at h

theorem ignoreByte_of_ignoring {s : State} {p : Port}
    (h : s.ports[p].frame.phase = .ignoring ∨ s.ports[p].frame.phase = .notReady) :
    ignoreByte s p = s.setPort p { s.ports[p] with
      frame := { s.ports[p].frame with output := 0xFF#8 } } := by
  rw [ignoreByte_eq, if_pos h]

/-- A byte row of a port that is no command's row. -/
theorem bytePort_cases {i : Instr} {p : Port} (h : bytePort i = some p) :
    (∃ c args, commandOf i = some (p, c, args)) ∨ (∃ b, i = .unknownCommand p b) ∨
      (∃ b, i = .commandByteComplete p b) ∨ (∃ b, i = .argumentByte p b) ∨ i = .readDataByte p ∨
      ∃ b, i = .writeDataByte p b := by
  cases i <;> cases h
  case unknownCommand b => exact .inr (.inl ⟨b, rfl⟩)
  case commandByteComplete b => exact .inr (.inr (.inl ⟨b, rfl⟩))
  case argumentByte b => exact .inr (.inr (.inr (.inl ⟨b, rfl⟩)))
  case readDataByte => exact .inr (.inr (.inr (.inr (.inl rfl))))
  case writeDataByte b => exact .inr (.inr (.inr (.inr (.inr ⟨b, rfl⟩))))
  all_goals exact .inl ⟨_, _, rfl⟩

/-- Settles O6: each row of a byte asks for another phase first, and ignores the byte where that fails. -/
theorem ignoredBytesChangeNothing : Obligations.IgnoredBytesChangeNothing := by
  intro i p s hi hf
  have notCommand : s.ports[p].frame.phase ≠ .command := by rintro h; rw [h] at hf; simp at hf
  have notArguments : s.ports[p].frame.phase ≠ .arguments := by rintro h; rw [h] at hf; simp at hf
  have notData : s.ports[p].frame.phase ≠ .data := by rintro h; rw [h] at hf; simp at hf
  rw [← ignoreByte_of_ignoring hf]
  rcases bytePort_cases hi with ⟨c, args, hc⟩ | ⟨b, rfl⟩ | ⟨b, rfl⟩ | ⟨b, rfl⟩ | rfl | ⟨b, rfl⟩
  · obtain ⟨act, taken⟩ := exec_commandOf hc
    rw [taken, taking_of_not_awaits s p c args act (not_awaits_of_ignoring hf c args)]
  · exact congrArg Host.Outcome.next (if_neg fun h => notCommand h.1)
  · exact congrArg Host.Outcome.next (if_neg fun h => notCommand h.1)
  · exact congrArg Host.Outcome.next (if_neg fun h => notArguments h.1)
  · exact congrArg Host.Outcome.next (if_neg notData)
  · exact congrArg Host.Outcome.next (if_neg notData)

/-! ### A response shifts out (R168) -/

/-- The next byte of a response, or the filler of the frame's command past its end. -/
theorem shift_of_command (f : FrameRecord) (c : Command) (h : f.command = some c.code) :
    f.shift = { f with output := f.response.headD (commandFiller c), response := f.response.tail } := by
  have filler : f.filler = commandFiller c := by simp [FrameRecord.filler, h]
  unfold FrameRecord.shift
  split
  · next b rest hr => rw [hr]; rfl
  · next hr => rw [hr, filler, ← hr]; simp [hr]

/-- Settles O7: without a burst both data rows shift the response on. -/
theorem responseShiftsOut : Obligations.ResponseShiftsOut := by
  intro p c value s hf hc hb
  have shifted : s.modFrame p FrameRecord.shift = s.setPort p { s.ports[p] with
      frame := { s.ports[p].frame with
        output := s.ports[p].frame.response.headD (commandFiller c)
        response := s.ports[p].frame.response.tail } } := by
    rw [State.modFrame, State.modPort, shift_of_command _ c hc]
  constructor
  · change execReadDataByte p s = _
    rw [execReadDataByte, if_pos hf, hb, ← shifted]
  · change execWriteDataByte p value s = _
    rw [execWriteDataByte, if_pos hf, hb, ← shifted]

/-! ### Select rise (R169) -/

/-- Settles O5: what is recorded is `FrameRecord.outcome`, whose cases are the phases. -/
theorem selectRiseRecordsResult : Obligations.SelectRiseRecordsResult := by
  intro p s hf
  refine ⟨s.ports[p].frame.outcome.getD s.ports[p].result,
    congrArg Host.Outcome.next (if_neg hf), fun h => ?command, fun h => ?arguments, fun x h hx => ?data,
    fun x h hx => ?refused, fun h hx => ?ignored, fun h => ?notReady⟩ <;>
    simp only [FrameRecord.outcome, h]
  case command | arguments => rfl
  case data | refused | ignored => rw [hx]; rfl
  case notReady => rfl

end Sys2Proof.Machine
end


section
/-! The transaction commands, the lease timer and the release of a port's claims (O8 to O11, O13 to O16), and the commands that UNFORMATTED refuses (O17). -/

namespace Sys2Proof.Machine

/-! ### BEGIN (R28) -/

/-- The transaction record that BEGIN opens, field by field. -/
theorem Txn.begin_eq (t : Txn) (lease : Half) (durable : Bool) : t.begin lease durable = {
    state := .opened
    lease := lease.toNat
    timer := if 0 < lease.toNat then lease.toNat else t.timer
    running := decide (0 < lease.toNat)
    durable := durable } := by
  unfold Txn.begin Txn.startTimer
  by_cases h : 0 < lease.toNat
  · simp [h]
  · simp [h]

theorem flagArg_eq_none (b : Byte) (h0 : b ≠ 0x00#8) (h1 : b ≠ 0x01#8) : flagArg b = none := by
  rw [flagArg, if_neg h0, if_neg h1]

theorem flagArg_ne_none (b : Byte) (h : b = 0x00#8 ∨ b = 0x01#8) : flagArg b ≠ none := by
  rcases h with rfl | rfl <;> decide

/-- Settles O8: the two checks of BEGIN decide between the three answers. -/
theorem beginOpensTransaction : Obligations.BeginOpensTransaction := by
  intro p lease flag s ha hd
  have formatted := formatCheck_of_formatted (enterData s p .begin (halfBytes lease ++ [flag])) hd
  refine ⟨fun h0 h1 => ?badFlag, fun hf ht => ?taken, fun hf ht => ?opens⟩
  case badFlag =>
    refine exec_of_check_fails (check := fun s => beginCheck s p flag) rfl ha ?_
    rw [beginCheck, formatted, if_pos (flagArg_eq_none flag h0 h1)]
    rfl
  case taken =>
    have taken : ¬(s.ports[p].txn.state = .noTxn ∨ s.ports[p].txn.state = .expired) := by
      intro h
      rcases h with h | h <;> rw [h] at ht <;> simp at ht
    refine exec_of_check_fails (check := fun s => beginCheck s p flag) rfl ha ?_
    rw [beginCheck, formatted, if_neg (flagArg_ne_none flag hf), enterData_port]
    exact if_neg taken
  case opens =>
    have free : s.ports[p].txn.state = .noTxn ∨ s.ports[p].txn.state = .expired := by simpa using ht
    refine exec_of_check_passes (check := fun s => beginCheck s p flag) rfl ha ?_ ?_
    · rw [beginCheck, formatted, if_neg (flagArg_ne_none flag hf), enterData_port]
      exact if_pos free
    · rw [← Txn.begin_eq s.ports[p].txn lease (decide (flag = 0x01#8))]
      exact reply_modPort_enterData s p _ _ _ _ _ rfl

/-! ### TOUCH and the commands that need an OPEN transaction (R27, R30) -/

/-- On a formatted part the transaction's state decides. -/
theorem formatOpen_enterData (s : State) (p : Port) (c : Command) (args : List Byte)
    (hd : s.device ≠ .unformatted) :
    (formatCheck (enterData s p c args)).or (openCheck (enterData s p c args).ports[p].txn.state) =
      openCheck s.ports[p].txn.state := by
  rw [formatCheck_of_formatted (enterData s p c args) hd, enterData_port]
  rfl

/-- The refusals of a transaction that is not OPEN (R27). -/
theorem openCheck_of_not_opened {t : TxnState} {code : Code}
    (h : (t, code) ∈ [(TxnState.noTxn, Code.noTxn), (.queued, .txnBusy), (.committing, .txnBusy),
      (.expired, .txnExpired)]) : openCheck t = some (refusal code) := by
  simp only [List.mem_cons, List.not_mem_nil, or_false, Prod.mk.injEq] at h
  rcases h with ⟨rfl, rfl⟩ | ⟨rfl, rfl⟩ | ⟨rfl, rfl⟩ | ⟨rfl, rfl⟩ <;> rfl

theorem exec_touch_of_not_opened {p : Port} {s : State} {code : Code} (ha : awaits s p .touch [] = true)
    (hd : s.device ≠ .unformatted) (h : openCheck s.ports[p].txn.state = some (refusal code)) :
    exec (.touch p) s = .next (refused s p .touch [] code) :=
  exec_of_check_fails (check := fun s => (formatCheck s).or (openCheck s.ports[p].txn.state)) rfl ha
    ((formatOpen_enterData s p _ _ hd).trans h)

theorem exec_touch_of_opened {p : Port} {s : State} (ha : awaits s p .touch [] = true)
    (hd : s.device ≠ .unformatted) (h : s.ports[p].txn.state = .opened) :
    exec (.touch p) s = .next (s.setPort p { s.ports[p].answered .touch [] .ok [] with
      txn := s.ports[p].txn.startTimer }) := by
  refine exec_of_check_passes (check := fun s => (formatCheck s).or (openCheck s.ports[p].txn.state)) rfl ha
    ((formatOpen_enterData s p _ _ hd).trans (by rw [h]; rfl)) ?_
  exact reply_modPort_enterData s p .touch [] .ok [] (fun x => { x with txn := x.txn.startTimer }) rfl

/-- Settles O9: the refusals follow the state, and in OPEN the lease decides whether the timer starts. -/
theorem touchRestartsTimer : Obligations.TouchRestartsTimer := by
  intro p s ha
  refine ⟨fun hd => ?unformatted, fun hd => ⟨fun h => ?noTxn, fun h => ?busy, fun h => ?expired,
    fun h hl => ?starts, fun h hl => ?stopped⟩⟩
  case unformatted =>
    refine exec_of_check_fails (check := fun s => (formatCheck s).or (openCheck s.ports[p].txn.state)) rfl ha ?_
    rw [formatCheck_of_unformatted (enterData s p .touch []) hd]
    rfl
  case noTxn | expired => exact exec_touch_of_not_opened ha hd (by rw [h]; rfl)
  case busy => exact exec_touch_of_not_opened ha hd (by rcases h with h | h <;> rw [h] <;> rfl)
  case starts =>
    rw [exec_touch_of_opened ha hd h, Txn.startTimer, if_pos hl]
  case stopped =>
    rw [exec_touch_of_opened ha hd h, Txn.startTimer, if_neg (by omega)]

/-! ### COMMIT (R34) -/

theorem adminPending_iff (s : State) (p : Port) : adminPending s p = true ↔
    ∃ r ∈ s.engine.queue ++ s.engine.inFlight.toList, r.port = p ∧ r.kind ≠ .commit := by
  unfold adminPending Request.isAdmin
  cases h : s.engine.inFlight <;> simp [or_and_right, exists_or]

section Commit

variable {p : Port} {s : State} (ha : awaits s p .commit [] = true) (hd : s.device ≠ .unformatted)
  (ht : s.ports[p].txn.state = .opened)
include ha hd ht

/-- A COMMIT in OPEN goes on to its own checks. -/
theorem exec_commit_of_opened : exec (.commit p) s = .next (commitOpen (enterData s p .commit []) p) :=
  exec_of_check_passes (check := fun s => (formatCheck s).or (openCheck s.ports[p].txn.state)) rfl ha
    ((formatOpen_enterData s p _ _ hd).trans (by rw [ht]; rfl)) rfl

theorem exec_commit_of_no_claims (hn : s.claimCount[p] = 0) :
    exec (.commit p) s = .next (s.setPort p { s.ports[p].answered .commit [] .ok [] with
      txn := { s.ports[p].txn with state := .noTxn, running := false } }) := by
  have noClaims : (enterData s p .commit []).claimCount[p] = 0 := hn
  rw [exec_commit_of_opened ha hd ht, commitOpen, if_pos noClaims]
  exact congrArg Host.Outcome.next (reply_modPort_enterData s p .commit [] .ok []
    (fun x => { x with txn := { x.txn.stopTimer with state := .noTxn } }) rfl)

theorem exec_commit_of_check_fails (hn : 0 < s.claimCount[p]) {r : Result} (hc : commitCheck s p = some r) :
    exec (.commit p) s = .next (s.setPort p { s.ports[p].answered .commit [] r [] with
      txn := { s.ports[p].txn with running := false } }) := by
  have hc' : commitCheck (enterData s p .commit []) p = some r := hc
  have claims : ¬(enterData s p .commit []).claimCount[p] = 0 := Nat.ne_of_gt hn
  rw [exec_commit_of_opened ha hd ht, commitOpen, if_neg claims, hc']
  exact congrArg Host.Outcome.next (reply_modPort_enterData s p .commit [] r []
    (fun x => { x with txn := x.txn.stopTimer }) rfl)

theorem exec_commit_of_check_passes (hn : 0 < s.claimCount[p]) (hc : commitCheck s p = none) :
    exec (.commit p) s = .next ((appended s ⟨p, .commit⟩).setPort p {
      s.ports[p].answered .commit [] ⟨.queued, none, .queued⟩ [] with
      txn := { s.ports[p].txn with state := .queued, running := false } }) := by
  have hc' : commitCheck (enterData s p .commit []) p = none := hc
  have claims : ¬(enterData s p .commit []).claimCount[p] = 0 := Nat.ne_of_gt hn
  rw [exec_commit_of_opened ha hd ht, commitOpen, if_neg claims, hc']
  exact congrArg Host.Outcome.next (reply_modPort_enterData (appended s ⟨p, .commit⟩) p .commit [] .queued []
    (fun x => { x with txn := { x.txn.stopTimer with state := .queued } }) rfl)

end Commit

/-- Settles O10: the claims, then the two checks of COMMIT, decide between the four answers. -/
theorem commitEndsOrJoinsQueue : Obligations.CommitEndsOrJoinsQueue := by
  intro p s ha hd ht
  refine ⟨exec_commit_of_no_claims ha hd ht, fun hn hr => ?pending, fun hn hr => ?noRequest⟩
  case pending =>
    refine exec_commit_of_check_fails ha hd ht hn ?_
    rw [commitCheck, if_pos ((adminPending_iff s p).2 hr)]
    rfl
  case noRequest =>
    have noAdmin : ¬adminPending s p = true := fun h =>
      have ⟨r, hm, hp, hk⟩ := (adminPending_iff s p).1 h
      hk (hr r hm hp)
    refine ⟨fun he => exec_commit_of_check_fails ha hd ht hn ?_,
      fun he => exec_commit_of_check_passes ha hd ht hn ?_⟩
    · rw [commitCheck, if_neg noAdmin, if_pos (show engineStopped s = true from decide_eq_true he)]
      rfl
    · rw [commitCheck, if_neg noAdmin, if_neg (by simpa [engineStopped] using he)]

/-! ### Without an OPEN transaction (R27) -/

/-- A check that fails decides before the checks after it (R123). -/
theorem or_ite {c : Prop} [Decidable c] (r : Result) (later : Option Result) :
    (if c then some r else none).or later = if c then some r else later := by
  split <;> rfl

theorem windowModeCheck_bound (b : Binding) :
    windowModeCheck (.bound b) = if b.mode = .read then some (refusal .windowMode) else none := rfl

theorem windowEndCheck_bound (b : Binding) (offset : Half) : windowEndCheck (.bound b) offset =
    if 256 * b.count ≤ offset.toNat then some (refusal .windowEnd) else none := rfl

/-- The checks of WRITE through a BOUND window (R66). -/
theorem writeCheck_bound (b : Binding) (offset : Half) (t : TxnState) : writeCheck (.bound b) offset t =
    if b.mode = .read then some (refusal .windowMode)
    else if 256 * b.count ≤ offset.toNat then some (refusal .windowEnd) else openCheck t := by
  rw [writeCheck, windowModeCheck_bound, windowEndCheck_bound, or_ite, or_ite]
  rfl

/-- The checks of PUNCH through a BOUND window (R70). -/
theorem punchCheck_bound (b : Binding) (t : TxnState) : punchCheck (.bound b) t =
    if b.mode = .read then some (refusal .windowMode) else openCheck t := by
  rw [punchCheck, windowModeCheck_bound, or_ite]
  rfl

/-- WRITE with its window named goes by its checks (R66). -/
theorem exec_write_of_window {p : Port} {window : Byte} {offset : Half} {s t : State} {w : WindowNo}
    (ha : awaits s p .write (window :: halfBytes offset) = true) (hd : s.device ≠ .unformatted)
    (hw : window.toNat = w.val)
    (h : unlessRefused (enterData s p .write (window :: halfBytes offset)) p
      (writeCheck s.ports[p].windows[w] offset s.ports[p].txn.state) (fun s =>
        reply (s.modPort p fun c => c.setBurst (newBurst .write w offset)) p .ok []) = t) :
    exec (.write p window offset) s = .next t := by
  refine exec_of_formatted rfl ha hd ?_
  rw [windowArg_of_toNat w window hw, ← h, enterData_port]
  rfl

/-- PUNCH whose check of its window and of the transaction fails (R70). -/
theorem exec_punch_of_check_fails {p : Port} {window index : Byte} {s : State} {w : WindowNo} {r : Result}
    (ha : awaits s p .punch [window, index] = true) (hd : s.device ≠ .unformatted)
    (hw : window.toNat = w.val) (hc : punchCheck s.ports[p].windows[w] s.ports[p].txn.state = some r) :
    exec (.punch p window index) s = .next (answered s p .punch [window, index] r []) := by
  refine exec_of_formatted rfl ha hd ?_
  rw [windowArg_of_toNat w window hw, enterData_port]
  exact (congrArg (unlessRefused _ p · _) hc).trans (unlessRefused_enterData ..)

/-- PUNCH through a BOUND window whose checks pass (R70). -/
theorem exec_punch_of_bound {p : Port} {window index : Byte} {s t : State} {w : WindowNo} {b : Binding}
    (ha : awaits s p .punch [window, index] = true) (hd : s.device ≠ .unformatted)
    (hw : window.toNat = w.val) (hb : s.ports[p].windows[w] = .bound b)
    (hc : punchCheck (.bound b) s.ports[p].txn.state = none)
    (h : (if b.count ≤ index.toNat then punchPastEnd (enterData s p .punch [window, index]) p w b index
      else punchPage (enterData s p .punch [window, index]) p b index) = t) :
    exec (.punch p window index) s = .next t := by
  have bound : (s.ports[p].taken .punch [window, index]).windows[w] = .bound b := hb
  have passes : punchCheck (s.ports[p].taken .punch [window, index]).windows[w]
      (s.ports[p].taken .punch [window, index]).txn.state = none := by rw [bound]; exact hc
  refine exec_of_formatted rfl ha hd ?_
  rw [windowArg_of_toNat w window hw, enterData_port]
  refine (congrArg (unlessRefused _ p · _) passes).trans ?_
  rw [unlessRefused_none, enterData_port, bound]
  exact h

/-- Settles O11: once the checks before it pass, the transaction's state decides. -/
theorem notOpenIsRefused : Obligations.NotOpenIsRefused := by
  intro p s code hd hs
  have refuses := openCheck_of_not_opened hs
  refine ⟨fun ha => ?commit, fun w window offset b ha hw hb hm ho => ?write,
    fun w window index b ha hw hb hm => ?punch⟩
  case commit =>
    exact exec_of_check_fails (check := fun s => (formatCheck s).or (openCheck s.ports[p].txn.state)) rfl ha
      ((formatOpen_enterData s p _ _ hd).trans refuses)
  case write =>
    refine exec_write_of_window ha hd hw ?_
    rw [hb, writeCheck_bound, if_neg (by rw [hm]; decide), if_neg (by omega), refuses]
    exact unlessRefused_enterData ..
  case punch =>
    refine exec_punch_of_check_fails ha hd hw ?_
    rw [hb, punchCheck_bound, if_neg (by rw [hm]; decide), refuses]
    rfl

/-! ### RELEASE (R41) -/

/-- RELEASE abandons the transaction as ABORT does and cleans the rest of the port. -/
theorem exec_release_of_formatted {p : Port} {s : State} (ha : awaits s p .release [] = true)
    (hd : s.device ≠ .unformatted) :
    exec (.release p) s = .next ((dropWork s p s.ports[p].txn.state).setPort p {
      s.ports[p].answered .release [] .ok [] with
      txn := s.ports[p].txn.abandoned
      windows := Vector.replicate 4 .unbound, fault := none, mask := .empty, pending := .empty }) := by
  refine exec_of_formatted rfl ha hd ?_
  rw [enterData_setPort, abandonTxn_setPort, State.modPort, setPort_setPort, setPort_ports_self,
    reply_setPort_taken (f := s.ports[p].frame) (hx := rfl)]
  rfl

/-- Settles O13: the abandonment of each state is read off `dropWork` and `Txn.abandoned`. -/
theorem releaseCleansPort : Obligations.ReleaseCleansPort := by
  intro p s ha hd
  have released := exec_release_of_formatted ha hd
  refine ⟨fun ht => ?kept, fun ht => ?expired, fun ht => ?opened, fun ht => ?queued⟩
  case kept =>
    have : s.ports[p].txn.state = .noTxn ∨ s.ports[p].txn.state = .committing := by simpa using ht
    rcases this with ht | ht <;> simpa only [ht, Txn.abandoned, dropWork, PortContext.answered_txn] using released
  case expired | opened => simpa only [ht, Txn.abandoned, dropWork] using released
  case queued => simpa only [ht, Txn.abandoned, dropWork, withdrawCommit_eq] using released

/-! ### The release of all claims (R53) -/

/-- The state of each frame after a release: the shadows are FREE. -/
theorem frameState_releaseClaims (s : State) (p : Port) (f : FrameNo) :
    frameState (releaseClaims s p) f =
      if f ∈ shadowsOf s p ∧ isPool f = true then some .free else frameState s f :=
  frameState_setFrames s (shadowsOf s p) .free f

/-- Settles O14: the entries by `Volume.release`, the frames by `frameState_setFrames`. -/
theorem releaseOfAllClaims : Obligations.ReleaseOfAllClaims := by
  intro s p
  refine ⟨?rest, fun v r hv => ?entries, fun v hv => ?absent, fun v g f hf hs => ?shadow, fun f hf => ?frame⟩
  case rest =>
    have leaves := setFrames_eq s (shadowsOf s p) .free
    rw [← filterMap_allPages fun v g => (entryOf s v g).shadowOf p]
    unfold releaseClaims freeFrames
    rw [leaves]
    rfl
  case entries =>
    refine ⟨tab fun g => r.entries[g].release p, ?_, fun g => ?_⟩
    · rw [releaseClaims_volume, hv]
      rfl
    · rw [tab_get, Entry.release]
      split
      · rfl
      · rfl
  case absent =>
    rw [releaseClaims_volume]
    cases hx : s.volumes[v] with
    | present r => rw [hx] at hv; cases hv
    | absent => rfl
    | creating n rights k => rfl
  case shadow => rw [frameState_releaseClaims, if_pos ⟨(mem_shadowsOf s p f).2 ⟨v, g, hs⟩, hf⟩]
  case frame =>
    rw [frameState_releaseClaims, if_neg]
    rintro ⟨hm, -⟩
    obtain ⟨v, g, hs⟩ := (mem_shadowsOf s p f).1 hm
    exact hf v g hs

/-! ### The lease timer (R29, R31) -/

/-- Settles O15: each port's timer counts by `Txn.tick`. -/
theorem leaseTickCountsDown : Obligations.LeaseTickCountsDown := by
  intro s
  refine ⟨fun hd => congrArg Host.Outcome.next (if_neg hd), fun hd =>
    ⟨s.modPorts fun _ c => { c with txn := c.txn.tick }, congrArg Host.Outcome.next (if_pos hd), fun p => ?_⟩⟩
  rw [State.modPorts_ports, tab_get]
  refine ⟨fun ht hl hr => ?counts, fun h => ?stays⟩
  case counts => rw [Txn.tick, if_pos ⟨ht, hl, hr⟩]
  case stays =>
    rw [Txn.tick, if_neg]
    rintro ⟨ht, hl, hr⟩
    rcases h with h | h | h
    · exact h ht
    · omega
    · rw [h] at hr; cases hr

/-- Settles O16: the release of the claims leaves the port context. -/
theorem leaseExpiryReleasesClaims : Obligations.LeaseExpiryReleasesClaims := by
  intro p s hd ht hl hr hz
  have due : expiryDue s p = true := decide_eq_true ⟨hd, ht, hl, hr, hz⟩
  have port : (releaseClaims s p).ports[p] = s.ports[p] := by rw [releaseClaims_ports]
  refine (congrArg Host.Outcome.next (if_pos due)).trans ?_
  rw [raise, State.modTxn, State.modPort, State.modPort, setPort_setPort, setPort_ports_self, port]
  rfl

/-! ### UNFORMATTED (R111) -/

/-- Every command but four begins with the format check. -/
theorem exec_formatCheck_first {i : Instr} {p : Port} {c : Command} {args : List Byte}
    (h : commandOf i = some (p, c, args)) (hc : takenUnformatted c = false) :
    ∃ (check : State → Option Result) (act : State → State),
      (∀ s, exec i s = .next (taking s p c args fun s => unlessRefused s p (check s) act)) ∧
      ∀ s : State, s.device = .unformatted → check s = some (refusal .notFormatted) := by
  have adminFirst : ∀ s : State, s.device = .unformatted → adminCheck s p = some (refusal .notFormatted) :=
    fun s hd => if_pos hd
  have orFirst : ∀ (x : State → Option Result) (s : State), s.device = .unformatted →
      (formatCheck s).or (x s) = some (refusal .notFormatted) := fun x s hd => by
    rw [formatCheck_of_unformatted s hd]
    rfl
  cases i <;> cases h <;> cases hc
  case create | delete | resize | freeze | lock | thaw | setRights | pin | unpin | configPort | configDevice =>
    exact ⟨fun s => adminCheck s p, _, fun _ => rfl, adminFirst⟩
  case begin flag => exact ⟨fun s => beginCheck s p flag, _, fun _ => rfl, orFirst _⟩
  case touch | commit | abort => exact ⟨fun s => (formatCheck s).or _, _, fun _ => rfl, orFirst _⟩
  all_goals exact ⟨formatCheck, _, fun _ => rfl, formatCheck_of_unformatted⟩

/-- Settles O17: the format check comes first and fails. -/
theorem unformattedRefusesCommands : Obligations.UnformattedRefusesCommands := by
  intro i p c args s hi hc hd ha
  obtain ⟨check, act, taken, fails⟩ := exec_formatCheck_first hi hc
  exact exec_of_check_fails (taken s) ha (fails (enterData s p c args) hd)

end Sys2Proof.Machine
end


section
/-! BIND and the READ burst: the window a BIND binds, the burst a READ begins and each byte it takes (O18, O20 to O22), and the burst a WRITE begins (O23). -/

namespace Sys2Proof.Machine

/-! ### BIND (R56, R57) -/

theorem modeArg_none (b : Byte) (h : 2 ≤ b.toNat) : modeArg b = none := by
  have h0 : b ≠ 0x00#8 := by rintro rfl; simp at h
  have h1 : b ≠ 0x01#8 := by rintro rfl; simp at h
  rw [modeArg, if_neg h0, if_neg h1]

/-- The mode byte of a mode. -/
theorem modeArg_of_mode (m : Mode) (b : Byte) (h : b = match m with | .read => 0x00#8 | .write => 0x01#8) :
    modeArg b = some m := by
  cases m <;> rw [h] <;> rfl

theorem bindArgs_none (window volume count mode : Byte)
    (h : 4 ≤ window.toNat ∨ 16 ≤ volume.toNat ∨ count.toNat = 0 ∨ 64 < count.toNat ∨ 2 ≤ mode.toNat) :
    bindArgs window volume count mode = none := by
  have isNone : windowArg window = none ∨ volumeArg volume = none ∨ sizeArg count = none ∨ modeArg mode = none := by
    rcases h with h | h | h | h | h
    · exact .inl (windowArg_none window h)
    · exact .inr (.inl (volumeArg_none volume h))
    · exact .inr (.inr (.inl (sizeArg_none count (.inl h))))
    · exact .inr (.inr (.inl (sizeArg_none count (.inr h))))
    · exact .inr (.inr (.inr (modeArg_none mode h)))
  unfold bindArgs
  split
  · next hw hv hc hm => simp [hw, hv, hc, hm] at isNone
  · rfl

section Bind

variable {p : Port} {window volume first count mode : Byte} {s : State} {w : WindowNo} {v : VolumeNo}
  {m : Mode} (ha : awaits s p .bind [window, volume, first, count, mode] = true)
  (hd : s.device ≠ .unformatted) (args : bindArgs window volume count mode = some (w, v, count.toNat, m))
include ha hd args

/-- No volume of a BIND is there unless it is present (R13). -/
theorem exec_bind_of_not_present (hv : Volume.isPresent s.volumes[v] = false) :
    exec (.bind p window volume first count mode) s =
      .next (refused s p .bind [window, volume, first, count, mode] .noVolume) := by
  refine exec_of_formatted rfl ha hd ?_
  have volume_eq : (enterData s p .bind [window, volume, first, count, mode]).volumes[v] = s.volumes[v] := rfl
  simp only [args, volume_eq]
  cases hx : s.volumes[v] with
  | present r => rw [hx] at hv; cases hv
  | absent => exact reply_enterData ..
  | creating n rights k => exact reply_enterData ..

/-- A BIND on a present volume whose check fails. -/
theorem exec_bind_of_check_fails {r : VolumeRecord} (hr : s.volumes[v] = .present r) {code : Code}
    (hc : bindVolumeCheck r p first.toNat count.toNat m = some (refusal code)) :
    exec (.bind p window volume first count mode) s =
      .next (refused s p .bind [window, volume, first, count, mode] code) := by
  refine exec_of_formatted rfl ha hd ?_
  have volume_eq : (enterData s p .bind [window, volume, first, count, mode]).volumes[v] = .present r := hr
  simp only [args, volume_eq, hc]
  exact unlessRefused_enterData ..

/-- A BIND on a present volume whose checks pass binds the window. -/
theorem exec_bind_of_check_passes {r : VolumeRecord} (hr : s.volumes[v] = .present r)
    (hc : bindVolumeCheck r p first.toNat count.toNat m = none) :
    exec (.bind p window volume first count mode) s = .next (s.setPort p {
      s.ports[p].answered .bind [window, volume, first, count, mode] .ok [] with
      windows := upd s.ports[p].windows w (.bound ⟨v, Fin.ofNat 64 first.toNat, count.toNat, m⟩) }) := by
  refine exec_of_formatted rfl ha hd ?_
  have volume_eq : (enterData s p .bind [window, volume, first, count, mode]).volumes[v] = .present r := hr
  simp only [args, volume_eq, hc]
  exact reply_setWindow_enterData ..

end Bind

/-- What check 7 of BIND meets for WRITE mode on a volume that is not DAMAGED (R56). -/
theorem writeBindCheck_eq (st : Status) : writeBindCheck st =
    if st = .frozen ∨ st = .lockedFrozen then some (refusal .volumeFrozen)
    else if st.isChanging = true then some (refusal .volumeChanging) else none := by
  cases st <;> simp [writeBindCheck, Status.isChanging]

/-- Settles O18: the arguments, the presence of the volume and the chain of its checks, in their order. -/
theorem bindBindsWindow : Obligations.BindBindsWindow := by
  intro p window volume first count mode s ha hd
  refine ⟨fun h => ?badArgument, fun w v m hw hv hn hl hm => ?named⟩
  case badArgument =>
    refine exec_of_formatted rfl ha hd ?_
    rw [bindArgs_none window volume count mode h]
    exact reply_enterData ..
  case named =>
    have args : bindArgs window volume count mode = some (w, v, count.toNat, m) := by
      rw [bindArgs, windowArg_of_toNat w window hw, volumeArg_of_toNat v volume hv,
        sizeArg_of_toNat count hn hl, modeArg_of_mode m mode hm]
    refine ⟨exec_bind_of_not_present ha hd args, fun r hr => ?_⟩
    have fails := fun code => exec_bind_of_check_fails ha hd args hr (code := code)
    have passes := exec_bind_of_check_passes ha hd args hr
    rw [bindVolumeCheck, writeBindCheck_eq] at passes
    simp only [bindVolumeCheck, writeBindCheck_eq] at fails
    by_cases h1 : r.status.isDamaged = true
    · rw [if_pos h1]
      exact fails _ (if_pos h1)
    rw [if_neg h1] at passes ⊢
    simp only [if_neg h1] at fails
    by_cases h2 : r.size < first.toNat + count.toNat
    · rw [if_pos h2]
      exact fails _ (if_pos h2)
    rw [if_neg h2] at passes ⊢
    simp only [if_neg h2] at fails
    by_cases h3 : r.rights[p].covers m = false
    · rw [if_pos h3]
      exact fails _ (if_pos h3)
    rw [if_neg h3] at passes ⊢
    simp only [if_neg h3] at fails
    by_cases h4 : m = .write
    · subst h4
      simp only [true_and, if_true] at fails passes ⊢
      split
      · next h => exact fails _ (if_pos h)
      · next h =>
        simp only [if_neg h] at fails passes
        split
        · next h' => exact fails _ (if_pos h')
        · next h' => exact passes (if_neg h')
    · simp only [h4, false_and, if_false]
      exact passes (if_neg h4)

/-! ### Faults of a burst (R71, R73) -/

/-- What a fault leaves at a port whose burst record it meets, in the statements' words. -/
theorem meetFault_eq (x : PortContext) (b : Burst) (f : FaultRecord) :
    (x.setBurst b).meetFault f = x.faulted b f := by
  unfold PortContext.meetFault PortContext.faulted faultAfter PortContext.setBurst
  cases hx : x.fault <;> cases hb : b.firstFault <;> simp [hb, Causes.add, FaultCause.result]
  all_goals rw [← hb]

/-! ### The READ burst (R62, R63) -/

/-- A data byte position of a READ burst is the taking of its next byte. -/
theorem exec_readDataByte_of_burst {p : Port} {s : State} {b : Burst} (hf : s.ports[p].frame.phase = .data)
    (hb : s.ports[p].burst = some b) (hk : b.kind = .read) :
    exec (.readDataByte p) s = .next (takeReadByte s p b) := by
  change execReadDataByte p s = _
  rw [execReadDataByte, if_pos hf, hb]
  exact congrArg Host.Outcome.next (if_pos hk)

section Read

variable {p : Port} {window : Byte} {offset : Half} {s : State} {w : WindowNo}
  (ha : awaits s p .read (window :: halfBytes offset) = true) (hd : s.device ≠ .unformatted)
  (hw : window.toNat = w.val)
include ha hd hw

/-- READ whose check of its window fails (R62). -/
theorem exec_read_of_check_fails {code : Code} (hc : readCheck s.ports[p].windows[w] offset = some (refusal code)) :
    exec (.read p window offset) s = .next (refused s p .read (window :: halfBytes offset) code) := by
  refine exec_of_formatted rfl ha hd ?_
  rw [windowArg_of_toNat w window hw, enterData_port]
  exact (congrArg (unlessRefused _ p · _) hc).trans (unlessRefused_enterData ..)

/-- READ whose checks pass: the burst begins and takes its first byte (R62, R63). -/
theorem exec_read_of_check_passes (hc : readCheck s.ports[p].windows[w] offset = none) :
    exec (.read p window offset) s = .next (takeReadByte (s.setPort p {
      s.ports[p].answered .read (window :: halfBytes offset) .ok [] with
      burst := some (newBurst .read w offset) }) p (newBurst .read w offset)) := by
  refine exec_of_formatted rfl ha hd ?_
  rw [windowArg_of_toNat w window hw, enterData_port]
  refine (congrArg (unlessRefused _ p · _) hc).trans ?_
  exact congrArg (takeReadByte · p (newBurst .read w offset))
    (reply_modPort_enterData s p _ _ _ _ (fun x => x.setBurst (newBurst .read w offset)) rfl)

end Read

/-- Settles O20: the state of the window and the offset decide, and the burst that begins takes its byte as
READ_DATA_BYTE does. -/
theorem readBeginsBurst : Obligations.ReadBeginsBurst := by
  intro p window offset s ha hd
  refine ⟨fun h => ?badWindow, fun w hw => ⟨fun hx => ?unbound, fun b hx => ?stale, fun b hx => ⟨fun ho => ?ended,
    fun ho => ?begins⟩⟩⟩
  case badWindow =>
    refine exec_of_formatted rfl ha hd ?_
    rw [windowArg_none window h]
    exact reply_enterData ..
  case unbound | stale => exact exec_read_of_check_fails ha hd hw (by rw [hx]; rfl)
  case ended =>
    refine exec_read_of_check_fails ha hd hw ?_
    rw [hx, readCheck, windowEndCheck_bound, if_pos ho]
    rfl
  case begins =>
    have passes : readCheck s.ports[p].windows[w] offset = none := by
      rw [hx, readCheck, windowEndCheck_bound, if_neg (by omega)]
      rfl
    refine ⟨_, exec_read_of_check_passes ha hd hw passes, ?_⟩
    refine exec_readDataByte_of_burst ?_ ?_ rfl
    · rw [setPort_ports_self]; rfl
    · rw [setPort_ports_self]; rfl

/-! ### A byte of a READ burst (R24, R63, R65) -/

/-- The byte to shift out on a port context that has changed. -/
theorem setOutput_setPort (s : State) (p : Port) (x : PortContext) (b : Byte) :
    setOutput (s.setPort p x) p b = s.setPort p { x with frame := { x.frame with output := b } } := by
  rw [setOutput, State.modFrame, State.modPort, setPort_setPort, setPort_ports_self]

/-- Inside its window a READ byte is translated, and the port takes it (R63). -/
theorem takeReadByte_inside {s : State} {p : Port} {b : Burst} {w : Binding} (hs : b.stopped = false)
    (hw : s.ports[p].windows[b.window] = .bound w) (hc : b.cursor < 256 * w.count) {x : Byte} {poisoned : Bool}
    (hx : translate s p w.volume (w.pageAt b.cursor) (byteInPage b.cursor) = (x, poisoned)) :
    takeReadByte s p b = s.setPort p { meetPage s.ports[p] b w poisoned with
      frame := { (meetPage s.ports[p] b w poisoned).frame with output := x } } := by
  have inside : ¬w.windowEnd ≤ b.cursor := by unfold Binding.windowEnd; omega
  rw [takeReadByte, if_neg (by rw [hs]; decide), hw]
  refine (if_neg inside).trans ?_
  simp only [hx]
  exact setOutput_setPort ..

/-- At the window end a READ byte is 0xFF (R63). -/
theorem takeReadByte_end {s : State} {p : Port} {b : Burst} {w : Binding} (hs : b.stopped = false)
    (hw : s.ports[p].windows[b.window] = .bound w) (hc : 256 * w.count ≤ b.cursor) :
    takeReadByte s p b = s.setPort p { meetEnd s.ports[p] b w with
      frame := { (meetEnd s.ports[p] b w).frame with output := 0xFF#8 } } := by
  rw [takeReadByte, if_neg (by rw [hs]; decide), hw]
  exact (if_pos hc).trans (setOutput_setPort ..)

/-- The byte of an array frame at an offset of its page. -/
theorem arrayByte_inPage (s : State) (f : FrameNo) (n : Nat) :
    arrayByte s f (byteInPage n).val = arrayAt s (256 * f.val + n % 256) := rfl

/-- The byte a page without poison gives (R24). -/
theorem translate_clean {s : State} {p : Port} {v : VolumeNo} {g : PageNo} {n : Nat} {x : Byte}
    (h : (∃ f, (entryOf s v g).claimOf p = some (.data f) ∧ x = arrayAt s (256 * f.val + n % 256)) ∨
      ((entryOf s v g).claimOf p = some .hole ∧ x = 0x00#8) ∨
      ((entryOf s v g).claimOf p = none ∧ (entryOf s v g).committed = none ∧ x = 0x00#8) ∨
      ∃ c, (entryOf s v g).claimOf p = none ∧ (entryOf s v g).committed = some c ∧ c.poisoned = false ∧
        x = arrayAt s (256 * c.frame.val + n % 256)) :
    translate s p v g (byteInPage n) = (x, false) := by
  unfold translate
  rcases h with ⟨f, hk, rfl⟩ | ⟨hk, rfl⟩ | ⟨hk, hc, rfl⟩ | ⟨c, hk, hc, hp, rfl⟩
  · simp only [hk]; rfl
  · simp only [hk]
  · simp only [hk, hc]
  · simp only [hk, hc, hp]; rfl

/-- A poisoned page gives 0xFF (R24, R65). -/
theorem translate_poisoned {s : State} {p : Port} {v : VolumeNo} {g : PageNo} (off : Fin 256) {c : Committed}
    (hk : (entryOf s v g).claimOf p = none) (hc : (entryOf s v g).committed = some c) (hp : c.poisoned = true) :
    translate s p v g off = (0xFF#8, true) := by
  unfold translate
  simp only [hk, hc, hp]
  rfl

/-- The fault record of a READ burst (R72). -/
theorem burstFault_read (cause : FaultCause) {b : Burst} (w : Binding) (page : Option Nat) (hk : b.kind = .read) :
    burstFault cause b w page = ⟨cause, .read, b.window, w.volume, page, b.cursor, false⟩ := by
  unfold burstFault
  rw [hk]

/-- A stopped burst gives 0xFF, and a stale window stops it (R63). -/
theorem takeReadByte_stale {s : State} {p : Port} {b : Burst} {w : Binding} (hs : b.stopped = false)
    (hw : s.ports[p].windows[b.window] = .stale w) :
    takeReadByte s p b = s.setPort p { meetStale s.ports[p] b w with
      frame := { (meetStale s.ports[p] b w).frame with output := 0xFF#8 } } := by
  rw [takeReadByte, if_neg (by rw [hs]; decide), hw]
  exact setOutput_setPort ..

/-- Settles O21: the cases of R63 are those of `takeReadByte`, and each fault is `PortContext.faulted`. -/
theorem readByteIsTaken : Obligations.ReadByteIsTaken := by
  intro p s b hf hb hk
  rw [exec_readDataByte_of_burst hf hb hk]
  refine ⟨fun hs => ?stopped, fun w hs hw => ?stale, fun w hs hw => ⟨fun hc he => ?reportedEnd, fun hc he => ?atEnd,
    fun hc g hg => ⟨fun x hx => ?clean, fun c hn hm hp => ⟨fun hr => ?reported, fun hr => ?poisoned⟩⟩⟩⟩
  case stopped => exact congrArg Host.Outcome.next (if_pos hs)
  case stale =>
    rw [takeReadByte_stale hs hw, meetStale, burstFault_read _ _ _ hk, meetFault_eq]
    rfl
  case reportedEnd =>
    rw [takeReadByte_end hs hw hc, meetEnd, if_pos he]
  case atEnd =>
    rw [takeReadByte_end hs hw hc, meetEnd, if_neg (by rw [he]; decide), burstFault_read _ _ _ hk, meetFault_eq]
    rfl
  case clean =>
    subst hg
    rw [takeReadByte_inside hs hw hc (translate_clean hx), meetPage, if_neg (by simp)]
    rfl
  case reported =>
    subst hg
    rw [takeReadByte_inside hs hw hc (translate_poisoned _ hn hm hp), meetPage, if_neg fun h => h.2 hr]
    rfl
  case poisoned =>
    subst hg
    rw [takeReadByte_inside hs hw hc (translate_poisoned _ hn hm hp), meetPage, if_pos ⟨rfl, hr⟩,
      burstFault_read _ _ _ hk, meetFault_eq]
    rfl

/-! ### What a read does not see (R24, R52, R64) -/

theorem claimOf_eq_none {e : Entry} {p : Port} (h : ∀ k, e.claim ≠ some ⟨p, k⟩) : e.claimOf p = none := by
  unfold Entry.claimOf
  split
  · next c hc =>
    refine if_neg ?_
    rintro rfl
    exact h c.kind hc
  · rfl

/-- Settles O22: without a claim of the port the translation reads the committed part alone. -/
theorem readsSeeNoForeignClaim : Obligations.ReadsSeeNoForeignClaim := by
  intro s t p v g off hs ht hc hb
  unfold translate
  simp only [claimOf_eq_none hs, claimOf_eq_none ht, ← hc]
  cases hx : (entryOf s v g).committed with
  | none => rfl
  | some c => simp only [show arrayByte s c.frame off.val = arrayByte t c.frame off.val from hb c hx]

/-! ### The burst a WRITE begins (R66) -/

/-- Settles O23: the state and the mode of the window, the offset and the transaction, in their order. -/
theorem writeBeginsBurst : Obligations.WriteBeginsBurst := by
  intro p window offset s ha hd
  refine ⟨fun h => ?badWindow, fun w hw => ⟨fun hx => ?unbound, fun b hx => ?stale, fun b hx => ⟨fun hm => ?mode,
    fun hm ho => ?ended, fun hm ho ht => ?begins⟩⟩⟩
  case badWindow =>
    refine exec_of_formatted rfl ha hd ?_
    rw [windowArg_none window h]
    exact reply_enterData ..
  all_goals refine exec_write_of_window ha hd hw ?_
  case unbound | stale =>
    rw [hx]
    exact unlessRefused_enterData ..
  case mode =>
    rw [hx, writeCheck_bound, if_pos hm]
    exact unlessRefused_enterData ..
  case ended =>
    rw [hx, writeCheck_bound, if_neg (by rw [hm]; decide), if_pos ho]
    exact unlessRefused_enterData ..
  case begins =>
    rw [hx, writeCheck_bound, if_neg (by rw [hm]; decide), if_neg (by omega), ht]
    exact reply_modPort_enterData s p _ _ _ _ (fun x => x.setBurst (newBurst .write w offset)) rfl

end Sys2Proof.Machine
end


section
/-! The bytes of a WRITE burst (O24 to O26) and PUNCH (O27, O28). -/

namespace Sys2Proof.Machine

/-! ### The WRITE burst (R67) -/

/-- A data byte of a WRITE burst is taken by the burst. -/
theorem exec_writeDataByte_of_burst {p : Port} {value : Byte} {s : State} {b : Burst}
    (hf : s.ports[p].frame.phase = .data) (hb : s.ports[p].burst = some b) (hk : b.kind = .write) :
    exec (.writeDataByte p value) s = .next (takeWriteByte s p b value) := by
  change execWriteDataByte p value s = _
  rw [execWriteDataByte, if_pos hf, hb]
  exact congrArg Host.Outcome.next (if_pos hk)

/-- The fault record of a WRITE burst (R72). -/
theorem burstFault_write (cause : FaultCause) {b : Burst} (w : Binding) (page : Option Nat) (hk : b.kind = .write) :
    burstFault cause b w page = ⟨cause, .write, b.window, w.volume, page, b.cursor, false⟩ := by
  unfold burstFault
  rw [hk]

/-- A refusal of a burst changes the burst record and the frame result alone (R32, R68). -/
theorem refuseBurst_eq (s : State) (p : Port) (b : Burst) (r : Result) :
    refuseBurst s p b r = s.setPort p { s.ports[p] with
      burst := some { b with stopped := true }
      frame := { s.ports[p].frame with result := some r } } := by
  rw [refuseBurst, setResult, State.modFrame, State.modPort, State.modPort, setPort_setPort, setPort_ports_self]
  rfl

section Taken

variable {s : State} {p : Port} {b : Burst} {w : Binding} {value : Byte} (hs : b.stopped = false)
  (ht : s.ports[p].txn.state = .opened)
include hs ht

theorem takeWriteByte_stale (hw : s.ports[p].windows[b.window] = .stale w) :
    takeWriteByte s p b value = s.setPort p (meetStale s.ports[p] b w) := by
  rw [takeWriteByte, if_neg (by rw [hs]; decide), if_neg (by rw [ht]; decide), hw]
  rfl

variable (hw : s.ports[p].windows[b.window] = .bound w)
include hw

theorem takeWriteByte_end (hc : 256 * w.count ≤ b.cursor) :
    takeWriteByte s p b value = s.setPort p (meetEnd s.ports[p] b w) := by
  rw [takeWriteByte, if_neg (by rw [hs]; decide), if_neg (by rw [ht]; decide), hw]
  exact if_pos hc

variable (hc : b.cursor < 256 * w.count)
include hc

/-- A byte that the map unit takes advances the cursor (R67). -/
theorem takeWriteByte_done {t : State} (h : requestWrite s p w.volume (Fin.ofNat 64 (w.first.val + b.cursor / 256))
    (byteInPage b.cursor) value = .done t) :
    takeWriteByte s p b value = t.modPort p fun c => c.setBurst b.advance := by
  have inside : ¬w.windowEnd ≤ b.cursor := by unfold Binding.windowEnd; omega
  rw [takeWriteByte, if_neg (by rw [hs]; decide), if_neg (by rw [ht]; decide), hw]
  refine (if_neg inside).trans ?_
  simp only [Binding.pageAt, h]

/-- A byte that the map unit refuses stops the burst (R68). -/
theorem takeWriteByte_refused {r : Result}
    (h : requestWrite s p w.volume (Fin.ofNat 64 (w.first.val + b.cursor / 256)) (byteInPage b.cursor) value =
      .refused r) : takeWriteByte s p b value = refuseBurst s p b r := by
  have inside : ¬w.windowEnd ≤ b.cursor := by unfold Binding.windowEnd; omega
  rw [takeWriteByte, if_neg (by rw [hs]; decide), if_neg (by rw [ht]; decide), hw]
  refine (if_neg inside).trans ?_
  simp only [Binding.pageAt, h]

end Taken

/-! ### The entries and the claims that a write meets -/

theorem entryOf_present {s : State} {v : VolumeNo} {r : VolumeRecord} (g : PageNo)
    (hr : s.volumes[v] = .present r) : entryOf s v g = r.entries[g] := by
  unfold entryOf
  rw [hr]
  rfl

theorem claimOf_own {e : Entry} {p : Port} {k : ClaimKind} (h : e.claim = some ⟨p, k⟩) : e.claimOf p = some k := by
  rw [Entry.claimOf, h]
  exact if_pos rfl

theorem claimOf_other {e : Entry} {p q : Port} {k : ClaimKind} (h : e.claim = some ⟨q, k⟩) (hq : q ≠ p) :
    e.claimOf p = none := by
  rw [Entry.claimOf, h]
  exact if_neg hq

theorem shadowOf_own {e : Entry} {p : Port} {f : FrameNo} (h : e.claim = some ⟨p, .data f⟩) :
    e.shadowOf p = some f := by
  rw [Entry.shadowOf, claimOf_own h]

/-- A replaced entry of a present volume. -/
theorem setEntry_present {s : State} {v : VolumeNo} {r : VolumeRecord} (g : PageNo) (e : Entry)
    (hr : s.volumes[v] = .present r) : s.setEntry v g e = { s with
      volumes := upd s.volumes v (.present { r with entries := upd r.entries g e }) } := by
  unfold State.setEntry State.modVolume
  rw [hr]
  rfl

/-- The checks of a claim creation on a present volume, each by its own condition (R46). -/
theorem claimVolumeCheck_present {s : State} {v : VolumeNo} {r : VolumeRecord} {g : PageNo}
    (hr : s.volumes[v] = .present r) :
    (r.status = .opened → claimVolumeCheck s.volumes[v] v g = none) ∧
    (r.status.isChanging = true →
      claimVolumeCheck s.volumes[v] v g = some (refusalWith .volumeChanging (.ofPage v g))) ∧
    (r.status = .frozen ∨ r.status = .lockedFrozen →
      claimVolumeCheck s.volumes[v] v g = some (refusalWith .volumeFrozen (.ofPage v g))) := by
  rw [hr]
  unfold claimVolumeCheck Volume.status
  refine ⟨fun h => ?_, fun h => ?_, fun h => ?_⟩
  · simp only [h]
  · cases hst : r.status with
    | changing op ret => simp only [hst]
    | opened | frozen | lockedFrozen | damaged _ => rw [hst] at h; cases h
  · rcases h with h | h <;> simp only [h]

theorem claimOtherCheck_of_none {e : Entry} {p : Port} {v : VolumeNo} {g : PageNo} (h : e.claim = none) :
    claimOtherCheck e p v g = none := by
  rw [claimOtherCheck, h]

theorem claimOtherCheck_other {e : Entry} {p q : Port} {v : VolumeNo} {g : PageNo} {k : ClaimKind}
    (h : e.claim = some ⟨q, k⟩) (hq : q ≠ p) :
    claimOtherCheck e p v g = some (refusalWith .claimed (.ofClaim q v g)) := by
  rw [claimOtherCheck, h]
  exact if_neg hq

theorem claimFrameCheck_passes {s : State} (v : VolumeNo) (g : PageNo) (h : 8 < s.freeList.length) :
    claimFrameCheck s v g = none := by
  have allocates : mayAllocate s = true := decide_eq_true h
  rw [claimFrameCheck, if_pos allocates]

theorem claimFrameCheck_fails {s : State} (v : VolumeNo) (g : PageNo) (h : s.freeList.length ≤ 8) :
    claimFrameCheck s v g = some (refusalWith .noFrame (.ofPage v g)) := by
  have full : ¬mayAllocate s = true := by
    unfold mayAllocate Config.relocationReserve
    rw [decide_eq_true_eq]
    omega
  rw [claimFrameCheck, if_neg full]

/-- The checks of a claim creation on an OPEN volume and a page without a claim: the quota decides (R46). -/
theorem claimChecks_of_unclaimed {s : State} {p : Port} {v : VolumeNo} {r : VolumeRecord} {g : PageNo}
    (hr : s.volumes[v] = .present r) (ho : r.status = .opened) (hn : r.entries[g].claim = none) :
    claimChecks s p v g = claimQuotaCheck s p := by
  have volume := (claimVolumeCheck_present (g := g) hr).1 ho
  have other : claimOtherCheck (entryOf s v g) p v g = none :=
    claimOtherCheck_of_none (by rw [entryOf_present g hr]; exact hn)
  rw [claimChecks, volume, other]
  rfl

/-! ### A byte in the own shadow (R47) -/

/-- Where the byte of a window offset stands in a frame. -/
theorem frameBase_inPage (f : FrameNo) (n : Nat) : frameBase f + (byteInPage n).val = 256 * f.val + n % 256 := rfl

/-- A byte written in a frame reads back, and every other byte is as it was (R1). -/
theorem arrayAt_writeArrayByte {s : State} (f : FrameNo) (n : Nat) (value : Byte)
    (h : Memory.wf arrayFill s.array) :
    arrayAt (writeArrayByte s f (byteInPage n) value) (256 * f.val + n % 256) = value ∧
    ∀ x, x ≠ 256 * f.val + n % 256 → arrayAt (writeArrayByte s f (byteInPage n) value) x = arrayAt s x := by
  unfold arrayAt
  rw [writeArrayByte_array, frameBase_inPage]
  exact ⟨read_store_same _ _ _ _ h.1, fun x hx => read_store_other _ _ _ _ _ hx⟩

/-- A write request on the port's own DATA claim (R47). -/
theorem requestWrite_own {s : State} {p : Port} {v : VolumeNo} {g : PageNo} {f : FrameNo}
    (h : (entryOf s v g).claim = some ⟨p, .data f⟩) (off : Fin 256) (value : Byte) :
    requestWrite s p v g off value = .done (writeArrayByte s f off value) := by
  unfold requestWrite placeByte
  simp only [claimOf_own h, shadowOf_own h]

/-- Settles O24: the byte goes to its address of the shadow and the burst advances. -/
theorem writeByteInOwnShadow : Obligations.WriteByteInOwnShadow := by
  intro p value s b w g f hf hb hk hs ht hw hc hg hclaim hm
  subst hg
  obtain ⟨placed, others⟩ := arrayAt_writeArrayByte f b.cursor value hm.1
  refine ⟨(writeArrayByte s f (byteInPage b.cursor) value).modPort p fun c => c.setBurst b.advance, ?_, rfl,
    placed, others⟩
  rw [exec_writeDataByte_of_burst hf hb hk, takeWriteByte_done hs ht hw hc (requestWrite_own hclaim _ value)]

/-! ### A byte that makes or converts a claim (R25, R46, R47) -/

/-- What a write leaves that puts a new shadow on a page of a present volume: the frame filled and the byte placed
in it, and the claim counts `n`. -/
def shadowWritten (s : State) (p : Port) (v : VolumeNo) (r : VolumeRecord) (g : PageNo) (f : FrameNo)
    (rest : List FrameNo) (fill : List Byte) (off : Fin 256) (value : Byte) (n : Vector Nat 4) : State :=
  { s with
    array := (writeArrayByte (writeFrame s f fill) f off value).array
    frameStates := (s.setFrameState f .shadow).frameStates
    freeList := rest
    volumes := upd s.volumes v (.present { r with
      entries := upd r.entries g { r.entries[g] with claim := some ⟨p, .data f⟩ } })
    claimCount := n }

section Shadow

variable {s : State} {p : Port} {v : VolumeNo} {r : VolumeRecord} {g : PageNo} {f : FrameNo}
  {rest : List FrameNo} (hr : s.volumes[v] = .present r) (hf : s.freeList = f :: rest)
include hr hf

theorem shadowPage_present (fill : List Byte) : shadowPage s p v g fill = { s with
    array := (writeFrame s f fill).array
    frameStates := (s.setFrameState f .shadow).frameStates
    freeList := rest
    volumes := upd s.volumes v (.present { r with
      entries := upd r.entries g { r.entries[g] with claim := some ⟨p, .data f⟩ } }) } := by
  rw [shadowPage_eq s p v g fill f rest hf, entryOf_present g hr]
  unfold State.setFrameState
  cases poolIndex f with
  | none => exact setEntry_present (s := writeFrame { s with freeList := rest } f fill) g _ hr
  | some i =>
    exact setEntry_present (s := writeFrame { s with
      freeList := rest, frameStates := upd s.frameStates i .shadow } f fill) g _ hr

/-- The byte is placed in the shadow just made, whatever the claim counts. -/
theorem placeByte_shadowPage (fill : List Byte) (off : Fin 256) (value : Byte) (n : Vector Nat 4) :
    placeByte { shadowPage s p v g fill with claimCount := n } p v g off value =
      shadowWritten s p v r g f rest fill off value n := by
  rw [shadowPage_present hr hf]
  have volume : (upd s.volumes v (.present { r with
      entries := upd r.entries g { r.entries[g] with claim := some ⟨p, .data f⟩ } }))[v] = .present { r with
      entries := upd r.entries g { r.entries[g] with claim := some ⟨p, .data f⟩ } } := upd_get_self ..
  unfold placeByte
  rw [entryOf_present g volume, shadowOf_own (f := f) (by rw [upd_get_self])]
  rfl

/-- A write request on the port's own HOLE claim (R47). -/
theorem requestWrite_converts (hfree : 8 < s.freeList.length) (hc : r.entries[g].claim = some ⟨p, .hole⟩)
    (off : Fin 256) (value : Byte) : requestWrite s p v g off value =
      .done (shadowWritten s p v r g f rest zeroFrame off value s.claimCount) := by
  have own : (entryOf s v g).claimOf p = some .hole := by rw [entryOf_present g hr]; exact claimOf_own hc
  have counts : (shadowPage s p v g zeroFrame).claimCount = s.claimCount := by rw [shadowPage_present hr hf]
  rw [← placeByte_shadowPage hr hf, ← counts]
  unfold requestWrite
  simp only [own, claimFrameCheck_passes v g hfree]

/-- A write request on an unclaimed page, with the checks of a claim creation passed (R46, R47). -/
theorem requestWrite_creates (hfree : 8 < s.freeList.length) (hc : r.entries[g].claim = none)
    (ho : r.status = .opened) (hq : s.claimCount[p] < quotaOf s p) (off : Fin 256) (value : Byte) :
    requestWrite s p v g off value = .done (shadowWritten s p v r g f rest (fillFor s r.entries[g]) off value
      (upd s.claimCount p (s.claimCount[p] + 1))) := by
  have own : r.entries[g].claimOf p = none := claimOf_eq_none fun k h => by rw [hc] at h; cases h
  have quota : claimChecks s p v g = none := by
    rw [claimChecks_of_unclaimed hr ho hc, claimQuotaCheck, if_pos hq]
  have counted : countClaim (shadowPage s p v g (fillFor s r.entries[g])) p =
      { shadowPage s p v g (fillFor s r.entries[g]) with
        claimCount := upd s.claimCount p (s.claimCount[p] + 1) } := by
    rw [shadowPage_present hr hf]
    rfl
  rw [← placeByte_shadowPage hr hf, ← counted]
  unfold requestWrite
  simp only [own, quota, claimFrameCheck_passes v g hfree, Option.or_none, entryOf_present g hr]

end Shadow

/-- The bytes of a shadow just made: the byte placed, the fill around it, and every other frame as it was (R25). -/
theorem arrayAt_shadowWritten {s : State} (hm : MemoryForm s) (p : Port) (v : VolumeNo) (r : VolumeRecord)
    (g : PageNo) (f : FrameNo) (rest : List FrameNo) {fill : List Byte} (hl : fill.length = 256) (m : Nat)
    (value : Byte) (n : Vector Nat 4) :
    arrayAt (shadowWritten s p v r g f rest fill (byteInPage m) value n) (256 * f.val + m % 256) = value ∧
    (∀ x, ¬inFrame f x →
      arrayAt (shadowWritten s p v r g f rest fill (byteInPage m) value n) x = arrayAt s x) ∧
    ∀ i : Fin 256, i.val ≠ m % 256 →
      arrayAt (shadowWritten s p v r g f rest fill (byteInPage m) value n) (256 * f.val + i.val) =
        fill.getD i.val arrayFill := by
  obtain ⟨placed, others⟩ := arrayAt_writeArrayByte (s := writeFrame s f fill) f m value
    (hm.writeFrame f fill).1
  refine ⟨placed, fun x hx => ?outside, fun i hi => ?inside⟩
  case outside =>
    have away : x ≠ 256 * f.val + m % 256 := by
      rintro rfl
      exact hx ⟨by omega, by omega⟩
    exact (others x away).trans (arrayAt_writeFrame s f fill x hx)
  case inside =>
    refine (others _ (by omega)).trans ?_
    refine (read_storeFrame arrayFill s.array f fill hl _).trans ?_
    rw [if_pos (by omega), Nat.add_sub_cancel_left]

theorem zeroFrame_getD (i : Fin 256) : zeroFrame.getD i.val arrayFill = 0x00#8 := by
  rw [zeroFrame, List.getD_replicate _ (by have := i.isLt; simp [Config.frameBytes])]

theorem arrayFrame_getD (s : State) (f : FrameNo) (i : Fin 256) :
    (arrayFrame s f).getD i.val arrayFill = arrayAt s (256 * f.val + i.val) :=
  frameBytes_getD arrayFill s.array f i.val i.isLt arrayFill

/-- The fill of a new shadow: the page's bytes where it is committed and not poisoned, otherwise zero (R25). -/
theorem fillFor_cases (s : State) (e : Entry) :
    (fillFor s e).length = 256 ∧
    (e.committed = none ∨ (∃ c, e.committed = some c ∧ c.poisoned = true) → fillFor s e = zeroFrame) ∧
    ∀ c, e.committed = some c → c.poisoned = false → fillFor s e = arrayFrame s c.frame := by
  have zero : zeroFrame.length = 256 := List.length_replicate
  cases he : e.committed with
  | none =>
    have filled : fillFor s e = zeroFrame := by simp only [fillFor, he]
    exact ⟨filled ▸ zero, fun _ => filled, fun c h => by cases h⟩
  | some c =>
    cases hp : c.poisoned with
    | true =>
      have filled : fillFor s e = zeroFrame := by simp only [fillFor, he, hp, if_true]
      exact ⟨filled ▸ zero, fun _ => filled, fun d h hd => by cases h; rw [hp] at hd; cases hd⟩
    | false =>
      have filled : fillFor s e = arrayFrame s c.frame := by simp only [fillFor, he, hp]; rfl
      refine ⟨filled ▸ length_arrayFrame s c.frame, fun h => ?_, fun d h _ => by cases h; exact filled⟩
      rcases h with h | ⟨d, h, hd⟩
      · cases h
      · cases h
        rw [hp] at hd
        cases hd

/-- A write that makes or converts a claim puts a new shadow on the page, with the fill of R25 (R46, R47). -/
theorem requestWrite_shadows {s : State} {p : Port} {v : VolumeNo} {r : VolumeRecord} {g : PageNo} {f : FrameNo}
    {rest : List FrameNo} (hr : s.volumes[v] = .present r) (hf : s.freeList = f :: rest)
    (hfree : 8 < s.freeList.length)
    (hc : (r.entries[g].claim = none ∧ r.status = .opened ∧ s.claimCount[p] < quotaOf s p) ∨
      r.entries[g].claim = some ⟨p, .hole⟩) (off : Fin 256) (value : Byte) :
    ∃ fill : List Byte, fill.length = 256 ∧
      requestWrite s p v g off value = .done (shadowWritten s p v r g f rest fill off value
        (if r.entries[g].claim = none then upd s.claimCount p (s.claimCount[p] + 1) else s.claimCount)) ∧
      (r.entries[g].claim = some ⟨p, .hole⟩ ∨ r.entries[g].committed = none ∨
        (∃ c, r.entries[g].committed = some c ∧ c.poisoned = true) → fill = zeroFrame) ∧
      ∀ c, r.entries[g].claim = none → r.entries[g].committed = some c → c.poisoned = false →
        fill = arrayFrame s c.frame := by
  rcases hc with ⟨hn, ho, hq⟩ | hh
  · obtain ⟨length, zero, copy⟩ := fillFor_cases s r.entries[g]
    refine ⟨fillFor s r.entries[g], length, ?_, fun h => ?_, fun c _ => copy c⟩
    · rw [if_pos hn]
      exact requestWrite_creates hr hf hfree hn ho hq off value
    · exact zero (h.resolve_left fun h => by rw [hn] at h; cases h)
  · have claimed : ¬r.entries[g].claim = none := by rw [hh]; exact Option.some_ne_none _
    refine ⟨zeroFrame, List.length_replicate, ?_, fun _ => rfl, fun c hn => absurd hn claimed⟩
    rw [if_neg claimed]
    exact requestWrite_converts hr hf hfree hh off value

/-- Settles O25: the new shadow of `requestWrite_shadows`, its bytes by `arrayAt_shadowWritten`. -/
theorem writeByteMakesDataClaim : Obligations.WriteByteMakesDataClaim := by
  intro p value s b w g r f rest hf hb hk hs ht hw hc hg hr hl hfree hpool hm hclaim
  subst hg
  obtain ⟨fill, length, taken, zero, copy⟩ := requestWrite_shadows hr hl hfree hclaim (byteInPage b.cursor) value
  obtain ⟨placed, outside, inside⟩ := arrayAt_shadowWritten hm p w.volume r
    (Fin.ofNat 64 (w.first.val + b.cursor / 256)) f rest length b.cursor value (if r.entries[Fin.ofNat 64 (w.first.val + b.cursor / 256)].claim = none
      then upd s.claimCount p (s.claimCount[p] + 1) else s.claimCount)
  have stepped := (exec_writeDataByte_of_burst (value := value) hf hb hk).trans
    (congrArg Host.Outcome.next (takeWriteByte_done hs ht hw hc taken))
  refine ⟨_, stepped, rfl, ?_, fun h hh => ?_, placed, outside, fun i hi => ⟨fun hz => ?_, fun c hn hm hp => ?_⟩⟩
  · exact (frameState_setFrameState s f f .shadow).trans (if_pos ⟨rfl, hpool⟩)
  · exact (frameState_setFrameState s f h .shadow).trans (if_neg fun e => hh e.1.symm)
  · refine (inside i hi).trans ?_
    rw [zero hz, zeroFrame_getD]
  · refine (inside i hi).trans ?_
    rw [copy c hn hm hp, arrayFrame_getD]

/-! ### A byte that is ignored, faulted or refused (R46, R67, R68) -/

/-- A write request on the port's own HOLE claim without a frame for it (R47). -/
theorem requestWrite_no_frame {s : State} {p : Port} {v : VolumeNo} {g : PageNo}
    (h : (entryOf s v g).claim = some ⟨p, .hole⟩) (hfree : s.freeList.length ≤ 8) (off : Fin 256) (value : Byte) :
    requestWrite s p v g off value = .refused (refusalWith .noFrame (.ofPage v g)) := by
  unfold requestWrite
  simp only [claimOf_own h, claimFrameCheck_fails v g hfree]

/-- A write request on a page without the port's claim, with a check of a claim creation that fails (R46). -/
theorem requestWrite_check_fails {s : State} {p : Port} {v : VolumeNo} {g : PageNo} {r : Result}
    (hn : (entryOf s v g).claimOf p = none) (h : (claimChecks s p v g).or (claimFrameCheck s v g) = some r)
    (off : Fin 256) (value : Byte) : requestWrite s p v g off value = .refused r := by
  unfold requestWrite
  simp only [hn, h]

/-- Settles O26: the burst, the transaction and the window first, then the checks of the map unit in their order. -/
theorem writeByteRefused : Obligations.WriteByteRefused := by
  intro p value s b hf hb hk refuse
  have taken := exec_writeDataByte_of_burst (value := value) hf hb hk
  have refused : ∀ r, takeWriteByte s p b value = refuseBurst s p b r →
      exec (.writeDataByte p value) s = .next (s.setPort p { s.ports[p] with
        burst := some { b with stopped := true }
        frame := { s.ports[p].frame with result := some r } }) := fun r h => by
    rw [taken, h, refuseBurst_eq]
  refine ⟨fun hs => ?stopped, fun hs ht => ?notOpen, fun hs ht w => ⟨fun hw => ?stale,
    fun hw hc => ⟨fun he => ?reported, fun he => ?atEnd⟩, fun hw hc g r hg hr => ⟨fun hh hl => ?noFrame,
    fun hn => ⟨fun hst => ?changing, fun hst => ?frozen, fun q k hst hq => ?claimed, fun hst hu hq => ?quota,
    fun hst hu hq hl => ?reserve⟩⟩⟩⟩
  case stopped => rw [taken, takeWriteByte, if_pos hs]
  case notOpen =>
    refine refused (refusal .txnExpired) ?_
    rw [takeWriteByte, if_neg (by rw [hs]; decide), if_pos ht]
  case stale =>
    rw [taken, takeWriteByte_stale hs ht hw, meetStale, burstFault_write _ _ _ hk, meetFault_eq]
    rfl
  case reported => rw [taken, takeWriteByte_end hs ht hw hc, meetEnd, if_pos he, setPort_self]
  case atEnd =>
    rw [taken, takeWriteByte_end hs ht hw hc, meetEnd, if_neg (by rw [he]; decide), burstFault_write _ _ _ hk,
      meetFault_eq]
  all_goals subst hg
  case noFrame =>
    refine refused _ (takeWriteByte_refused hs ht hw hc (requestWrite_no_frame ?_ hl _ _))
    rw [entryOf_present _ hr]
    exact hh
  all_goals
    have unclaimed : (entryOf s w.volume (Fin.ofNat 64 (w.first.val + b.cursor / 256))).claimOf p = none :=
      claimOf_eq_none (by rw [entryOf_present _ hr]; exact hn)
    refine refused _ (takeWriteByte_refused hs ht hw hc (requestWrite_check_fails unclaimed ?_ _ _))
  case changing => rw [claimChecks, (claimVolumeCheck_present hr).2.1 hst]; rfl
  case frozen => rw [claimChecks, (claimVolumeCheck_present hr).2.2 hst]; rfl
  case claimed =>
    have other : q ≠ p := by
      rintro rfl
      exact hn k hq
    rw [claimChecks, (claimVolumeCheck_present hr).1 hst, entryOf_present _ hr, claimOtherCheck_other hq other]
    rfl
  case quota =>
    rw [claimChecks_of_unclaimed hr hst hu, claimQuotaCheck, if_neg (by omega)]
    rfl
  case reserve =>
    rw [claimChecks_of_unclaimed hr hst hu, claimQuotaCheck, if_pos hq, claimFrameCheck_fails _ _ hl]
    rfl

/-! ### PUNCH (R48, R70) -/

/-- The checks of PUNCH pass through a WRITE-mode window in an OPEN transaction. -/
theorem punchCheck_passes {b : Binding} {t : TxnState} (hm : b.mode = .write) (ht : t = .opened) :
    punchCheck (.bound b) t = none := by
  rw [punchCheck_bound, if_neg (by rw [hm]; decide), ht]
  rfl

section Punch

variable {p : Port} {window index : Byte} {s : State} {w : WindowNo} {b : Binding}
  (ha : awaits s p .punch [window, index] = true) (hd : s.device ≠ .unformatted) (hw : window.toNat = w.val)
  (hb : s.ports[p].windows[w] = .bound b) (hm : b.mode = .write) (ht : s.ports[p].txn.state = .opened)
include ha hd hw hb hm ht

variable (hi : index.toNat < b.count)
include hi

/-- A punch that the map unit takes is answered on the state it leaves (R70). -/
theorem exec_punch_done {t u : State}
    (h : requestPunch (enterData s p .punch [window, index]) p b.volume
      (Fin.ofNat 64 (b.first.val + index.toNat)) = .done t) (hu : reply t p .ok [] = u) :
    exec (.punch p window index) s = .next u := by
  have page : b.pageAt (256 * index.toNat) = Fin.ofNat 64 (b.first.val + index.toNat) := by
    rw [Binding.pageAt, Nat.mul_div_cancel_left _ (by omega)]
  refine exec_punch_of_bound ha hd hw hb (punchCheck_passes hm ht) ?_
  rw [if_neg (by omega), punchPage, page, h]
  exact hu

/-- A punch that the map unit refuses is answered with the refusal (R70). -/
theorem exec_punch_refused {r : Result}
    (h : requestPunch (enterData s p .punch [window, index]) p b.volume
      (Fin.ofNat 64 (b.first.val + index.toNat)) = .refused r) :
    exec (.punch p window index) s = .next (answered s p .punch [window, index] r []) := by
  have page : b.pageAt (256 * index.toNat) = Fin.ofNat 64 (b.first.val + index.toNat) := by
    rw [Binding.pageAt, Nat.mul_div_cancel_left _ (by omega)]
  refine exec_punch_of_bound ha hd hw hb (punchCheck_passes hm ht) ?_
  rw [if_neg (by omega), punchPage, page, h]
  exact reply_enterData ..

end Punch

/-- The HOLE claim on an entry of a present volume (R48). -/
theorem holePage_present {s : State} {p : Port} {v : VolumeNo} {g : PageNo} {r : VolumeRecord}
    (hr : s.volumes[v] = .present r) : holePage s p v g = { s with
      volumes := upd s.volumes v (.present { r with
        entries := upd r.entries g { r.entries[g] with claim := some ⟨p, .hole⟩ } }) } := by
  rw [holePage, entryOf_present g hr]
  exact setEntry_present g _ hr

/-- A punch request on the port's own HOLE claim (R48). -/
theorem requestPunch_held {s : State} {p : Port} {v : VolumeNo} {g : PageNo}
    (h : (entryOf s v g).claim = some ⟨p, .hole⟩) : requestPunch s p v g = .done s := by
  unfold requestPunch
  simp only [claimOf_own h]

/-- A punch request on the port's own DATA claim (R48). -/
theorem requestPunch_frees {s : State} {p : Port} {v : VolumeNo} {g : PageNo} {f : FrameNo}
    (h : (entryOf s v g).claim = some ⟨p, .data f⟩) :
    requestPunch s p v g = .done (freeFrames (holePage s p v g) [f]) := by
  unfold requestPunch
  simp only [claimOf_own h]

/-- A punch request on an unclaimed page with the checks of a claim creation passed (R48). -/
theorem requestPunch_creates {s : State} {p : Port} {v : VolumeNo} {g : PageNo}
    (h : (entryOf s v g).claim = none) (hc : claimChecks s p v g = none) :
    requestPunch s p v g = .done (countClaim (holePage s p v g) p) := by
  have unclaimed : (entryOf s v g).claimOf p = none := claimOf_eq_none fun k hk => by rw [h] at hk; cases hk
  unfold requestPunch
  simp only [unclaimed, claimOtherCheck_of_none h, hc, Option.none_or]

/-- A punch request on a page without the port's claim, with a check that fails (R48). -/
theorem requestPunch_check_fails {s : State} {p : Port} {v : VolumeNo} {g : PageNo} {r : Result}
    (hn : (entryOf s v g).claimOf p = none)
    (h : (claimOtherCheck (entryOf s v g) p v g).or (claimChecks s p v g) = some r) :
    requestPunch s p v g = .refused r := by
  unfold requestPunch
  simp only [hn, h]

/-- Frames that become FREE leave every port context. -/
theorem freeFrames_setPort (s : State) (p : Port) (x : PortContext) (fs : List FrameNo) :
    freeFrames (s.setPort p x) fs = (freeFrames s fs).setPort p x := by
  rw [freeFrames, setFrames_setPort]
  rfl

/-- Settles O27: the claim on the page, then the checks of a claim creation, decide. -/
theorem punchMakesHoleClaim : Obligations.PunchMakesHoleClaim := by
  intro p window index s w b g r ha hd hw hb hm ht hi hg hr ok held refuse
  subst hg
  have hr' : (enterData s p .punch [window, index]).volumes[b.volume] = .present r := hr
  have entry := entryOf_present (Fin.ofNat 64 (b.first.val + index.toNat)) hr'
  refine ⟨fun hh => ?held, fun f hf hpool => ?frees, fun q k hq hk => ?claimed,
    fun hn => ⟨fun hst => ?changing, fun hst => ?frozen, fun hst hq => ?quota, fun hst hq => ?holes⟩⟩
  case held =>
    refine exec_punch_done ha hd hw hb hm ht hi (t := enterData s p .punch [window, index]) ?_ (reply_enterData ..)
    exact requestPunch_held (by rw [entry]; exact hh)
  case frees =>
    refine ⟨(freeFrames { s with volumes := upd s.volumes b.volume held } [f]).setPort p ok,
      exec_punch_done ha hd hw hb hm ht hi (requestPunch_frees (by rw [entry]; exact hf)) ?_, ?_, ?_, fun h hh => ?_⟩
    · rw [holePage_present hr']
      refine (congrArg (reply · p .ok []) (freeFrames_setPort { s with volumes := upd s.volumes b.volume held } p
        (s.ports[p].taken .punch [window, index]) [f])).trans ?_
      exact reply_setPort_taken (f := s.ports[p].frame) (hx := rfl) ..
    · rw [freeFrames, setFrames_eq]
      rfl
    · exact (frameState_setFrames _ [f] .free f).trans (if_pos ⟨List.mem_singleton_self f, hpool⟩)
    · exact (frameState_setFrames _ [f] .free h).trans (if_neg fun e => hh (List.mem_singleton.1 e.1))
  case claimed =>
    refine exec_punch_refused ha hd hw hb hm ht hi (requestPunch_check_fails ?_ ?_)
    · rw [entry]; exact claimOf_other hk hq
    · rw [entry, claimOtherCheck_other hk hq]; rfl
  case holes =>
    have quota : claimQuotaCheck (enterData s p .punch [window, index]) p = none := if_pos hq
    refine exec_punch_done ha hd hw hb hm ht hi (requestPunch_creates (by rw [entry]; exact hn)
      ((claimChecks_of_unclaimed hr' hst hn).trans quota)) ?_
    rw [holePage_present hr']
    exact reply_enterData { s with
      volumes := upd s.volumes b.volume held
      claimCount := upd s.claimCount p (s.claimCount[p] + 1) } p .punch [window, index] .ok []
  all_goals
    have unclaimed : r.entries[(Fin.ofNat 64 (b.first.val + index.toNat) : PageNo)].claimOf p = none :=
      claimOf_eq_none fun k h => by rw [hn] at h; cases h
    refine exec_punch_refused ha hd hw hb hm ht hi (requestPunch_check_fails (by rw [entry]; exact unclaimed) ?_)
    rw [entry, claimOtherCheck_of_none hn, Option.none_or]
  case changing => rw [claimChecks, (claimVolumeCheck_present hr').2.1 hst]; rfl
  case frozen => rw [claimChecks, (claimVolumeCheck_present hr').2.2 hst]; rfl
  case quota =>
    rw [claimChecks_of_unclaimed hr' hst hn, claimQuotaCheck]
    exact if_neg (Nat.not_lt.2 hq)

/-- A fault outside a burst changes the fault record and the pending set alone (R73). -/
theorem meetFault_of_no_burst (x : PortContext) (f : FaultRecord) (h : x.burst = none) :
    x.meetFault f = { x with
      fault := some (faultAfter x.fault f)
      pending := { x.pending with fault := x.pending.fault || x.fault.isNone } } := by
  unfold PortContext.meetFault faultAfter
  cases hx : x.fault <;> simp [h, Causes.add]

/-- Settles O28: the state and the mode of the window, then the page index. -/
theorem punchChecksItsWindow : Obligations.PunchChecksItsWindow := by
  intro p window index s ha hd
  refine ⟨fun h => ?badWindow, fun w hw => ⟨fun hx => ?unbound, fun b hx => ?stale, fun b hx => ⟨fun hm => ?mode,
    fun hm ht hi hn => ?pastEnd⟩⟩⟩
  case badWindow =>
    refine exec_of_formatted rfl ha hd ?_
    rw [windowArg_none window h]
    exact reply_enterData ..
  case unbound | stale => exact exec_punch_of_check_fails ha hd hw (by rw [hx]; rfl)
  case mode => exact exec_punch_of_check_fails ha hd hw (by rw [hx, punchCheck_bound, if_pos hm]; rfl)
  case pastEnd =>
    refine exec_punch_of_bound ha hd hw hx (punchCheck_passes hm ht) ?_
    rw [if_pos hi, punchPastEnd]
    refine (reply_modPort_enterData s p _ _ _ _ (fun c => PortContext.meetFault { c with burst := none }
      ⟨.windowEnd, .punch, w, b.volume, none, 256 * index.toNat, false⟩) ?_).trans ?_
    · rw [meetFault_of_no_burst _ _ rfl]
    · rw [meetFault_of_no_burst _ _ rfl]
      generalize s.ports[p] = x at hn ⊢
      obtain ⟨⟩ := x
      cases hn
      rfl

end Sys2Proof.Machine
end


section
/-! Administration commands: their common checks, their refusals and their acceptance (O29 to O36). -/

namespace Sys2Proof.Machine

/-! ### The common checks (R123) -/

/-- Every administration command but FORMAT begins with the common checks. -/
theorem exec_adminCheck_first {i : Instr} {p : Port} {c : Command} {args : List Byte}
    (h : commandOf i = some (p, c, args)) (hc : isAdminCommand c = true) :
    ∃ act : State → State, ∀ s,
      exec i s = .next (taking s p c args fun s => unlessRefused s p (adminCheck s p) act) := by
  cases i <;> cases h <;> cases hc <;> exact ⟨_, fun _ => rfl⟩

theorem not_requestPending_iff (s : State) (p : Port) : requestPending s p = false ↔
    ∀ r ∈ s.engine.queue ++ s.engine.inFlight.toList, r.port ≠ p := by
  rw [← Bool.not_eq_true, requestPending_iff]
  push Not
  rfl

/-- Settles O29: the common checks come first, in their order. -/
theorem adminCommonChecks : Obligations.AdminCommonChecks := by
  intro i p c args s hi hc ha hd
  obtain ⟨act, taken⟩ := exec_adminCheck_first hi hc
  refine ⟨fun hm => ?notAdmin, fun hm hr => ?pending, fun hm hr he => ?stopped⟩ <;>
    refine exec_of_check_fails (check := fun s => adminCheck s p) (taken s) ha ?_ <;>
    rw [adminCheck_enterData, adminCheck, if_neg hd]
  case notAdmin => rw [if_pos hm]; rfl
  case pending => rw [if_neg (by rw [hm]; decide), if_pos ((requestPending_iff s p).2 hr)]; rfl
  case stopped =>
    rw [if_neg (by rw [hm]; decide), if_neg (by rw [(not_requestPending_iff s p).2 hr]; decide),
      if_pos (show engineStopped s = true from decide_eq_true he)]
    rfl

section Arguments

variable {i : Instr} {p : Port} {c : Command} {args : List Byte} {s t : State} {α : Type} {x : Option α}
  {act : State → α → State}

/-- An administration command at a ready port with an argument out of its range (R123, check 5). -/
theorem exec_of_args_none (hi : exec i s = .next (taking s p c args fun s => withArgs s p x act))
    (ha : awaits s p c args = true) (hr : adminReady s p = true) (hx : x = none) :
    exec i s = .next (refused s p c args .badArgument) := by
  refine exec_of_awaits hi ha ?_
  rw [withArgs_enterData s p c args x act hr, hx]

/-- An administration command at a ready port goes on with its arguments (R123). -/
theorem exec_of_args {y : α} (hi : exec i s = .next (taking s p c args fun s => withArgs s p x act))
    (ha : awaits s p c args = true) (hr : adminReady s p = true) (hx : x = some y)
    (h : act (enterData s p c args) y = t) : exec i s = .next t := by
  refine exec_of_awaits hi ha ?_
  rw [withArgs_enterData s p c args x act hr, hx]
  exact h

end Arguments

/-! ### Argument values (R172) -/

theorem flagArg_of_toNat (b : Byte) (k : Bool) (h : b.toNat = k.toNat) : flagArg b = some k := by
  cases k with
  | false => rw [show b = 0x00#8 from BitVec.eq_of_toNat_eq h]; rfl
  | true => rw [show b = 0x01#8 from BitVec.eq_of_toNat_eq h]; rfl

theorem flagArg_above (b : Byte) (h : 2 ≤ b.toNat) : flagArg b = none :=
  flagArg_eq_none b (by rintro rfl; simp at h) (by rintro rfl; simp at h)

theorem portArg_of_toNat (q : Port) (b : Byte) (h : b.toNat = q.val) : portArg b = some q :=
  windowArg_of_toNat q b h

theorem portArg_none (b : Byte) (h : 4 ≤ b.toNat) : portArg b = none :=
  windowArg_none b h

theorem both_some {α β : Type} {x : Option α} {y : Option β} {a : α} {b : β} (hx : x = some a) (hy : y = some b) :
    both x y = some (a, b) := by
  subst hx hy
  rfl

theorem both_none_left {α β : Type} {x : Option α} {y : Option β} (hx : x = none) : both x y = none := by
  unfold both
  rw [hx]

theorem both_none_right {α β : Type} {x : Option α} {y : Option β} (hy : y = none) : both x y = none := by
  unfold both
  rw [hy]
  split <;> first | rfl | contradiction

/-! ### Rights sets -/

theorem rightOfCode_code (r : Right) : rightOfCode r.code = some r := by
  cases r <;> rfl

/-- A rights set gives each port the right that its two bits stand for. -/
theorem rightsArg_of_codes (b : Byte) (r : Vector Right 4)
    (h : ∀ q : Port, b.extractLsb' (2 * q.val) 2 =
      (match r[q] with | .noAccess => 0#2 | .read => 1#2 | .write => 2#2)) : rightsArg b = some r := by
  have code : ∀ q : Port, rightOfCode (rightsCode b q) = some r[q] := fun q => by
    rw [rightsCode_eq, h q, ← rightOfCode_code r[q]]
    cases r[q] <;> rfl
  unfold rightsArg
  simp only [code]
  refine congrArg some (Vector.ext fun k hk => ?_)
  match k, hk with
  | 0, _ | 1, _ | 2, _ | 3, _ => rfl

/-- A rights set with the code 3 for a port is out of range. -/
theorem rightsArg_none (b : Byte) (q : Port) (h : b.extractLsb' (2 * q.val) 2 = 3#2) : rightsArg b = none := by
  have code : rightOfCode (rightsCode b q) = none := by rw [rightsCode_eq, h]; rfl
  unfold rightsArg
  split
  · next h0 h1 h2 h3 =>
    match q with
    | 0 => rw [h0] at code; cases code
    | 1 => rw [h1] at code; cases code
    | 2 => rw [h2] at code; cases code
    | 3 => rw [h3] at code; cases code
  · rfl

/-! ### CREATE (R133) -/

/-- Settles O30: the argument ranges, the volume, and the acceptance. -/
theorem createAccepted : Obligations.CreateAccepted := by
  intro p volume size rights pinned s ha hr
  refine ⟨fun h => ?badArgument, fun v r k hv hn hl hk hc => ?named⟩
  case badArgument =>
    refine exec_of_args_none rfl ha hr ?_
    rcases h with h | h | h | h | ⟨q, h⟩
    · exact both_none_left (both_none_left (volumeArg_none volume h))
    · exact both_none_left (both_none_right (sizeArg_none size (.inl h)))
    · exact both_none_left (both_none_right (sizeArg_none size (.inr h)))
    · exact both_none_right (both_none_right (flagArg_above pinned h))
    · exact both_none_right (both_none_left (rightsArg_none rights q h))
  case named =>
    have args := both_some (both_some (volumeArg_of_toNat v volume hv) (sizeArg_of_toNat size hn hl))
      (both_some (rightsArg_of_codes rights r hc) (flagArg_of_toNat pinned k hk))
    refine ⟨fun hx => exec_of_args rfl ha hr args ?_, fun hx => exec_of_args rfl ha hr args ?_⟩
    · have occupied : refuseUnless (decide (s.volumes[v] = .absent)) (refusalWith .volumeExists (.ofVolume v)) =
          some (refusalWith .volumeExists (.ofVolume v)) := by
        rw [decide_eq_false hx]; rfl
      exact (congrArg (unlessRefused _ p · _) occupied).trans (unlessRefused_enterData ..)
    · have free : refuseUnless (decide (s.volumes[v] = .absent)) (refusalWith .volumeExists (.ofVolume v)) =
          none := by
        rw [decide_eq_true hx]; rfl
      refine (congrArg (unlessRefused _ p · _) free).trans ?_
      exact accept_enterData (s.setVolume v (.creating size.toNat r k)) p _ _ _

/-! ### The commands that name a volume (R135 to R143) -/

/-- The checks of a volume command on a volume, after its arguments. -/
def volumeCheckOf (c : Command) (size : Nat) (s : State) (v : VolumeNo) : Option Result :=
  match c with
  | .delete => volumeChecks s v deleteStateCheck (some 0)
  | .resize => volumeChecks s v openStateCheck (some size)
  | .freeze => volumeChecks s v openStateCheck (some 0)
  | .lock => volumeChecks s v lockStateCheck (some 0)
  | .thaw => volumeChecks s v thawStateCheck none
  | .setRights => volumeChecks s v rightsStateCheck none
  | .unpin => (presentCheck s.volumes[v]).or (guardCheck s v)
  | _ => presentCheck s.volumes[v]

theorem portRightArg_isSome (x : Byte) (h : x.toNat / 16 < 4) (hc : x.toNat % 16 < 3) :
    ∃ y, portRightArg x = some y := by
  have right : ∃ r, rightOfCode (x.toNat % 16) = some r := by
    match x.toNat % 16, hc with
    | 0, _ => exact ⟨.noAccess, rfl⟩
    | 1, _ => exact ⟨.read, rfl⟩
    | 2, _ => exact ⟨.write, rfl⟩
  obtain ⟨r, hr⟩ := right
  refine ⟨(⟨x.toNat / 16, h⟩, r), ?_⟩
  unfold portRightArg
  rw [dif_pos h, hr]

theorem portRightArg_none (x : Byte) (h : 4 ≤ x.toNat / 16 ∨ 3 ≤ x.toNat % 16) : portRightArg x = none := by
  unfold portRightArg
  split
  · next hq =>
    have code : rightOfCode (x.toNat % 16) = none := by
      unfold rightOfCode
      split <;> first | omega | rfl
    rw [code]
  · rfl

theorem portRightArg_of_codes (x : Byte) (target : Port) (right : Right) (ht : x.toNat / 16 = target.val)
    (hr : x.toNat % 16 = match right with | .noAccess => 0 | .read => 1 | .write => 2) :
    portRightArg x = some (target, right) := by
  have inRange : x.toNat / 16 < 4 := by rw [ht]; exact target.isLt
  have code : rightOfCode (x.toNat % 16) = some right := by rw [hr]; cases right <;> rfl
  unfold portRightArg
  rw [dif_pos inRange, code]
  simp only [ht]

section VolumeCommands

variable {p : Port} {volume size x : Byte} {s : State} {i : Instr} {c : Command} {args : List Byte}
  (hi : i ∈ [Instr.delete p volume, .resize p volume size, .freeze p volume, .lock p volume, .thaw p volume,
    .setRights p volume x, .pin p volume, .unpin p volume])
  (hcmd : commandOf i = some (p, c, args)) (ha : awaits s p c args = true) (hready : adminReady s p = true)
include hi hcmd ha hready

/-- A volume command with an argument out of its range. -/
theorem exec_volumeCommand_bad (h : 16 ≤ volume.toNat ∨ (c = .resize ∧ (size.toNat = 0 ∨ 64 < size.toNat)) ∨
    (c = .setRights ∧ (4 ≤ x.toNat / 16 ∨ 3 ≤ x.toNat % 16))) :
    exec i s = .next (refused s p c args .badArgument) := by
  simp only [List.mem_cons, List.not_mem_nil, or_false] at hi
  rcases hi with rfl | rfl | rfl | rfl | rfl | rfl | rfl | rfl <;> cases hcmd
  case inr.inl =>
    refine exec_of_args_none rfl ha hready ?_
    rcases h with h | ⟨-, h⟩ | ⟨hc, -⟩
    · exact both_none_left (volumeArg_none volume h)
    · exact both_none_right (sizeArg_none size h)
    · cases hc
  case inr.inr.inr.inr.inr.inl =>
    refine exec_of_args_none rfl ha hready ?_
    rcases h with h | ⟨hc, -⟩ | ⟨-, h⟩
    · exact both_none_left (volumeArg_none volume h)
    · cases hc
    · exact both_none_right (portRightArg_none x h)
  all_goals
    have above : 16 ≤ volume.toNat := by
      rcases h with h | ⟨hc, -⟩ | ⟨hc, -⟩
      · exact h
      · cases hc
      · cases hc
    exact exec_of_args_none rfl ha hready (volumeArg_none volume above)

/-- A volume command whose check fails is answered with the refusal. -/
theorem exec_volumeCommand_fails {v : VolumeNo} {r : Result} (hv : volume.toNat = v.val) (h1 : 1 ≤ size.toNat)
    (h64 : size.toNat ≤ 64) (hq : x.toNat / 16 < 4) (hx : x.toNat % 16 < 3)
    (hc : volumeCheckOf c size.toNat s v = some r) : exec i s = .next (answered s p c args r []) := by
  have volumeIs := volumeArg_of_toNat v volume hv
  obtain ⟨y, hy⟩ := portRightArg_isSome x hq hx
  simp only [List.mem_cons, List.not_mem_nil, or_false] at hi
  have refuses : ∀ act : State → State,
      unlessRefused (enterData s p c args) p (volumeCheckOf c size.toNat s v) act = answered s p c args r [] :=
    fun act => by rw [hc, unlessRefused_enterData]
  rcases hi with rfl | rfl | rfl | rfl | rfl | rfl | rfl | rfl <;> cases hcmd
  case inr.inl => exact exec_of_args rfl ha hready (both_some volumeIs (sizeArg_of_toNat size h1 h64)) (refuses _)
  case inr.inr.inr.inr.inr.inl => exact exec_of_args rfl ha hready (both_some volumeIs hy) (refuses _)
  all_goals exact exec_of_args rfl ha hready volumeIs (refuses _)

end VolumeCommands

/-- The checks of a volume command on a present volume while the guard does not act. -/
theorem volumeChecks_of_guard_idle {s : State} {v : VolumeNo} {r : VolumeRecord} (hr : s.volumes[v] = .present r)
    (hg : guardActs s v = false) (f : Option Status → Option Result) (n : Option Nat) :
    volumeChecks s v f n = (f (some r.status)).or (n.bind fun m => inUseCheck s v m) := by
  rw [volumeChecks, guardCheck_none s v hg, hr]
  rfl

/-- A volume command on a volume that is not present (R13). -/
theorem volumeCheckOf_not_present (c : Command) (size : Nat) {s : State} {v : VolumeNo}
    (h : Volume.isPresent s.volumes[v] = false) : volumeCheckOf c size s v = some (refusal .noVolume) := by
  have absent : presentCheck s.volumes[v] = some (refusal .noVolume) := by
    rw [presentCheck, h]
    rfl
  cases c <;> simp only [volumeCheckOf, volumeChecks, absent] <;> rfl

/-- A guarded volume command on a present pinned volume while LOCKIN is asserted (R125). -/
theorem volumeCheckOf_guarded {c : Command} (size : Nat) {s : State} {v : VolumeNo} {r : VolumeRecord}
    (hc : c ∈ [Command.delete, .resize, .freeze, .lock, .thaw, .setRights, .unpin]) (hl : s.lockin = true)
    (hr : s.volumes[v] = .present r) (hp : r.pinned = true) :
    volumeCheckOf c size s v = some (refusalWith .guarded (.ofVolume v)) := by
  have guarded : guardCheck s v = some (refusalWith .guarded (.ofVolume v)) := by
    rw [guardCheck, hl, hr, Volume.isPinned, hp]
    rfl
  have present : presentCheck s.volumes[v] = none := by rw [hr]; rfl
  simp only [List.mem_cons, List.not_mem_nil, or_false] at hc
  rcases hc with rfl | rfl | rfl | rfl | rfl | rfl | rfl <;>
    simp only [volumeCheckOf, volumeChecks, present, guarded] <;> rfl

/-- Settles O34: the guard comes before every check of the volume's state and claims. -/
theorem guardRefuses : Obligations.GuardRefuses := by
  intro p volume size x s i c args v r hi hcmd ha hready hv h1 h64 hq hx hl hr hp
  have guarded : c ∈ [Command.delete, .resize, .freeze, .lock, .thaw, .setRights, .unpin] := by
    simp only [List.mem_cons, List.not_mem_nil, or_false] at hi
    rcases hi with rfl | rfl | rfl | rfl | rfl | rfl | rfl <;> cases hcmd <;> decide
  refine exec_volumeCommand_fails (x := x) ?_ hcmd ha hready hv h1 h64 hq hx
    (volumeCheckOf_guarded size.toNat guarded hl hr hp)
  simp only [List.mem_cons, List.not_mem_nil, or_false] at hi ⊢
  tauto

/-- The refusals of a volume command by the state of its volume (R135, R137 to R142). -/
theorem volumeCheckOf_state {c : Command} (size : Nat) {s : State} {v : VolumeNo} {r : VolumeRecord}
    (hr : s.volumes[v] = .present r) (hg : guardActs s v = false) :
    (r.status.isChanging = true → c ∈ [Command.delete, .resize, .freeze, .lock, .thaw] →
      volumeCheckOf c size s v = some (refusal .volumeChanging)) ∧
    (∀ st, r.status = .damaged st → c ∈ [Command.resize, .freeze, .lock, .thaw, .setRights] →
      volumeCheckOf c size s v = some (refusal .volumeDamaged)) ∧
    (r.status = .lockedFrozen → c ∈ [Command.delete, .resize, .freeze, .lock, .thaw] →
      volumeCheckOf c size s v = some (refusal .permanent)) ∧
    (r.status = .frozen → c ∈ [Command.resize, .freeze] →
      volumeCheckOf c size s v = some (refusal .volumeFrozen)) ∧
    (r.status = .opened → c = .thaw → volumeCheckOf c size s v = some (refusal .badArgument)) := by
  have idle := volumeChecks_of_guard_idle hr hg
  refine ⟨fun hst hc => ?changing, fun st hst hc => ?damaged, fun hst hc => ?locked, fun hst hc => ?frozen,
    fun hst hc => ?opened⟩
  case changing =>
    obtain ⟨op, ret, hst⟩ : ∃ op ret, r.status = .changing op ret := by
      cases hx : r.status with
      | changing op ret => exact ⟨op, ret, rfl⟩
      | opened | frozen | lockedFrozen | damaged _ => rw [hx] at hst; cases hst
    fin_cases hc <;> rw [volumeCheckOf, idle, hst] <;> rfl
  case damaged | locked | frozen => fin_cases hc <;> rw [volumeCheckOf, idle, hst] <;> rfl
  case opened =>
    subst hc
    rw [volumeCheckOf, idle, hst]
    rfl

/-- Settles O33: the arguments, the presence, the state and the claims of the volume, in their order. -/
theorem volumeCommandRefusals : Obligations.VolumeCommandRefusals := by
  intro p volume size x s i c args hi hcmd ha hready
  refine ⟨exec_volumeCommand_bad hi hcmd ha hready, fun v hv h1 h64 hq hx => ?_⟩
  have fails := fun r => exec_volumeCommand_fails (r := r) hi hcmd ha hready hv h1 h64 hq hx
  refine ⟨fun hn => fails _ (volumeCheckOf_not_present c size.toNat hn), fun r hr hg => ?_⟩
  have idle := volumeChecks_of_guard_idle hr hg
  obtain ⟨changing, damaged, locked, frozen, opened⟩ := volumeCheckOf_state (c := c) size.toNat hr hg
  refine ⟨fun hst hc => fails _ (changing hst hc), fun st hst hc => fails _ (damaged st hst hc),
    fun hst hc => fails _ (locked hst hc), fun hst hc => fails _ (frozen hst hc),
    fun hst hc => fails _ (opened hst hc), fun g y hy h => fails (refusalWith .inUse (.ofClaim y.port v g)) ?_⟩
  rcases h with ⟨rfl, hc, hl, hlow⟩ | ⟨rfl, hst, hg', hlow⟩ | ⟨rfl, hst, hlow⟩ | ⟨rfl, hst, hlow⟩
  · have settled : deleteStateCheck (some r.status) = none := by
      cases hx : r.status with
      | changing op ret => rw [hx] at hc; cases hc
      | lockedFrozen => exact absurd hx hl
      | opened | frozen | damaged _ => rfl
    rw [volumeCheckOf, idle, settled]
    exact inUseCheck_lowest s v 0 r hr g y (Nat.zero_le _) hy fun h _ => hlow h
  · rw [volumeCheckOf, idle, hst]
    exact inUseCheck_lowest s v size.toNat r hr g y hg' hy hlow
  · rw [volumeCheckOf, idle, hst]
    exact inUseCheck_lowest s v 0 r hr g y (Nat.zero_le _) hy fun h _ => hlow h
  · have settled : lockStateCheck (some r.status) = none := by rcases hst with hst | hst <;> rw [hst] <;> rfl
    rw [volumeCheckOf, idle, settled]
    exact inUseCheck_lowest s v 0 r hr g y (Nat.zero_le _) hy fun h _ => hlow h

/-! ### Acceptance (R75, R128) -/

theorem returnState_status (ret : ReturnState) : ret.status.returnState = ret := by
  cases ret <;> rfl

/-- An accepted request that puts its volume in CHANGING (R19, R128). -/
theorem acceptChanging_enterData {s : State} {p : Port} (c : Command) (args : List Byte) {v : VolumeNo}
    {r : VolumeRecord} {ret : ReturnState} (op : Operation) (kind : RequestKind) (hr : s.volumes[v] = .present r)
    (hret : r.status = ret.status) : acceptChanging (enterData s p c args) p v op kind =
      answered { appended s ⟨p, kind⟩ with
        volumes := upd s.volumes v (.present { r with status := .changing op ret }) }
        p c args ⟨.queued, none, .queued⟩ [] := by
  have hr' : (enterData s p c args).volumes[v] = .present r := hr
  have returns : ret = r.status.returnState := by rw [hret, returnState_status]
  rw [acceptChanging, State.modVolume, hr', returns]
  exact accept_enterData (s.setVolume v (.present { r with status := .changing op r.status.returnState })) p c args
    kind

/-- The checks pass on a volume in the right state without claims in the way. -/
theorem volumeChecks_passes {s : State} {v : VolumeNo} {r : VolumeRecord} (hr : s.volumes[v] = .present r)
    (hg : guardActs s v = false) {f : Option Status → Option Result} {n : Nat} (hf : f (some r.status) = none)
    (hn : ∀ g : PageNo, n ≤ g.val → r.entries[g].claim = none) : volumeChecks s v f (some n) = none := by
  rw [volumeChecks_of_guard_idle hr hg, hf]
  exact inUseCheck_none s v n r hr hn

/-- Settles O31: the checks pass, and `acceptChanging` sets CHANGING with the state of before. -/
theorem changingAccepted : Obligations.ChangingAccepted := by
  intro p volume s v r ret hready hv hr hg hret accepted
  have volumeIs := volumeArg_of_toNat v volume hv
  have acts : ∀ (c : Command) (args : List Byte) (op : Operation) (kind : RequestKind)
      (check : Option Result), check = none →
      unlessRefused (enterData s p c args) p check (fun s => acceptChanging s p v op kind) =
        answered { appended s ⟨p, kind⟩ with
          volumes := upd s.volumes v (.present { r with status := .changing op ret }) }
          p c args ⟨.queued, none, .queued⟩ [] := fun c args op kind check hc => by
    rw [hc]
    exact acceptChanging_enterData c args op kind hr hret
  refine ⟨fun ha hn => ?delete, fun size ha h1 h64 ho hn => ?resize, fun ha ho hn => ?freeze,
    fun ha ho hn => ?lock⟩
  case delete =>
    refine exec_of_args rfl ha hready volumeIs (acts _ _ _ _ _ (volumeChecks_passes hr hg ?_ fun g _ => hn g))
    rw [hret]
    cases ret <;> rfl
  case resize =>
    subst ho
    exact exec_of_args rfl ha hready (both_some volumeIs (sizeArg_of_toNat size h1 h64))
      (acts _ _ _ _ _ (volumeChecks_passes hr hg (by rw [hret]; rfl) hn))
  case freeze =>
    subst ho
    exact exec_of_args rfl ha hready volumeIs
      (acts _ _ _ _ _ (volumeChecks_passes hr hg (by rw [hret]; rfl) fun g _ => hn g))
  case lock =>
    refine exec_of_args rfl ha hready volumeIs (acts _ _ _ _ _ (volumeChecks_passes hr hg ?_ fun g _ => hn g))
    rw [hret]
    rcases ho with rfl | rfl <;> rfl

/-- Settles O32: the checks pass, and the request joins the queue. -/
theorem statelessAccepted : Obligations.StatelessAccepted := by
  intro p volume s v r hready hv hr accepted
  have volumeIs := volumeArg_of_toNat v volume hv
  have acts : ∀ (c : Command) (args : List Byte) (kind : RequestKind) (check : Option Result), check = none →
      unlessRefused (enterData s p c args) p check (fun s => accept s p kind) =
        answered (appended s ⟨p, kind⟩) p c args ⟨.queued, none, .queued⟩ [] := fun c args kind check hc => by
    rw [hc]
    exact accept_enterData s p c args kind
  have present : presentCheck s.volumes[v] = none := by rw [hr]; rfl
  have idle := fun hg => volumeChecks_of_guard_idle hr hg
  refine ⟨fun ha hg hst => ?thaw, fun x target right ha hg hst ht hx => ?setRights, fun ha => ?pin,
    fun ha hg => ?unpin⟩
  case thaw => exact exec_of_args rfl ha hready volumeIs (acts _ _ _ _ ((idle hg _ _).trans (by rw [hst]; rfl)))
  case setRights =>
    refine exec_of_args rfl ha hready (both_some volumeIs (portRightArg_of_codes x target right ht hx))
      (acts _ _ _ _ ((idle hg _ _).trans ?_))
    cases hx : r.status with
    | damaged st => exact absurd hx (hst st)
    | opened | frozen | lockedFrozen | changing _ _ => rfl
  case pin => exact exec_of_args rfl ha hready volumeIs (acts _ _ _ _ present)
  case unpin =>
    refine exec_of_args rfl ha hready volumeIs (acts _ _ _ _ ?_)
    exact Option.or_eq_none_iff.2 ⟨present, guardCheck_none s v hg⟩

/-! ### CONFIG_PORT, CONFIG_DEVICE and FORMAT (R131, R144, R146) -/

/-- Settles O35: the argument ranges and the mask, and no check of the budget. -/
theorem configAccepted : Obligations.ConfigAccepted := by
  intro p s st hready hst
  refine ⟨fun target bit quota ha => ⟨fun h => ?badArgument, fun q k hq hn hk => ?named⟩, fun budget ha => ?device⟩
  case badArgument =>
    refine exec_of_args_none rfl ha hready ?_
    rcases h with h | h | h
    · exact both_none_left (portArg_none target h)
    · exact both_none_right (both_none_left (if_neg (by unfold Config.maxQuota; omega)))
    · exact both_none_right (both_none_right (flagArg_above bit h))
  case named =>
    have args := both_some (portArg_of_toNat q target hq)
      (both_some (show quotaArg quota = some quota.toNat from if_pos hn) (flagArg_of_toNat bit k hk))
    have kept := wouldEmptyMask_false_iff s st hst q k
    refine ⟨fun hk hm => exec_of_args rfl ha hready args ?_, fun hm => exec_of_args rfl ha hready args ?_⟩
    · have empties : refuseUnless (!wouldEmptyMask s q k) (refusal .badArgument) = some (refusal .badArgument) := by
        have : wouldEmptyMask s q k = true := by
          rw [← Bool.not_eq_false, kept]
          rintro (h | ⟨h, hne, hh⟩)
          · rw [hk] at h; cases h
          · rw [hm h hne] at hh; cases hh
        rw [this]
        rfl
      exact (congrArg (unlessRefused _ p · _) empties).trans (unlessRefused_enterData ..)
    · have keeps : refuseUnless (!wouldEmptyMask s q k) (refusal .badArgument) = none := by
        rw [kept.2 hm]
        rfl
      exact (congrArg (unlessRefused _ p · _) keeps).trans (accept_enterData ..)
  case device =>
    exact exec_of_check_passes (check := fun s => adminCheck s p) rfl ha (adminCheck_of_ready s p hready)
      (accept_enterData ..)

/-- Settles O36: the three checks of FORMAT in their order. -/
theorem formatAccepted : Obligations.FormatAccepted := by
  intro p s ha
  refine ⟨fun hd => ?formatted, fun hd hr => ?pending, fun hd hr => ⟨fun he => ?stopped, fun he => ?accepted⟩⟩
  case formatted =>
    exact exec_of_check_fails (check := fun s => formatAccept s p) rfl ha
      (show formatAccept s p = some (refusal .alreadyFormatted) from if_pos hd)
  all_goals
    have first : formatAccept s p = if requestPending s p then some (refusal .requestPending)
        else if engineStopped s then some (refusal .updateStopped) else none := if_neg (not_not.2 hd)
  case pending =>
    refine exec_of_check_fails (check := fun s => formatAccept s p) (r := refusal .requestPending) rfl ha ?_
    exact first.trans (if_pos ((requestPending_iff s p).2 hr))
  all_goals
    have idle : ¬requestPending s p = true := by rw [(not_requestPending_iff s p).2 hr]; decide
    have second := first.trans (if_neg idle)
  case stopped =>
    refine exec_of_check_fails (check := fun s => formatAccept s p) (r := refusal .updateStopped) rfl ha ?_
    exact second.trans (if_pos (show engineStopped s = true from decide_eq_true he))
  case accepted =>
    refine exec_of_check_passes (check := fun s => formatAccept s p) rfl ha ?_ (accept_enterData ..)
    exact second.trans (if_neg (by simpa [engineStopped] using he))

end Sys2Proof.Machine
end


section
/-! Fields at offsets of a list of bytes, the responses of GET_RESULT and of the queries, and the mask of SET_ATTN (O37 to O39). -/

namespace Sys2Proof.Machine

/-! ### Fields of a list of bytes -/

/-- The bytes `x` stand at offset `n` of the bytes `l`. -/
def HoldsAt (l : List Byte) (n : Nat) (x : List Byte) : Prop :=
  ∃ before after, before.length = n ∧ l = before ++ (x ++ after)

namespace HoldsAt

variable {l a b x : List Byte} {n m i : Nat}

theorem self (x : List Byte) : HoldsAt x 0 x := ⟨[], [], rfl, by simp⟩

theorem left (h : HoldsAt a n x) : HoldsAt (a ++ b) n x := by
  obtain ⟨before, after, hn, rfl⟩ := h
  exact ⟨before, after ++ b, hn, by simp⟩

theorem right (ha : a.length = m) (h : HoldsAt b n x) : HoldsAt (a ++ b) (m + n) x := by
  obtain ⟨before, after, hn, rfl⟩ := h
  exact ⟨a ++ before, after, by simp [ha, hn], by simp⟩

theorem trans (h : HoldsAt l n a) (h' : HoldsAt a m x) : HoldsAt l (n + m) x := by
  obtain ⟨before, after, hn, rfl⟩ := h
  exact right hn (left h')

theorem getElem? (h : HoldsAt l n x) (hi : i < x.length) : l[n + i]? = x[i]? := by
  obtain ⟨before, after, hn, rfl⟩ := h
  rw [List.getElem?_append_right (by omega), hn, Nat.add_sub_cancel_left, List.getElem?_append_left hi]

theorem byteAt (h : HoldsAt l n x) (hi : i < x.length) : byteAt l (n + i) = Machine.byteAt x i := by
  unfold Machine.byteAt
  rw [List.getD_eq_getElem?_getD, List.getD_eq_getElem?_getD, h.getElem? hi]

end HoldsAt

/-- A two-byte value is read back from its bytes (R171). -/
theorem HoldsAt.half {l : List Byte} {n : Nat} {w : Half} (h : HoldsAt l n (halfBytes w)) : halfAt l n = w := by
  have high := h.byteAt (i := 0) (show 0 < 2 by omega)
  have low := h.byteAt (i := 1) (show 1 < 2 by omega)
  rw [Nat.add_zero] at high
  rw [halfAt, high, low]
  exact (BitVec.extractLsb'_append_extractLsb'_eq_extractLsb' (by omega)).trans BitVec.extractLsb'_eq_self

/-- A four-byte value is read back from its bytes (R103). -/
theorem HoldsAt.word {l : List Byte} {n : Nat} {w : Word} (h : HoldsAt l n (bytes32 w)) : wordAt l n = w := by
  have b0 := h.byteAt (i := 0) (show 0 < 4 by omega)
  have b1 := h.byteAt (i := 1) (show 1 < 4 by omega)
  have b2 := h.byteAt (i := 2) (show 2 < 4 by omega)
  have b3 := h.byteAt (i := 3) (show 3 < 4 by omega)
  rw [Nat.add_zero] at b0
  rw [wordAt, b0, b1, b2, b3]
  change w.extractLsb' 24 8 ++ w.extractLsb' 16 8 ++ w.extractLsb' 8 8 ++ w.extractLsb' 0 8 = w
  rw [BitVec.extractLsb'_append_extractLsb'_eq_extractLsb' (by omega),
    BitVec.extractLsb'_append_extractLsb'_eq_extractLsb' (by omega),
    BitVec.extractLsb'_append_extractLsb'_eq_extractLsb' (by omega)]
  exact BitVec.extractLsb'_eq_self

/-- The items of a list laid out in fields of the same length. -/
theorem HoldsAt.flatMap {α : Type} {f : α → List Byte} {k : Nat} (hk : ∀ x, (f x).length = k) {l : List α}
    {i : Nat} {x : α} (h : l[i]? = some x) : HoldsAt (l.flatMap f) (k * i) (f x) := by
  induction l generalizing i with
  | nil => cases h
  | cons a l ih =>
    rw [List.flatMap_cons]
    cases i with
    | zero =>
      cases h
      exact (HoldsAt.self _).left
    | succ i =>
      rw [Nat.mul_succ, Nat.add_comm]
      exact HoldsAt.right (hk a) (ih h)

theorem ascending_getElem? {n : Nat} (i : Fin n) : (ascending n)[i.val]? = some i := by
  unfold ascending
  rw [List.getElem?_ofFn, dif_pos i.isLt]
  rfl

/-! ### Flag bytes (R186, R187) -/

theorem bitsByte_two : ∀ a b : Bool, (bitsByte [a, b]).getLsbD 0 = a ∧ (bitsByte [a, b]).getLsbD 1 = b ∧
    (bitsByte [a, b]).extractLsb' 2 6 = 0#6 := by
  decide

theorem bitsByte_three : ∀ a b c : Bool, (bitsByte [a, b, c]).getLsbD 0 = a ∧
    (bitsByte [a, b, c]).getLsbD 1 = b ∧ (bitsByte [a, b, c]).getLsbD 2 = c := by
  decide

theorem bitsByte_four : ∀ a b c d : Bool, (bitsByte [a, b, c, d]).getLsbD 0 = a ∧
    (bitsByte [a, b, c, d]).getLsbD 1 = b ∧ (bitsByte [a, b, c, d]).getLsbD 2 = c ∧
    (bitsByte [a, b, c, d]).getLsbD 3 = d := by
  decide

/-! ### GET_RESULT (R182, R186) -/

theorem length_detailBytes (d : Option Detail) : (detailBytes d).length = 6 := by
  cases d <;> rfl

theorem length_resultBytes (r : ResultRecord) : (resultBytes r).length = 9 := by
  rw [resultBytes, List.length_append, length_detailBytes]
  rfl

theorem length_faultBytes (f : Option FaultRecord) : (faultBytes f).length = 8 := by
  cases f <;> rfl

theorem length_failedStepBytes (x : Option FailedStep) : (failedStepBytes x).length = 3 := by
  match x with
  | none | some (.page _ _) | some (.mapSlot _ _) | some (.rootSlot .a) | some (.rootSlot .b) => rfl

theorem length_generationBytes (l : List (VolumeNo × Word)) : (generationBytes l).length = 1 + 5 * l.length := by
  rw [generationBytes, List.length_append, length_flatMap_const _ _ 5 fun _ => rfl]
  rfl

theorem length_reportBytes (r : Option Report) :
    (reportBytes r).length = 12 + 5 * ((r.bind fun r => r.generations).getD []).length := by
  cases r with
  | none => rfl
  | some r =>
    simp only [reportBytes, List.length_append, length_failedStepBytes, length_generationBytes]
    change 4 + 4 + 3 + (1 + 5 * (r.generations.getD []).length) = 12 + 5 * (r.generations.getD []).length
    omega

section Response

variable (c : PortContext)

/-- The result record in the response. -/
theorem response_result : HoldsAt (getResultResponse c) 0 (resultBytes c.result) :=
  (HoldsAt.self _).left.left.left

/-- The pending set and the mask in the response. -/
theorem response_attention : HoldsAt (getResultResponse c) 9 [c.pending.toByte, c.mask.toByte] :=
  (HoldsAt.right (length_resultBytes c.result) (HoldsAt.self _)).left.left

/-- The fault record in the response. -/
theorem response_fault : HoldsAt (getResultResponse c) 11 (faultBytes c.fault) := by
  refine (HoldsAt.right (m := 11) ?_ (HoldsAt.self _)).left
  rw [List.length_append, length_resultBytes]
  rfl

/-- The update report in the response. -/
theorem response_report : HoldsAt (getResultResponse c) 19 (reportBytes c.report) := by
  refine HoldsAt.right (m := 19) ?_ (HoldsAt.self _)
  rw [List.length_append, List.length_append, length_resultBytes, length_faultBytes]
  rfl

/-- The detail of the result in the response. -/
theorem response_detail :
    HoldsAt (getResultResponse c) 3 (detailBytes (c.result.result.bind fun x => x.detail)) :=
  (response_result c).trans (HoldsAt.right rfl (HoldsAt.self _))

theorem length_getResultResponse : (getResultResponse c).length =
    31 + 5 * ((c.report.bind fun r => r.generations).getD []).length := by
  rw [getResultResponse, List.length_append, List.length_append, List.length_append, length_resultBytes,
    length_faultBytes, length_reportBytes]
  change 9 + 2 + 8 + _ = _
  omega

end Response

/-- GET_RESULT has no check: it fixes its response and empties the records (R182). -/
theorem exec_getResult {p : Port} {s : State} (ha : awaits s p .getResult [] = true) :
    exec (.getResult p) s = .next (s.setPort p {
      s.ports[p].answered .getResult [] ⟨.ok, none, .ok⟩ (getResultResponse s.ports[p]) with
      fault := none
      pending := ⟨false, s.ports[p].pending.lease, false, false, false⟩ }) := by
  refine exec_of_awaits rfl ha ?_
  rw [enterData_port]
  exact reply_modPort_enterData s p .getResult [] .ok (getResultResponse s.ports[p])
    (fun c => { c with fault := none, pending := { Causes.empty with lease := c.pending.lease } }) rfl

/-- A field of zero bytes. -/
theorem HoldsAt.zero {l : List Byte} {n k i : Nat} (h : HoldsAt l n (List.replicate k 0x00#8)) (hn : n ≤ i)
    (hi : i < n + k) : l[i]? = some 0x00#8 := by
  obtain ⟨j, rfl⟩ := Nat.exists_eq_add_of_le hn
  rw [h.getElem? (by rw [List.length_replicate]; omega), List.getElem?_replicate_of_lt (by omega)]

/-- A full detail, field by field. -/
theorem detail_fields {l : List Byte} {n : Nat} {d : Detail} (h : HoldsAt l n (detailBytes (some d))) :
    (∃ b, l[n]? = some b ∧ b.getLsbD 0 = d.port.isSome ∧ b.getLsbD 1 = d.volume.isSome ∧
      b.getLsbD 2 = d.page.isSome ∧ b.getLsbD 3 = d.value.isSome) ∧
    l[n + 1]? = some (match d.port with | some q => BitVec.ofNat 8 q.val | none => 0x00#8) ∧
    l[n + 2]? = some (match d.volume with | some v => BitVec.ofNat 8 v.val | none => 0x00#8) ∧
    l[n + 3]? = some (match d.page with | some g => BitVec.ofNat 8 g.val | none => 0x00#8) ∧
    halfAt l (n + 4) = d.value.getD 0#16 := by
  have at_ := fun i (hi : i < 6) => h.getElem? (i := i) (by rw [length_detailBytes]; exact hi)
  refine ⟨⟨_, at_ 0 (by omega), bitsByte_four _ _ _ _⟩, (at_ 1 (by omega)).trans ?_, (at_ 2 (by omega)).trans ?_,
    (at_ 3 (by omega)).trans ?_, (h.trans (HoldsAt.right (m := 4) rfl (HoldsAt.self _))).half⟩
  all_goals obtain ⟨port, volume, page, value⟩ := d
  · cases port <;> rfl
  · cases volume <;> rfl
  · cases page <;> rfl

/-- A full fault record, field by field. -/
theorem fault_fields {l : List Byte} {n : Nat} {f : FaultRecord} (h : HoldsAt l n (faultBytes (some f))) :
    (∃ b, l[n]? = some b ∧ b.getLsbD 0 = true ∧ b.getLsbD 1 = f.further ∧ b.getLsbD 2 = f.page.isSome) ∧
    l[n + 1]? = some f.cause.code.value ∧
    l[n + 2]? = some (match f.access with | .read => 0#8 | .write => 1#8 | .punch => 2#8) ∧
    l[n + 3]? = some (BitVec.ofNat 8 f.window.val) ∧ l[n + 4]? = some (BitVec.ofNat 8 f.volume.val) ∧
    l[n + 5]? = some (match f.page with | some g => BitVec.ofNat 8 g | none => 0x00#8) ∧
    halfAt l (n + 6) = BitVec.ofNat 16 f.offset := by
  have at_ := fun i (hi : i < 8) => h.getElem? (i := i) (by rw [length_faultBytes]; exact hi)
  refine ⟨⟨_, at_ 0 (by omega), bitsByte_three _ _ _⟩, at_ 1 (by omega), (at_ 2 (by omega)).trans ?_, at_ 3 (by omega),
    at_ 4 (by omega), (at_ 5 (by omega)).trans ?_, (h.trans (HoldsAt.right (m := 6) rfl (HoldsAt.self _))).half⟩
  all_goals obtain ⟨cause, access, window, volume, page, offset, further⟩ := f
  · cases access <;> rfl
  · cases page <;> rfl

/-- The bytes of a failed step, in the statement's words. -/
theorem failedStepBytes_eq (x : Option FailedStep) : failedStepBytes x = (match x with
    | none => [0#8, 0#8, 0#8]
    | some (.page v g) => [0#8, BitVec.ofNat 8 v.val, BitVec.ofNat 8 g.val]
    | some (.mapSlot v slot) => [1#8, BitVec.ofNat 8 v.val, BitVec.ofNat 8 slot.val]
    | some (.rootSlot slot) => [2#8, if slot = .a then 0#8 else 1#8, 0#8]) := by
  match x with
  | none | some (.page _ _) | some (.mapSlot _ _) | some (.rootSlot .a) | some (.rootSlot .b) => rfl

/-- The bytes that stand at an offset. -/
theorem HoldsAt.take_drop {l x : List Byte} {n k : Nat} (h : HoldsAt l n x) (hk : x.length = k) :
    (l.drop n).take k = x := by
  obtain ⟨before, after, hn, rfl⟩ := h
  rw [← hn, List.drop_left, ← hk, List.take_left]

/-- A full update report, field by field. -/
theorem report_fields {l : List Byte} {n : Nat} {r : Report} (h : HoldsAt l n (reportBytes (some r))) :
    (∃ b, l[n]? = some b ∧ b.getLsbD 0 = true ∧ b.getLsbD 1 = r.volume.isSome ∧
      b.getLsbD 2 = r.sequence.isSome ∧ b.getLsbD 3 = r.failedStep.isSome) ∧
    l[n + 1]? = some r.kind.code ∧ l[n + 2]? = some r.outcome.value ∧
    l[n + 3]? = some (match r.volume with | some v => BitVec.ofNat 8 v.val | none => 0x00#8) ∧
    wordAt l (n + 4) = r.sequence.getD 0#32 ∧ (l.drop (n + 8)).take 3 = failedStepBytes r.failedStep ∧
    l[n + 11]? = some (BitVec.ofNat 8 (r.generations.getD []).length) ∧
    ∀ i v gen, (r.generations.getD [])[i]? = some (v, gen) →
      l[n + 12 + 5 * i]? = some (BitVec.ofNat 8 v.val) ∧ wordAt l (n + 12 + 5 * i + 1) = gen := by
  have at_ := fun i (hi : i < 12) => h.getElem? (i := i) (by rw [length_reportBytes]; omega)
  have failed : HoldsAt l (n + 8) (failedStepBytes r.failedStep) :=
    h.trans (HoldsAt.right (m := 8) rfl (HoldsAt.self _)).left
  have generations : HoldsAt l (n + 11) (generationBytes (r.generations.getD [])) := by
    refine h.trans (HoldsAt.right (m := 11) ?_ (HoldsAt.self _))
    rw [List.length_append, length_failedStepBytes]
    rfl
  refine ⟨⟨_, at_ 0 (by omega), bitsByte_four _ _ _ _⟩, at_ 1 (by omega), at_ 2 (by omega),
    (at_ 3 (by omega)).trans ?_, (h.trans (HoldsAt.right (m := 4) rfl (HoldsAt.self _)).left.left).word,
    failed.take_drop (length_failedStepBytes _), ?_, fun i v gen hi => ?_⟩
  · obtain ⟨kind, outcome, volume, generations, sequence, failedStep⟩ := r
    cases volume <;> rfl
  · exact generations.getElem? (i := 0) (by rw [length_generationBytes]; omega)
  · have generation : HoldsAt l (n + 12 + 5 * i) ([BitVec.ofNat 8 v.val] ++ bytes32 gen) := by
      rw [show n + 12 + 5 * i = n + 11 + (1 + 5 * i) by omega]
      exact generations.trans (HoldsAt.right (m := 1) rfl
        (HoldsAt.flatMap (f := fun x : VolumeNo × Word => [BitVec.ofNat 8 x.1.val] ++ bytes32 x.2) (k := 5)
          (fun _ => rfl) hi))
    exact ⟨generation.getElem? (i := 0) (show 0 < 5 by omega),
      (generation.trans (HoldsAt.right (m := 1) rfl (HoldsAt.self _))).word⟩

/-- Settles O37: the response is laid out as R186 lists it. -/
theorem getResultEmptiesRecords : Obligations.GetResultEmptiesRecords := by
  intro p s ha result command detail fault report generations
  have resultAt := response_result s.ports[p]
  have result_ := fun i (hi : i < 9) => resultAt.getElem? (i := i) (by rw [length_resultBytes]; exact hi)
  have detailAt := response_detail s.ports[p]
  have faultAt := response_fault s.ports[p]
  have reportAt := response_report s.ports[p]
  refine ⟨getResultResponse s.ports[p], exec_getResult ha, length_getResultResponse _,
    ⟨_, result_ 0 (by omega), bitsByte_two _ _⟩, result_ 1 (by omega), fun x hx => ?code, fun hx => ?noCode,
    fun hx => ?noDetail, fun d hd => ?detail, (response_attention s.ports[p]).getElem? (i := 0) (show 0 < 2 by omega),
    (response_attention s.ports[p]).getElem? (i := 1) (show 1 < 2 by omega), fun hf => ?noFault, fun f hf => ?fault,
    fun hr => ?noReport, fun r hr => ?report⟩
  case code | noCode =>
    refine (result_ 2 (by omega)).trans ?_
    change some (match s.ports[p].result.result with | some x => x.code.value | none => 0x00#8) = _
    simp only [show s.ports[p].result.result = _ from hx]
  case noDetail =>
    rw [show s.ports[p].result.result.bind (fun x => x.detail) = none from hx] at detailAt
    exact ⟨⟨_, detailAt.zero (k := 6) (Nat.le_refl 3) (by omega), rfl⟩,
      fun i h4 h9 => detailAt.zero (k := 6) (by omega) (by omega)⟩
  case detail =>
    rw [show s.ports[p].result.result.bind (fun x => x.detail) = some d from hd] at detailAt
    exact detail_fields detailAt
  case noFault =>
    rw [show s.ports[p].fault = none from hf] at faultAt
    exact ⟨⟨_, faultAt.zero (k := 8) (Nat.le_refl 11) (by omega), rfl⟩,
      fun i h12 h19 => faultAt.zero (k := 8) (by omega) (by omega)⟩
  case fault =>
    rw [show s.ports[p].fault = some f from hf] at faultAt
    exact fault_fields faultAt
  case noReport =>
    rw [show s.ports[p].report = none from hr] at reportAt
    exact ⟨⟨_, reportAt.zero (k := 12) (Nat.le_refl 19) (by omega), rfl⟩,
      fun i h20 h31 => reportAt.zero (k := 12) (by omega) (by omega)⟩
  case report =>
    rw [show s.ports[p].report = some r from hr] at reportAt
    have generations_eq : generations = r.generations.getD [] :=
      congrArg (fun x : Option Report => (x.bind fun r => r.generations).getD []) hr
    obtain ⟨flags, kind, outcome, volume, sequence, failed, count, gens⟩ := report_fields reportAt
    rw [generations_eq]
    refine ⟨flags, kind, outcome, volume, sequence, failed.trans (failedStepBytes_eq _), count, fun i v gen hi => ?_⟩
    obtain ⟨name, generation⟩ := gens i v gen hi
    refine ⟨name, ?_⟩
    rw [show 32 + 5 * i = 19 + 12 + 5 * i + 1 by omega]
    exact generation

/-! ### SET_ATTN (R181) -/

/-- Bits 7 to 5 of a byte are 0 exactly where it is below 32. -/
theorem highBits_zero_iff (b : Byte) : b.extractLsb' 5 3 = 0#3 ↔ b.toNat < 32 := by
  rw [BitVec.toNat_eq, BitVec.extractLsb'_toNat, Nat.shiftRight_eq_div_pow]
  have := b.isLt
  change b.toNat / 32 % 8 = 0 ↔ _
  omega

/-- Settles O38: the range of the byte decides; the pending set stays, so the line follows the new mask. -/
theorem setAttnReplacesMask : Obligations.SetAttnReplacesMask := by
  intro p mask s ha
  refine ⟨fun h => ?badArgument, fun h => ?replaces⟩
  case badArgument =>
    have none_ : causesArg mask = none := if_neg fun hlt => h ((highBits_zero_iff mask).2 hlt)
    refine exec_of_awaits rfl ha ?_
    rw [none_]
    exact reply_enterData ..
  case replaces =>
    have some_ : causesArg mask = some ⟨mask.getLsbD 0, mask.getLsbD 1, mask.getLsbD 2, mask.getLsbD 3,
      mask.getLsbD 4⟩ := if_pos ((highBits_zero_iff mask).1 h)
    refine ⟨_, exec_of_awaits rfl ha ?_, rfl, fun hd => ?_⟩
    · rw [some_]
      exact reply_modPort_enterData s p .setAttn [mask] .ok [] (fun c => { c with mask := _ }) rfl
    · refine Iff.trans (attnLine_iff _ p ?_) ?_
      · exact (ready_iff s).2 hd
      · rw [setPort_ports_self]
        rfl

/-! ### INFO_VOLUME (R183, R187) -/

theorem length_volumeBytes (x : Volume) : (volumeBytes x).length = 9 := by
  cases x <;> rfl

/-- The claim count of a port in the response of INFO_VOLUME. -/
theorem infoVolume_claims (s : State) (v : VolumeNo) (q : Port) :
    halfAt (infoVolumeResponse s v) (9 + 2 * q.val) = BitVec.ofNat 16 (claimsInVolume s v q) :=
  (HoldsAt.right (length_volumeBytes _) (HoldsAt.flatMap (f := fun p =>
    halfBytes (BitVec.ofNat 16 (claimsInVolume s v p))) (k := 2) (fun _ => rfl) (ascending_getElem? q))).half

theorem length_infoVolumeResponse (s : State) (v : VolumeNo) : (infoVolumeResponse s v).length = 17 := by
  rw [infoVolumeResponse, List.length_append, length_volumeBytes, length_flatMap_const _ _ 2 fun _ => rfl,
    length_ascending]

theorem flagsByte_bits : ∀ (pinned mapPresent : Bool) (slot : MapSlot),
    (flagsByte pinned mapPresent slot).getLsbD 0 = pinned ∧
    (flagsByte pinned mapPresent slot).getLsbD 1 = mapPresent ∧
    (flagsByte pinned mapPresent slot).getLsbD 2 = decide (slot = 1) := by
  decide

/-- The record of a present volume in the response of INFO_VOLUME. -/
theorem infoVolume_present {s : State} {v : VolumeNo} {r : VolumeRecord} (hr : s.volumes[v] = .present r) :
    (infoVolumeResponse s v)[0]? = some (match r.status with
      | .opened => 1#8 | .frozen => 2#8 | .lockedFrozen => 3#8 | .changing _ _ => 5#8 | .damaged _ => 6#8) ∧
    (infoVolumeResponse s v)[1]? = some (BitVec.ofNat 8 r.size) ∧
    (infoVolumeResponse s v)[2]? = some (rightsByte r.rights) ∧
    (∃ b, (infoVolumeResponse s v)[3]? = some b ∧ b.getLsbD 0 = r.pinned ∧ b.getLsbD 1 = r.mapPresent ∧
      b.getLsbD 2 = decide (r.slot = 1)) ∧
    wordAt (infoVolumeResponse s v) 4 = r.generation ∧
    (infoVolumeResponse s v)[8]? = some (BitVec.ofNat 8 r.committedPages) := by
  have record : HoldsAt (infoVolumeResponse s v) 0 (volumeBytes (.present r)) := hr ▸ (HoldsAt.self _).left
  have at_ := fun i (hi : i < 9) => record.getElem? (i := i) (by rw [length_volumeBytes]; exact hi)
  refine ⟨(at_ 0 (by omega)).trans ?_, at_ 1 (by omega), at_ 2 (by omega), ⟨_, at_ 3 (by omega), flagsByte_bits _ _ _⟩,
    (record.trans (HoldsAt.right (m := 4) rfl (HoldsAt.self _)).left).word, at_ 8 (by omega)⟩
  obtain ⟨status, size, rights, pinned, mapPresent, slot, generation, committedPages, entries⟩ := r
  cases status <;> rfl

/-! ### INFO_PAGE (R184, R187) -/

/-- The fields of the byte of INFO_PAGE, each read back at its place. -/
theorem infoPageFields : ∀ (committed poisoned claimed hole : Bool) (q : Fin 4),
    let b := BitVec.ofNat 8 (committed.toNat + 2 * poisoned.toNat + 4 * claimed.toNat + 8 * hole.toNat + 16 * q.val)
    b.getLsbD 0 = committed ∧ b.getLsbD 1 = poisoned ∧ b.getLsbD 2 = claimed ∧ b.getLsbD 3 = hole ∧
      (b.extractLsb' 4 2).toNat = q.val ∧ b.extractLsb' 6 2 = 0#2 := by
  decide

/-- The port of a claim, or port 0. -/
def Entry.claimant (e : Entry) : Port := (e.claim.map fun c => c.port).getD 0

theorem infoPageByte_eq (e : Entry) : infoPageByte e =
    BitVec.ofNat 8 (e.committed.isSome.toNat + 2 * (e.committed.any fun c => c.poisoned).toNat +
      4 * e.claim.isSome.toNat + 8 * (e.claim.any fun c => c.kind.isHole).toNat + 16 * e.claimant.val) := by
  obtain ⟨committed, claim⟩ := e
  cases claim <;> rfl

theorem isHole_iff (e : Entry) : (e.claim.any fun c => c.kind.isHole) = true ↔ ∃ q, e.claim = some ⟨q, .hole⟩ := by
  obtain ⟨committed, claim⟩ := e
  cases claim with
  | none => simp
  | some c =>
    obtain ⟨q, kind⟩ := c
    cases kind <;> simp [ClaimKind.isHole]

/-- The byte of INFO_PAGE, in the statement's words. -/
theorem infoPage_fields (e : Entry) :
    (infoPageByte e).getLsbD 0 = e.committed.isSome ∧
    ((infoPageByte e).getLsbD 1 = true ↔ ∃ c, e.committed = some c ∧ c.poisoned = true) ∧
    (infoPageByte e).getLsbD 2 = e.claim.isSome ∧
    ((infoPageByte e).getLsbD 3 = true ↔ ∃ q, e.claim = some ⟨q, .hole⟩) ∧
    (∀ c, e.claim = some c → ((infoPageByte e).extractLsb' 4 2).toNat = c.port.val) ∧
    (e.claim = none → (infoPageByte e).extractLsb' 4 2 = 0#2) ∧ (infoPageByte e).extractLsb' 6 2 = 0#2 := by
  rw [infoPageByte_eq]
  obtain ⟨committed, poisoned, claimed, hole, claimant, rest⟩ := infoPageFields e.committed.isSome
    (e.committed.any fun c => c.poisoned) e.claim.isSome (e.claim.any fun c => c.kind.isHole) e.claimant
  refine ⟨committed, ?_, claimed, ?_, fun c hc => claimant.trans ?_, fun hn => BitVec.eq_of_toNat_eq (claimant.trans ?_),
    rest⟩
  · rw [poisoned, Option.any_eq_true]
  · rw [hole, isHole_iff]
  · rw [Entry.claimant, hc]; rfl
  · rw [Entry.claimant, hn]; rfl

/-! ### INFO_DEVICE (R185, R187) -/

theorem length_settingsBytes (x : Option Settings) : (settingsBytes x).length = 10 := by
  cases x with
  | none => rfl
  | some st =>
    rw [settingsBytes, List.length_append, List.length_append, quotaBytes, length_flatMap_const _ _ 2 fun _ => rfl,
      length_ascending]
    rfl

theorem maskByte_bit : ∀ (a b c d : Bool) (q : Port), (maskByte #v[a, b, c, d]).getLsbD q.val = #v[a, b, c, d][q] := by
  decide

/-- A mask of four bits, written out. -/
theorem maskByte_getLsbD (m : Vector Bool 4) (q : Port) : (maskByte m).getLsbD q.val = m[q] := by
  have written : m = #v[m[0], m[1], m[2], m[3]] := by
    refine Vector.ext fun k hk => ?_
    match k, hk with
    | 0, _ | 1, _ | 2, _ | 3, _ => rfl
  rw [written]
  exact maskByte_bit _ _ _ _ q

/-- The settings in the response of INFO_DEVICE. -/
theorem infoDevice_settings (s : State) :
    HoldsAt (infoDeviceResponse s) 10 (settingsBytes s.engine.settings) :=
  (HoldsAt.right (m := 10) rfl (HoldsAt.self _)).left

theorem infoDevice_settings_fields {l : List Byte} {n : Nat} {st : Settings}
    (h : HoldsAt l n (settingsBytes (some st))) :
    (∃ b, l[n]? = some b ∧ ∀ q : Port, b.getLsbD q.val = st.mask[q]) ∧
    (∀ q : Port, halfAt l (n + (1 + 2 * q.val)) = BitVec.ofNat 16 st.quotas[q]) ∧
    l[n + 9]? = some (BitVec.ofNat 8 st.budget) := by
  have quotas : (quotaBytes st.quotas).length = 8 := by
    rw [quotaBytes, length_flatMap_const _ _ 2 fun _ => rfl, length_ascending]
  refine ⟨⟨_, h.getElem? (i := 0) (by rw [length_settingsBytes]; omega), maskByte_getLsbD st.mask⟩, fun q => ?_, ?_⟩
  · exact (h.trans (HoldsAt.right (m := 1) rfl (HoldsAt.flatMap (f := fun q : Port =>
      halfBytes (BitVec.ofNat 16 st.quotas[q])) (k := 2) (fun _ => rfl) (ascending_getElem? q))).left).half
  · have budget : HoldsAt (settingsBytes (some st)) 9 [BitVec.ofNat 8 st.budget] := by
      refine HoldsAt.right (m := 9) ?_ (HoldsAt.self _)
      rw [List.length_append, quotas]
      rfl
    exact (h.trans budget).getElem? (i := 0) (show 0 < 1 by omega)

theorem length_infoDeviceResponse (s : State) : (infoDeviceResponse s).length = 21 := by
  rw [infoDeviceResponse, List.length_append, List.length_append, length_settingsBytes]
  rfl

/-- The part of the response of INFO_DEVICE after the settings. -/
theorem infoDevice_flags (s : State) :
    HoldsAt (infoDeviceResponse s) 20 [bitsByte [s.engine.mediaWorn, s.engine.sysareaFault]] := by
  refine HoldsAt.right (m := 20) ?_ (HoldsAt.self _)
  rw [List.length_append, length_settingsBytes]
  rfl

/-! ### The queries (R183 to R185) -/

section Queries

variable {p : Port} {s : State}

theorem exec_infoVolume_bad {volume : Byte} (ha : awaits s p .infoVolume [volume] = true)
    (hd : s.device ≠ .unformatted) (h : 16 ≤ volume.toNat) :
    exec (.infoVolume p volume) s = .next (refused s p .infoVolume [volume] .badArgument) := by
  refine exec_of_formatted rfl ha hd ?_
  rw [volumeArg_none volume h]
  exact reply_enterData ..

theorem exec_infoVolume {volume : Byte} (ha : awaits s p .infoVolume [volume] = true)
    (hd : s.device ≠ .unformatted) {v : VolumeNo} (hv : volume.toNat = v.val) :
    exec (.infoVolume p volume) s =
      .next (answered s p .infoVolume [volume] ⟨.ok, none, .ok⟩ (infoVolumeResponse s v)) := by
  refine exec_of_formatted rfl ha hd ?_
  rw [volumeArg_of_toNat v volume hv]
  exact reply_enterData ..

theorem exec_infoPage_bad {volume page : Byte} (ha : awaits s p .infoPage [volume, page] = true)
    (hd : s.device ≠ .unformatted) (h : 16 ≤ volume.toNat ∨ 64 ≤ page.toNat) :
    exec (.infoPage p volume page) s = .next (refused s p .infoPage [volume, page] .badArgument) := by
  refine exec_of_formatted rfl ha hd ?_
  rcases h with h | h
  · simp only [volumeArg_none volume h]
    exact reply_enterData ..
  · simp only [pageArg_none page h]
    cases volumeArg volume <;> exact reply_enterData ..

theorem exec_infoPage_of_page {volume page : Byte} (ha : awaits s p .infoPage [volume, page] = true)
    (hd : s.device ≠ .unformatted) {v : VolumeNo} {g : PageNo} (hv : volume.toNat = v.val)
    (hg : page.toNat = g.val) {t : State}
    (h : unlessRefused (enterData s p .infoPage [volume, page]) p
      (if Volume.isPresent s.volumes[v] then none else some (refusal .noVolume)) (fun s =>
        reply s p .ok [infoPageByte (entryOf s v g)]) = t) :
    exec (.infoPage p volume page) s = .next t := by
  refine exec_of_formatted rfl ha hd ?_
  simp only [volumeArg_of_toNat v volume hv, pageArg_of_toNat g page hg]
  exact h

end Queries

/-- Settles O39: each query answers with its response and changes nothing else. -/
theorem queriesReportRecords : Obligations.QueriesReportRecords := by
  intro p s
  refine ⟨fun volume ha hd => ⟨exec_infoVolume_bad ha hd, fun v hv => ?volume⟩, fun volume page ha hd =>
    ⟨exec_infoPage_bad ha hd, fun v g hv hg => ⟨fun hn => ?noVolume, fun r hr => ?page⟩⟩, fun ha => ?device⟩
  case volume =>
    have record : HoldsAt (infoVolumeResponse s v) 0 (volumeBytes s.volumes[v]) := (HoldsAt.self _).left
    refine ⟨_, exec_infoVolume ha hd hv, length_infoVolumeResponse s v, fun hx i hi => ?_, fun n rights k hx => ?_,
      fun r hr => infoVolume_present hr, infoVolume_claims s v⟩
    · rw [hx] at record
      exact record.zero (k := 9) (Nat.zero_le i) (by omega)
    · rw [hx] at record
      refine (record.take_drop (k := 9) rfl).trans ?_
      cases k <;> rfl
  case noVolume =>
    refine exec_infoPage_of_page ha hd hv hg ?_
    rw [hn]
    exact unlessRefused_enterData ..
  case page =>
    refine ⟨infoPageByte r.entries[g], exec_infoPage_of_page ha hd hv hg ?_, infoPage_fields r.entries[g]⟩
    rw [hr, ← entryOf_present g hr]
    exact reply_enterData ..
  case device =>
    have settings := infoDevice_settings s
    have flags := (infoDevice_flags s).getElem? (i := 0) (show 0 < 1 by omega)
    have sequence : HoldsAt (infoDeviceResponse s) 6 (bytes32 (s.engine.sequence.getD 0#32)) :=
      (HoldsAt.right (m := 6) rfl (HoldsAt.self _)).left.left
    obtain ⟨worn, fault, -⟩ := bitsByte_two s.engine.mediaWorn s.engine.sysareaFault
    refine ⟨infoDeviceResponse s, exec_of_awaits rfl ha (reply_enterData ..), length_infoDeviceResponse s,
      fun hd => ?unformatted, fun hd => ?running, ?engine, rfl, ?free, rfl, fun hn => ?noSequence, fun n hn => ?sequence,
      fun hn i h10 h20 => ?noSettings, fun st hst => ?settings, _, flags, worn, fault⟩
    case unformatted | running =>
      change some (deviceByte s.device) = _
      rw [hd]
      rfl
    case engine =>
      change some s.engine.state.code = _
      cases s.engine.state <;> rfl
    case free =>
      exact HoldsAt.half (w := BitVec.ofNat 16 s.freeList.length)
        (HoldsAt.right (m := 3) rfl (HoldsAt.self _)).left.left.left.left
    case noSequence | sequence => rw [sequence.word, hn]; rfl
    case noSettings =>
      rw [hn] at settings
      exact settings.zero (k := 10) h10 h20
    case settings =>
      rw [hst] at settings
      obtain ⟨mask, quotas, budget⟩ := infoDevice_settings_fields settings
      refine ⟨mask, fun q => ?_, budget⟩
      rw [show 11 + 2 * q.val = 10 + (1 + 2 * q.val) by omega]
      exact quotas q

end Sys2Proof.Machine
end


section
/-! A root and a map image read back whole (O55), and the laws after power-up (O60). -/

namespace Sys2Proof.Machine

/-! ### The fields of a root (R102, R103, R105) -/

/-- A three-byte value is read back from its bytes (R107). -/
theorem HoldsAt.triple {l : List Byte} {n : Nat} {w : BitVec 24} (h : HoldsAt l n (bytes24 w)) : tripleAt l n = w := by
  have b0 := h.byteAt (i := 0) (show 0 < 3 by omega)
  have b1 := h.byteAt (i := 1) (show 1 < 3 by omega)
  have b2 := h.byteAt (i := 2) (show 2 < 3 by omega)
  rw [Nat.add_zero] at b0
  rw [tripleAt, b0, b1, b2]
  change w.extractLsb' 16 8 ++ w.extractLsb' 8 8 ++ w.extractLsb' 0 8 = w
  rw [BitVec.extractLsb'_append_extractLsb'_eq_extractLsb' (by omega),
    BitVec.extractLsb'_append_extractLsb'_eq_extractLsb' (by omega)]
  exact BitVec.extractLsb'_eq_self

/-- A byte that stands by itself is read back. -/
theorem HoldsAt.one {l : List Byte} {n : Nat} {b : Byte} (h : HoldsAt l n [b]) : Machine.byteAt l n = b :=
  h.byteAt (i := 0) (show 0 < 1 by omega)

theorem maskOf_bits : ∀ a b c d : Bool, (a || b || c || d) = true →
    maskOf (maskByte #v[a, b, c, d]) = some #v[a, b, c, d] := by
  decide

/-- A table of four, written out. -/
theorem vector_four {α : Type} (m : Vector α 4) : m = #v[m[0], m[1], m[2], m[3]] := by
  refine Vector.ext fun k hk => ?_
  match k, hk with
  | 0, _ | 1, _ | 2, _ | 3, _ => rfl

/-- A mask that is not empty is read back (R103, R105). -/
theorem maskOf_maskByte (m : Vector Bool 4) (h : ∃ p : Port, m[p] = true) : maskOf (maskByte m) = some m := by
  rw [vector_four m]
  refine maskOf_bits _ _ _ _ ?_
  obtain ⟨p, hp⟩ := h
  simp only [Bool.or_eq_true]
  match p, hp with
  | 0, hp => exact .inl (.inl (.inl hp))
  | 1, hp => exact .inl (.inl (.inr hp))
  | 2, hp => exact .inl (.inr hp)
  | 3, hp => exact .inr hp

theorem Right.code_lt (r : Right) : r.code < 3 := by
  cases r <;> decide

/-- The two bits of each port in the byte of a rights set. -/
theorem rightsCode_rightsByte (r : Vector Right 4) (q : Port) : rightsCode (rightsByte r) q = r[q].code := by
  have h0 := r[0].code_lt
  have h1 := r[1].code_lt
  have h2 := r[2].code_lt
  have h3 := r[3].code_lt
  have value : (rightsByte r).toNat = r[0].code + 4 * r[1].code + 16 * r[2].code + 64 * r[3].code := by
    rw [rightsByte, BitVec.toNat_ofNat, Nat.mod_eq_of_lt (by omega)]
  rw [rightsCode, value, Nat.shiftRight_eq_div_pow]
  match q with
  | 0 => change _ / 1 % 4 = r[0].code; omega
  | 1 => change _ / 4 % 4 = r[1].code; omega
  | 2 => change _ / 16 % 4 = r[2].code; omega
  | 3 => change _ / 64 % 4 = r[3].code; omega

/-- A rights set is read back (R103, R172). -/
theorem rightsArg_rightsByte (r : Vector Right 4) : rightsArg (rightsByte r) = some r := by
  have code : ∀ q : Port, rightOfCode (rightsCode (rightsByte r) q) = some r[q] := fun q => by
    rw [rightsCode_rightsByte, rightOfCode_code]
  unfold rightsArg
  simp only [code]
  exact congrArg some (vector_four r).symm

theorem flagsByte_fields : ∀ (pinned mapPresent : Bool) (slot : MapSlot),
    (flagsByte pinned mapPresent slot).toNat < 8 ∧
    (if (flagsByte pinned mapPresent slot).getLsbD 2 then (1 : MapSlot) else 0) = slot := by
  decide

/-- A durable volume record in range is read back (R103, R105). -/
theorem durableAt_bytes {l : List Byte} {n : Nat} {d : Durable} (h : HoldsAt l n d.bytes)
    (hd : ∀ st k rights pinned m slot gen, d = .kept st k rights pinned m slot gen → 1 ≤ k ∧ k ≤ 64) :
    durableAt l n = some d := by
  cases d with
  | absent => exact if_pos (h.byteAt (i := 0) (show 0 < 8 by omega))
  | kept st k rights pinned m slot gen =>
    obtain ⟨h1, h64⟩ := hd st k rights pinned m slot gen rfl
    have state : byteAt l n = st.code := h.byteAt (i := 0) (show 0 < 8 by omega)
    have size : byteAt l (n + 1) = BitVec.ofNat 8 k := h.byteAt (i := 1) (show 1 < 8 by omega)
    have right : byteAt l (n + 2) = rightsByte rights := h.byteAt (i := 2) (show 2 < 8 by omega)
    have flags : byteAt l (n + 3) = flagsByte pinned m slot := h.byteAt (i := 3) (show 3 < 8 by omega)
    have generation : wordAt l (n + 4) = gen := (h.trans (HoldsAt.right (m := 4) rfl (HoldsAt.self _))).word
    have present : ¬st.code = 0#8 := by cases st <;> decide
    have settled : settledOfCode st.code = some st := by cases st <;> rfl
    have sized : sizeArg (BitVec.ofNat 8 k) = some k := by
      have value : (BitVec.ofNat 8 k).toNat = k := by rw [BitVec.toNat_ofNat, Nat.mod_eq_of_lt (by omega)]
      rw [sizeArg_of_toNat _ (by omega) (by omega), value]
    obtain ⟨pin, map, -⟩ := flagsByte_bits pinned m slot
    obtain ⟨low, select⟩ := flagsByte_fields pinned m slot
    unfold durableAt
    rw [state, if_neg present, size, right, flags, generation, settled, sized, rightsArg_rightsByte]
    refine (if_pos low).trans ?_
    rw [pin, map, select]

theorem allSome_map_some {α : Type} (l : List α) : allSome (l.map some) = some l := by
  induction l with
  | nil => rfl
  | cons a l ih => rw [List.map_cons, allSome, ih]; rfl

/-- A pool frame number is read back (R103, R105). -/
theorem poolFrameOf_frame (f : FrameNo) (h : isPool f = true) : poolFrameOf (BitVec.ofNat 16 f.val) = some f := by
  have value : (BitVec.ofNat 16 f.val).toNat = f.val := by
    rw [BitVec.toNat_ofNat, Nat.mod_eq_of_lt (by omega)]
  have pool : Config.firstPoolFrame ≤ f.val := of_decide_eq_true h
  unfold poolFrameOf
  rw [dif_pos (by rw [value]; exact ⟨pool, f.isLt⟩)]
  exact congrArg some (Fin.ext value)

theorem length_retiredBytes {r : Root} (hn : r.retired.length ≤ 24) : (retiredBytes r.retired).length = 48 := by
  rw [retiredBytes, List.length_append, List.length_replicate, length_flatMap_const _ _ 2 fun _ => rfl]
  omega

theorem length_quotaBytes (q : Vector Nat 4) : (quotaBytes q).length = 8 := by
  rw [quotaBytes, length_flatMap_const _ _ 2 fun _ => rfl, length_ascending]

theorem length_durables (r : Root) : ((ascending 16).flatMap fun v => r.volumes[v].bytes).length = 128 := by
  rw [length_flatMap_const _ _ 8 fun _ => length_durable_bytes _, length_ascending]

theorem length_root_body {r : Root} (hn : r.retired.length ≤ 24) : r.body.length = 252 := by
  simp only [Root.body, List.length_append, length_retiredBytes hn, length_quotaBytes, length_durables,
    List.length_replicate]
  rfl

/-- The head of a root: its marker, its sequence, its mask, its budget and its quotas. -/
theorem root_head (r : Root) : HoldsAt r.bytes 0 (bytes32 formatMarker ++ bytes32 r.sequence ++
    [maskByte r.settings.mask] ++ [BitVec.ofNat 8 r.settings.budget] ++ quotaBytes r.settings.quotas) :=
  (HoldsAt.self _).left.left.left.left.left

theorem root_retiredCount (r : Root) : byteAt r.bytes 18 = BitVec.ofNat 8 r.retired.length := by
  refine HoldsAt.one (HoldsAt.right (m := 18) ?_ (HoldsAt.self _)).left.left.left.left
  rw [List.length_append, length_quotaBytes]
  rfl

theorem root_durable (r : Root) (v : VolumeNo) : HoldsAt r.bytes (19 + 8 * v.val) r.volumes[v].bytes := by
  refine (HoldsAt.right (m := 19) ?_ (HoldsAt.flatMap (f := fun v : VolumeNo => r.volumes[v].bytes)
    (fun _ => length_durable_bytes _) (ascending_getElem? v))).left.left.left
  rw [List.length_append, List.length_append, length_quotaBytes]
  rfl

theorem root_retired (r : Root) {i : Nat} {f : FrameNo} (h : r.retired[i]? = some f) :
    halfAt r.bytes (147 + 2 * i) = BitVec.ofNat 16 f.val := by
  refine HoldsAt.half (HoldsAt.right (m := 147) ?_ (HoldsAt.flatMap (f := fun f : FrameNo =>
    halfBytes (BitVec.ofNat 16 f.val)) (k := 2) (fun _ => rfl) h).left).left.left
  rw [List.length_append, List.length_append, List.length_append, length_quotaBytes, length_durables]
  rfl

/-- The check of a root is over its body (R103). -/
theorem root_check {r : Root} (hn : r.retired.length ≤ 24) : imageCheck (r.bytes.take 252) = wordAt r.bytes 252 := by
  have check : wordAt r.bytes 252 = imageCheck r.body :=
    (HoldsAt.right (length_root_body hn) (HoldsAt.self _)).word
  rw [check, Root.bytes, ← length_root_body hn, List.take_left]

theorem retiredOf_root {r : Root} (hn : r.retired.length ≤ 24) (hd : r.retired.Nodup) (hp : ∀ f ∈ r.retired, isPool f = true) :
    retiredOf r.bytes = some r.retired := by
  have count : (byteAt r.bytes 18).toNat = r.retired.length := by
    rw [root_retiredCount, BitVec.toNat_ofNat, Nat.mod_eq_of_lt (by omega)]
  have frames : ((List.range r.retired.length).map fun i => poolFrameOf (halfAt r.bytes (147 + 2 * i))) =
      r.retired.map some := by
    refine List.ext_getElem (by simp) fun i h _ => ?_
    have hi : i < r.retired.length := by simpa using h
    rw [List.getElem_map, List.getElem_range, List.getElem_map,
      root_retired r (List.getElem?_eq_getElem hi), poolFrameOf_frame _ (hp _ (List.getElem_mem hi))]
  unfold retiredOf
  simp only [count, frames, allSome_map_some, if_pos hd]
  exact if_pos hn

theorem quotasOf_root (r : Root) (h : ∀ p : Port, r.settings.quotas[p] ≤ 1024) :
    quotasOf r.bytes = some r.settings.quotas := by
  have quota : ∀ p : Port, (halfAt r.bytes (10 + 2 * p.val)).toNat = r.settings.quotas[p] := fun p => by
    have := h p
    have at_ := ((root_head r).trans (HoldsAt.right (m := 10) rfl (HoldsAt.flatMap (f := fun p : Port =>
      halfBytes (BitVec.ofNat 16 r.settings.quotas[p])) (k := 2) (fun _ => rfl) (ascending_getElem? p)))).half
    rw [Nat.zero_add] at at_
    rw [at_, BitVec.toNat_ofNat, Nat.mod_eq_of_lt (by omega)]
  unfold quotasOf
  rw [if_pos]
  · exact congrArg some (table_ext fun p => by rw [tab_get, quota])
  · exact List.all_eq_true.2 fun p _ => decide_eq_true (by rw [quota]; exact h p)

theorem durablesOf_root (r : Root) (h : ∀ (v : VolumeNo) st n rights k m slot gen,
    r.volumes[v] = .kept st n rights k m slot gen → 1 ≤ n ∧ n ≤ 64) : durablesOf r.bytes = some r.volumes := by
  have durable : ∀ v : VolumeNo, durableAt r.bytes (19 + 8 * v.val) = some r.volumes[v] := fun v =>
    durableAt_bytes (root_durable r v) (h v)
  unfold durablesOf
  rw [if_pos]
  · exact congrArg some (table_ext fun v => by rw [tab_get, durable]; rfl)
  · exact List.all_eq_true.2 fun v _ => by rw [durable]; rfl

/-- A root in range is judged valid and gives back every field (R105). -/
theorem judgeRoot_bytes (r : Root) (hm : ∃ p : Port, r.settings.mask[p] = true) (hb : r.settings.budget < 256)
    (hq : ∀ p : Port, r.settings.quotas[p] ≤ 1024) (hn : r.retired.length ≤ 24) (hd : r.retired.Nodup)
    (hp : ∀ f ∈ r.retired, isPool f = true)
    (hv : ∀ (v : VolumeNo) st n rights k m slot gen,
      r.volumes[v] = .kept st n rights k m slot gen → 1 ≤ n ∧ n ≤ 64) : judgeRoot r.bytes = some r := by
  have head := root_head r
  have marker : wordAt r.bytes 0 = formatMarker := (head.trans (HoldsAt.self _).left.left.left.left).word
  have sequence : wordAt r.bytes 4 = r.sequence :=
    (head.trans (HoldsAt.right (m := 4) rfl (HoldsAt.self _)).left.left.left).word
  have mask : byteAt r.bytes 8 = maskByte r.settings.mask :=
    (head.trans (HoldsAt.right (m := 8) rfl (HoldsAt.self _)).left.left).one
  have budget : byteAt r.bytes 9 = BitVec.ofNat 8 r.settings.budget :=
    (head.trans (HoldsAt.right (m := 9) rfl (HoldsAt.self _)).left).one
  have value : (BitVec.ofNat 8 r.settings.budget).toNat = r.settings.budget := by
    rw [BitVec.toNat_ofNat, Nat.mod_eq_of_lt hb]
  unfold judgeRoot
  rw [if_pos ⟨marker, root_check hn⟩, mask, maskOf_maskByte _ hm, quotasOf_root r hq, retiredOf_root hn hd hp,
    durablesOf_root r hv, sequence, budget, value]

/-! ### The fields of a map image (R107, R108) -/

/-- The two halves of a packed pair (R107). -/
theorem pair_halves (a b : BitVec 12) : (a ++ b).extractLsb' 12 12 = a ∧ (a ++ b).extractLsb' 0 12 = b := by
  constructor <;> ext i hi
  · rw [BitVec.getElem_extractLsb', BitVec.getLsbD_append, if_neg (by omega), Nat.add_sub_cancel_left,
      BitVec.getLsbD_eq_getElem]
  · rw [BitVec.getElem_extractLsb', BitVec.getLsbD_append, if_pos (by omega), Nat.zero_add,
      BitVec.getLsbD_eq_getElem]

section Image

variable (m : MapImage)

theorem length_packed : ((ascending 32).flatMap (packedPair m.entries)).length = 96 := by
  rw [length_flatMap_const _ _ 3 fun _ => rfl, length_ascending]

theorem length_checks : ((ascending 64).flatMap fun g => halfBytes (entryCheck m.entries[g])).length = 128 := by
  rw [length_flatMap_const _ _ 2 fun _ => rfl, length_ascending]

theorem length_image_body : m.body.length = 252 := by
  simp only [MapImage.body, List.length_append, length_packed, length_checks, List.length_replicate]
  rfl

/-- The check of a map image is over its body. -/
theorem image_check : imageCheck (m.bytes.take 252) = wordAt m.bytes 252 := by
  have check : wordAt m.bytes 252 = imageCheck m.body :=
    (HoldsAt.right (length_image_body m) (HoldsAt.self _)).word
  rw [check, MapImage.bytes, ← length_image_body m, List.take_left]

theorem image_volume : byteAt m.bytes 0 = BitVec.ofNat 8 m.volume.val := rfl

theorem image_generation : wordAt m.bytes 1 = m.generation :=
  (HoldsAt.right (m := 1) rfl (HoldsAt.self _)).left.left.left.left.word

theorem image_pair (k : Fin 32) : tripleAt m.bytes (5 + 3 * k.val) =
    entryNumber (m.entries[2 * k.val]'(by omega)) ++ entryNumber (m.entries[2 * k.val + 1]'(by omega)) := by
  refine (HoldsAt.right (m := 5) rfl (HoldsAt.flatMap (f := packedPair m.entries) (fun _ => rfl)
    (ascending_getElem? k))).left.left.left.triple

theorem image_entryCheck (g : PageNo) : halfAt m.bytes (101 + 2 * g.val) = entryCheck m.entries[g] := by
  refine (HoldsAt.right (m := 101) ?_ (HoldsAt.flatMap (f := fun g : PageNo => halfBytes (entryCheck m.entries[g]))
    (k := 2) (fun _ => rfl) (ascending_getElem? g))).left.left.half
  rw [List.length_append, length_packed]
  rfl

/-- Each page's frame number is read back from its half of a pair (R107). -/
theorem numberAt_image (g : PageNo) : numberAt m.bytes g = entryNumber m.entries[g] := by
  have pair := image_pair m ⟨g.val / 2, by omega⟩
  unfold numberAt
  split
  · next h =>
    have page : m.entries[2 * (g.val / 2)]'(by omega) = m.entries[g] := by
      congr 1
      omega
    rw [pair, page]
    exact (pair_halves _ _).1
  · next h =>
    have page : m.entries[2 * (g.val / 2) + 1]'(by omega) = m.entries[g] := by
      congr 1
      omega
    rw [pair, page]
    exact (pair_halves _ _).2

end Image

/-- An entry's frame number; a hole has none. -/
theorem entryNumber_of_frame {e : ImageEntry} {f : FrameNo} {c : Half} (he : e = some (f, c))
    (hf : isPool f = true) : (entryNumber e).toNat = f.val ∧ entryNumber e ≠ 0#12 := by
  have value : (entryNumber e).toNat = f.val := by
    rw [he, entryNumber, BitVec.toNat_ofNat, Nat.mod_eq_of_lt (by omega)]
  have pool : 34 ≤ f.val := of_decide_eq_true hf
  refine ⟨value, fun h => ?_⟩
  rw [h] at value
  change 0 = f.val at value
  omega

/-- The entries of a map image are read back, where each frame is a pool frame. -/
theorem imageEntryAt_image (m : MapImage) (hp : ∀ (g : PageNo) f c, m.entries[g] = some (f, c) → isPool f = true)
    (g : PageNo) : imageEntryAt m.bytes g = m.entries[g] := by
  unfold imageEntryAt
  rw [numberAt_image, image_entryCheck]
  cases he : m.entries[g] with
  | none => rfl
  | some x =>
    obtain ⟨f, c⟩ := x
    obtain ⟨value, notHole⟩ := entryNumber_of_frame rfl (hp g f c he)
    rw [if_neg notHole, value]
    exact congrArg some (Prod.ext (Fin.ext (Nat.mod_eq_of_lt f.isLt)) rfl)

/-- The frame numbers that a map image holds are those of its entries. -/
theorem heldNumbers_image (m : MapImage) (hp : ∀ (g : PageNo) f c, m.entries[g] = some (f, c) → isPool f = true) :
    heldNumbers m.bytes = (ascending 64).filterMap fun g => m.entries[g].map fun x => x.1.val := by
  unfold heldNumbers
  refine List.filterMap_congr fun g _ => ?_
  rw [numberAt_image]
  cases he : m.entries[g] with
  | none => rfl
  | some x =>
    obtain ⟨f, c⟩ := x
    obtain ⟨value, notHole⟩ := entryNumber_of_frame rfl (hp g f c he)
    rw [if_neg notHole, value]
    rfl

theorem mem_heldNumbers {m : MapImage} (hp : ∀ (g : PageNo) f c, m.entries[g] = some (f, c) → isPool f = true)
    {n : Nat} (h : n ∈ heldNumbers m.bytes) :
    ∃ (g : PageNo) (f : FrameNo) (c : Half), m.entries[g] = some (f, c) ∧ f.val = n := by
  rw [heldNumbers_image m hp] at h
  obtain ⟨g, -, hg⟩ := List.mem_filterMap.1 h
  obtain ⟨⟨f, c⟩, he, hn⟩ := Option.map_eq_some_iff.1 hg
  exact ⟨g, f, c, he, hn⟩

/-- A map image in range is judged good and gives back every entry (R108). -/
theorem judgeImage_bytes (m : MapImage) (size : Nat) (retired accepted : List FrameNo)
    (he : ∀ (g : PageNo) f c, m.entries[g] = some (f, c) →
      g.val < size ∧ isPool f = true ∧ f ∉ retired ∧ f ∉ accepted)
    (hd : ∀ (g h : PageNo) f c d, m.entries[g] = some (f, c) → m.entries[h] = some (f, d) → g = h) :
    judgeImage m.bytes m.volume m.generation size retired accepted = some m.entries := by
  have pool : ∀ (g : PageNo) f c, m.entries[g] = some (f, c) → isPool f = true := fun g f c h => (he g f c h).2.1
  have below : (ascending 64).all (fun g => decide (size ≤ g.val → numberAt m.bytes g = 0#12)) = true := by
    refine List.all_eq_true.2 fun g _ => decide_eq_true fun hg => ?_
    rw [numberAt_image]
    cases hx : m.entries[g] with
    | none => rfl
    | some x => exact absurd (he g x.1 x.2 hx).1 (by omega)
  have inPool : (heldNumbers m.bytes).all (fun n => decide (Config.firstPoolFrame ≤ n ∧ n < 2048)) = true := by
    refine List.all_eq_true.2 fun n hn => decide_eq_true ?_
    obtain ⟨g, f, c, hx, rfl⟩ := mem_heldNumbers pool hn
    exact ⟨of_decide_eq_true (pool g f c hx), f.isLt⟩
  have unlisted : ∀ l : List FrameNo, (∀ (g : PageNo) f c, m.entries[g] = some (f, c) → f ∉ l) →
      (heldNumbers m.bytes).all (fun n => l.all fun f => f.val ≠ n) = true := fun l hl => by
    refine List.all_eq_true.2 fun n hn => List.all_eq_true.2 fun f hf => decide_eq_true ?_
    obtain ⟨g, f', c, hx, rfl⟩ := mem_heldNumbers pool hn
    rintro h
    exact hl g f' c hx (Fin.ext h ▸ hf)
  have once : (heldNumbers m.bytes).Nodup := by
    rw [heldNumbers_image m pool]
    refine (ascending_nodup 64).filterMap fun g h n hg hh => ?_
    obtain ⟨⟨f, c⟩, hf, hn⟩ := Option.map_eq_some_iff.1 hg
    obtain ⟨⟨f', d⟩, hf', hn'⟩ := Option.map_eq_some_iff.1 hh
    obtain rfl : f = f' := Fin.ext (hn.trans hn'.symm)
    exact hd g h f c d hf hf'
  unfold judgeImage
  rw [if_pos ⟨image_check m, image_volume m, image_generation m, below, inPool,
    unlisted retired fun g f c h => (he g f c h).2.2.1, once, unlisted accepted fun g f c h => (he g f c h).2.2.2⟩]
  exact congrArg some (table_ext fun g => by rw [tab_get, imageEntryAt_image m pool])

/-- Settles O55: both judgements read back every field. -/
theorem imagesReadBack : Obligations.ImagesReadBack := by
  refine ⟨fun r hm hb hq hn hd hp hv => ⟨?_, judgeRoot_bytes r hm hb hq hn hd hp hv⟩, fun m size retired accepted he hd =>
    ⟨length_mapImage_bytes m, judgeImage_bytes m size retired accepted he hd⟩⟩
  rw [Root.bytes, List.length_append, length_root_body hn]
  rfl

/-! ### The laws after power-up (R3, R147, R161) -/

theorem reset_entry (v : VolumeNo) (g : PageNo) : entryOf State.reset v g = .hole := by
  unfold entryOf State.reset
  rw [show (Vector.replicate 16 Volume.absent)[v] = .absent from Vector.getElem_replicate _]
  rfl

/-- Settles O60: nothing is queued, in flight, retired or listed, and the device is at the first step of a recall. -/
theorem lawsHoldAtReset : Obligations.LawsHoldAtReset := by
  have port : ∀ p : Port, State.reset.ports[p] = .recalled .idle := fun p => Vector.getElem_replicate _
  refine ⟨?memory, ?mask, ?queue, ?retired, ?frame, rfl, rfl, rfl, fun x => rfl, fun p => by rw [port]; rfl⟩
  case memory => exact ⟨⟨List.Pairwise.nil, by rintro c ⟨⟩⟩, ⟨List.Pairwise.nil, by rintro c ⟨⟩⟩⟩
  case mask => exact ⟨by rintro st ⟨⟩, by rintro req ⟨⟩, by rintro ⟨⟩⟩
  case queue =>
    refine ⟨Nat.zero_le _, List.nodup_nil, by rintro r ⟨⟩, by rintro r ⟨⟩, by rintro ⟨⟩, fun _ p => ?_⟩
    rw [port]
    exact ⟨by rintro ⟨⟩, by rintro ⟨⟩, by rintro ⟨⟩⟩
  case retired => exact ⟨Nat.zero_le _, by rintro ⟨⟩⟩
  case frame =>
    refine ⟨by rintro ⟨⟩, fun x hx hr => ?_⟩
    cases hx
    exact absurd rfl hr

end Sys2Proof.Machine
end


section
/-! The supply, the lines that lead to a recall (O48, O49), and the recall steps that select a root, find poison and rebuild the frames (O50, O52, O53). -/

namespace Sys2Proof.Machine

/-! ### A program that is cut short (R2) -/

theorem cutProgram_none (s : State) (h : s.program = none) : cutProgram s = s := by
  unfold cutProgram
  rw [h]

theorem cutProgram_program (s : State) : (cutProgram s).program = none := by
  unfold cutProgram
  split
  · next h => exact h
  · rfl

/-- A program cut short changes the cells of its frame alone, and takes one free value (R2). -/
theorem cutProgram_torn (s : State) (f : FrameNo) (h : s.program = some f) :
    torn s (cutProgram s) f ∧ (cutProgram s).draws = s.draws + 1 := by
  unfold cutProgram
  rw [h]
  exact ⟨fun x hx => cells_outside _ _ _ x hx, rfl⟩

/-! ### The supply (R147, R148) -/

/-- Settles O49: a power-up and a loss of supply go through `volatileLost`, a loss after the cut of its program. -/
theorem supplyAndGuard : Obligations.SupplyAndGuard := by
  refine ⟨fun s hd => ?_, fun s hd => ?_, fun s hd => ?_, fun i s hd hi => ?_, fun _ _ => rfl⟩
  · exact ⟨volatileLost s (.recalling .rootSlots), congrArg Host.Outcome.next (if_pos hd), rfl,
      volatileLost_supplyLost s _ (.inr rfl), rfl, rfl⟩
  · exact congrArg Host.Outcome.next (if_neg hd)
  · have lost : supplyLost s (volatileLost (cutProgram s) .off) := by
      have h := volatileLost_supplyLost (cutProgram s) .off (.inl rfl)
      rw [cutProgram_eq] at h ⊢
      exact h
    refine ⟨volatileLost (cutProgram s) .off, congrArg Host.Outcome.next (if_neg hd), rfl, lost, fun hp => ?_, fun f hp => ?_⟩
    · rw [cutProgram_none s hp]
      exact ⟨rfl, rfl⟩
    · obtain ⟨htorn, hdraws⟩ := cutProgram_torn s f hp
      exact ⟨htorn, hdraws, judgeRoot_cutProgram s f hp⟩
  · have off : exec i s = .next s := by
      simp only [List.mem_cons, List.not_mem_nil, or_false] at hi
      rcases hi with rfl | rfl | rfl | rfl | rfl
      · exact congrArg Host.Outcome.next (if_pos hd)
      · simp [exec, execPfailAsserted, hd]
      · simp [exec, execPfailDeasserted, hd]
      · exact congrArg Host.Outcome.next (if_pos hd)
      · simp [exec, execResetNReleased, hd]
    exact off

/-! ### PFAIL and RESET_N (R148, R149) -/

theorem abandonUpdate_idle (s : State) (h : s.engine.inFlight = none) : abandonUpdate s = s := by
  unfold abandonUpdate
  rw [h]

theorem device_of_inPowerFail {s : State} (h : inPowerFail s = true) :
    ∃ b taken skipped, s.device = .powerFail b taken skipped := by
  unfold inPowerFail at h
  split at h
  · next b taken skipped hd => exact ⟨b, taken, skipped, hd⟩
  · cases h

/-- What a change of the two lines does in each device state but POWER_FAIL (R148). -/
theorem lines_halted (s : State) (h : s.device = .halted) :
    exec .pfailDeasserted s = .next { s with
      pfail := false, device := if s.resetN then .halted else .recalling .rootSlots } ∧
    exec .resetNReleased s = .next { s with
      resetN := false, device := if s.pfail then .halted else .recalling .rootSlots } := by
  constructor
  · simp only [exec, execPfailDeasserted, h, beginRecall]
    split
    · rw [← h]
    · rfl
  · simp only [exec, execResetNReleased, h, beginRecall]
    split
    · rw [← h]
    · rfl

/-- Settles O48, clause by clause: HALTED, the states that take a level alone, POWER_FAIL, and RESET_N. -/
theorem linesLeadToRecall : Obligations.LinesLeadToRecall := by
  refine ⟨lines_halted, fun s hd => ?_, fun s hi => ?_, fun s hd => ?_⟩
  · rcases hd with hd | hd | ⟨x, hd⟩ <;> simp [exec, execPfailDeasserted, execResetNReleased, hd]
  · obtain ⟨b, taken, skipped, hd⟩ := device_of_inPowerFail hi
    have deasserted : exec .pfailDeasserted s = .next (beginRecall (abandonUpdate { s with pfail := false })) := by
      simp only [exec, execPfailDeasserted, hd]
    refine ⟨by simp only [exec, execResetNReleased, hd], fun hf => ?_, fun req hf => ?_⟩
    · rw [deasserted, abandonUpdate_idle { s with pfail := false } hf]
      rfl
    · refine ⟨_, deasserted, ?_, ?_⟩
      · rw [abandonUpdate_eq { s with pfail := false } req hf]
        rfl
      · rw [abandonUpdate_eq { s with pfail := false } req hf]
        exact volumesReturned_congr _ _ _ _ _ rfl rfl (volumesReturned_returnVolume { s with pfail := false } req.kind)
  · have closed : ∀ p : Port, linkClosed s.ports[p] (closeLinks (cutProgram s)).ports[p] := fun p => by
      have h := closeLinks_linkClosed (cutProgram s) p
      rw [cutProgram_eq] at h ⊢
      exact h
    refine ⟨{ dropUpdate (closeLinks (cutProgram s)) with resetN := true, device := .halted },
      congrArg Host.Outcome.next (if_neg hd), ?_, closed, fun hp => ?_, fun f hp => ?_⟩
    · have hp := cutProgram_program s
      have hc := cutProgram_eq s
      generalize cutProgram s = u at hp hc
      rw [hc] at hp ⊢
      change u.program = none at hp
      rw [dropUpdate_eq]
      simp only [closeLinks, State.modPorts, hp]
    · rw [cutProgram_none s hp]
      rfl
    · exact ⟨(cutProgram_torn s f hp).1, judgeRoot_cutProgram s f hp⟩

/-! ### Frames that are recalled (R3) -/

theorem length_cellFrame (s : State) (f : FrameNo) : (cellFrame s f).length = 256 := length_frameBytes _ _ _

/-- A recalled frame reads as its cells did, and every other address as before (R3). -/
theorem arrayAt_recallFrame (s : State) (f : FrameNo) (x : Nat) : arrayAt (recallFrame s f) x =
    if 256 * f.val ≤ x ∧ x < 256 * f.val + 256 then cellAt s x else arrayAt s x := by
  simp only [arrayAt, recallFrame, writeFrame]
  rw [read_storeFrame arrayFill s.array f _ (length_cellFrame s f)]
  split
  · next h =>
    rw [cellFrame, frameBytes_getD cellFill _ _ _ (by omega), Nat.add_sub_cancel' h.1]
    rfl
  · rfl

theorem arrayFrame_recallFrame (s : State) (f g : FrameNo) : arrayFrame (recallFrame s f) g =
    if f = g then cellFrame s f else arrayFrame s g := by
  unfold recallFrame
  rw [arrayFrame_writeFrame _ _ _ _ (length_cellFrame s f).ge, List.take_of_length_le (length_cellFrame s f).le]

/-- Frames that are recalled one after the other hold their cells. -/
theorem arrayFrame_recallFrames (l : List FrameNo) (s : State) (f : FrameNo) :
    arrayFrame (l.foldl recallFrame s) f = if f ∈ l then cellFrame s f else arrayFrame s f := by
  induction l generalizing s with
  | nil => rfl
  | cons g l ih =>
    rw [List.foldl_cons, ih, arrayFrame_recallFrame]
    by_cases hg : g = f
    · subst hg
      simp [recallFrame, writeFrame, cellFrame]
    · rw [if_neg hg]
      simp [Ne.symm hg, recallFrame, writeFrame, cellFrame]

/-- Outside the frames that are recalled no byte of the working array changes. -/
theorem arrayAt_recallFrames (l : List FrameNo) (s : State) (x : Nat) (h : ∀ f ∈ l, ¬ inFrame f x) :
    arrayAt (l.foldl recallFrame s) x = arrayAt s x := by
  induction l generalizing s with
  | nil => rfl
  | cons g l ih =>
    rw [List.foldl_cons, ih _ fun f hf => h f (List.mem_cons_of_mem _ hf)]
    exact arrayAt_writeFrame _ _ _ _ (h g List.mem_cons_self)

/-! ### The choice of a root (R106, R110, R111) -/

/-- The two root slots recalled. -/
def rootsRecalled (s : State) : State := recallFrame (recallFrame s RootSlot.a.frame) RootSlot.b.frame

theorem rootsRecalled_eq (s : State) : rootsRecalled s = { s with array := (rootsRecalled s).array } := rfl

theorem selectedRoot_rootsRecalled (s : State) :
    selectedRoot (rootsRecalled s) = selectRoot (judgeRoot (cellFrame s 0)) (judgeRoot (cellFrame s 1)) := by
  have a : arrayFrame (rootsRecalled s) RootSlot.a.frame = cellFrame s 0 := by
    unfold rootsRecalled
    rw [arrayFrame_recallFrame, if_neg (by decide), arrayFrame_recallFrame, if_pos rfl]
    rfl
  have b : arrayFrame (rootsRecalled s) RootSlot.b.frame = cellFrame s 1 := by
    unfold rootsRecalled
    rw [arrayFrame_recallFrame, if_pos rfl]
    rfl
  unfold selectedRoot
  rw [a, b]

/-- The bytes of the two root slots are those of the first two frames (R1). -/
theorem arrayAt_rootsRecalled (s : State) (x : Nat) :
    arrayAt (rootsRecalled s) x = if x < 512 then cellAt s x else arrayAt s x := by
  have ha : RootSlot.a.frame.val = 0 := rfl
  have hb : RootSlot.b.frame.val = 1 := rfl
  have cells : cellAt (recallFrame s RootSlot.a.frame) x = cellAt s x := rfl
  unfold rootsRecalled
  rw [arrayAt_recallFrame, arrayAt_recallFrame, cells, ha, hb]
  by_cases hx : x < 512
  · rw [if_pos hx]
    by_cases h1 : 256 ≤ x
    · rw [if_pos (by omega)]
    · rw [if_neg (by omega), if_pos (by omega)]
  · rw [if_neg hx, if_neg (by omega), if_neg (by omega)]

/-- The table of R106: which of the judged roots is selected. -/
theorem selectRoot_chosen {a b : Option Root} {slot : RootSlot} {r : Root}
    (h : (a = some r ∧ slot = .a ∧ b = none) ∨ (b = some r ∧ slot = .b ∧ a = none) ∨
      ∃ x y, a = some x ∧ b = some y ∧
        ((y.sequence = x.sequence + 1 ∧ slot = .b ∧ r = y) ∨
          (x.sequence = y.sequence + 1 ∧ slot = .a ∧ r = x) ∨
          (y.sequence ≠ x.sequence + 1 ∧ x.sequence ≠ y.sequence + 1 ∧
            x.sequence.toNat < y.sequence.toNat ∧ slot = .b ∧ r = y) ∨
          (y.sequence ≠ x.sequence + 1 ∧ x.sequence ≠ y.sequence + 1 ∧
            y.sequence.toNat ≤ x.sequence.toNat ∧ slot = .a ∧ r = x))) :
    selectRoot a b = some (slot, r) := by
  rcases h with ⟨rfl, rfl, rfl⟩ | ⟨rfl, rfl, rfl⟩ | ⟨x, y, rfl, rfl, h⟩
  · rfl
  · rfl
  · simp only [selectRoot]
    rcases h with ⟨h, rfl, rfl⟩ | ⟨h, rfl, rfl⟩ | ⟨h1, h2, h, rfl, rfl⟩ | ⟨h1, h2, h, rfl, rfl⟩
    · rw [if_pos h]
    · rw [if_neg (by bv_omega), if_pos h]
    · rw [if_neg h1, if_neg h2, if_pos h]
    · rw [if_neg h1, if_neg h2, if_neg (by omega)]

theorem recallRoots_selects (s : State) {slot : RootSlot} {r : Root}
    (h : selectRoot (judgeRoot (cellFrame s 0)) (judgeRoot (cellFrame s 1)) = some (slot, r)) :
    recallRoots s = takeRoot (rootsRecalled s) slot r := by
  rw [← selectedRoot_rootsRecalled] at h
  have fold : recallFrame (recallFrame s RootSlot.a.frame) RootSlot.b.frame = rootsRecalled s := rfl
  unfold recallRoots
  simp only [fold, h]

theorem recallRoots_selects_none (s : State)
    (h : selectRoot (judgeRoot (cellFrame s 0)) (judgeRoot (cellFrame s 1)) = none) :
    recallRoots s = rebuildUnformatted (rootsRecalled s) := by
  rw [← selectedRoot_rootsRecalled] at h
  have fold : recallFrame (recallFrame s RootSlot.a.frame) RootSlot.b.frame = rootsRecalled s := rfl
  unfold recallRoots
  simp only [fold, h]

theorem recallRoots_array (s : State) : (recallRoots s).array = (rootsRecalled s).array := by
  cases h : selectRoot (judgeRoot (cellFrame s 0)) (judgeRoot (cellFrame s 1)) with
  | none => rw [recallRoots_selects_none s h]; rfl
  | some x => rw [recallRoots_selects s h]; rfl

theorem recallAt_iff (s : State) (x : RecallStep) :
    recallAt s x = true ↔ s.device = .recalling x ∧ s.program = none := decide_eq_true_iff

/-- Settles O50: what the step selects is `selectRoot` of the two judged slots. -/
theorem recallSelectsRoot : Obligations.RecallSelectsRoot := by
  refine ⟨fun s h => ?_, fun s hd hp => ?_⟩
  · refine congrArg Host.Outcome.next (if_neg fun hr => ?_)
    obtain ⟨hd, hp⟩ := (recallAt_iff s _).1 hr
    exact h.elim (· hd) (· hp)
  · have bytes : ∀ x, arrayAt (recallRoots s) x = if x < 512 then cellAt s x else arrayAt s x := fun x => by
      unfold arrayAt
      rw [recallRoots_array]
      exact arrayAt_rootsRecalled s x
    refine ⟨recallRoots s, congrArg Host.Outcome.next (if_pos ((recallAt_iff s _).2 ⟨hd, hp⟩)),
      fun x hx => (bytes x).trans (if_pos hx), fun x hx => (bytes x).trans (if_neg (by omega)),
      fun ha hb => ?_, fun slot r h => ?_⟩
    · rw [recallRoots_selects_none s (by rw [ha, hb]; rfl)]
      rfl
    · rw [recallRoots_selects s (selectRoot_chosen h)]
      rfl

/-! ### The page checks (R23, R113) -/

theorem arrayFrame_checkPages (s : State) (f : FrameNo) (h : f ∈ committedFrames s) :
    arrayFrame (checkPages s) f = cellFrame s f :=
  (arrayFrame_recallFrames (committedFrames s) s f).trans (if_pos h)

/-- An entry after its check: the frame and the check stay, and the mark says whether they meet (R113). -/
theorem checked_hole (e : Entry) (s : State) (h : e.committed = none) : e.checked s = e := by
  unfold Entry.checked
  rw [h, Option.map_none, ← h]

theorem checked_good (e : Entry) (s : State) (c : Committed) (h : e.committed = some c)
    (hc : pageCheck (cellFrame s c.frame) = c.check) : e.checked s = e := by
  unfold Entry.checked
  rw [h, Option.map_some, if_pos hc, ← h]

theorem checked_bad (e : Entry) (s : State) (c : Committed) (h : e.committed = some c)
    (hc : pageCheck (cellFrame s c.frame) ≠ c.check) :
    e.checked s = { e with committed := some { c with poisoned := true } } := by
  unfold Entry.checked
  rw [h, Option.map_some, if_neg hc]

theorem checkPages_volume (s : State) (v : VolumeNo) :
    (checkPages s).volumes[v] = Volume.checked s.volumes[v] s := by
  unfold checkPages
  rw [tab_get]

/-- Settles O52: the entries go through `Entry.checked`, the array through the recall of the committed frames. -/
theorem recallFindsPoison : Obligations.RecallFindsPoison := by
  intro s hd hp
  refine ⟨{ checkPages s with device := .recalling .finish },
    congrArg Host.Outcome.next (if_pos ((recallAt_iff s _).2 ⟨hd, hp⟩)), ?_, fun v => ⟨fun hv => ?_, fun r hr => ?_⟩,
    fun v g c hc => ?_, fun x hx => ?_⟩
  · rw [checkPages_eq]
  · refine (checkPages_volume s v).trans ?_
    cases hx : s.volumes[v] with
    | present r => rw [hx] at hv; cases hv
    | absent => rfl
    | creating _ _ _ => rfl
  · refine ⟨tab fun g => r.entries[g].checked s, ?_, fun g => ⟨fun hc => ?_, fun c hc => ⟨fun hk => ?_, fun hk => ?_⟩⟩⟩
    · exact (checkPages_volume s v).trans (by rw [hr]; rfl)
    · rw [tab_get, checked_hole _ s hc]
    · rw [tab_get, checked_good _ s c hc hk]
    · rw [tab_get, checked_bad _ s c hc hk]
  · exact arrayFrame_checkPages s c.frame ((mem_committedFrames s _).2 ⟨v, g, c, hc, rfl⟩)
  · refine arrayAt_recallFrames (committedFrames s) s x fun f hf => ?_
    obtain ⟨v, g, c, hc, rfl⟩ := (mem_committedFrames s f).1 hf
    exact hx v g c hc

/-! ### The end of the recall (R114 to R116) -/

theorem ascending_sorted (n : Nat) : (ascending n).Pairwise (· < ·) := by
  unfold ascending
  exact List.pairwise_ofFn.2 fun i j h => h

/-- The state that recall gives a pool frame, by what holds it (R114). -/
theorem recalledFrameState_cases (s : State) (f : FrameNo) :
    (f ∈ committedFrames s → recalledFrameState s f = .committed) ∧
    (f ∉ committedFrames s → f ∈ s.engine.retired → recalledFrameState s f = .retired) ∧
    (f ∉ committedFrames s → f ∉ s.engine.retired → recalledFrameState s f = .free) := by
  unfold recalledFrameState
  exact ⟨fun h => if_pos h, fun h k => by rw [if_neg h, if_pos k], fun h k => by rw [if_neg h, if_neg k]⟩

theorem mem_freeList_rebuildFrames (s : State) (f : FrameNo) :
    f ∈ (rebuildFrames s).freeList ↔ frameState (rebuildFrames s) f = some .free := by
  rw [frameState_rebuildFrames]
  simp only [rebuildFrames, List.mem_filter, mem_wholePool, decide_eq_true_eq]
  split
  · next h => simp [h]
  · next h => simp [h]

theorem freeList_rebuildFrames_sorted (s : State) : (rebuildFrames s).freeList.Pairwise (· < ·) := by
  simp only [rebuildFrames, wholePool]
  exact ((ascending_sorted 2048).filter _).filter _

/-- The whole state after the last recall step (R114 to R116). -/
theorem endOfRecall_eq (s : State) : endRecall (resetEngine (resetPorts (rebuildFrames s))) = { s with
    device := if s.engine.selected = none then .unformatted else .running
    ports := tab fun p => .recalled s.ports[p].frame
    claimCount := Vector.replicate 4 0
    frameStates := (rebuildFrames s).frameStates, freeList := (rebuildFrames s).freeList
    engine := { s.engine.ended with
      queue := [], sysareaFault := false, mediaWorn := decide (s.engine.retired.length = 24) } } := by
  have device : ∀ [Decidable (s.engine.selected = none)],
      (if s.engine.selected.isSome = true then Device.running else .unformatted) =
        if s.engine.selected = none then Device.unformatted else .running := by
    intro dec
    by_cases h : s.engine.selected = none
    · rw [if_pos h, if_neg (by simp [h])]
    · rw [if_neg h, if_pos (Option.isSome_iff_ne_none.2 h)]
  have hu : rebuildFrames s = { s with
      frameStates := (rebuildFrames s).frameStates, freeList := (rebuildFrames s).freeList } := by
    simp only [rebuildFrames]
  generalize rebuildFrames s = u at hu
  rw [hu]
  simp only [endRecall, resetEngine, resetPorts, State.modPorts, State.modEngine, Engine.rest, Engine.ended,
    Config.retiredCapacity]
  congr 1
  exact device

/-- Settles O53: with the whole state known, the frames go through `recalledFrameState`. -/
theorem recallEndRebuilds : Obligations.RecallEndRebuilds := by
  intro s hd hp held
  have run : exec .recallEnd s = .next (endRecall (resetEngine (resetPorts (rebuildFrames s)))) :=
    congrArg Host.Outcome.next (if_pos ((recallAt_iff s _).2 ⟨hd, hp⟩))
  have states := frameState_rebuildFrames s
  have free := mem_freeList_rebuildFrames s
  have sorted := freeList_rebuildFrames_sorted s
  rw [endOfRecall_eq] at run
  generalize rebuildFrames s = u at run states free sorted
  refine ⟨_, run, rfl, fun f hf => ?_, sorted, free⟩
  obtain ⟨committed, retired, free⟩ := recalledFrameState_cases s f
  have state : frameState u f = some (recalledFrameState s f) := (states f).trans (if_pos hf)
  refine ⟨fun h => state.trans ?_, fun h k => state.trans ?_, fun h k => state.trans ?_⟩
  · rw [committed ((mem_committedFrames s f).2 h)]
  · rw [retired (fun hm => h ((mem_committedFrames s f).1 hm)) k]
  · rw [free (fun hm => h ((mem_committedFrames s f).1 hm)) k]

end Sys2Proof.Machine
end


section
/-! Updates that begin and go on: the steps after a pass (O41), the candidates of a power-fail sequence (O46), and the removal of the head request (O40). -/

namespace Sys2Proof.Machine

/-! ### The start of a step, with what it overwrites -/

/-- The start of a step reads neither the engine's state, its request in flight nor its plan but as it is given them. -/
theorem stepBegun_of_engine {s t : State} {req : Request} {plan : Plan} (e : EngineState) (r : Option Request)
    (x : Option Plan)
    (h : stepBegun { s with engine := { s.engine with state := e, inFlight := r, plan := x } } t req plan) :
    stepBegun s t req plan := by
  obtain ⟨step, hs, ht, hc, hx⟩ := h
  refine ⟨step, hs, ht, hc.trans ?_, hx⟩
  cases step <;> rfl

/-- A step in flight keeps its request in flight. -/
theorem startStep_inFlight (s : State) : (startStep s).engine.inFlight = s.engine.inFlight := by
  rw [startStep_eq]

theorem startStep_inPowerFail (s : State) : inPowerFail (startStep s) = inPowerFail s := by
  rw [startStep_eq]
  rfl

/-- A step that has begun is not the end of a sequence (R158). -/
theorem settleSequence_startStep (s : State) (req : Request) (h : s.engine.inFlight = some req) :
    settleSequence (startStep s) = startStep s :=
  settleSequence_self _ (.inr (by rw [startStep_inFlight, h]; exact Option.some_ne_none _))

/-! ### Programs that pass (R82, R153) -/

/-- An update that ends without an outcome, and what the sequence makes of it (R155, R158). -/
theorem settleSequence_abandonUpdate (s : State) (req : Request) (h : s.engine.inFlight = some req) :
    settleSequence (abandonUpdate s) = { s with
      engine := s.engine.ended, device := deviceOnceEnded { s with engine := s.engine.ended }
      volumes := (returnVolume s req.kind).volumes } := by
  rw [abandonUpdate_eq s req h, settleSequence_ended _ rfl]
  refine congrArg (fun d => ({ s with engine := s.engine.ended, device := d, volumes := _ } : State)) ?_
  exact deviceOnceEnded_congr _ _ rfl rfl rfl rfl

/-- What the engine does with the program of a root step that passed: the completion (R92). -/
def rootPassed (t : State) (req : Request) (plan : Plan) : PlanStep → State
  | .root slot seq _ => complete t req plan slot seq
  | .page _ _ _ _ _ | .map _ _ _ _ => t

theorem exec_rootStepPass (s : State) (f : FrameNo) (hp : s.program = some f) (h : isRootSlot f = true) :
    exec .rootStepPass s = .next (afterOutcome (programPasses s f) (rootPassed (programPasses s f))) := by
  simp only [exec, execRootStepPass, hp, h, if_true]
  rfl

/-- The three rows of a pass run the program's end and then the engine, which goes on after a page or map step. -/
theorem exec_pass (i : Instr) (s : State) (f : FrameNo) (hp : s.program = some f)
    (hi : (i = .pageStepPass ∧ isPool f = true) ∨
      (i = .mapStepPass ∧ isPool f = false ∧ isRootSlot f = false) ∨ (i = .rootStepPass ∧ isRootSlot f = true)) :
    ∃ act, exec i s = .next (afterOutcome (programPasses s f) act) ∧
      (i ≠ .rootStepPass → ∀ req plan step, act req plan step = nextStep (programPasses s f)) := by
  rcases hi with ⟨rfl, h⟩ | ⟨rfl, h1, h2⟩ | ⟨rfl, h⟩
  · refine ⟨_, ?_, fun _ _ _ _ => rfl⟩
    simp only [exec, execPageStepPass, hp, h, if_true]
  · refine ⟨_, ?_, fun _ _ _ _ => rfl⟩
    simp only [exec, execMapStepPass, hp, h1, h2, Bool.not_false, Bool.and_self, if_true]
  · exact ⟨rootPassed (programPasses s f), exec_rootStepPass s f hp h, fun h => absurd rfl h⟩

theorem step_of_lt (plan : Plan) (h : plan.current < plan.steps.length) : ∃ step, plan.step = some step :=
  ⟨_, List.getElem?_eq_getElem h⟩

/-- Settles O41: what follows a pass is `afterOutcome`, in its three ways. -/
theorem passedProgramStartsNextStep : Obligations.PassedProgramStartsNextStep := by
  intro i s f hp hi
  obtain ⟨act, run, next⟩ := exec_pass i s f hp hi
  refine ⟨programPasses s f, rfl, programPasses_programmed s f, by rw [cellFrame_programPasses], fun hr => ?_,
    fun req plan hi hr hpl ha hlt => ?_, fun req plan hr hpl ha hlt => ?_⟩
  · rw [run, afterOutcome_idle (programPasses s f) _ hr]
  · obtain ⟨step, hs⟩ := step_of_lt plan (by omega)
    obtain ⟨after, hs'⟩ := step_of_lt { plan with current := plan.current + 1 } hlt
    have goes : afterOutcome (programPasses s f) act = nextStep (programPasses s f) := by
      rw [afterOutcome_acts (programPasses s f) act req plan step hr hpl hs ha, next hi]
      exact settleSequence_startStep _ req hr
    refine ⟨nextStep (programPasses s f), by rw [run, goes], ?_⟩
    refine stepBegun_of_engine s.engine.state (some req) (some { plan with current := plan.current + 1 }) ?_
    have begun := startStep_begun ((programPasses s f).modEngine fun e =>
      { e with plan := e.plan.map fun x => { x with current := x.current + 1 } }) req _ after
      (by rw [State.modEngine_engine]; exact congrArg (Option.map _) hpl) hr hs'
    simp only [State.modEngine, programPasses, hpl, hr, Option.map_some] at begun ⊢
    simp only [nextStep, State.modEngine, hpl, hr, Option.map_some]
    exact begun
  · obtain ⟨step, hs⟩ := step_of_lt plan hlt
    have ends : afterOutcome (programPasses s f) act = settleSequence (abandonUpdate (programPasses s f)) :=
      afterOutcome_abandons (programPasses s f) act req plan step hr hpl hs ha
    rw [settleSequence_abandonUpdate (programPasses s f) req hr] at ends
    refine ⟨_, by rw [run, ends], ?_, rfl⟩
    exact volumesReturned_congr _ _ _ _ _ rfl rfl (volumesReturned_returnVolume (programPasses s f) req.kind)

/-! ### The beginning of an update (R78, R80, R157) -/

/-- A plan reads the volume table and the selected root alone. -/
theorem planSteps_congr {s t : State} (hv : t.volumes = s.volumes) (hx : t.engine.selected = s.engine.selected)
    (hn : t.engine.sequence = s.engine.sequence) (p : Port) (k : RequestKind) : planSteps t p k = planSteps s p k := by
  simp only [planSteps, pageSteps, mapSteps, touches, rootStep, resizeSteps, entryOf, hv, hx, hn] <;> rfl

/-- Every plan has a first step. -/
theorem buildPlan_step (s : State) (p : Port) (k : RequestKind) : ∃ step, (buildPlan s p k).step = some step := by
  refine step_of_lt _ ?_
  change 0 < (planSteps s p k).length
  cases k <;> simp [planSteps]

/-- The update of a request begins with the first step of its plan. -/
theorem beginUpdate_begun (s : State) (req : Request) :
    stepBegun { s with engine := { s.engine with abandon := false } } (beginUpdate s req) req
      (buildPlan s req.port req.kind) := by
  obtain ⟨step, hs⟩ := buildPlan_step s req.port req.kind
  refine stepBegun_of_engine s.engine.state (some req) (some (buildPlan s req.port req.kind)) ?_
  exact startStep_begun _ req _ step rfl rfl hs

theorem settleSequence_beginUpdate (s : State) (req : Request) :
    settleSequence (beginUpdate s req) = beginUpdate s req := settleSequence_startStep _ req rfl

/-! ### The next candidate (R157) -/

/-- What a search in port order finds. -/
theorem find_ascending {n : Nat} {q : Fin n → Bool} {i : Fin n} (hi : q i = true) (hl : ∀ j, j < i → q j = false) :
    (ascending n).find? q = some i := by
  cases h : (ascending n).find? q with
  | none => exact absurd hi (List.find?_eq_none.1 h i (mem_ascending i))
  | some x =>
    obtain ⟨hx, as, bs, e, has⟩ := List.find?_eq_some_iff_append.1 h
    have hm := mem_ascending i
    have sorted := ascending_sorted n
    rw [e] at hm sorted
    rcases List.mem_append.1 hm with hm | hm
    · have := has i hm
      rw [hi] at this
      cases this
    · rcases List.mem_cons.1 hm with rfl | hm
      · rfl
      · have hlt := (List.pairwise_cons.1 (List.pairwise_append.1 sorted).2.1).1 i hm
        rw [hl x hlt] at hx
        cases hx

section
variable {s : State} {b : Nat} {taken skipped : Vector Bool 4}

/-- Whether a queued request stands in the first list of candidates (R157). -/
abbrev inFirstList (s : State) (skipped : Vector Bool 4) (r : Request) : Prop :=
  r.kind = .commit ∧ s.ports[r.port].txn.durable = true ∧ skipped[r.port] = false

/-- Whether a port stands in the second list of candidates (R157). -/
abbrev inSecondList (s : State) (taken skipped : Vector Bool 4) (q : Port) : Prop :=
  s.ports[q].txn.state = .opened ∧ s.ports[q].txn.durable = true ∧ 0 < s.claimCount[q] ∧
    taken[q] = false ∧ skipped[q] = false

theorem nextCandidate_eq (hd : s.device = .powerFail b taken skipped) (hf : s.engine.inFlight = none) :
    nextCandidate s = if s.engine.state = .stopped then none
      else (nextQueued s skipped).or (nextOpen s taken skipped) := by
  unfold nextCandidate engineStopped
  rw [hd, hf]
  simp

theorem nextQueued_eq_none (h : ∀ r ∈ s.engine.queue, ¬ inFirstList s skipped r) : nextQueued s skipped = none := by
  unfold nextQueued
  rw [List.find?_eq_none.2 fun r hr hc => h r hr (of_decide_eq_true hc)]
  rfl

theorem nextQueued_eq_some {pre post : List Request} {r : Request} (hq : s.engine.queue = pre ++ r :: post)
    (hpre : ∀ x ∈ pre, ¬ inFirstList s skipped x) (hr : inFirstList s skipped r) :
    nextQueued s skipped = some (.queued r.port) := by
  have found : (s.engine.queue.find? fun x => decide (inFirstList s skipped x)) = some r :=
    List.find?_eq_some_iff_append.2 ⟨decide_eq_true hr, pre, post, hq, fun x hx => by
      rw [decide_eq_false (hpre x hx)]
      rfl⟩
  unfold nextQueued
  rw [found]
  rfl

theorem nextOpen_eq_some {p : Port} (hp : inSecondList s taken skipped p)
    (hl : ∀ q, q < p → ¬ inSecondList s taken skipped q) : nextOpen s taken skipped = some (.opened p) := by
  unfold nextOpen
  rw [find_ascending (decide_eq_true hp) fun q hq => decide_eq_false (hl q hq)]
  rfl

/-- No candidate is left exactly where both lists are empty, or the engine is STOPPED (R156, R157). -/
theorem nextCandidate_eq_none (hd : s.device = .powerFail b taken skipped) (hf : s.engine.inFlight = none) :
    nextCandidate s = none ↔ s.engine.state = .stopped ∨
      ((∀ r ∈ s.engine.queue, ¬ inFirstList s skipped r) ∧ ∀ q : Port, ¬ inSecondList s taken skipped q) := by
  rw [nextCandidate_eq hd hf]
  by_cases hs : s.engine.state = .stopped
  · simp [hs]
  · have first : nextQueued s skipped = none ↔ ∀ r ∈ s.engine.queue, ¬ inFirstList s skipped r := by
      unfold nextQueued inFirstList
      rw [Option.map_eq_none_iff, List.find?_eq_none]
      simp only [decide_eq_true_eq]
    have second : nextOpen s taken skipped = none ↔ ∀ q : Port, ¬ inSecondList s taken skipped q := by
      unfold nextOpen inSecondList
      rw [Option.map_eq_none_iff, List.find?_eq_none]
      simp only [decide_eq_true_eq, mem_ascending, true_implies]
    rw [if_neg hs, Option.or_eq_none_iff, first, second]
    simp only [hs, false_or]

end

/-! ### Candidates taken and skipped (R157, R158) -/

/-- The steps and the cost of a COMMIT are the same in the state in which it begins. -/
theorem buildPlan_startCommitting (s u : State) (p : Port) (hv : u.volumes = s.volumes)
    (hx : u.engine.selected = s.engine.selected) (hn : u.engine.sequence = s.engine.sequence) :
    buildPlan (startCommitting u p) p .commit = buildPlan s p .commit := by
  unfold buildPlan
  rw [planSteps_congr (t := startCommitting u p) hv hx hn]

/-- What the engine does with the candidate `c`, by its cost (R157, R158). -/
theorem exec_candidate {s : State} {b : Nat} {taken skipped : Vector Bool 4} {c : Candidate}
    (hd : s.device = .powerFail b taken skipped) (hf : s.engine.inFlight = none) (hc : nextCandidate s = some c) :
    (b < commitCost s c.port → exec .durableOnLossCandidate s = .next
      { s with device := deviceOnceEnded { s with device := .powerFail b taken (upd skipped c.port true) } }) ∧
    (commitCost s c.port ≤ b → exec .durableOnLossCandidate s = .next
      (beginUpdate (candidateTaken s (.powerFail (b - commitCost s c.port) (upd taken c.port true) skipped) c)
        ⟨c.port, .commit⟩)) := by
  have considered : considerCandidate s c = if commitCost s c.port ≤ b
      then takeCandidate s b taken skipped c (commitCost s c.port) else skipCandidate s b taken skipped c.port := by
    unfold considerCandidate
    simp only [hd, commit_programCount]
  have run : exec .durableOnLossCandidate s = .next (settleSequence (considerCandidate s c)) := by
    simp only [exec, execDurableOnLossCandidate, hc]
  rw [run, considered]
  constructor
  · intro h
    rw [if_neg (by omega)]
    exact congrArg Host.Outcome.next (settleSequence_ended _ hf)
  · intro h
    rw [if_pos h]
    cases c <;> exact congrArg Host.Outcome.next (settleSequence_beginUpdate _ _)

/-- The state in which the engine begins the COMMIT of a candidate that it takes, with the queue that is left. -/
theorem candidateTaken_eq (s : State) (d : Device) (c : Candidate) : candidateTaken s d c = { s with
    device := d
    engine := { s.engine with queue := (candidateTaken s d c).engine.queue }
    ports := upd s.ports c.port { s.ports[c.port] with
      txn := { s.ports[c.port].txn with state := .committing, running := false } } } := by
  cases c <;> rfl

/-- Settles O46: the conditions of the two lists name the candidate, whose cost decides. -/
theorem candidateTakenOrSkipped : Obligations.CandidateTakenOrSkipped := by
  refine ⟨fun s b taken skipped p queue hd hf hs h => ?_, fun s b taken skipped hd hf =>
    nextCandidate_eq_none hd hf⟩
  have found : ∃ c : Candidate, c.port = p ∧ nextCandidate s = some c ∧
      ∀ d, (candidateTaken s d c).engine.queue = queue := by
    rw [nextCandidate_eq hd hf, if_neg hs]
    rcases h with ⟨pre, post, hq, hpre, hp, rfl⟩ | ⟨hn, hp, hl, rfl⟩
    · refine ⟨.queued p, rfl, by rw [nextQueued_eq_some hq hpre hp]; rfl, fun d => ?_⟩
      exact congrArg (fun t : State => t.engine.queue) (withdrawCommit_eq { s with device := d } p)
    · exact ⟨.opened p, rfl, by rw [nextQueued_eq_none hn, nextOpen_eq_some hp hl]; rfl, fun _ => rfl⟩
  obtain ⟨c, rfl, hc, queued⟩ := found
  obtain ⟨skips, takes⟩ := exec_candidate hd hf hc
  by_cases hb : commitCost s c.port ≤ b
  · refine ⟨_, takes hb, fun h => absurd hb (by omega), fun _ => ?_⟩
    have begun := beginUpdate_begun
      (candidateTaken s (.powerFail (b - commitCost s c.port) (upd taken c.port true) skipped) c) ⟨c.port, .commit⟩
    have steps : buildPlan (candidateTaken s (.powerFail (b - commitCost s c.port) (upd taken c.port true) skipped) c)
        c.port .commit = buildPlan s c.port .commit := by
      cases c <;> exact buildPlan_startCommitting s _ _ rfl rfl rfl
    refine ⟨buildPlan s c.port .commit, rfl, commit_programCount s c.port, fun x n hx hn =>
      planSteps_commit s c.port x n hx hn, ?_⟩
    rw [steps] at begun
    generalize beginUpdate _ _ = t at begun ⊢
    rw [candidateTaken_eq, queued] at begun
    exact begun
  · exact ⟨_, skips (by omega), fun _ => rfl, fun h => absurd h hb⟩

/-! ### The steps of a COMMIT (R79, R80, R81) -/

theorem mem_commitPages {s : State} {p : Port} {v : VolumeNo} {g : PageNo} {f : FrameNo}
    (h : (entryOf s v g).claim = some ⟨p, .data f⟩) : .page v g f 0 none ∈ commitPages s p := by
  unfold commitPages
  refine List.mem_flatMap.2 ⟨v, mem_ascending v, List.mem_filterMap.2 ⟨g, mem_ascending g, ?_⟩⟩
  rw [h]
  exact if_pos rfl

theorem mem_commitMaps {s : State} {p : Port} {v : VolumeNo} {r : VolumeRecord} (hr : s.volumes[v] = .present r)
    (h : ∃ (g : PageNo) (k : ClaimKind), r.entries[g].claim = some ⟨p, k⟩) :
    .map v (if r.mapPresent then otherSlot r.slot else 0) (r.generation + 1) false ∈ commitMaps s p := by
  obtain ⟨g, k, hk⟩ := h
  unfold commitMaps
  refine List.mem_filterMap.2 ⟨v, mem_ascending v, ?_⟩
  rw [hr]
  exact if_pos ⟨g, by unfold Entry.claimedBy; rw [claimOf_own hk]; rfl⟩

/-- A plan that is not a COMMIT's: a FORMAT's, a RESIZE's, or the root step alone (R81). -/
theorem planSteps_format (s : State) (p : Port) : planSteps s p .format = [.root .a 1 false] := rfl

theorem rootStep_eq (s : State) {x : RootSlot} {n : Word} (hx : s.engine.selected = some x)
    (hn : s.engine.sequence = some n) : rootStep s = .root x.other (n + 1) false := by
  unfold rootStep
  rw [hx, hn]

theorem planSteps_resize (s : State) (p : Port) (v : VolumeNo) (m : Nat) (r : VolumeRecord)
    (hr : s.volumes[v] = .present r) : planSteps s p (.resize v m) =
      (if m < r.size ∧ r.mapPresent = true then [PlanStep.map v (otherSlot r.slot) (r.generation + 1) false] else []) ++
        [rootStep s] := by
  simp only [planSteps, resizeSteps, hr]
  split
  · next h => simp only [mapStepOf, h.2, if_true]
  · rfl

theorem planSteps_root (s : State) (p : Port) (k : RequestKind) (h1 : k ≠ .commit) (h2 : k ≠ .format)
    (h3 : ∀ v m, k ≠ .resize v m) : planSteps s p k = [rootStep s] := by
  cases k with
  | commit => exact absurd rfl h1
  | format => exact absurd rfl h2
  | resize v m => exact absurd rfl (h3 v m)
  | _ => rfl

/-! ### The removal of the head request (R78) -/

/-- A request whose removal check fails (R78), with its code. -/
theorem removalCheck_fails {s : State} {kind : RequestKind} {code : Code}
    (h : (kind = .format ∧ s.device = .running ∧ code = .alreadyFormatted) ∨
      (∃ v r, kind = .thaw v ∧ s.volumes[v] = .present r ∧
        ((r.status = .opened ∧ code = .badArgument) ∨ (r.status.isChanging = true ∧ code = .volumeChanging))) ∨
      (∃ v, (kind = .pin v ∨ kind = .unpin v ∨ ∃ p x, kind = .setRights v p x) ∧
        Volume.isPresent s.volumes[v] = false ∧ code = .noVolume) ∨
      (∃ p q st, kind = .configPort p q false ∧ s.engine.settings = some st ∧
        (∀ h : Port, h ≠ p → st.mask[h] = false) ∧ code = .badArgument)) :
    removalCheck s kind = some code ∧ kind ≠ .commit ∧ ∀ v, kind.changes v = false ∧ kind.creates v = false := by
  rcases h with ⟨rfl, hd, rfl⟩ | ⟨v, r, rfl, hr, h⟩ | ⟨v, h, hv, rfl⟩ | ⟨p, q, st, rfl, hst, hm, rfl⟩
  · refine ⟨?_, by decide, fun v => ⟨rfl, rfl⟩⟩
    simp [removalCheck, hd]
  · refine ⟨?_, by simp, fun v => ⟨rfl, rfl⟩⟩
    simp only [removalCheck, thawRemovalCheck, hr, Volume.status]
    rcases h with ⟨hs, rfl⟩ | ⟨hs, rfl⟩
    · rw [hs]
      rfl
    · cases hx : r.status with
      | changing op ret => rfl
      | _ => rw [hx] at hs; cases hs
  · rcases h with rfl | rfl | ⟨p, x, rfl⟩ <;>
      exact ⟨if_neg (by simp only [hv, Bool.false_eq_true, not_false_eq_true]), by simp, fun v => ⟨rfl, rfl⟩⟩
  · refine ⟨?_, by simp, fun v => ⟨rfl, rfl⟩⟩
    have empties : wouldEmptyMask s p false = true := by
      by_contra hc
      obtain hk | ⟨h, hne, hh⟩ := (wouldEmptyMask_false_iff s st hst p false).1 (by simpa using hc)
      · cases hk
      · rw [hm h hne] at hh
        cases hh
    exact if_pos empties

/-- A request whose removal check passes (R78). -/
theorem removalCheck_passes {s : State} {kind : RequestKind} (hf : kind = .format → s.device = .unformatted)
    (ht : ∀ v, kind = .thaw v → ∃ r, s.volumes[v] = .present r ∧ r.status = .frozen)
    (hv : ∀ v, (kind = .pin v ∨ kind = .unpin v ∨ ∃ p x, kind = .setRights v p x) →
      Volume.isPresent s.volumes[v] = true)
    (hc : ∀ p q k, kind = .configPort p q k → ∃ st, s.engine.settings = some st ∧
      (k = true ∨ ∃ h : Port, h ≠ p ∧ st.mask[h] = true)) : removalCheck s kind = none := by
  cases kind with
  | format => exact if_pos (hf rfl)
  | thaw v =>
    obtain ⟨r, hr, hs⟩ := ht v rfl
    simp only [removalCheck, thawRemovalCheck, hr, Volume.status, hs]
    rfl
  | setRights v p x => exact if_pos (hv v (.inr (.inr ⟨p, x, rfl⟩)))
  | pin v => exact if_pos (hv v (.inl rfl))
  | unpin v => exact if_pos (hv v (.inr (.inl rfl)))
  | configPort p q k =>
    obtain ⟨st, hst, h⟩ := hc p q k rfl
    have := (wouldEmptyMask_false_iff s st hst p k).2 h
    simp only [removalCheck, this, Bool.false_eq_true, if_false]
  | _ => rfl

/-- The state in which the engine begins a removed request, its port's transaction COMMITTING for a COMMIT. -/
theorem removed_eq (s : State) (req : Request) {rest : List Request} (hq : s.engine.queue = req :: rest) :
    removed s req = { s with
      engine := { s.engine with queue := rest }
      ports := if req.kind = .commit then
          upd s.ports req.port { s.ports[req.port] with
            txn := { s.ports[req.port].txn with state := .committing, running := false } }
        else s.ports } := by
  unfold removed
  split
  · simp only [startCommitting, dropHead, State.modTxn, State.modPort, State.setPort, State.modEngine, hq,
      List.drop_one, List.tail_cons, Txn.stopTimer]
  · simp only [dropHead, State.modEngine, hq, List.drop_one, List.tail_cons]

/-- A removal check reads the device, the volumes and the settings alone. -/
theorem removalCheck_removed (s : State) (req : Request) : removalCheck (removed s req) = removalCheck s := by
  obtain ⟨hd, he, hv, -⟩ := removed_leaves s req
  have hs : (removed s req).engine.settings = s.engine.settings := by rw [he]; rfl
  funext k
  simp only [removalCheck, wouldEmptyMask, hd, hv, hs] <;> rfl

theorem returnVolume_of_not_holds (s : State) (k : RequestKind)
    (h : ∀ v, k.changes v = false ∧ k.creates v = false) : (returnVolume s k).volumes = s.volumes :=
  table_ext fun v => (volumesReturned_returnVolume s k v).1 (h v).1 (h v).2

theorem exec_requestRemoval {s : State} {req : Request} (h : removable s = some req) :
    exec .requestRemoval s = .next (removeRequest s req) := by
  simp only [exec, execRequestRemoval, h]

/-- A request that fails at its removal: the head is gone, and its report is written (R78, R98). -/
theorem removeRequest_fails {s : State} {req : Request} {rest : List Request} {code : Code}
    (hi : s.engine.state = .idle) (hf : s.engine.inFlight = none) (hq : s.engine.queue = req :: rest)
    (hc : removalCheck s req.kind = some code) (hk : req.kind ≠ .commit)
    (hv : ∀ v, req.kind.changes v = false ∧ req.kind.creates v = false) :
    removeRequest s req = { s with
      engine := { s.engine with queue := rest, plan := none, abandon := false }
      ports := upd s.ports req.port { s.ports[req.port] with
        report := some ⟨req.kind.command, code, req.kind.volume, none, none, none⟩
        pending := { s.ports[req.port].pending with update := true } } } := by
  rcases removeRequest_cases s req with ⟨c, h, e⟩ | ⟨h, -⟩ <;> rw [removalCheck_removed, hc] at h <;> cases h
  rw [e, failRequest_eq, returnVolume_of_not_holds _ _ hv, removed_eq s req hq]
  simp only [State.modEngine, PortContext.failed, Engine.rest, hk, if_false, ← hi, ← hf]

/-- Settles O40: the removal check decides between a report and the first step of the plan. -/
theorem requestRemovalStartsUpdate : Obligations.RequestRemovalStartsUpdate := by
  refine ⟨fun s h => ?_, fun s req rest hi hf hq hd => ⟨fun code h => ?_, fun hfmt ht hv hc => ?_⟩⟩
  · have none : removable s = none := by
      unfold removable
      split
      · next hc =>
        obtain ⟨hs, -, hr⟩ := hc
        rcases h with h | h | ⟨h1, h2⟩
        · rw [h]; rfl
        · exact absurd hs h
        · exact ((ready_iff s).1 hr).elim (absurd · h1) (absurd · h2)
      · rfl
    simp only [exec, execRequestRemoval, none]
  all_goals
    have head : removable s = some req := by
      unfold removable
      rw [if_pos ⟨hi, hf, (ready_iff s).2 hd⟩, hq]
      rfl
    rw [exec_requestRemoval head]
  · obtain ⟨hcheck, hk, hh⟩ := removalCheck_fails h
    rw [removeRequest_fails hi hf hq hcheck hk hh]
  · have hcheck := removalCheck_passes hfmt ht hv hc
    have e : removeRequest s req = beginUpdate (removed s req) req := by
      rcases removeRequest_cases s req with ⟨c, h, -⟩ | ⟨-, e⟩
      · rw [removalCheck_removed, hcheck] at h
        cases h
      · exact e
    have steps : planSteps (removed s req) req.port req.kind = planSteps s req.port req.kind := by
      rw [removed_eq s req hq]
      exact planSteps_congr (s := s) rfl rfl rfl req.port req.kind
    have begun := beginUpdate_begun (removed s req) req
    unfold buildPlan at begun
    rw [steps] at begun
    refine ⟨beginUpdate (removed s req) req, ⟨planSteps s req.port req.kind, 0⟩, by rw [e], rfl, ?_, fun hk => ?_,
      fun x n hx hn => ⟨fun hk => ?_, fun v m r hk hr => ?_, fun h1 h2 h3 => ?_⟩⟩
    · generalize beginUpdate (removed s req) req = t at begun ⊢
      rw [removed_eq s req hq] at begun
      exact begun
    · rw [hk, planSteps_format]
    · have whole : planSteps s req.port req.kind = commitSteps s req.port x.other (n + 1) := by
        rw [hk, planSteps_commit s req.port x n hx hn]
      refine ⟨whole, ?_, ?_, fun v g f h => ?_, fun v r hr h => ?_⟩
      · rw [whole]
        exact List.getLast?_concat
      · rw [hk]
        exact commit_programCount s req.port
      · rw [whole]
        exact List.mem_append_left _ (List.mem_append_left _ (mem_commitPages h))
      · rw [whole]
        exact List.mem_append_left _ (List.mem_append_right _ (mem_commitMaps hr h))
    · rw [hk, planSteps_resize s _ v m r hr, rootStep_eq s hx hn]
    · rw [planSteps_root s _ _ h1 h2 h3, rootStep_eq s hx hn]

end Sys2Proof.Machine
end


section
/-! The completion of a COMMIT (O44) and of an administration request (O45). -/

namespace Sys2Proof.Machine

/-! ### Windows that a completion tests (R59, R60) -/

/-- The test of a completion in the statements' words (R59). -/
theorem stales_iff (kind : RequestKind) (q : Port) (b : Binding) : stales kind q b = true ↔ windowGone kind q b := by
  unfold windowGone
  cases kind with
  | delete v =>
    simp only [stales, decide_eq_true_eq]
    refine ⟨fun h => .inl (congrArg _ h.symm), ?_⟩
    rintro (h | ⟨_, h, _⟩ | ⟨h | h, _⟩ | ⟨_, h, _⟩) <;> cases h
    rfl
  | resize v n =>
    simp only [stales, decide_eq_true_eq]
    refine ⟨fun ⟨h, hn⟩ => .inr (.inl ⟨n, congrArg (RequestKind.resize · n) h.symm, hn⟩), ?_⟩
    rintro (h | ⟨_, h, hn⟩ | ⟨h | h, _⟩ | ⟨_, h, _⟩) <;> cases h
    exact ⟨rfl, hn⟩
  | freeze v =>
    simp only [stales, decide_eq_true_eq]
    refine ⟨fun ⟨h, hm⟩ => .inr (.inr (.inl ⟨.inl (congrArg _ h.symm), hm⟩)), ?_⟩
    rintro (h | ⟨_, h, _⟩ | ⟨h | h, hm⟩ | ⟨_, h, _⟩) <;> cases h
    exact ⟨rfl, hm⟩
  | lock v =>
    simp only [stales, decide_eq_true_eq]
    refine ⟨fun ⟨h, hm⟩ => .inr (.inr (.inl ⟨.inr (congrArg _ h.symm), hm⟩)), ?_⟩
    rintro (h | ⟨_, h, _⟩ | ⟨h | h, hm⟩ | ⟨_, h, _⟩) <;> cases h
    exact ⟨rfl, hm⟩
  | setRights v p x =>
    simp only [stales, decide_eq_true_eq]
    refine ⟨fun ⟨hv, hp, hc⟩ => .inr (.inr (.inr ⟨x, by rw [hv, hp], hc⟩)), ?_⟩
    rintro (h | ⟨_, h, _⟩ | ⟨h | h, _⟩ | ⟨_, h, hc⟩) <;> cases h
    exact ⟨rfl, rfl, hc⟩
  | commit | format | create _ _ _ _ | thaw _ | pin _ | unpin _ | configPort _ _ _ | configDevice _ => simp [stales]

theorem stales_false_iff (kind : RequestKind) (q : Port) (b : Binding) :
    stales kind q b = false ↔ ¬ windowGone kind q b := by
  rw [← stales_iff, Bool.not_eq_true]

section
variable (x : PortContext) (kind : RequestKind) (q : Port)

theorem test_window (i : WindowNo) : (x.test kind q).windows[i] = x.windows[i].test kind q := tab_get _ i

theorem test_window_bound (i : WindowNo) {b : Binding} (h : x.windows[i] = .bound b) :
    (x.test kind q).windows[i] = if stales kind q b then .stale b else .bound b := by
  rw [test_window, h]
  rfl

theorem test_window_other (i : WindowNo) (h : ∀ b, x.windows[i] ≠ .bound b) :
    (x.test kind q).windows[i] = x.windows[i] := by
  rw [test_window]
  cases hw : x.windows[i] with
  | bound b => exact absurd hw (h b)
  | stale b => rfl
  | unbound => rfl

/-- The test raises WINDOW exactly where it makes a window STALE (R60). -/
theorem test_pending : (x.test kind q).pending = { x.pending with window := (x.test kind q).pending.window } := by
  unfold PortContext.test
  split <;> rfl

theorem test_pending_stales (i : WindowNo) {b : Binding} (h : x.windows[i] = .bound b) (hb : stales kind q b = true) :
    (x.test kind q).pending.window = true := by
  have any : (ascending 4).any (fun i => x.windows[i].isStaled kind q) = true := by
    refine List.any_eq_true.2 ⟨i, mem_ascending i, ?_⟩
    rw [h]
    exact hb
  unfold PortContext.test
  rw [if_pos any]
  rfl

theorem test_pending_kept (h : ∀ i : WindowNo, ∀ b, x.windows[i] = .bound b → stales kind q b = false) :
    (x.test kind q).pending = x.pending := by
  have none : ¬ (ascending 4).any (fun i => x.windows[i].isStaled kind q) = true := by
    rw [List.any_eq_true]
    rintro ⟨i, -, hi⟩
    cases hw : x.windows[i] with
    | bound b =>
      rw [hw] at hi
      rw [show Window.isStaled (.bound b) kind q = stales kind q b from rfl, h i b hw] at hi
      cases hi
    | stale b => rw [hw] at hi; cases hi
    | unbound => rw [hw] at hi; cases hi
  unfold PortContext.test
  rw [if_neg none]

/-- A request that names no volume's windows leaves the port as it is. -/
theorem test_kept (h : ∀ i : WindowNo, ∀ b, x.windows[i] = .bound b → stales kind q b = false) : x.test kind q = x := by
  have pending := test_pending_kept x kind q h
  have windows : (x.test kind q).windows = x.windows := by
    refine table_ext fun i => ?_
    cases hw : x.windows[i] with
    | bound b => rw [test_window_bound x kind q i hw, h i b hw]; rfl
    | stale b => rw [test_window_other x kind q i (by simp [hw]), hw]
    | unbound => rw [test_window_other x kind q i (by simp [hw]), hw]
  have whole : x.test kind q = { x with windows := (x.test kind q).windows, pending := (x.test kind q).pending } := rfl
  rw [whole, windows, pending]

end

/-! ### The completion as one change of the state (R92) -/

/-- The ports after the effects and the test of a completion. -/
def testedPorts (s : State) (kind : RequestKind) : Vector PortContext 4 := tab fun q => s.ports[q].test kind q

theorem complete_eq (s : State) (req : Request) (plan : Plan) (slot : RootSlot) (seq : Word) :
    complete s req plan slot seq =
      let a := applyEffects (rooted s slot seq) req plan
      let x := testedPorts a req.kind
      { a with
        ports := upd x req.port { x[req.port] with
          report := some ⟨req.kind.command, .ok, req.kind.volume, some plan.generations, some seq, none⟩
          pending := { x[req.port].pending with update := true } }
        engine := a.engine.ended } := by
  simp only [complete, writeReport, raise, State.modPort, State.setPort, makeStale, State.modPorts, upd_upd_self,
    upd_get_self, okReport, Causes.add, State.modEngine, testedPorts, rooted]
  rfl

/-- The row of a root step that passed, for an update that is not marked: the completion, and the end of the
sequence where none of it is left (R92, R158). -/
theorem exec_completes {s : State} {req : Request} {plan : Plan} {slot : RootSlot} {seq : Word} {used : Bool}
    (hp : s.program = some slot.frame) (hr : s.engine.inFlight = some req) (hpl : s.engine.plan = some plan)
    (ha : s.engine.abandon = false) (hs : plan.step = some (.root slot seq used)) :
    exec .rootStepPass s = .next { complete (programPasses s slot.frame) req plan slot seq with
      device := deviceOnceEnded (complete (programPasses s slot.frame) req plan slot seq) } := by
  have ended : (complete (programPasses s slot.frame) req plan slot seq).engine.inFlight = none := by
    rw [complete_engine]
    rfl
  rw [exec_rootStepPass s slot.frame hp (by cases slot <;> rfl),
    afterOutcome_acts (programPasses s slot.frame) _ req plan _ hr hpl hs ha]
  exact congrArg Host.Outcome.next (settleSequence_ended _ ended)

/-- In a power-fail sequence the device takes no commands once an update has ended (R155, R158). -/
theorem deviceOnceEnded_not_ready {s t : State} (h : inPowerFail s = true) (hd : t.device = deviceOnceEnded s) :
    ready t = false := by
  have hs : ready s = false := by
    rw [ready_eq, h]
    simp
  unfold deviceOnceEnded at hd
  split at hd
  · simp [ready, hd]
  · rw [ready_congr hd, hs]

/-! ### The completion of a COMMIT (R36, R93) -/

theorem completeCommit_eq (s : State) (p : Port) (plan : Plan) : completeCommit s p plan = { s with
    volumes := tab fun v => Volume.commit s.volumes[v] p plan v
    frameStates := (completeCommit s p plan).frameStates
    freeList := s.freeList ++ replacedFrames s p
    claimCount := upd s.claimCount p 0
    ports := upd s.ports p { s.ports[p] with txn := { s.ports[p].txn with state := .noTxn } } } := by
  unfold completeCommit freeFrames
  rw [setFrames_eq, setFrames_eq s]
  rfl

theorem frameState_completeCommit (s : State) (p : Port) (plan : Plan) (f : FrameNo) :
    frameState (completeCommit s p plan) f = if f ∈ replacedFrames s p ∧ isPool f = true then some .free
      else if f ∈ shadowsOf s p ∧ isPool f = true then some .committed else frameState s f := by
  have hs : (completeCommit s p plan).frameStates =
      (setFrames (setFrames s (shadowsOf s p) .committed) (replacedFrames s p) .free).frameStates := rfl
  rw [frameState_congr _ _ hs, frameState_setFrames, frameState_setFrames]

/-- All that the completion of a COMMIT does (R92, R93, R99). -/
theorem complete_commit_eq (s : State) (p : Port) (plan : Plan) (slot : RootSlot) (seq : Word) :
    complete s ⟨p, .commit⟩ plan slot seq = { s with
      volumes := tab fun v => Volume.commit s.volumes[v] p plan v
      frameStates := (completeCommit (rooted s slot seq) p plan).frameStates
      freeList := s.freeList ++ replacedFrames s p
      claimCount := upd s.claimCount p 0
      engine := { s.engine.ended with selected := some slot, sequence := some seq }
      ports := upd s.ports p { s.ports[p] with
        txn := { s.ports[p].txn with state := .noTxn }
        report := some ⟨.commit, .ok, none, some plan.generations, some seq, none⟩
        pending := { s.ports[p].pending with update := true } } } := by
  have untested : ∀ t : State, testedPorts t .commit = t.ports := fun t =>
    table_ext fun q => (tab_get _ q).trans (test_kept _ _ _ fun _ _ _ => rfl)
  rw [complete_eq]
  simp only [untested]
  rw [show applyEffects (rooted s slot seq) ⟨p, .commit⟩ plan = completeCommit (rooted s slot seq) p plan from rfl,
    completeCommit_eq]
  simp only [rooted, State.modEngine, upd_upd_self, upd_get_self, Engine.ended, RequestKind.command, RequestKind.volume]
  rfl

/-- An entry after the completion of a COMMIT, by its claim (R93). -/
theorem commit_data {e : Entry} {p : Port} {f : FrameNo} (check : Half) (h : e.claim = some ⟨p, .data f⟩) :
    e.commit p check = ⟨some ⟨f, check, false⟩, none⟩ := by
  rw [Entry.commit, claimOf_own h]

theorem commit_hole {e : Entry} {p : Port} (check : Half) (h : e.claim = some ⟨p, .hole⟩) : e.commit p check = .hole := by
  rw [Entry.commit, claimOf_own h]
  rfl

theorem commit_unclaimed {e : Entry} {p : Port} (check : Half) (h : ∀ k, e.claim ≠ some ⟨p, k⟩) : e.commit p check = e := by
  rw [Entry.commit, claimOf_eq_none h]

/-- A record with a map step's slot and generation keeps every other field (R93, R95). -/
theorem withMap_fields (r : VolumeRecord) (m : Option (MapSlot × Word)) :
    (r.withMap m).size = r.size ∧ (r.withMap m).rights = r.rights ∧ (r.withMap m).pinned = r.pinned ∧
    (r.withMap m).committedPages = r.committedPages ∧ (r.withMap m).entries = r.entries ∧
    (r.withMap m).status = r.status ∧
    (m = none → (r.withMap m).mapPresent = r.mapPresent ∧ (r.withMap m).slot = r.slot ∧
      (r.withMap m).generation = r.generation) ∧
    ∀ x gen, m = some (x, gen) →
      (r.withMap m).mapPresent = true ∧ (r.withMap m).slot = x ∧ (r.withMap m).generation = gen := by
  cases m with
  | none => exact ⟨rfl, rfl, rfl, rfl, rfl, rfl, fun _ => ⟨rfl, rfl, rfl⟩, fun _ _ h => by cases h⟩
  | some y => exact ⟨rfl, rfl, rfl, rfl, rfl, rfl, fun h => (by cases h), fun _ _ h => (by cases h; exact ⟨rfl, rfl, rfl⟩)⟩

/-- The frames that a COMMIT replaces: those of the committed pages that its port claims (R10). -/
theorem mem_replacedFrames (s : State) (p : Port) (f : FrameNo) : f ∈ replacedFrames s p ↔
    ∃ v g k c, (entryOf s v g).claim = some ⟨p, k⟩ ∧ (entryOf s v g).committed = some c ∧ c.frame = f := by
  unfold replacedFrames
  rw [List.mem_filterMap]
  constructor
  · rintro ⟨x, -, hx⟩
    unfold Entry.replaced at hx
    split at hx
    · next hc =>
      obtain ⟨c, hcm, hf⟩ := (frame_eq_some _ f).1 hx
      obtain ⟨k, hk⟩ := Option.isSome_iff_exists.1 hc
      exact ⟨x.1, x.2, k, c, claim_of_claimOf hk, hcm, hf⟩
    · cases hx
  · rintro ⟨v, g, k, c, hk, hc, hf⟩
    refine ⟨(v, g), mem_allPages _, ?_⟩
    unfold Entry.replaced Entry.claimedBy
    rw [claimOf_own hk]
    exact (frame_eq_some _ f).2 ⟨c, hc, hf⟩

theorem mem_shadowsOf_iff (s : State) (p : Port) (f : FrameNo) :
    f ∈ shadowsOf s p ↔ ∃ v g, (entryOf s v g).claim = some ⟨p, .data f⟩ := by
  rw [mem_shadowsOf]
  constructor
  · rintro ⟨v, g, h⟩
    unfold Entry.shadowOf at h
    split at h
    · next k hk =>
      cases h
      exact ⟨v, g, claim_of_claimOf hk⟩
    · cases h
  · rintro ⟨v, g, h⟩
    exact ⟨v, g, shadowOf_own h⟩

/-- The frames after the completion of a COMMIT (R93). -/
theorem frameState_complete_commit (s : State) (p : Port) (plan : Plan) (slot : RootSlot) (seq : Word) (f : FrameNo) :
    frameState (complete s ⟨p, .commit⟩ plan slot seq) f = if f ∈ replacedFrames s p ∧ isPool f = true then some .free
      else if f ∈ shadowsOf s p ∧ isPool f = true then some .committed else frameState s f := by
  rw [complete_commit_eq]
  exact frameState_completeCommit (rooted s slot seq) p plan f

/-- A volume after the completion of a COMMIT (R93). -/
theorem commit_absent (x : Volume) (p : Port) (plan : Plan) (v : VolumeNo) (h : x.isPresent = false) :
    x.commit p plan v = x := by
  cases x with
  | present r => cases h
  | absent => rfl
  | creating _ _ _ => rfl

/-- Settles O44: the whole state is `complete_commit_eq`; the frames and the volumes follow from it. -/
theorem commitCompletion : Obligations.CommitCompletion := by
  intro s p plan slot seq used hp hr hpl ha hs replaced released
  have run := exec_completes hp hr hpl ha hs
  have whole := complete_commit_eq (programPasses s slot.frame) p plan slot seq
  have frames := frameState_complete_commit (programPasses s slot.frame) p plan slot seq
  have cells := programPasses_programmed s slot.frame
  have hrel : replacedFrames (programPasses s slot.frame) p = released := replacedFrames_eq s p
  have mem : ∀ f, f ∈ released ↔ replaced f := fun f => hrel ▸ mem_replacedFrames s p f
  rw [hrel] at whole frames
  generalize complete (programPasses s slot.frame) ⟨p, .commit⟩ plan slot seq = c at run whole frames
  have dev : c.device = s.device := by rw [whole]; rfl
  have volume : ∀ v : VolumeNo, c.volumes[v] = Volume.commit s.volumes[v] p plan v := fun v => by
    rw [whole]
    exact tab_get _ v
  refine ⟨_, run, ?_, deviceOnceEnded_congr _ _ dev rfl rfl rfl, fun hi q => ?_, ?_, mem, fun f hf => ⟨fun h => ?_,
    fun h hc => ?_, fun h hc => ?_⟩, fun v => ⟨fun hv => ?_, fun r hv => ?_⟩⟩
  · rw [whole]
    rfl
  · refine attnLine_notReady _ q (deviceOnceEnded_not_ready (s := c) ?_ rfl)
    unfold inPowerFail at hi ⊢
    rw [dev]
    exact hi
  · unfold programmed cellAt
    rw [whole]
    exact cells
  · exact (frames f).trans (if_pos ⟨(mem f).2 h, hf⟩)
  · have not_free : ¬ (f ∈ released ∧ isPool f = true) := fun hh => h ((mem f).1 hh.1)
    exact (frames f).trans ((if_neg not_free).trans (if_pos ⟨(mem_shadowsOf_iff s p f).2 hc, hf⟩))
  · have not_free : ¬ (f ∈ released ∧ isPool f = true) := fun hh => h ((mem f).1 hh.1)
    have not_shadow : ¬ (f ∈ shadowsOf s p ∧ isPool f = true) := fun hh => by
      obtain ⟨v, g, hvg⟩ := (mem_shadowsOf_iff s p f).1 hh.1
      exact hc v g hvg
    exact (frames f).trans ((if_neg not_free).trans (if_neg not_shadow))
  · exact (volume v).trans (commit_absent _ p plan v hv)
  · obtain ⟨size, rights, pinned, pages, entries, status, unmapped, mapped⟩ :=
      withMap_fields (r.withEntries (tab fun g => r.entries[g].commit p (plan.checkOf v g))) (plan.mapOf v)
    refine ⟨_, (volume v).trans (by rw [hv]; rfl), status, size, rights, pinned, ?_, unmapped, mapped, fun g => ?_⟩
    · rw [pages, entries]
      rfl
    · rw [entries]
      rw [show (r.withEntries (tab fun g => r.entries[g].commit p (plan.checkOf v g))).entries[g] =
        r.entries[g].commit p (plan.checkOf v g) from tab_get _ g]
      exact ⟨fun f h => commit_data _ h, fun h => commit_hole _ h, fun h => commit_unclaimed _ h⟩

/-! ### The effects of an administration request (R94 to R97) -/

theorem freeFrames_eq (s : State) (l : List FrameNo) : freeFrames s l = { s with
    frameStates := (setFrames s l .free).frameStates, freeList := s.freeList ++ l } := by
  unfold freeFrames
  rw [setFrames_eq]

theorem modVolume_eq (s : State) (v : VolumeNo) (f : VolumeRecord → VolumeRecord) :
    s.modVolume v f = { s with volumes := (s.modVolume v f).volumes } := by
  unfold State.modVolume
  split <;> rfl

theorem modVolume_present (s : State) (v : VolumeNo) (f : VolumeRecord → VolumeRecord) {r : VolumeRecord}
    (h : s.volumes[v] = .present r) : (s.modVolume v f).volumes = upd s.volumes v (.present (f r)) := by
  unfold State.modVolume
  rw [h]
  rfl

/-- All that the effects of an administration request change (R94 to R97). -/
theorem applyEffects_eq (s : State) (req : Request) (plan : Plan) (hk : req.kind ≠ .commit) :
    applyEffects s req plan = { s with
      device := if req.kind = .format ∧ s.device = .unformatted then .running else s.device
      volumes := (applyEffects s req plan).volumes
      frameStates := (applyEffects s req plan).frameStates
      freeList := (applyEffects s req plan).freeList
      engine := { s.engine with settings := settingsAfter s.engine.settings req.kind } } := by
  rw [← applyEffects_device s req plan, ← applyEffects_engine s req plan]
  unfold applyEffects
  split
  · next h => exact absurd h hk
  · rfl
  · unfold completeDelete
    rw [freeFrames_eq]
    rfl
  · unfold completeResize
    rw [freeFrames_eq, modVolume_eq]
  · rw [modVolume_eq]
  · rw [modVolume_eq]
  · rw [modVolume_eq]
  · rw [modVolume_eq]
  · rw [modVolume_eq]
  · rw [modVolume_eq]
  · rfl
  · rfl
  · rfl

/-- The frames that only a DELETE and a RESIZE free. -/
theorem applyEffects_frames (s : State) (req : Request) (plan : Plan) (hk : req.kind ≠ .commit)
    (hd : ∀ v, req.kind ≠ .delete v) (hr : ∀ v n, req.kind ≠ .resize v n) :
    (applyEffects s req plan).frameStates = s.frameStates ∧ (applyEffects s req plan).freeList = s.freeList := by
  unfold applyEffects
  split
  · next h => exact absurd h hk
  · exact ⟨rfl, rfl⟩
  · next v h => exact absurd h (hd v)
  · next v n h => exact absurd h (hr v n)
  · rw [modVolume_eq]; exact ⟨rfl, rfl⟩
  · rw [modVolume_eq]; exact ⟨rfl, rfl⟩
  · rw [modVolume_eq]; exact ⟨rfl, rfl⟩
  · rw [modVolume_eq]; exact ⟨rfl, rfl⟩
  · rw [modVolume_eq]; exact ⟨rfl, rfl⟩
  · rw [modVolume_eq]; exact ⟨rfl, rfl⟩
  · exact ⟨rfl, rfl⟩
  · exact ⟨rfl, rfl⟩
  · exact ⟨rfl, rfl⟩

theorem applyEffects_volumes_unnamed (s : State) (req : Request) (plan : Plan) (hk : req.kind ≠ .commit)
    (h : req.kind.volume = none) : (applyEffects s req plan).volumes = s.volumes := by
  obtain ⟨p, kind⟩ := req
  cases kind with
  | commit => exact absurd rfl hk
  | format | configPort _ _ _ | configDevice _ => rfl
  | _ => cases h

/-- The frames that a DELETE or a RESIZE of volume `v` frees, from page `n` on (R10, R94, R95). -/
def freesFrom (s a : State) (v : VolumeNo) (n : Nat) : Prop :=
  a.freeList = s.freeList ++ framesFrom s v n ∧
    ∀ f, isPool f = true → frameState a f = if f ∈ framesFrom s v n then some .free else frameState s f

theorem freesFrom_freeFrames (s : State) (v : VolumeNo) (n : Nat) : freesFrom s (freeFrames s (framesFrom s v n)) v n := by
  refine ⟨by rw [freeFrames_eq], fun f hf => ?_⟩
  have hs : (freeFrames s (framesFrom s v n)).frameStates = (setFrames s (framesFrom s v n) .free).frameStates := rfl
  rw [frameState_congr _ _ hs, frameState_setFrames]
  simp only [hf, and_true]

theorem freesFrom_delete (s : State) (v : VolumeNo) : freesFrom s (completeDelete s v) v 0 :=
  freesFrom_freeFrames s v 0

theorem freesFrom_resize (s : State) (v : VolumeNo) (n : Nat) (plan : Plan) :
    freesFrom s (completeResize s v n plan) v n := by
  unfold completeResize
  rw [modVolume_eq]
  exact freesFrom_freeFrames s v n

theorem completeDelete_volumes (s : State) (v : VolumeNo) : (completeDelete s v).volumes = upd s.volumes v .absent := by
  unfold completeDelete
  rw [freeFrames_eq]
  rfl

/-- The record after a completed RESIZE (R95). -/
def VolumeRecord.resized (r : VolumeRecord) (n : Nat) (m : Option (MapSlot × Word)) : VolumeRecord :=
  VolumeRecord.withMap
    { r.withEntries (tab fun g => if n ≤ g.val then r.entries[g].cut else r.entries[g]) with
      size := n, status := r.status.settled } m

theorem completeResize_volumes (s : State) (v : VolumeNo) (n : Nat) (plan : Plan) {r : VolumeRecord}
    (h : s.volumes[v] = .present r) :
    (completeResize s v n plan).volumes = upd s.volumes v (.present (r.resized n (plan.mapOf v))) := by
  unfold completeResize
  rw [freeFrames_eq]
  exact modVolume_present { s with
    frameStates := (setFrames s (framesFrom s v n) .free).frameStates
    freeList := s.freeList ++ framesFrom s v n } v _ h

theorem resized_fields (r : VolumeRecord) (n : Nat) (m : Option (MapSlot × Word)) :
    (r.resized n m).size = n ∧ (r.resized n m).rights = r.rights ∧ (r.resized n m).pinned = r.pinned ∧
    (∀ op ret, r.status = .changing op ret → (r.resized n m).status = ret.status) ∧
    (r.resized n m).committedPages = countCommitted (r.resized n m).entries ∧
    (∀ g : PageNo, (r.resized n m).entries[g] =
      if n ≤ g.val then { r.entries[g] with committed := none } else r.entries[g]) ∧
    (m = none → (r.resized n m).mapPresent = r.mapPresent ∧ (r.resized n m).slot = r.slot ∧
      (r.resized n m).generation = r.generation) ∧
    ∀ x gen, m = some (x, gen) →
      (r.resized n m).mapPresent = true ∧ (r.resized n m).slot = x ∧ (r.resized n m).generation = gen := by
  obtain ⟨size, rights, pinned, pages, entries, status, unmapped, mapped⟩ := withMap_fields
    { r.withEntries (tab fun g => if n ≤ g.val then r.entries[g].cut else r.entries[g]) with
      size := n, status := r.status.settled } m
  refine ⟨size, rights, pinned, fun op ret h => status.trans ?_, pages.trans ?_, fun g => ?_, unmapped, mapped⟩
  · rw [h]
    rfl
  · unfold VolumeRecord.resized
    rw [entries]
    rfl
  · unfold VolumeRecord.resized
    rw [entries]
    exact tab_get _ g

/-! ### The completion of an administration request (R92) -/

/-- All that the completion of an administration request changes. -/
theorem complete_admin_eq (s : State) (req : Request) (plan : Plan) (slot : RootSlot) (seq : Word)
    (hk : req.kind ≠ .commit) :
    complete s req plan slot seq = { s with
      device := if req.kind = .format ∧ s.device = .unformatted then .running else s.device
      volumes := (applyEffects (rooted s slot seq) req plan).volumes
      frameStates := (applyEffects (rooted s slot seq) req plan).frameStates
      freeList := (applyEffects (rooted s slot seq) req plan).freeList
      ports := (complete s req plan slot seq).ports
      engine := { s.engine.ended with
        selected := some slot, sequence := some seq, settings := settingsAfter s.engine.settings req.kind } } := by
  rw [complete_eq]
  simp only
  rw [applyEffects_eq _ _ _ hk]
  rfl

/-- A port after the completion of an administration request: its windows are tested, and the requesting port has its
report (R59, R60, R99). -/
theorem complete_admin_port (s : State) (req : Request) (plan : Plan) (slot : RootSlot) (seq : Word)
    (hk : req.kind ≠ .commit) (q : Port) :
    (complete s req plan slot seq).ports[q] = { s.ports[q] with
      windows := (s.ports[q].test req.kind q).windows
      report := if q = req.port then
          some ⟨req.kind.command, .ok, req.kind.volume, some plan.generations, some seq, none⟩
        else s.ports[q].report
      pending := { s.ports[q].pending with
        update := s.ports[q].pending.update || decide (q = req.port)
        window := (s.ports[q].test req.kind q).pending.window } } := by
  have ports : (applyEffects (rooted s slot seq) req plan).ports = s.ports := by
    rw [applyEffects_ports, if_neg hk]
    rfl
  have tested : (testedPorts (applyEffects (rooted s slot seq) req plan) req.kind)[q] =
      { s.ports[q] with
        windows := (s.ports[q].test req.kind q).windows
        pending := { s.ports[q].pending with window := (s.ports[q].test req.kind q).pending.window } } := by
    unfold testedPorts
    rw [tab_get, ports, ← test_pending]
    rfl
  rw [complete_eq]
  simp only
  rw [upd_get]
  by_cases hq : q = req.port
  · subst hq
    rw [if_pos rfl, tested]
    simp only [if_true, decide_true, Bool.or_true]
  · rw [if_neg (Ne.symm hq), tested]
    simp only [hq, if_false, decide_false, Bool.or_false]

/-- The windows and the WINDOW cause of a tested port, in the statements' words (R59, R60). -/
theorem tested_windows (x : PortContext) (kind : RequestKind) (q : Port) :
    (∀ (i : WindowNo) (b : Binding), x.windows[i] = .bound b →
      (windowGone kind q b → (x.test kind q).windows[i] = .stale b ∧ (x.test kind q).pending.window = true) ∧
      (¬ windowGone kind q b → (x.test kind q).windows[i] = .bound b)) ∧
    (∀ i : WindowNo, (∀ b, x.windows[i] ≠ .bound b) → (x.test kind q).windows[i] = x.windows[i]) ∧
    ((∀ (i : WindowNo) (b : Binding), x.windows[i] = .bound b → ¬ windowGone kind q b) →
      (x.test kind q).pending.window = x.pending.window) := by
  refine ⟨fun i b h => ⟨fun hg => ⟨?_, ?_⟩, fun hg => ?_⟩, fun i h => test_window_other x kind q i h, fun h => ?_⟩
  · rw [test_window_bound x kind q i h, if_pos ((stales_iff kind q b).2 hg)]
  · exact test_pending_stales x kind q i h ((stales_iff kind q b).2 hg)
  · rw [test_window_bound x kind q i h, (stales_false_iff kind q b).2 hg]
    rfl
  · rw [test_pending_kept x kind q fun i b hb => (stales_false_iff kind q b).2 (h i b hb)]

theorem settingsAfter_kept (st : Option Settings) (kind : RequestKind) (hp : ∀ p x k, kind ≠ .configPort p x k)
    (hd : ∀ n, kind ≠ .configDevice n) (hf : kind ≠ .format) : settingsAfter st kind = st := by
  cases kind with
  | format => exact absurd rfl hf
  | configPort p x k => exact absurd rfl (hp p x k)
  | configDevice n => exact absurd rfl (hd n)
  | _ => rfl

/-- What an administration request that names the present volume `v` makes of it, and the frames it frees (R95 to
R97). -/
def EffectOnVolume (s a : State) (kind : RequestKind) (m : Option (MapSlot × Word)) (v : VolumeNo)
    (r : VolumeRecord) : Prop :=
  (∀ n, kind = .resize v n → freesFrom s a v n ∧ a.volumes = upd s.volumes v (.present (r.resized n m))) ∧
  (kind = .freeze v → a.volumes = upd s.volumes v (.present { r with status := .frozen })) ∧
  (kind = .lock v → a.volumes = upd s.volumes v (.present { r with status := .lockedFrozen })) ∧
  (kind = .thaw v → r.status = .frozen → a.volumes = upd s.volumes v (.present { r with status := .opened })) ∧
  (∀ op ret, kind = .thaw v → r.status = .changing op ret →
    a.volumes = upd s.volumes v (.present { r with status := .changing op .opened })) ∧
  (∀ p x, kind = .setRights v p x →
    a.volumes = upd s.volumes v (.present { r with rights := upd r.rights p x })) ∧
  (kind = .pin v → a.volumes = upd s.volumes v (.present { r with pinned := true })) ∧
  (kind = .unpin v → a.volumes = upd s.volumes v (.present { r with pinned := false }))

theorem applyEffects_on_volume (s : State) (p : Port) (kind : RequestKind) (plan : Plan) (v : VolumeNo)
    {r : VolumeRecord} (hx : s.volumes[v] = .present r) :
    EffectOnVolume s (applyEffects s ⟨p, kind⟩ plan) kind (plan.mapOf v) v r := by
  refine ⟨fun n hk => ?_, fun hk => ?_, fun hk => ?_, fun hk hst => ?_, fun op ret hk hst => ?_, fun q x hk => ?_,
    fun hk => ?_, fun hk => ?_⟩ <;> subst hk
  case refine_1 => exact ⟨freesFrom_resize s v n plan, completeResize_volumes s v n plan hx⟩
  case refine_4 =>
    refine (modVolume_present s v _ hx).trans ?_
    rw [hst]
    rfl
  case refine_5 =>
    refine (modVolume_present s v _ hx).trans ?_
    rw [hst]
    rfl
  all_goals exact modVolume_present s v _ hx

/-- The settings after an administration request, kind by kind (R97). -/
theorem settingsAfter_cases (old : Option Settings) (kind : RequestKind) :
    ((∀ p x k, kind ≠ .configPort p x k) → (∀ n, kind ≠ .configDevice n) → kind ≠ .format →
      settingsAfter old kind = old) ∧
    (∀ p x k st, kind = .configPort p x k → old = some st →
      settingsAfter old kind = some { st with mask := upd st.mask p k, quotas := upd st.quotas p x }) ∧
    (∀ n st, kind = .configDevice n → old = some st → settingsAfter old kind = some { st with budget := n }) ∧
    (kind = .format →
      settingsAfter old kind = some ⟨Vector.replicate 4 true, Vector.replicate 4 256, 0⟩) := by
  refine ⟨settingsAfter_kept old kind, fun p x k st hk h => ?_, fun n st hk h => ?_, fun hk => ?_⟩
  · subst hk h
    rfl
  · subst hk h
    rfl
  · subst hk
    rfl

/-- Settles O45: the whole state is `complete_admin_eq`; what is left is each kind's effect. -/
theorem administrationCompletion : Obligations.AdministrationCompletion := by
  rintro s ⟨p, kind⟩ plan slot seq used hp hr hk hpl ha hs removed
  have run := exec_completes hp hr hpl ha hs
  have whole := complete_admin_eq (programPasses s slot.frame) ⟨p, kind⟩ plan slot seq hk
  have port := complete_admin_port (programPasses s slot.frame) ⟨p, kind⟩ plan slot seq hk
  have cells := programPasses_programmed s slot.frame
  generalize complete (programPasses s slot.frame) ⟨p, kind⟩ plan slot seq = c at run whole port
  have windows : ∀ q : Port, c.ports[q].windows = (s.ports[q].test kind q).windows := fun q => by
    have h := congrArg PortContext.windows (port q)
    exact h
  have window : ∀ q : Port, c.ports[q].pending.window = (s.ports[q].test kind q).pending.window := fun q => by
    have h := congrArg (fun x : PortContext => x.pending.window) (port q)
    exact h
  have shape : ∀ q : Port, c.ports[q] = { s.ports[q] with
      windows := c.ports[q].windows
      report := if q = p then some ⟨kind.command, .ok, kind.volume, some plan.generations, some seq, none⟩
        else s.ports[q].report
      pending := { s.ports[q].pending with
        update := s.ports[q].pending.update || decide (q = p), window := c.ports[q].pending.window } } := fun q => by
    rw [windows q, window q]
    exact port q
  have volumes : c.volumes = (applyEffects (rooted (programPasses s slot.frame) slot seq) ⟨p, kind⟩ plan).volumes := by
    rw [whole]
  have frames : c.frameStates =
      (applyEffects (rooted (programPasses s slot.frame) slot seq) ⟨p, kind⟩ plan).frameStates := by rw [whole]
  have list : c.freeList = (applyEffects (rooted (programPasses s slot.frame) slot seq) ⟨p, kind⟩ plan).freeList := by
    rw [whole]
  have settings : c.engine.settings = settingsAfter s.engine.settings kind := by rw [whole]; rfl
  have device : c.device = if kind = .format ∧ s.device = .unformatted then .running else s.device := by
    rw [whole]
    rfl
  obtain ⟨kept, port_set, device_set, formatted⟩ := settingsAfter_cases s.engine.settings kind
  have sequence : inPowerFail s = true → inPowerFail c = true := fun hi => by
    have hu : ¬ (kind = .format ∧ s.device = .unformatted) := fun hh => by
      unfold inPowerFail at hi
      rw [hh.2] at hi
      cases hi
    rw [if_neg hu] at device
    unfold inPowerFail at hi ⊢
    rw [device]
    exact hi
  refine ⟨_, run, ?_, ?_, fun q => ?_, fun q => ?_, fun h1 h2 h3 => ?_, fun h => ?_, fun hi q => ?_,
    fun q x k st hkk hst => ?_, fun n st hkk hst => ?_, fun hkk => ⟨?_, fun hu => ?_⟩, fun hv => ?_,
    fun hd hz => ?_, fun v n rights k hkk => ?_, fun v hkk => ?_, fun v r hv hx => ?_⟩
  · unfold programmed cellAt
    rw [whole]
    exact cells
  · rw [whole]
    rfl
  · exact shape q
  · have h := tested_windows s.ports[q] kind q
    rw [← windows, ← window] at h
    exact h
  · exact settings.trans (kept h1 h2 h3)
  · have dev : c.device = s.device := device.trans (if_neg fun hh => h.elim (absurd hh.1) (absurd hh.2))
    exact deviceOnceEnded_congr _ _ dev rfl rfl rfl
  · exact attnLine_notReady _ q (deviceOnceEnded_not_ready (sequence hi) rfl)
  · exact settings.trans (port_set q x k st hkk hst)
  · exact settings.trans (device_set n st hkk hst)
  · exact settings.trans (formatted hkk)
  · have dev : c.device = .running := device.trans (if_pos ⟨hkk, hu⟩)
    exact (deviceOnceEnded_outside c (by unfold inPowerFail; rw [dev])).trans dev
  · exact volumes.trans (applyEffects_volumes_unnamed _ ⟨p, kind⟩ plan hk hv)
  · obtain ⟨hf, hl⟩ := applyEffects_frames (rooted (programPasses s slot.frame) slot seq) ⟨p, kind⟩ plan hk hd hz
    exact ⟨frames.trans hf, list.trans hl⟩
  · cases hkk
    exact volumes
  · cases hkk
    rw [whole]
    exact ⟨completeDelete_volumes _ v, freesFrom_delete _ v⟩
  · obtain ⟨resize, others⟩ := applyEffects_on_volume (rooted (programPasses s slot.frame) slot seq) p kind plan v hx
    rw [whole]
    exact ⟨fun n hkk => ⟨(resize n hkk).1.1, (resize n hkk).1.2, _, (resize n hkk).2, resized_fields r n _⟩, others⟩

end Sys2Proof.Machine
end


section
/-! Programs that fail: a page is relocated or its update fails (O42), and a step of the system area is tried again or the engine stops (O43). -/

namespace Sys2Proof.Machine

/-! ### What every end of an update keeps -/

theorem settleSequence_cells (s : State) : (settleSequence s).cells = s.cells := by
  unfold settleSequence
  split <;> rfl

theorem settleSequence_array (s : State) : (settleSequence s).array = s.array := by
  unfold settleSequence
  split <;> rfl

theorem abandonUpdate_memories (s : State) : (abandonUpdate s).cells = s.cells ∧ (abandonUpdate s).array = s.array := by
  cases h : s.engine.inFlight with
  | none => rw [abandonUpdate_idle s h]; exact ⟨rfl, rfl⟩
  | some req => rw [abandonUpdate_eq s req h]; exact ⟨rfl, rfl⟩

theorem failUpdate_cells (s : State) (code : Code) (step : Option FailedStep) :
    (failUpdate s code step).cells = s.cells := by
  cases h : s.engine.inFlight with
  | none => unfold failUpdate; rw [h]
  | some req => rw [failUpdate_eq s req code step h]

theorem relocate_cells (s : State) (req : Request) (plan : Plan) (v : VolumeNo) (g : PageNo) (f : FrameNo) (n : Nat) :
    (relocate s req plan v g f n).cells = s.cells := by
  unfold relocate takeFree
  rw [retire_eq]
  split
  · rfl
  · next new t ht =>
    split at ht
    · cases ht
    · cases ht
      rw [setFrameState_eq, renameShadow_frame]
      rfl

/-- The budget that a further program costs, where the sequence can afford it (R154). -/
theorem spendOne_affordable (s : State)
    (h : inPowerFail s = false ∨ ∃ b taken skipped, s.device = .powerFail (b + 1) taken skipped) :
    ∃ d, spendOne s = some { s with device := d } ∧ (inPowerFail s = false → d = s.device) ∧
      ∀ b taken skipped, s.device = .powerFail (b + 1) taken skipped → d = .powerFail b taken skipped := by
  rcases h with h | ⟨b, taken, skipped, hd⟩
  · refine ⟨s.device, spendOne_outside s h, fun _ => rfl, fun b taken skipped hd => ?_⟩
    unfold inPowerFail at h
    rw [hd] at h
    cases h
  · refine ⟨_, spendOne_succ s b taken skipped hd, fun h => ?_, fun b' taken' skipped' hd' => ?_⟩
    · unfold inPowerFail at h
      rw [hd] at h
      cases h
    · rw [hd] at hd'
      cases hd'
      rfl

/-! ### A page program that fails (R86, R87) -/

/-- What the engine does with the program of a page step that failed. -/
def pageFailed (t : State) (req : Request) (plan : Plan) : PlanStep → State
  | .page v g h n _ => failPage t req plan v g h n
  | .map _ _ _ _ | .root _ _ _ => t

theorem exec_pageStepFail (s : State) (f : FrameNo) (hp : s.program = some f) (h : isPool f = true) :
    exec .pageStepFail s = .next (afterOutcome (programFails s f) (pageFailed (programFails s f))) := by
  simp only [exec, execPageStepFail, hp, h, if_true]
  rfl

section
variable (s : State) (req : Request) (plan : Plan) (v : VolumeNo) (g : PageNo) (f : FrameNo) (n : Nat)

theorem failPage_wearOut (h : 2 ≤ n ∨ 24 ≤ s.engine.retired.length) :
    failPage s req plan v g f n = failUpdate s .wearOut (some (.page v g)) := by
  unfold failPage Config.maxRelocations Config.retiredCapacity
  by_cases hn : 2 ≤ n
  · rw [if_pos hn]
  · rw [if_neg hn, if_pos (h.resolve_left hn)]

theorem failPage_noFrame (hn : n < 2) (hr : s.engine.retired.length < 24) (hf : s.freeList = []) :
    failPage s req plan v g f n = failUpdate s .noFrame (some (.page v g)) := by
  unfold failPage Config.maxRelocations Config.retiredCapacity
  rw [if_neg (Nat.not_le.2 hn), if_neg (Nat.not_le.2 hr), if_pos hf]

theorem failPage_spends (hn : n < 2) (hr : s.engine.retired.length < 24) (hf : s.freeList ≠ []) :
    (∀ t, spendOne s = some t → failPage s req plan v g f n = relocate t req plan v g f n) ∧
    (spendOne s = none → failPage s req plan v g f n = abandonUpdate s) := by
  unfold failPage Config.maxRelocations Config.retiredCapacity
  rw [if_neg (Nat.not_le.2 hn), if_neg (Nat.not_le.2 hr), if_neg hf]
  exact ⟨fun t ht => by rw [ht], fun ht => by rw [ht]⟩

theorem failPage_cells : (failPage s req plan v g f n).cells = s.cells := by
  unfold failPage
  split
  · exact failUpdate_cells s _ _
  · split
    · exact failUpdate_cells s _ _
    · split
      · exact failUpdate_cells s _ _
      · split
        · next t ht =>
          rw [relocate_cells, (spendOne_eq ht).1]
        · exact (abandonUpdate_memories s).1

end

/-- What a relocation makes of the frames, the claim and the ports (R87, R88). -/
structure Relocated (s t : State) (req : Request) (plan : Plan) (v : VolumeNo) (g : PageNo) (f new : FrameNo)
    (rest : List FrameNo) (n : Nat) : Prop where
  engine : t.engine = { s.engine with
    retired := s.engine.retired ++ [f]
    mediaWorn := s.engine.mediaWorn || decide (s.engine.retired.length + 1 = 24)
    state := .frames
    plan := some (plan.setStep (.page v g new (n + 1) (some (pageCheck (arrayFrame s f))))) }
  program : t.program = some new
  freeList : t.freeList = rest
  claimCount : t.claimCount = s.claimCount
  device : t.device = s.device
  retired : frameState t f = some .retired
  shadow : frameState t new = some .shadow
  others : ∀ h, h ≠ f → h ≠ new → frameState t h = frameState s h
  content : arrayFrame t new = arrayFrame s f
  outside : ∀ x, ¬ inFrame new x → arrayAt t x = arrayAt s x
  entry : entryOf t v g = { entryOf s v g with claim := some ⟨req.port, .data new⟩ }
  entries : ∀ w h, (w, h) ≠ (v, g) → entryOf t w h = entryOf s w h
  ports : ∀ p : Port, t.ports[p] = if s.engine.retired.length + 1 = 24 then
    { s.ports[p] with pending := { s.ports[p].pending with device := true } } else s.ports[p]

theorem relocate_relocated {s : State} {req : Request} {v : VolumeNo} {g : PageNo} {f new : FrameNo} (plan : Plan)
    {rest : List FrameNo} (n : Nat) (hl : s.freeList = new :: rest)
    (hc : (entryOf s v g).claim = some ⟨req.port, .data f⟩) (hf : isPool f = true) (hn : isPool new = true)
    (hnew : f ∉ s.freeList) : Relocated s (relocate s req plan v g f n) req plan v g f new rest n := by
  have hne : new ≠ f := fun h => hnew (by rw [hl, h]; exact List.mem_cons_self)
  have whole := relocate_eq s req plan v g f new rest n hl hc
  have content : frameBytes arrayFill (storeFrame arrayFill s.array new (arrayFrame s f)) new = arrayFrame s f := by
    rw [frameBytes_storeFrame arrayFill _ _ _ _ (length_arrayFrame s f), if_pos rfl]
  rw [content] at whole
  generalize relocate s req plan v g f n = t at whole
  have states : ∀ h, frameState t h = if new = h ∧ isPool new = true then some .shadow
      else if f = h ∧ isPool f = true then some .retired else frameState s h := fun h => by
    rw [frameState_congr t ((s.setFrameState f .retired).setFrameState new .shadow) (by rw [whole]) h,
      frameState_setFrameState, frameState_setFrameState]
  have entry : ∀ w h, entryOf t w h = if v = w ∧ g = h
      then { entryOf s v g with claim := some ⟨req.port, .data new⟩ } else entryOf s w h := fun w h => by
    rw [← entryOf_setEntry s v w g h _ (isPresent_of_claim s v g _ hc)]
    have volumes := congrArg State.volumes whole
    exact congrArg (fun x : Vector Volume 16 => Volume.entry x[w] h) volumes
  refine ⟨?_, by rw [whole], by rw [whole], by rw [whole], by rw [whole], ?_, ?_, fun h h1 h2 => ?_, ?_, fun x hx => ?_,
    ?_, fun w h hwh => ?_, fun p => ?_⟩
  · rw [whole]
    simp only
    rw [retire_eq]
  · rw [states, if_neg (fun h => hne h.1), if_pos ⟨rfl, hf⟩]
  · rw [states, if_pos ⟨rfl, hn⟩]
  · rw [states, if_neg (fun h => h2 h.1.symm), if_neg (fun h => h1 h.1.symm)]
  · rw [whole]
    exact content
  · rw [whole]
    exact arrayAt_writeFrame s new (arrayFrame s f) x hx
  · rw [entry, if_pos ⟨rfl, rfl⟩]
  · rw [entry, if_neg (fun h => hwh (by rw [h.1, h.2]))]
  · rw [whole]
    simp only
    rw [retire_eq]
    split
    · exact tab_get _ p
    · rfl

/-- A COMMIT that is abandoned or fails keeps the volume table. -/
theorem returnVolume_commit (s : State) : (returnVolume s .commit).volumes = s.volumes := rfl

/-- The failure of the COMMIT in flight, and the end of the sequence where none of it is left (R98, R158). -/
theorem settleSequence_failUpdate {s : State} {req : Request} (hr : s.engine.inFlight = some req)
    (hk : req.kind = .commit) (code : Code) (step : Option FailedStep) :
    settleSequence (failUpdate s code step) =
      let failed := { s with
        engine := s.engine.ended
        ports := upd s.ports req.port { s.ports[req.port] with
          txn := s.ports[req.port].txn.afterFailure (inPowerFail s)
          report := some ⟨.commit, code, none, none, none, step⟩
          pending := { s.ports[req.port].pending with update := true } } }
      { failed with device := deviceOnceEnded failed } := by
  have whole : failUpdate s code step = { s with
      engine := s.engine.ended
      ports := upd s.ports req.port { s.ports[req.port] with
        txn := s.ports[req.port].txn.afterFailure (inPowerFail s)
        report := some ⟨.commit, code, none, none, none, step⟩
        pending := { s.ports[req.port].pending with update := true } } } := by
    rw [failUpdate_eq s req code step hr, hk, returnVolume_commit]
    simp only [PortContext.failed, if_true]
    rfl
  rw [whole]
  exact settleSequence_ended _ rfl

/-- Settles O42: the checks of R86 in their order, then the budget, then `relocate`. -/
theorem failedPageIsRelocated : Obligations.FailedPageIsRelocated := by
  refine ⟨fun s f hp hf hr => ?_, fun s f req plan v g n c hp hf hr hpl hs hk hc => ?_⟩
  · exact ⟨programFails s f, by rw [exec_pageStepFail s f hp hf, afterOutcome_idle (programFails s f) _ hr],
      programFails_torn s f, rfl⟩
  · obtain ⟨t, run, abandons, acts⟩ : ∃ t, exec .pageStepFail s = .next t ∧
        (s.engine.abandon = true → t = settleSequence (abandonUpdate (programFails s f))) ∧
        (s.engine.abandon = false → t = settleSequence (failPage (programFails s f) req plan v g f n)) := by
      refine ⟨_, exec_pageStepFail s f hp hf, fun ha => ?_, fun ha => ?_⟩
      · exact afterOutcome_abandons (programFails s f) _ req plan _ hr hpl hs ha
      · exact afterOutcome_acts (programFails s f) _ req plan _ hr hpl hs ha
    have cells : t.cells = (programFails s f).cells := by
      cases ha : s.engine.abandon with
      | true => rw [abandons ha, settleSequence_cells, (abandonUpdate_memories _).1]
      | false => rw [acts ha, settleSequence_cells, failPage_cells]
    have abandoned : t = settleSequence (abandonUpdate (programFails s f)) → t = { s with
        cells := t.cells, program := none, draws := s.draws + 1, engine := s.engine.ended
        device := deviceOnceEnded { s with
          cells := t.cells, program := none, draws := s.draws + 1, engine := s.engine.ended } } := fun h => by
      rw [cells, h, settleSequence_abandonUpdate (programFails s f) req hr, hk, returnVolume_commit]
      rfl
    refine ⟨t, run, ?_, fun ha => abandoned (abandons ha), fun code ha h => ?_,
      fun new rest ha hn hw hl hnew hfl hb => ?_, fun taken skipped ha hd hn hw hl => ?_⟩
    · unfold torn cellAt
      rw [cells]
      exact programFails_torn s f
    · have fails : t = settleSequence (failUpdate (programFails s f) code (some (.page v g))) := by
        rw [acts ha]
        rcases h with ⟨h, rfl⟩ | ⟨hn, hw, hl, rfl⟩
        · rw [failPage_wearOut (programFails s f) req plan v g f n h]
        · rw [failPage_noFrame (programFails s f) req plan v g f n hn hw hl]
      rw [cells, fails, settleSequence_failUpdate (s := programFails s f) hr hk]
      rfl
    · have hne : s.freeList ≠ [] := by rw [hl]; exact List.cons_ne_nil _ _
      obtain ⟨d, hspend, outside, inside⟩ := spendOne_affordable (programFails s f) hb
      have moved : t = relocate { programFails s f with device := d } req plan v g f n := by
        rw [acts ha, (failPage_spends (programFails s f) req plan v g f n hn hw hne).1 _ hspend]
        refine settleSequence_self _ (.inr ?_)
        obtain ⟨-, -, -, hin, -⟩ := relocate_leaves { programFails s f with device := d } req plan v g f n
        rw [hin]
        exact hr ▸ Option.some_ne_none req
      obtain ⟨engine, program, freeList, claimCount, device, retired, shadow, others, content, outs, entry, entries,
        ports⟩ := relocate_relocated (s := { programFails s f with device := d }) plan n hl hc hf hnew hfl
      rw [← moved] at engine program freeList claimCount device retired shadow others content outs entry entries ports
      exact ⟨engine, program, freeList, claimCount, retired, shadow, others, content, outs, entry, entries, ports,
        fun hi => device.trans (outside hi), fun b taken skipped hd => device.trans (inside b taken skipped hd)⟩
    · refine abandoned ?_
      rw [acts ha, (failPage_spends (programFails s f) req plan v g f n hn hw hl).2
        (spendOne_zero (programFails s f) taken skipped hd)]

/-! ### A program of the system area that fails (R89, R90) -/

/-- What the engine does with the program of a map or root step that failed. -/
def systemFailed (t : State) (f : FrameNo) (_ : Request) (plan : Plan) (step : PlanStep) : State :=
  match step with
  | .map v slot _ used => failSystem t plan step f used (.mapSlot v slot)
  | .root slot _ used => failSystem t plan step f used (.rootSlot slot)
  | .page _ _ _ _ _ => t

theorem exec_systemAreaProgramFail (s : State) (f : FrameNo) (hp : s.program = some f) (h : isPool f = false) :
    exec .systemAreaProgramFail s = .next (afterOutcome (programFails s f) (systemFailed (programFails s f) f)) := by
  simp only [exec, execSystemAreaProgramFail, hp, h, Bool.false_eq_true, if_false]
  rfl

section
variable (s : State) (plan : Plan) (step : PlanStep) (f : FrameNo) (failed : FailedStep)

theorem failSystem_stops : failSystem s plan step f true failed = enterStopped s failed := rfl

theorem failSystem_retries {t : State} (h : spendOne s = some t) :
    failSystem s plan step f false failed = retryStep t plan step f := by
  unfold failSystem
  rw [h]
  rfl

theorem failSystem_abandons (h : spendOne s = none) : failSystem s plan step f false failed = abandonUpdate s := by
  unfold failSystem
  rw [h]
  rfl

theorem failSystem_memories (used : Bool) {req : Request} (hr : s.engine.inFlight = some req) :
    (failSystem s plan step f used failed).cells = s.cells ∧
      (failSystem s plan step f used failed).array = s.array := by
  cases used with
  | true =>
    rw [failSystem_stops, enterStopped_eq s req failed hr]
    exact ⟨rfl, rfl⟩
  | false =>
    cases h : spendOne s with
    | none =>
      rw [failSystem_abandons s plan step f failed h]
      exact abandonUpdate_memories s
    | some t =>
      rw [failSystem_retries s plan step f failed h, (spendOne_eq h).1]
      exact ⟨rfl, rfl⟩

end

/-- The ports after the failure of several requests of different ports (R98, R99). -/
theorem failRequests_ports (l : List Request) (code : Code) (step : Option FailedStep) (s : State)
    (h : (l.map fun r => r.port).Nodup) :
    (∀ p : Port, p ∉ l.map (fun r => r.port) →
      (l.foldl (fun t r => failRequest t r code step) s).ports[p] = s.ports[p]) ∧
    ∀ r ∈ l, (l.foldl (fun t r => failRequest t r code step) s).ports[r.port] =
      s.ports[r.port].failed (inPowerFail s) r.kind code step := by
  induction l generalizing s with
  | nil => exact ⟨fun _ _ => rfl, fun r hr => by cases hr⟩
  | cons a l ih =>
    obtain ⟨ha, hl⟩ := List.nodup_cons.1 h
    obtain ⟨others, own⟩ := ih (failRequest s a code step) hl
    have ports : ∀ p : Port, (failRequest s a code step).ports[p] =
        if a.port = p then s.ports[a.port].failed (inPowerFail s) a.kind code step else s.ports[p] := fun p => by
      rw [failRequest_eq]
      exact upd_get _ _ _ _
    have sequence : inPowerFail (failRequest s a code step) = inPowerFail s := by
      rw [failRequest_eq]
      rfl
    simp only [List.foldl_cons, List.map_cons, List.mem_cons, not_or]
    refine ⟨fun p hp => ?_, fun r hr => ?_⟩
    · rw [others p hp.2, ports, if_neg (Ne.symm hp.1)]
    · rcases hr with rfl | hr
      · rw [others _ ha, ports, if_pos rfl]
      · have hne : a.port ≠ r.port := fun e => ha (List.mem_map.2 ⟨r, hr, e.symm⟩)
        rw [own r hr, ports, if_neg hne, sequence]

/-- The port context of a failed request once the engine is STOPPED: DEVICE is pending too (R90). -/
def PortContext.stopped (x : PortContext) : PortContext := { x with pending := { x.pending with device := true } }

/-- The ports after the entry into STOPPED: the request in flight fails with its code, the queued ones with
UPDATE_STOPPED, and DEVICE is pending everywhere (R90). -/
theorem enterStopped_ports (s : State) (req : Request) (failed : FailedStep) (hr : s.engine.inFlight = some req)
    (h : (requestPorts s).Nodup) :
    (∀ p : Port, p ∉ requestPorts s → (enterStopped s failed).ports[p] = s.ports[p].stopped) ∧
    (enterStopped s failed).ports[req.port] =
      (s.ports[req.port].failed (inPowerFail s) req.kind .systemAreaFault (some failed)).stopped ∧
    ∀ r ∈ s.engine.queue, (enterStopped s failed).ports[r.port] =
      (s.ports[r.port].failed (inPowerFail s) r.kind .updateStopped none).stopped := by
  have split : requestPorts s = s.engine.queue.map (fun r => r.port) ++ [req.port] := by
    simp [requestPorts, hr]
  rw [split] at h ⊢
  obtain ⟨hq, -, apart⟩ := List.nodup_append.1 h
  have first := failUpdate_eq s req .systemAreaFault (some failed) hr
  have queue : (failUpdate s .systemAreaFault (some failed)).engine.queue = s.engine.queue := by rw [first]; rfl
  have sequence : inPowerFail (failUpdate s .systemAreaFault (some failed)) = inPowerFail s := by rw [first]; rfl
  have ports : ∀ p : Port, (failUpdate s .systemAreaFault (some failed)).ports[p] =
      if req.port = p then s.ports[req.port].failed (inPowerFail s) req.kind .systemAreaFault (some failed)
      else s.ports[p] := fun p => by
    rw [first]
    exact upd_get _ _ _ _
  obtain ⟨others, own⟩ := failRequests_ports s.engine.queue .updateStopped none
    (failUpdate s .systemAreaFault (some failed)) hq
  have stopped : ∀ p : Port, (enterStopped s failed).ports[p] =
      (s.engine.queue.foldl (fun t r => failRequest t r .updateStopped none)
        (failUpdate s .systemAreaFault (some failed))).ports[p].stopped := fun p => by
    unfold enterStopped failQueue raiseAll
    rw [State.modPorts_ports, tab_get, queue]
    rfl
  have not_queued : req.port ∉ s.engine.queue.map fun r => r.port := fun hm => apart _ hm _ List.mem_cons_self rfl
  refine ⟨fun p hp => ?_, ?_, fun r hm => ?_⟩
  · rw [List.mem_append, not_or] at hp
    rw [stopped, others p hp.1, ports, if_neg (fun e => hp.2 (List.mem_singleton.2 e.symm))]
  · rw [stopped, others _ not_queued, ports, if_pos rfl]
  · have hne : req.port ≠ r.port := fun e => not_queued (List.mem_map.2 ⟨r, hm, e.symm⟩)
    rw [stopped, own r hm, ports, if_neg hne, sequence]

/-- A STOPPED engine ends a power-fail sequence (R156, R158). -/
theorem deviceOnceEnded_stopped (s : State) (hf : s.engine.inFlight = none) (hs : s.engine.state = .stopped) :
    deviceOnceEnded s = if inPowerFail s = true then .halted else s.device := by
  by_cases hi : inPowerFail s = true
  · obtain ⟨b, taken, skipped, hd⟩ := device_of_inPowerFail hi
    unfold deviceOnceEnded
    rw [if_pos ⟨hi, (nextCandidate_eq_none hd hf).2 (.inl hs)⟩, if_pos hi]
  · rw [if_neg hi, deviceOnceEnded_outside s (by simpa using hi)]

/-- The volumes that the requests `rs` name return, each as R98 has it: what a CHANGING one held, ABSENT for a
CREATING one; the other volumes are as before. -/
def VolumesReturnedBy (rs : List Request) (s t : State) : Prop :=
  ∀ v : VolumeNo,
    ((∀ r ∈ rs, r.kind.volume ≠ some v) → t.volumes[v] = s.volumes[v]) ∧
    (∀ r ∈ rs, ∀ x op ret,
      (r.kind = .delete v ∨ r.kind = .freeze v ∨ r.kind = .lock v ∨ ∃ n, r.kind = .resize v n) →
      s.volumes[v] = .present x → x.status = .changing op ret →
      t.volumes[v] = .present { x with status := ret.status }) ∧
    ∀ r ∈ rs, ∀ n rights k, (∃ m q b, r.kind = .create v m q b) →
      s.volumes[v] = .creating n rights k → t.volumes[v] = .absent

/-- Requests that name no volume, and the order of the others, do not matter to what returns. -/
theorem VolumesReturnedBy.of_foldl {rs named : List Request} {s t : State}
    (sub : ∀ r ∈ named, r ∈ rs) (all : ∀ r ∈ rs, r.kind.volume ≠ none → r ∈ named)
    (h : ∀ v : VolumeNo, t.volumes[v] = named.foldl (fun x r => returnedBy v x r.kind) s.volumes[v]) :
    VolumesReturnedBy rs s t := by
  refine fun v => ⟨fun hv => ?_, fun r hm x op ret hk hx hst => ?_, fun r hm n rights k hk hx => ?_⟩
  · rw [h]
    exact returnedBy_unnamed _ v _ fun r hr => hv r (sub r hr)
  · rw [h, hx]
    refine returnedBy_returns _ v x op ret hst r (all r hm ?_) hk
    rcases hk with hk | hk | hk | ⟨n, hk⟩ <;> rw [hk] <;> exact Option.some_ne_none v
  · rw [h, hx]
    refine returnedBy_uncreates _ v n rights k r (all r hm ?_) hk
    obtain ⟨m, q, c, hk⟩ := hk
    rw [hk]
    exact Option.some_ne_none v

/-- What a second failure of a system-area step leaves: the engine STOPPED with an empty queue, the requests reported and
their transactions and volumes returned, DEVICE pending everywhere (R90, R98). -/
def StoppedBy (s t : State) (req : Request) (failed : FailedStep) : Prop :=
  t.device = (if inPowerFail s = true then .halted else s.device) ∧ t.program = s.program ∧
  t.claimCount = s.claimCount ∧ t.frameStates = s.frameStates ∧ t.freeList = s.freeList ∧
  t.engine = { s.engine.ended with state := .stopped, queue := [], sysareaFault := true } ∧
  (∀ p : Port, p ∉ requestPorts s → t.ports[p] =
    { s.ports[p] with pending := { s.ports[p].pending with device := true } }) ∧
  (∀ r ∈ s.engine.queue ++ [req], t.ports[r.port] = { s.ports[r.port] with
    txn := if r.kind = .commit then s.ports[r.port].txn.afterFailure (inPowerFail s) else s.ports[r.port].txn
    report := some (if r = req then ⟨r.kind.command, .systemAreaFault, r.kind.volume, none, none, some failed⟩
      else ⟨r.kind.command, .updateStopped, r.kind.volume, none, none, none⟩)
    pending := { s.ports[r.port].pending with update := true, device := true } }) ∧
  VolumesReturnedBy (s.engine.queue ++ [req]) s t

/-- The request in flight is none of the queued ones while no port has two. -/
theorem queued_ne_inFlight {s : State} {req : Request} (hr : s.engine.inFlight = some req)
    (hn : (requestPorts s).Nodup) : ∀ r ∈ s.engine.queue, r ≠ req := fun r hm e => by
  have nodup : ((s.engine.queue.map fun r => r.port) ++ [req.port]).Nodup := by
    simpa [requestPorts, hr] using hn
  exact (List.nodup_append.1 nodup).2.2 _ (List.mem_map_of_mem hm) _ List.mem_cons_self (by rw [e])

theorem enterStopped_stopped (s t : State) (req : Request) (failed : FailedStep)
    (hr : s.engine.inFlight = some req) (hn : (requestPorts s).Nodup)
    (stops : t = settleSequence (enterStopped s failed)) : StoppedBy s t req failed := by
  have whole := enterStopped_eq s req failed hr
  obtain ⟨others, own, queued⟩ := enterStopped_ports s req failed hr hn
  generalize enterStopped s failed = c at whole others own queued stops
  have ended : c.engine.inFlight = none := by rw [whole]; rfl
  rw [settleSequence_ended c ended, deviceOnceEnded_stopped c ended (by rw [whole])] at stops
  have ports : t.ports = c.ports := by rw [stops]
  refine ⟨by rw [stops, whole]; rfl, by rw [stops, whole], by rw [stops, whole], by rw [stops, whole],
    by rw [stops, whole], by rw [stops, whole], fun p hp => ?_, fun r hm => ?_, ?_⟩
  · rw [ports]
    exact others p hp
  · rw [ports]
    rcases List.mem_append.1 hm with hm | hm
    · rw [if_neg (queued_ne_inFlight hr hn r hm)]
      exact queued r hm
    · obtain rfl := List.mem_singleton.1 hm
      rw [if_pos rfl]
      exact own
  · have mem : ∀ r, r ∈ s.engine.queue ++ [req] ↔ r ∈ req :: s.engine.queue := fun r => by
      rw [List.mem_append, List.mem_singleton, List.mem_cons, or_comm]
    refine .of_foldl (named := req :: s.engine.queue) (fun r => (mem r).2) (fun r hm _ => (mem r).1 hm) fun v => ?_
    rw [stops, whole]
    exact returnVolumes_at (req :: s.engine.queue) s v

/-- Settles O43: a failed step of the system area goes through `failSystem`, in its three ways. -/
theorem systemAreaFailure : Obligations.SystemAreaFailure := by
  refine ⟨fun s f hp hf hr => ?_, fun s f req plan step again failed used hp hf hr hpl hs hstep => ?_⟩
  · exact ⟨programFails s f, by rw [exec_systemAreaProgramFail s f hp hf, afterOutcome_idle (programFails s f) _ hr],
      programFails_torn s f, rfl, judgeRoot_programFails s f⟩
  · have retried : step.retried = again ∧ systemFailed (programFails s f) f req plan step =
        failSystem (programFails s f) plan step f used failed := by
      rcases hstep with ⟨v, slot, gen, rfl, rfl, rfl⟩ | ⟨slot, seq, rfl, rfl, rfl⟩ <;> exact ⟨rfl, rfl⟩
    obtain ⟨rfl, act⟩ := retried
    obtain ⟨t, run, abandons, acts⟩ : ∃ t, exec .systemAreaProgramFail s = .next t ∧
        (s.engine.abandon = true → t = settleSequence (abandonUpdate (programFails s f))) ∧
        (s.engine.abandon = false →
          t = settleSequence (failSystem (programFails s f) plan step f used failed)) := by
      refine ⟨_, exec_systemAreaProgramFail s f hp hf, fun ha => ?_, fun ha => ?_⟩
      · exact afterOutcome_abandons (programFails s f) _ req plan _ hr hpl hs ha
      · rw [afterOutcome_acts (programFails s f) _ req plan _ hr hpl hs ha, act]
    have memories : t.cells = (programFails s f).cells ∧ t.array = s.array := by
      cases ha : s.engine.abandon with
      | true =>
        rw [abandons ha, settleSequence_cells, settleSequence_array]
        exact abandonUpdate_memories _
      | false =>
        rw [acts ha, settleSequence_cells, settleSequence_array]
        exact failSystem_memories (programFails s f) plan step f failed used hr
    obtain ⟨cells, array⟩ := memories
    refine ⟨t, run, ?_, array, fun h => ?_, fun h => ?_, fun ha hu hb => ?_, fun ha hu hn => ?_⟩
    · unfold torn cellAt
      rw [cells]
      exact programFails_torn s f
    · unfold cellFrame
      rw [cells]
      exact judgeRoot_programFails s f h
    · have abandoned : t = settleSequence (abandonUpdate (programFails s f)) := by
        cases ha : s.engine.abandon with
        | true => exact abandons ha
        | false =>
          rcases h with h | ⟨rfl, taken, skipped, hd⟩
          · rw [ha] at h
            cases h
          · rw [acts ha, failSystem_abandons (programFails s f) plan step f failed
              (spendOne_zero (programFails s f) taken skipped hd)]
      rw [settleSequence_abandonUpdate (programFails s f) req hr] at abandoned
      refine ⟨?_, ?_⟩
      · rw [abandoned]
        exact volumesReturned_congr _ _ _ _ _ rfl rfl (volumesReturned_returnVolume (programFails s f) req.kind)
      · rw [cells, abandoned]
        rfl
    · subst hu
      obtain ⟨d, hspend, outside, inside⟩ := spendOne_affordable (programFails s f) hb
      have again : t = retryStep { programFails s f with device := d } plan step f := by
        rw [acts ha, failSystem_retries (programFails s f) plan step f failed hspend]
        exact settleSequence_self _ (.inr (by
          change s.engine.inFlight ≠ none
          rw [hr]
          exact Option.some_ne_none req))
      have device : t.device = d := by rw [again]; rfl
      refine ⟨?_, fun hi => device.trans (outside hi), fun b taken skipped hd => device.trans (inside b taken skipped hd)⟩
      rw [cells, device, again]
      simp only [retryStep, State.modEngine, programFails, ← hp]
    · subst hu
      exact enterStopped_stopped (programFails s f) t req failed hr hn (acts ha)

end Sys2Proof.Machine
end


section
/-! The entry into the power-fail sequence (O47), and the rebuild of the volume table (O51). -/

namespace Sys2Proof.Machine

/-! ### The entry into the power-fail sequence (R150 to R153) -/

theorem closeLinks_eq (s : State) : closeLinks s = { s with ports := (closeLinks s).ports } := rfl

/-- The requests that the entry keeps are the COMMITs (R151). -/
theorem filter_commits (l : List Request) :
    (l.filter fun r => !r.isAdmin) = l.filter fun r => decide (r.kind = .commit) :=
  List.filter_congr fun r _ => by simp [Request.isAdmin]

/-- The requests that the entry discards are those that are no COMMIT (R151). -/
theorem mem_discarded {l : List Request} {r : Request} (hr : r ∈ l) (hk : r.kind ≠ .commit) :
    r ∈ l.filter Request.isAdmin :=
  List.mem_filter.2 ⟨hr, by simpa [Request.isAdmin] using hk⟩

theorem discardAdmin_volume (s : State) (v : VolumeNo) : (discardAdmin s).volumes[v] =
    (s.engine.queue.filter Request.isAdmin).foldl (fun x r => returnedBy v x r.kind) s.volumes[v] :=
  returnVolumes_at _ s v

/-- The state in which the entry judges the update in flight: links closed, administration requests discarded. -/
def entered (s : State) : State := judgeInFlight (discardAdmin (closeLinks s)) (budgetAtEntry s)

theorem enterPowerFail_eq (s : State) : enterPowerFail s = settleSequence (entered s) := rfl

theorem entered_eq (s : State) : entered s = { s with
    device := (entered s).device, volumes := (discardAdmin (closeLinks s)).volumes
    ports := (closeLinks s).ports
    engine := { s.engine with
      abandon := (entered s).engine.abandon
      queue := s.engine.queue.filter fun r => decide (r.kind = .commit) } } := by
  rw [← filter_commits]
  have whole := judgeInFlight_eq (discardAdmin (closeLinks s)) (budgetAtEntry s)
  rw [← entered] at whole
  generalize entered s = e at whole
  have discarded := discardAdmin_eq (closeLinks s)
  generalize discardAdmin (closeLinks s) = d at whole discarded
  rw [discarded, closeLinks_eq] at whole
  exact whole

/-- The update in flight at the entry goes on where its unstarted programs fit the budget (R153). -/
theorem entered_inFlight (s : State) {req : Request} {plan : Plan} (hr : s.engine.inFlight = some req)
    (hp : s.engine.plan = some plan) :
    (plan.unstarted ≤ budgetAtEntry s → (entered s).engine.abandon = false ∧
      (entered s).device = .powerFail (budgetAtEntry s - plan.unstarted)
        (if req.kind = .commit then upd (Vector.replicate 4 false) req.port true else Vector.replicate 4 false)
        (Vector.replicate 4 false)) ∧
    (budgetAtEntry s < plan.unstarted → (entered s).engine.abandon = true ∧
      (entered s).device = .powerFail (budgetAtEntry s)
        (if req.kind = .commit then upd (Vector.replicate 4 false) req.port true else Vector.replicate 4 false)
        (Vector.replicate 4 false)) := by
  have hr' : (discardAdmin (closeLinks s)).engine.inFlight = some req := by rw [discardAdmin_eq]; exact hr
  have hp' : (discardAdmin (closeLinks s)).engine.plan = some plan := by rw [discardAdmin_eq]; exact hp
  unfold entered judgeInFlight
  simp only [hr', hp']
  constructor
  · intro h
    rw [if_pos h]
    exact ⟨rfl, rfl⟩
  · intro h
    rw [if_neg (Nat.not_le.2 h)]
    exact ⟨rfl, rfl⟩

theorem entered_idle (s : State) (hr : s.engine.inFlight = none) :
    (entered s).device = .powerFail (budgetAtEntry s) (Vector.replicate 4 false) (Vector.replicate 4 false) := by
  have hr' : (discardAdmin (closeLinks s)).engine.inFlight = none := by rw [discardAdmin_eq]; exact hr
  unfold entered judgeInFlight
  simp only [hr']

/-- Whether a candidate of either list waits at the entry (R157): none was taken or skipped yet. -/
def waitsAtEntry (s : State) : Prop :=
  s.engine.state ≠ .stopped ∧
    ((∃ r ∈ s.engine.queue, r.kind = .commit ∧ s.ports[r.port].txn.durable = true) ∨
      ∃ p : Port, s.ports[p].txn.state = .opened ∧ s.ports[p].txn.durable = true ∧ 0 < s.claimCount[p])

/-- With no update in flight the sequence lasts exactly while a candidate waits (R158). -/
theorem entered_candidate (s : State) (hr : s.engine.inFlight = none) :
    nextCandidate (entered s) = none ↔ ¬ waitsAtEntry s := by
  have none_skipped : ∀ p : Port, (Vector.replicate 4 false)[p] = false := fun p => by simp
  have hf : (entered s).engine.inFlight = none := by rw [entered_eq]; exact hr
  have queue : (entered s).engine.queue = s.engine.queue.filter fun r => decide (r.kind = .commit) := by
    rw [entered_eq]
  have state : (entered s).engine.state = s.engine.state := by rw [entered_eq]
  have claims : (entered s).claimCount = s.claimCount := by rw [entered_eq]
  have ports : ∀ p : Port, (entered s).ports[p].txn.state = s.ports[p].txn.state ∧
      (entered s).ports[p].txn.durable = s.ports[p].txn.durable := fun p => by
    rw [entered_eq, closeLinks_port]
    exact ⟨rfl, rfl⟩
  have first : (∀ r ∈ (entered s).engine.queue, ¬ inFirstList (entered s) (Vector.replicate 4 false) r) ↔
      ¬ ∃ r ∈ s.engine.queue, r.kind = .commit ∧ s.ports[r.port].txn.durable = true := by
    simp only [inFirstList, queue, ports, none_skipped, List.mem_filter, decide_eq_true_eq, and_true, not_exists,
      not_and]
    exact ⟨fun h r hm hk hd => h r ⟨hm, hk⟩ hk hd, fun h r hm hk hd => h r hm.1 hk hd⟩
  have second : (∀ p : Port, ¬ inSecondList (entered s) (Vector.replicate 4 false) (Vector.replicate 4 false) p) ↔
      ¬ ∃ p : Port, s.ports[p].txn.state = .opened ∧ s.ports[p].txn.durable = true ∧ 0 < s.claimCount[p] := by
    simp only [inSecondList, ports, claims, none_skipped, and_true, not_exists]
  rw [nextCandidate_eq_none (entered_idle s hr) hf, state, first, second]
  unfold waitsAtEntry
  rw [not_and_or, not_or, not_not]

theorem settleSequence_eq (s : State) : settleSequence s = { s with device := (settleSequence s).device } := by
  unfold settleSequence
  split <;> rfl

/-- The ports taken at the entry: that of a COMMIT in flight (R153). -/
theorem taken_at_entry (req : Request) (q : Port) :
    (if req.kind = .commit then upd (Vector.replicate 4 false) req.port true else Vector.replicate 4 false)[q] = true ↔
      req.kind = .commit ∧ q = req.port := by
  split
  · next h =>
    rw [upd_get]
    simp [h, eq_comm]
  · next h => simp [h]

/-- The device state after the entry with no update in flight (R158). -/
theorem entered_device (s : State) (hr : s.engine.inFlight = none) :
    (waitsAtEntry s → (settleSequence (entered s)).device =
      .powerFail (budgetAtEntry s) (Vector.replicate 4 false) (Vector.replicate 4 false)) ∧
    (¬ waitsAtEntry s → (settleSequence (entered s)).device = .halted) := by
  have hf : (entered s).engine.inFlight = none := by rw [entered_eq]; exact hr
  rw [settleSequence_ended _ hf]
  constructor
  · intro h
    refine (if_neg fun hc => ?_).trans (entered_idle s hr)
    exact (entered_candidate s hr).1 hc.2 h
  · intro h
    exact if_pos ⟨judgeInFlight_inPowerFail _ _, (entered_candidate s hr).2 h⟩

/-- Settles O47: the entry is `entered` and the end of a sequence with nothing to do. -/
theorem powerFailEntry : Obligations.PowerFailEntry := by
  refine ⟨fun s b hd hb hnone => ?_, fun s x hd => ?_, fun s hd => ?_⟩
  · obtain ⟨u, hu⟩ : ∃ u : State, u = { s with pfail := true } := ⟨_, rfl⟩
    have budget : budgetAtEntry u = b := by
      unfold budgetAtEntry
      rw [hu]
      cases hs : s.engine.settings with
      | none => exact (hnone hs).symm
      | some st => exact (hb st hs).symm
    have run : exec .pfailAsserted s = .next (settleSequence (entered u)) := by
      rw [hu, ← enterPowerFail_eq]
      rcases hd with hd | hd <;> simp only [exec, execPfailAsserted, hd]
    have whole := entered_eq u
    have fields : settleSequence (entered u) = { s with
        pfail := true, device := (settleSequence (entered u)).device, volumes := (entered u).volumes
        ports := (closeLinks s).ports
        engine := { s.engine with
          abandon := (entered u).engine.abandon
          queue := s.engine.queue.filter fun r => decide (r.kind = .commit) } } := by
      have eq := settleSequence_eq (entered u)
      generalize settleSequence (entered u) = t at eq
      rw [eq]
      generalize entered u = e at whole
      rw [whole, hu]
      rfl
    have judged := fun req plan => entered_inFlight u (req := req) (plan := plan)
    have idle := entered_device u
    rw [budget] at judged idle
    have volumes : (settleSequence (entered u)).volumes = (entered u).volumes := by rw [settleSequence_eq]
    have same_engine : u.engine = s.engine := by rw [hu]
    rw [same_engine] at judged idle
    refine ⟨_, run, ?_, fun p => ?_, ?_, fun req plan hr hp => ?_, fun hr => ⟨fun h => ?_, fun h => ?_⟩⟩
    · generalize settleSequence (entered u) = t at fields volumes
      rw [volumes]
      rw [fields]
    · rw [fields]
      exact closeLinks_linkClosed s p
    · refine VolumesReturnedBy.of_foldl (named := s.engine.queue.filter Request.isAdmin)
        (fun r hr => (List.mem_filter.1 hr).1)
        (fun r hm hk => mem_discarded hm fun hc => hk (by rw [hc]; rfl)) fun v => ?_
      rw [volumes, whole, discardAdmin_volume, hu]
      rfl
    · obtain ⟨fits, exceeds⟩ := judged req plan hr hp
      have goes : settleSequence (entered u) = entered u := settleSequence_self _ (.inr (by
        rw [whole, hu]
        exact hr ▸ Option.some_ne_none req))
      rw [goes]
      exact ⟨_, taken_at_entry req, fun h => (fits h).symm, fun h => (exceeds h).symm⟩
    · exact (idle hr).1 (by rw [hu]; exact h)
    · refine (idle hr).2 fun hw => ?_
      rw [hu] at hw
      obtain ⟨hs, hw⟩ := hw
      rcases h with h | ⟨h1, h2⟩
      · exact hs h
      · rcases hw with ⟨r, hm, hk, hd⟩ | ⟨p, ho, hd, hc⟩
        · exact absurd hd (by rw [h1 r hm hk]; simp)
        · exact absurd hc (by rw [h2 p ho hd]; simp)
  · simp only [exec, execPfailAsserted, hd]
  · rcases hd with hd | hd
    · simp only [exec, execPfailAsserted, hd]
    · obtain ⟨b, taken, skipped, hd⟩ := device_of_inPowerFail hd
      simp only [exec, execPfailAsserted, hd]

/-! ### The rebuild of one volume (R108, R112) -/

/-- How an image is judged: its bytes, volume, generation and size, the retired frames and those accepted before. -/
abbrev ImageJudge := List Byte → VolumeNo → Word → Nat → List FrameNo → List FrameNo → Option (Vector ImageEntry 64)

/-- What the rebuild of volume `v` from the durable record `d` makes of it, its image being read from the cells of `s`
and judged by `judge`. -/
def RebuiltFrom (judge : ImageJudge) (s : State) (retired accepted : List FrameNo) (v : VolumeNo) (d : Durable)
    (y : Volume) : Prop :=
  (d = .absent → y = .absent) ∧
  (∀ st n rights k m gen, d = .kept st n rights k false m gen →
    y = .present ⟨st.status, n, rights, k, false, m, gen, 0, Vector.replicate 64 ⟨none, none⟩⟩) ∧
  ∀ st n rights k m gen, d = .kept st n rights k true m gen →
    (judge (cellFrame s (mapFrame v m)) v gen n retired accepted = none →
      y = .present ⟨.damaged st, n, rights, k, true, m, gen, 0, Vector.replicate 64 ⟨none, none⟩⟩) ∧
    ∀ es, judge (cellFrame s (mapFrame v m)) v gen n retired accepted = some es →
      ∃ entries : Vector Entry 64,
        y = .present ⟨st.status, n, rights, k, true, m, gen, countCommitted entries, entries⟩ ∧
        ∀ g : PageNo, entries[g] = ⟨(es[g]).map fun (x : FrameNo × Half) => ⟨x.1, x.2, false⟩, none⟩

/-- The committed frames of a volume, in page order. -/
def Volume.frames (x : Volume) : List FrameNo := (ascending 64).filterMap fun g => (x.entry g).frame

theorem countCommitted_holes : countCommitted (Vector.replicate 64 Entry.hole) = 0 := by
  unfold countCommitted
  refine List.countP_eq_zero.2 fun g _ => ?_
  rw [show (Vector.replicate 64 Entry.hole)[g] = Entry.hole from Vector.getElem_replicate _]
  exact Bool.false_ne_true

/-- A record without committed pages. -/
theorem recalledRecord_holes (st : Status) (n : Nat) (rights : Vector Right 4) (k m : Bool) (slot : MapSlot)
    (gen : Word) : recalledRecord st n rights k m slot gen (Vector.replicate 64 .hole) =
      ⟨st, n, rights, k, m, slot, gen, 0, Vector.replicate 64 ⟨none, none⟩⟩ := by
  unfold recalledRecord
  rw [countCommitted_holes]
  rfl

theorem frames_of_holes {x : Volume} (h : ∀ g, x.entry g = .hole) : x.frames = [] :=
  List.filterMap_eq_nil_iff.2 fun g _ => by rw [h g]; rfl

theorem frames_of_image {x : Volume} {es : Vector ImageEntry 64} (h : ∀ g : PageNo, x.entry g = recalledEntry es[g]) :
    x.frames = imageFrames es :=
  List.filterMap_congr fun g _ => by
    rw [h g]
    unfold recalledEntry Entry.frame
    cases es[g] <;> rfl

theorem entry_holes (st : Status) (n : Nat) (rights : Vector Right 4) (k m : Bool) (slot : MapSlot) (gen : Word)
    (g : PageNo) : Volume.entry (.present (recalledRecord st n rights k m slot gen (Vector.replicate 64 .hole))) g =
      .hole := Vector.getElem_replicate _

theorem entry_image (st : Status) (n : Nat) (rights : Vector Right 4) (k m : Bool) (slot : MapSlot) (gen : Word)
    (es : Vector ImageEntry 64) (g : PageNo) :
    Volume.entry (.present (recalledRecord st n rights k m slot gen (tab fun g => recalledEntry es[g]))) g =
      recalledEntry es[g] := tab_get _ g

/-- The rebuild of one volume: its record, and the frames that join those accepted. -/
theorem recallVolume_rebuilt (retired : List FrameNo) (x : Rebuild) (v : VolumeNo) (d : Durable)
    {judge : ImageJudge} (hj : judgeImage = judge) :
    ∃ y, (recallVolume retired x v d).state.volumes = upd x.state.volumes v y ∧
      (recallVolume retired x v d).accepted = x.accepted ++ y.frames ∧
      RebuiltFrom judge x.state retired x.accepted v d y := by
  unfold recallVolume
  rw [hj]
  cases d with
  | absent =>
    refine ⟨.absent, rfl, by rw [frames_of_holes fun _ => rfl, List.append_nil], fun _ => rfl, fun _ _ _ _ _ _ h => ?_,
      fun _ _ _ _ _ _ h => ?_⟩ <;> cases h
  | kept st n rights k m slot gen =>
    cases m with
    | false =>
      refine ⟨_, rfl, by rw [frames_of_holes (entry_holes _ _ _ _ _ _ _), List.append_nil], fun h => ?_,
        fun _ _ _ _ _ _ h => ?_, fun _ _ _ _ _ _ h => ?_⟩ <;> cases h
      rw [recalledRecord_holes]
    | true =>
      have read : arrayFrame (recallFrame x.state (mapFrame v slot)) (mapFrame v slot) =
          cellFrame x.state (mapFrame v slot) := by
        rw [arrayFrame_recallFrame, if_pos rfl]
      dsimp only
      rw [read]
      cases ho : judge (cellFrame x.state (mapFrame v slot)) v gen n retired x.accepted with
      | none =>
        refine ⟨_, rfl, by rw [frames_of_holes (entry_holes _ _ _ _ _ _ _), List.append_nil], fun h => ?_,
          fun _ _ _ _ _ _ h => ?_, fun _ _ _ _ _ _ h => ?_⟩ <;> cases h
        refine ⟨fun _ => by rw [recalledRecord_holes], fun es h => ?_⟩
        rw [ho] at h
        cases h
      | some es =>
        refine ⟨_, rfl, ?_, fun h => ?_, fun _ _ _ _ _ _ h => ?_, fun _ _ _ _ _ _ h => ?_⟩
        · rw [frames_of_image (entry_image _ _ _ _ _ _ _ es)]
        · cases h
        · cases h
        · cases h
          refine ⟨fun h => ?_, fun es' h => ?_⟩
          · rw [ho] at h
            cases h
          · rw [ho] at h
            cases h
            exact ⟨_, rfl, fun g => tab_get _ g⟩

/-- The rebuild of one volume reads the cells and changes none, and of the working array only a map frame (R3). -/
theorem recallVolume_memories (retired : List FrameNo) (x : Rebuild) (v : VolumeNo) (d : Durable) :
    (recallVolume retired x v d).state.cells = x.state.cells ∧
    ∀ a, (∀ w m, ¬ inFrame (mapFrame w m) a) → arrayAt (recallVolume retired x v d).state a = arrayAt x.state a := by
  obtain ⟨y, e | ⟨slot, e⟩⟩ := recallVolume_state retired x v d rfl <;> rw [e]
  · exact ⟨rfl, fun _ _ => rfl⟩
  · exact ⟨rfl, fun a ha => arrayAt_writeFrame _ _ _ _ (ha v slot)⟩

/-! ### The rebuild of the volume table (R112) -/

section
variable (retired : List FrameNo) (durable : VolumeNo → Durable)

/-- The rebuild of the volumes of a list, one after the other. -/
def rebuildAll (l : List VolumeNo) (x : Rebuild) : Rebuild :=
  l.foldl (fun x v => recallVolume retired x v (durable v)) x

/-- A volume that is not of the list stays. -/
theorem rebuildAll_other (l : List VolumeNo) (x : Rebuild) (v : VolumeNo) (h : v ∉ l) :
    (rebuildAll retired durable l x).state.volumes[v] = x.state.volumes[v] := by
  induction l generalizing x with
  | nil => rfl
  | cons a l ih =>
    obtain ⟨y, hy, -⟩ := recallVolume_rebuilt retired x a (durable a) rfl
    refine (ih _ fun hm => h (List.mem_cons_of_mem _ hm)).trans ?_
    rw [hy, upd_get_ne _ _ _ _ fun e => h (by rw [← e]; exact List.mem_cons_self)]

theorem rebuildAll_memories (l : List VolumeNo) (x : Rebuild) :
    (rebuildAll retired durable l x).state.cells = x.state.cells ∧
    ∀ a, (∀ w m, ¬ inFrame (mapFrame w m) a) → arrayAt (rebuildAll retired durable l x).state a = arrayAt x.state a := by
  induction l generalizing x with
  | nil => exact ⟨rfl, fun _ _ => rfl⟩
  | cons v l ih =>
    obtain ⟨hc, ha⟩ := ih (recallVolume retired x v (durable v))
    obtain ⟨kc, ka⟩ := recallVolume_memories retired x v (durable v)
    exact ⟨hc.trans kc, fun a h => (ha a h).trans (ka a h)⟩

/-- The frames accepted are those of the volumes rebuilt, in the order of the list. -/
theorem rebuildAll_accepted (l : List VolumeNo) (x : Rebuild) (hl : l.Nodup) :
    (rebuildAll retired durable l x).accepted =
      x.accepted ++ l.flatMap fun v => Volume.frames (rebuildAll retired durable l x).state.volumes[v] := by
  induction l generalizing x with
  | nil => simp [rebuildAll]
  | cons v l ih =>
    obtain ⟨hv, hl⟩ := List.nodup_cons.1 hl
    obtain ⟨y, hy, ha, -⟩ := recallVolume_rebuilt retired x v (durable v) rfl
    have last : (rebuildAll retired durable l (recallVolume retired x v (durable v))).state.volumes[v] = y := by
      rw [rebuildAll_other retired durable l _ v hv, hy, upd_get_self]
    have rest := ih (recallVolume retired x v (durable v)) hl
    have unfolds : rebuildAll retired durable (v :: l) x =
      rebuildAll retired durable l (recallVolume retired x v (durable v)) := rfl
    rw [unfolds, List.flatMap_cons, last, ← List.append_assoc, ← ha]
    exact rest

/-- Each volume of the list is rebuilt against the frames of those before it. -/
theorem rebuildAll_rebuilt {l pre post : List VolumeNo} {v : VolumeNo} (x : Rebuild) (hl : l.Nodup)
    (e : l = pre ++ v :: post) (hx : x.accepted = []) {judge : ImageJudge} (hj : judgeImage = judge) :
    RebuiltFrom judge x.state retired
      (pre.flatMap fun w => Volume.frames (rebuildAll retired durable l x).state.volumes[w]) v (durable v)
      (rebuildAll retired durable l x).state.volumes[v] := by
  rw [e] at hl
  obtain ⟨hpre, hrest, apart⟩ := List.nodup_append.1 hl
  obtain ⟨hv, -⟩ := List.nodup_cons.1 hrest
  have whole : rebuildAll retired durable l x = rebuildAll retired durable post
      (recallVolume retired (rebuildAll retired durable pre x) v (durable v)) := by
    rw [e]
    exact List.foldl_append
  obtain ⟨y, hy, -, hr⟩ := recallVolume_rebuilt retired (rebuildAll retired durable pre x) v (durable v) hj
  have last : (rebuildAll retired durable l x).state.volumes[v] = y := by
    rw [whole, rebuildAll_other retired durable post _ v hv, hy, upd_get_self]
  have before : ∀ w ∈ pre, (rebuildAll retired durable l x).state.volumes[w] =
      (rebuildAll retired durable pre x).state.volumes[w] := fun w hw => by
    have hne : v ≠ w := fun h => apart w hw v List.mem_cons_self h.symm
    have hpost : w ∉ post := fun h => apart w hw w (List.mem_cons_of_mem _ h) rfl
    rw [whole, rebuildAll_other retired durable post _ w hpost, hy, upd_get_ne _ _ _ _ hne]
  have accepted : (rebuildAll retired durable pre x).accepted =
      pre.flatMap fun w => Volume.frames (rebuildAll retired durable l x).state.volumes[w] := by
    rw [rebuildAll_accepted retired durable pre x hpre, hx, List.nil_append]
    exact List.flatMap_congr fun w hw => by rw [before w hw]
  have cells : ∀ f, cellFrame (rebuildAll retired durable pre x).state f = cellFrame x.state f := fun f => by
    unfold cellFrame
    rw [(rebuildAll_memories retired durable pre x).1]
  rw [last, ← accepted]
  unfold RebuiltFrom at hr ⊢
  simpa only [cells] using hr

end

/-- A sorted list is cut before each of its items by the order. -/
theorem filter_lt_of_sorted {n : Nat} {l pre post : List (Fin n)} {v : Fin n} (h : l.Pairwise (· < ·))
    (e : l = pre ++ v :: post) : (l.filter fun w => decide (w < v)) = pre := by
  subst e
  obtain ⟨-, hrest, hlt⟩ := List.pairwise_append.1 h
  have low : pre.filter (fun w => decide (w < v)) = pre :=
    List.filter_eq_self.2 fun w hw => decide_eq_true (hlt w hw v List.mem_cons_self)
  have high : (v :: post).filter (fun w => decide (w < v)) = [] := by
    refine List.filter_eq_nil_iff.2 fun w hw => ?_
    rw [decide_eq_true_eq, not_lt]
    rcases List.mem_cons.1 hw with rfl | hw
    · exact le_rfl
    · exact ((List.pairwise_cons.1 hrest).1 w hw).le
  rw [List.filter_append, low, high, List.append_nil]

/-- Settles O51: the fold over the volumes is cut before each of them, and the frames accepted so far are those of the
volumes before. -/
theorem recallRebuildsVolumes : Obligations.RecallRebuildsVolumes := by
  intro s slot root hd hp hsel hroot
  have selected : recalledRoot s = some root := by
    unfold recalledRoot
    rw [hsel]
    exact hroot
  have run : exec .recallVolumeTable s = .next { recallVolumes s root with device := .recalling .pageChecks } := by
    refine congrArg Host.Outcome.next ((if_pos ((recallAt_iff s _).2 ⟨hd, hp⟩)).trans ?_)
    rw [selected]
  have fold : recallVolumes s root =
      (rebuildAll root.retired (fun v => root.volumes[v]) (ascending 16) ⟨s, []⟩).state := rfl
  refine ⟨_, run, ?_, fun x hx => ?_, fun v => ?_⟩
  · rw [recallVolumes_eq]
  · rw [fold]
    exact (rebuildAll_memories root.retired (fun v => root.volumes[v]) (ascending 16) ⟨s, []⟩).2 x hx
  · obtain ⟨pre, post, e⟩ := List.append_of_mem (mem_ascending v)
    have rebuilt := rebuildAll_rebuilt root.retired (fun v => root.volumes[v]) ⟨s, []⟩ (ascending_nodup 16) e rfl rfl
    rw [← fold, ← filter_lt_of_sorted (ascending_sorted 16) e] at rebuilt
    exact rebuilt

end Sys2Proof.Machine
end


section
/-! The bytes of a frame and its command, and the bits of a byte on the link (O54). -/

namespace Sys2Proof.Machine

/-! ### The command table as an encoding (R171) -/

theorem halfOf_halfBytes (h : Half) : halfOf (h.extractLsb' 8 8) (h.extractLsb' 0 8) = h := by
  apply BitVec.eq_of_getLsbD_eq
  intro i hi
  simp only [halfOf, BitVec.getLsbD_append, BitVec.getLsbD_extractLsb']
  split
  · next h8 => simp [h8]
  · next h8 => simp [show i - 8 < 8 by omega, show 8 + (i - 8) = i by omega]

theorem halfBytes_halfOf (hi lo : Byte) : halfBytes (halfOf hi lo) = [hi, lo] := by
  have high : (halfOf hi lo).extractLsb' 8 8 = hi := by
    apply BitVec.eq_of_getLsbD_eq
    intro i h
    simp only [halfOf, BitVec.getLsbD_extractLsb', BitVec.getLsbD_append, h, decide_true, Bool.true_and]
    rw [if_neg (by omega), Nat.add_sub_cancel_left]
  have low : (halfOf hi lo).extractLsb' 0 8 = lo := by
    apply BitVec.eq_of_getLsbD_eq
    intro i h
    simp only [halfOf, BitVec.getLsbD_extractLsb', BitVec.getLsbD_append, Nat.zero_add, h, decide_true, Bool.true_and,
      if_true]
  rw [halfBytes, high, low]

/-- The row of a command is read back from its argument bytes. -/
theorem rowOf_of_commandOf {i : Instr} {p : Port} {c : Command} {args : List Byte}
    (h : commandOf i = some (p, c, args)) : rowOf p c args = some i ∧ args.length = c.argCount := by
  cases i with
  | begin p x flag =>
    cases h
    exact ⟨congrArg (fun y => some (Instr.begin _ y flag)) (halfOf_halfBytes x), rfl⟩
  | read p w x =>
    cases h
    exact ⟨congrArg (fun y => some (Instr.read _ w y)) (halfOf_halfBytes x), rfl⟩
  | write p w x =>
    cases h
    exact ⟨congrArg (fun y => some (Instr.write _ w y)) (halfOf_halfBytes x), rfl⟩
  | configPort p t x k =>
    cases h
    exact ⟨congrArg (fun y => some (Instr.configPort _ t y k)) (halfOf_halfBytes x), rfl⟩
  | _ => cases h <;> exact ⟨rfl, rfl⟩

/-- What a list of as many bytes as a row takes is, for each number of bytes. -/
theorem row0_eq_some {f i : Instr} {l : List Byte} (h : row0 f l = some i) : l = [] ∧ f = i := by
  unfold row0 at h
  split at h <;> cases h
  exact ⟨rfl, rfl⟩

theorem row1_eq_some {f : Byte → Instr} {i : Instr} {l : List Byte} (h : row1 f l = some i) :
    ∃ a, l = [a] ∧ f a = i := by
  unfold row1 at h
  split at h <;> cases h
  exact ⟨_, rfl, rfl⟩

theorem row2_eq_some {f : Byte → Byte → Instr} {i : Instr} {l : List Byte} (h : row2 f l = some i) :
    ∃ a b, l = [a, b] ∧ f a b = i := by
  unfold row2 at h
  split at h <;> cases h
  exact ⟨_, _, rfl, rfl⟩

theorem row3_eq_some {f : Byte → Byte → Byte → Instr} {i : Instr} {l : List Byte} (h : row3 f l = some i) :
    ∃ a b c, l = [a, b, c] ∧ f a b c = i := by
  unfold row3 at h
  split at h <;> cases h
  exact ⟨_, _, _, rfl, rfl⟩

theorem row4_eq_some {f : Byte → Byte → Byte → Byte → Instr} {i : Instr} {l : List Byte} (h : row4 f l = some i) :
    ∃ a b c d, l = [a, b, c, d] ∧ f a b c d = i := by
  unfold row4 at h
  split at h <;> cases h
  exact ⟨_, _, _, _, rfl, rfl⟩

theorem row5_eq_some {f : Byte → Byte → Byte → Byte → Byte → Instr} {i : Instr} {l : List Byte}
    (h : row5 f l = some i) : ∃ a b c d e, l = [a, b, c, d, e] ∧ f a b c d e = i := by
  unfold row5 at h
  split at h <;> cases h
  exact ⟨_, _, _, _, _, rfl, rfl⟩

/-- Argument bytes that amount to a row are those of its command. -/
theorem commandOf_of_rowOf {i : Instr} {p : Port} {c : Command} {args : List Byte} (h : rowOf p c args = some i) :
    commandOf i = some (p, c, args) := by
  cases c with
  | touch | commit | abort | release | format | getResult | infoDevice =>
    obtain ⟨rfl, rfl⟩ := row0_eq_some h
    rfl
  | unbind | delete | freeze | lock | thaw | pin | unpin | configDevice | setAttn | infoVolume =>
    obtain ⟨a, rfl, rfl⟩ := row1_eq_some h
    rfl
  | punch | resize | setRights | infoPage =>
    obtain ⟨a, b, rfl, rfl⟩ := row2_eq_some h
    rfl
  | begin | read | write =>
    obtain ⟨a, b, c, rfl, rfl⟩ := row3_eq_some h
    simp only [commandOf, halfBytes_halfOf, List.cons_append, List.nil_append]
  | create =>
    obtain ⟨a, b, c, d, rfl, rfl⟩ := row4_eq_some h
    rfl
  | configPort =>
    obtain ⟨a, b, c, d, rfl, rfl⟩ := row4_eq_some h
    simp only [commandOf, halfBytes_halfOf, List.cons_append, List.nil_append]
  | bind =>
    obtain ⟨a, b, c, d, e, rfl, rfl⟩ := row5_eq_some h
    rfl

/-- As many bytes as the table gives a command always amount to a row. -/
theorem rowOf_total (p : Port) (c : Command) (args : List Byte) (h : args.length = c.argCount) :
    ∃ i, rowOf p c args = some i := by
  match args with
  | [] => cases c <;> first | exact ⟨_, rfl⟩ | cases h
  | [_] => cases c <;> first | exact ⟨_, rfl⟩ | cases h
  | [_, _] => cases c <;> first | exact ⟨_, rfl⟩ | cases h
  | [_, _, _] => cases c <;> first | exact ⟨_, rfl⟩ | cases h
  | [_, _, _, _] => cases c <;> first | exact ⟨_, rfl⟩ | cases h
  | [_, _, _, _, _] => cases c <;> first | exact ⟨_, rfl⟩ | cases h
  | _ :: _ :: _ :: _ :: _ :: _ :: _ =>
    cases c <;> simp [Command.argCount] at h

/-- Too few bytes amount to no row. -/
theorem rowOf_eq_none (p : Port) (c : Command) (args : List Byte) (h : args.length < c.argCount) :
    rowOf p c args = none := by
  cases hr : rowOf p c args with
  | none => rfl
  | some i => exact absurd (rowOf_of_commandOf (commandOf_of_rowOf hr)).2 (by omega)

theorem decodeFrame_code (p : Port) (c : Command) (args : List Byte) :
    decodeFrame p (c.code :: args) = rowOf p c args := by
  unfold decodeFrame
  simp only [decodeCommand_code]

theorem decodeFrame_eq_some {p : Port} {bytes : List Byte} {i : Instr} (h : decodeFrame p bytes = some i) :
    ∃ c args, bytes = Command.code c :: args ∧ commandOf i = some (p, c, args) := by
  unfold decodeFrame at h
  split at h
  · cases h
  · next b args =>
    split at h
    · next c hc => exact ⟨c, args, by rw [code_of_decodeCommand b c hc], commandOf_of_rowOf h⟩
    · cases h

/-! ### The row of a complete byte (R161, R166 to R168) -/

section
variable (x : PortContext) (p : Port) (b : Byte)

theorem byteRow_command {i : Instr} (hf : x.frame.phase = .command) (h : decodeFrame p [b] = some i) :
    x.byteRow p b = i := by
  simp only [PortContext.byteRow, hf, h]

theorem byteRow_command_awaits (hf : x.frame.phase = .command) (h : decodeFrame p [b] = none) :
    x.byteRow p b = if takesArguments b then .commandByteComplete p b else .unknownCommand p b := by
  simp only [PortContext.byteRow, hf, h]

theorem byteRow_arguments {c : Command} (hf : x.frame.phase = .arguments) (hc : x.frame.command = some c.code) :
    x.byteRow p b = (rowOf p c (x.frame.arguments ++ [b])).getD (.argumentByte p b) := by
  simp only [PortContext.byteRow, hf, hc, Option.bind_some, decodeFrame_code]
  cases rowOf p c (x.frame.arguments ++ [b]) <;> rfl

theorem byteRow_ignored (hf : x.frame.phase = .ignoring ∨ x.frame.phase = .notReady) :
    x.byteRow p b = .argumentByte p b := by
  rcases hf with hf | hf <;> simp only [PortContext.byteRow, hf]

theorem byteRow_write (hf : x.frame.phase = .data) {y : Burst} (hb : x.burst = some y) (hk : y.kind = .write) :
    x.byteRow p b = .writeDataByte p b := by
  simp only [PortContext.byteRow, hf, hb, hk, if_true]

theorem byteRow_read (hf : x.frame.phase = .data) (hb : ∀ y, x.burst = some y → y.kind = .read) :
    x.byteRow p b = .readDataByte p := by
  simp only [PortContext.byteRow, hf]
  cases h : x.burst with
  | none => rfl
  | some y => simp [hb y h]

/-- The row of a byte reads the frame's phase, command and arguments, and the burst. -/
theorem byteRow_congr {y : PortContext} (hf : y.frame.phase = x.frame.phase) (hc : y.frame.command = x.frame.command)
    (ha : y.frame.arguments = x.frame.arguments) (hb : y.burst = x.burst) : y.byteRow p b = x.byteRow p b := by
  simp only [PortContext.byteRow, hf, hc, ha, hb]

/-- The rows of the bytes of a frame that are not the last of a command. -/
theorem byteRow_of_phase :
    (x.frame.phase = .command → decodeCommand b = none → x.byteRow p b = .unknownCommand p b) ∧
    (∀ c : Command, x.frame.phase = .command → decodeCommand b = some c → 0 < c.argCount →
      x.byteRow p b = .commandByteComplete p b) ∧
    (∀ c : Command, x.frame.phase = .arguments → x.frame.command = some c.code →
      x.frame.arguments.length + 1 < c.argCount → x.byteRow p b = .argumentByte p b) ∧
    (x.frame.phase = .data → (∃ y, x.burst = some y ∧ y.kind = .write) → x.byteRow p b = .writeDataByte p b) ∧
    (x.frame.phase = .data → (∀ y, x.burst = some y → y.kind = .read) → x.byteRow p b = .readDataByte p) ∧
    (x.frame.phase = .ignoring ∨ x.frame.phase = .notReady → x.byteRow p b = .argumentByte p b) := by
  refine ⟨fun hf hb => ?_, fun c hf hb hc => ?_, fun c hf hc hn => ?_, fun hf ⟨y, hb, hk⟩ => byteRow_write x p b hf hb hk,
    byteRow_read x p b, byteRow_ignored x p b⟩
  · rw [byteRow_command_awaits x p b hf (by simp only [decodeFrame, hb])]
    simp [takesArguments, hb]
  · obtain rfl := code_of_decodeCommand b c hb
    rw [byteRow_command_awaits x p _ hf ((decodeFrame_code p c []).trans (rowOf_eq_none p c [] hc)),
      if_pos (takesArguments_code c hc)]
  · rw [byteRow_arguments x p b hf hc, rowOf_eq_none p c _ (by rw [List.length_append]; exact hn)]
    rfl

end

/-! ### The edges of a byte (R162) -/

/-- The rising edges of several bits leave the frame but for the clock, the bits sampled, their count and the bit
shown. -/
theorem foldl_rise_eq (bits : List Bool) (f : FrameRecord) : bits.foldl FrameRecord.rise f = { f with
    bitCount := (bits.foldl FrameRecord.rise f).bitCount, clock := (bits.foldl FrameRecord.rise f).clock
    sampled := (bits.foldl FrameRecord.rise f).sampled, shown := (bits.foldl FrameRecord.rise f).shown } := by
  induction bits generalizing f with
  | nil => rfl
  | cons bit bits ih =>
    rw [List.foldl_cons, ih]
    rfl

theorem foldl_rise_sampled (bits : List Bool) (f : FrameRecord) :
    (bits.foldl FrameRecord.rise f).sampled = bits.foldl shiftIn f.sampled := by
  induction bits generalizing f with
  | nil => rfl
  | cons bit bits ih => exact ih (f.rise bit)

theorem foldl_rise_bitCount (bits : List Bool) (f : FrameRecord) :
    (bits.foldl FrameRecord.rise f).bitCount.val = (f.bitCount.val + bits.length) % 8 := by
  induction bits generalizing f with
  | nil => exact (Nat.mod_eq_of_lt f.bitCount.isLt).symm
  | cons bit bits ih =>
    have next : (f.rise bit).bitCount.val = (f.bitCount.val + 1) % 8 := by
      rw [FrameRecord.rise_bitCount, Fin.val_add]
      rfl
    rw [List.foldl_cons, ih, next, List.length_cons]
    omega

theorem msbFirst_getElem? (b : Byte) (k : Nat) (h : k < 8) : (msbFirst b)[k]? = some (b.getLsbD (7 - k)) := by
  have hk : k = 0 ∨ k = 1 ∨ k = 2 ∨ k = 3 ∨ k = 4 ∨ k = 5 ∨ k = 6 ∨ k = 7 := by omega
  rcases hk with rfl | rfl | rfl | rfl | rfl | rfl | rfl | rfl <;> rfl

/-- The output bits from position `k` on. -/
theorem drop_msbFirst (b : Byte) (k : Nat) (h : k < 8) :
    (msbFirst b).drop k = b.getLsbD (7 - k) :: (msbFirst b).drop (k + 1) :=
  List.drop_eq_getElem?_toList_append.trans (by rw [msbFirst_getElem? b k h]; rfl)

section
variable (p : Port)

/-- The state with port `p`'s frame replaced. -/
theorem modFrame_modFrame (s : State) (f g : FrameRecord → FrameRecord) :
    (s.modFrame p f).modFrame p g = s.setPort p { s.ports[p] with frame := g (f s.ports[p].frame) } := by
  simp only [State.modFrame, State.modPort, setPort_setPort, setPort_ports_self]

/-- One bit taken within a byte. -/
theorem clockRise_clockFall_within (s : State) (bit : Bool) (h : s.ports[p].frame.phase ≠ .noFrame)
    (hn : s.ports[p].frame.bitCount ≠ 7) : clockRise p bit (clockFall p s) =
      .next (s.setPort p { s.ports[p] with frame := s.ports[p].frame.rise bit }) := by
  rw [clockFall_frame s p h]
  have frame : (s.modFrame p fun f => { f with clock := false }).ports[p].frame =
      { s.ports[p].frame with clock := false } := by simp
  rw [clockRise_within _ p bit (by rw [frame]; exact h) (by rw [frame]) (by rw [frame]; exact hn), modFrame_modFrame]
  rfl

/-- The eighth bit of a byte. -/
theorem clockRise_clockFall_completes (s : State) (bit : Bool) (h : s.ports[p].frame.phase ≠ .noFrame)
    (hn : s.ports[p].frame.bitCount = 7) : clockRise p bit (clockFall p s) =
      exec (s.ports[p].byteRow p (shiftIn s.ports[p].frame.sampled bit))
        (s.setPort p { s.ports[p] with frame := s.ports[p].frame.rise bit }) := by
  rw [clockFall_frame s p h]
  have frame : (s.modFrame p fun f => { f with clock := false }).ports[p].frame =
      { s.ports[p].frame with clock := false } := by simp
  rw [clockRise_completes _ p bit (by rw [frame]; exact h) (by rw [frame]) (by rw [frame]; exact hn), modFrame_modFrame,
    frame, setPort_ports_self]
  congr 1

/-- The level that a falling edge leaves on the line: the output bit of the position in progress. -/
theorem lineLevel_clockFall (s : State) (h : s.ports[p].frame.phase ≠ .noFrame) :
    lineLevel (clockFall p s) p = .driven s.ports[p].frame.outputBit := by
  rw [clockFall_frame s p h]
  have frame : (s.modFrame p fun f => { f with clock := false }).ports[p].frame =
      { s.ports[p].frame with clock := false } := by simp
  rw [lineLevel_low _ p (by rw [frame]; exact h) (by rw [frame]), frame]
  rfl

/-- Bits that do not fill a byte: the host samples the output bits, and the frame alone changes. -/
theorem clockBits_within (bits : List Bool) (s : State) (h : s.ports[p].frame.phase ≠ .noFrame)
    (hn : s.ports[p].frame.bitCount.val + bits.length ≤ 7) : clockBits p bits s =
      ((((msbFirst s.ports[p].frame.output).drop s.ports[p].frame.bitCount.val).take bits.length).map .driven,
        .next (s.setPort p { s.ports[p] with frame := bits.foldl FrameRecord.rise s.ports[p].frame })) := by
  induction bits generalizing s with
  | nil =>
    rw [List.foldl_nil, setPort_self]
    rfl
  | cons bit bits ih =>
    rw [List.length_cons] at hn
    have hne : s.ports[p].frame.bitCount ≠ 7 := fun e => by
      rw [e] at hn
      have : (7 : Fin 8).val = 7 := rfl
      omega
    have port := setPort_ports_self s p { s.ports[p] with frame := s.ports[p].frame.rise bit }
    have count : (s.ports[p].frame.rise bit).bitCount.val = s.ports[p].frame.bitCount.val + 1 := by
      rw [FrameRecord.rise_bitCount, Fin.val_add]
      exact Nat.mod_eq_of_lt (by omega)
    have rest := ih (s.setPort p { s.ports[p] with frame := s.ports[p].frame.rise bit })
      (by rw [port]; exact h) (by rw [port]; simp only [count]; omega)
    rw [port] at rest
    simp only [count, FrameRecord.rise_output, setPort_setPort] at rest
    simp only [clockBits, clockRise_clockFall_within p s bit h hne, rest, lineLevel_clockFall p s h, List.length_cons,
      List.foldl_cons]
    rw [drop_msbFirst _ _ s.ports[p].frame.bitCount.isLt]
    rfl

theorem clockBits_cons (bit : Bool) (rest : List Bool) (s u : State)
    (h : clockRise p bit (clockFall p s) = .next u) : clockBits p (bit :: rest) s =
      (lineLevel (clockFall p s) p :: (clockBits p rest u).1, (clockBits p rest u).2) := by
  simp only [clockBits, h]

theorem clockBits_append (a b : List Bool) (s t : State) (l : List LineLevel) (h : clockBits p a s = (l, .next t)) :
    clockBits p (a ++ b) s = (l ++ (clockBits p b t).1, (clockBits p b t).2) := by
  induction a generalizing s l with
  | nil =>
    cases h
    rfl
  | cons bit a ih =>
    cases hu : clockRise p bit (clockFall p s) with
    | next u =>
      rw [clockBits_cons p bit a s u hu] at h
      obtain ⟨hl, ht⟩ := Prod.mk.inj h
      rw [List.cons_append, clockBits_cons p bit (a ++ b) s u hu, ih u _ (Prod.ext rfl ht), ← hl]
      rfl
    | _ =>
      simp only [clockBits, hu] at h
      cases h

theorem clockBits_single (bit : Bool) (s : State) :
    clockBits p [bit] s = ([lineLevel (clockFall p s) p], clockRise p bit (clockFall p s)) := by
  cases hu : clockRise p bit (clockFall p s) with
  | next u => rw [clockBits_cons p bit [] s u hu]; rfl
  | _ => simp only [clockBits, hu]

/-- A whole byte: the host samples the byte fixed for the position, and the eighth rising edge runs the row of the
byte shifted in. -/
theorem clockBits_msbFirst (s : State) (b : Byte) (h : s.ports[p].frame.phase ≠ .noFrame)
    (hn : s.ports[p].frame.bitCount = 0) : clockBits p (msbFirst b) s =
      ((msbFirst s.ports[p].frame.output).map .driven,
        exec (s.ports[p].byteRow p b) (s.setPort p { s.ports[p] with
          frame := { s.ports[p].frame with
            clock := true, sampled := b, shown := some (s.ports[p].frame.output.getLsbD 0) } })) := by
  obtain ⟨seven, last, hb, h7⟩ : ∃ seven last, msbFirst b = seven ++ [last] ∧ seven.length = 7 :=
    ⟨[b.getLsbD 7, b.getLsbD 6, b.getLsbD 5, b.getLsbD 4, b.getLsbD 3, b.getLsbD 2, b.getLsbD 1], b.getLsbD 0, rfl, rfl⟩
  have first := clockBits_within p seven s h (by rw [hn, h7]; exact Nat.le_refl 7)
  have shifted : (seven ++ [last]).foldl shiftIn s.ports[p].frame.sampled = b := by
    rw [← hb]
    exact foldl_shiftIn_msbFirst _ b
  have same := foldl_rise_eq seven s.ports[p].frame
  have sampled := foldl_rise_sampled seven s.ports[p].frame
  have count : (seven.foldl FrameRecord.rise s.ports[p].frame).bitCount = 7 :=
    Fin.ext (by rw [foldl_rise_bitCount, hn, h7]; rfl)
  generalize seven.foldl FrameRecord.rise s.ports[p].frame = f at first same sampled count
  rw [List.foldl_append, ← sampled] at shifted
  have phase : f.phase ≠ .noFrame := by rw [same]; exact h
  have output : f.outputBit = s.ports[p].frame.output.getLsbD 0 := by
    unfold FrameRecord.outputBit
    rw [count, same]
    rfl
  have byte : shiftIn f.sampled last = b := shifted
  have zero : f.bitCount + 1 = s.ports[p].frame.bitCount := by rw [count, hn]; rfl
  have final : f.rise last = { s.ports[p].frame with
      clock := true, sampled := b, shown := some (s.ports[p].frame.output.getLsbD 0) } := by
    unfold FrameRecord.rise
    rw [output, byte, zero, same]
  have eighth := clockRise_clockFall_completes p (s.setPort p { s.ports[p] with frame := f }) last
  rw [setPort_ports_self, setPort_setPort] at eighth
  rw [hb, clockBits_append p seven [last] s _ _ first, clockBits_single, lineLevel_clockFall p _ (by
    rw [setPort_ports_self]; exact phase), setPort_ports_self, output, eighth phase count]
  refine Prod.ext ?_ ?_
  · rw [h7, hn]
    rfl
  · rw [final, byte]
    exact congrArg (exec · _) (byteRow_congr s.ports[p] p b (by rw [same]) (by rw [same]) (by rw [same]) rfl)

/-- A byte that select rise cuts short changes the frame's edges alone, and select rise does what it would have done
without its bits (R169). -/
theorem cutByte (s : State) (h : s.ports[p].frame.phase ≠ .noFrame) (hn : s.ports[p].frame.bitCount = 0)
    (bits : List Bool) (n : Fin 8) (hl : bits.length = n.val) :
    ∃ t, clockBits p bits s = (((msbFirst s.ports[p].frame.output).take n).map .driven, .next t) ∧
      (∃ f : FrameRecord, t = s.setPort p { s.ports[p] with frame := f } ∧
        f = { s.ports[p].frame with
          bitCount := n, clock := f.clock, sampled := f.sampled, shown := f.shown }) ∧
      lineLevel (clockFall p t) p = .driven (s.ports[p].frame.output.getLsbD (7 - n.val)) ∧
      (∀ bit u, n.val < 7 → clockRise p bit (clockFall p t) = .next u →
        lineLevel u p = lineLevel (clockFall p t) p) ∧
      exec (.selectRise p) t = exec (.selectRise p) s := by
  have zero : s.ports[p].frame.bitCount.val = 0 := by rw [hn]; rfl
  have run := clockBits_within p bits s h (by rw [zero, hl]; omega)
  have same := foldl_rise_eq bits s.ports[p].frame
  have count : (bits.foldl FrameRecord.rise s.ports[p].frame).bitCount = n :=
    Fin.ext (by rw [foldl_rise_bitCount, zero, hl, Nat.zero_add, Nat.mod_eq_of_lt n.isLt])
  generalize bits.foldl FrameRecord.rise s.ports[p].frame = f at run same count
  rw [zero, hl, List.drop_zero] at run
  rw [count] at same
  have port := setPort_ports_self s p { s.ports[p] with frame := f }
  have phase : f.phase ≠ .noFrame := by rw [same]; exact h
  have outcome : f.outcome = s.ports[p].frame.outcome := by rw [same]; rfl
  have bit : f.outputBit = s.ports[p].frame.output.getLsbD (7 - n.val) := by
    unfold FrameRecord.outputBit
    rw [count, same]
  have low := lineLevel_clockFall p (s.setPort p { s.ports[p] with frame := f }) (by rw [port]; exact phase)
  rw [port] at low
  refine ⟨_, run, ⟨f, rfl, same⟩, low.trans (congrArg _ bit), fun b u hlt hu => ?_, ?_⟩
  · have hne : f.bitCount ≠ 7 := fun e => by
      rw [show n = 7 from count.symm.trans e] at hlt
      exact absurd hlt (Nat.lt_irrefl 7)
    rw [clockRise_clockFall_within p _ b (by rw [port]; exact phase) (by rw [port]; exact hne), port] at hu
    cases hu
    rw [low]
    refine lineLevel_high _ p _ ?_ ?_ ?_ <;> rw [setPort_ports_self]
    · exact phase
    · rfl
    · rfl
  · simp only [exec, execSelectRise, port, phase, h, if_false, State.modPort, setPort_setPort, outcome]

/-- The first output bit of a frame, by its clock mode (R162, R163). -/
theorem firstOutputBit (high : Bool) (s : State) (hf : s.ports[p].frame.phase = .noFrame) (hd : s.device ≠ .off) :
    ∃ t, exec (.selectFall p high) s = .next t ∧
      (t.ports[p].frame.clockMode = .mode0 → lineLevel t p = .driven ((statusByte s p).getLsbD 7)) ∧
      (t.ports[p].frame.clockMode = .mode3 → lineLevel t p = .unstated) ∧
      lineLevel (clockFall p t) p = .driven ((statusByte s p).getLsbD 7) := by
  have port := setPort_ports_self s p { s.ports[p] with frame := .fallen high (statusByte s p) (ready s) }
  have phase : (FrameRecord.fallen high (statusByte s p) (ready s)).phase ≠ .noFrame := by
    unfold FrameRecord.fallen
    cases ready s <;> simp
  refine ⟨_, exec_selectFall_of_noFrame p high s hf hd, fun hm => ?_, fun hm => ?_, ?_⟩
  · rw [port] at hm
    cases high with
    | true => cases hm
    | false => rw [lineLevel_low _ p (by rw [port]; exact phase) (by rw [port]; rfl), port]; rfl
  · rw [port] at hm
    cases high with
    | true =>
      simp only [lineLevel, port, phase, if_false]
      rfl
    | false => cases hm
  · rw [lineLevel_clockFall p _ (by rw [port]; exact phase), port]
    rfl

end

/-- Settles O54: the command table is an encoding; the rest goes byte by byte and bit by bit. -/
theorem frameBytesReadBack : Obligations.FrameBytesReadBack := by
  refine ⟨fun i p c args h => ?_, fun p bytes i h => ?_, fun p c bytes h => ?_, fun x p b => byteRow_of_phase x p b,
    fun p s => ⟨?_, fun h => ⟨clockFall_released s p h, fun bit => clockRise_released s p bit h⟩⟩,
    fun p high s hf hd => ?_, fun p s hf hn => ⟨fun b => clockBits_msbFirst p s b hf hn, fun bits n hl => ?_⟩⟩
  · obtain ⟨row, len⟩ := rowOf_of_commandOf h
    have decodes : decodeFrame p (c.code :: args) = some i := (decodeFrame_code p c args).trans row
    refine ⟨len, by rw [encodeFrame, h]; rfl, decodes, fun x => ⟨fun ha hp => ?_, fun kept b ha hp hc hk => ?_⟩⟩
    · subst ha
      exact byteRow_command x p c.code hp decodes
    · rw [byteRow_arguments x p b hp hc, hk, ← ha, row]
      rfl
  · obtain ⟨c, args, rfl, hc⟩ := decodeFrame_eq_some h
    rw [encodeFrame, hc]
    rfl
  · obtain ⟨i, hi⟩ := rowOf_total p c bytes h
    exact ⟨i, (decodeFrame_code p c bytes).trans hi⟩
  · rw [lineLevel_released, dataOut_eq_none]
  · exact firstOutputBit p high s hf hd
  · exact cutByte p s hf hn bits n hl

end Sys2Proof.Machine
end
